-- ==== Sys2Proof/Word.lean ====
section
/-! DEFINITION. The block's word types (00_scope.md R9). Every quantity is unsigned (R10); sizing arithmetic is
on Nat (43_pixel_packing.md R237) and only wire words, addresses and register contents are bit vectors. -/

namespace Sys2Proof

/-- An 8-bit byte: a unit of SRC and of the wire (20_memory.md R60). -/
abbrev Byte := BitVec 8

/-- A 16-bit word: every wire word, command code, register address and value, and geometry argument (R9). -/
abbrev Word := BitVec 16

/-- A 32-bit image-memory or SRC byte address (R9). -/
abbrev Addr := BitVec 32

end Sys2Proof
end

