-- ==== Sys2Proof/Config.lean ====
section
/-! DEFINITION. The configuration parameters of the block (00_scope.md R7, R8; 10_state.md R38, R39) as plain data,
and the free values: constants with no body, of which nothing can be proved (log 5, 7, 9, 10). The reference
configuration REFCFG and the legality check stand in Machine/Configuration.lean. -/

namespace Sys2Proof

/-- The bit depth of a load or refresh: one of 1, 2, 4, 8 (00_scope.md R19; 43_pixel_packing.md R220). -/
inductive Depth where
  | d1 | d2 | d4 | d8
  deriving DecidableEq, Repr

/-- The chip pixel format sent in the format word: 2, 4 or 8 bpp; no 1-bpp code exists (R93, R103, 90_conflicts.md C7). -/
inductive ChipFormat where
  | p2 | p4 | p8
  deriving DecidableEq, Repr

/-- The endianness tag of a load (30_encoding.md R93). -/
inductive Endian where
  | little | big
  deriving DecidableEq, Repr

/-- A rotation: 0, 1, 2, 3 for 0, 90, 180 and 270 degrees (30_encoding.md R93). -/
abbrev Rotation := BitVec 2

/-- `PAIR_ORDER`: which source byte of a pair is a word's high byte (20_memory.md R66). -/
inductive PairOrder where
  | firstHigh | firstLow
  deriving DecidableEq, Repr

/-- `ROW_ALIGN_POLICY` (43_pixel_packing.md R224). -/
inductive RowAlignPolicy where
  | reject | truncate
  deriving DecidableEq, Repr

/-- `ARG_FRAMING` (40_frame_preambler.md R136). -/
inductive ArgFraming where
  | perWord | multi
  deriving DecidableEq, Repr

/-- `VCOM_ACCESS` (41_device_session.md R179). -/
inductive VcomAccess where
  | register (addr : Word)
  | command (code : Word)
  deriving DecidableEq, Repr

/-- One answer of `REFRESH_MAP`: the waveform mode, the fgbg word and whether to wait (44_display.md R272). -/
structure RefreshChoice where
  mode : Word
  fgbg : Word
  wait : Bool
  deriving DecidableEq, Repr

/-- `FmtWord` as a table: endianness, then chip pixel format, then rotation. Every total function of the three
is one such table (10_state.md R38, R39; log 13). -/
abbrev FmtTable := Vector (Vector (Vector Word 4) 3) 2

/-- `REFRESH_MAP = some f` as a table: depth, then HOLD, then PACKED (44_display.md R272; log 13). -/
abbrev RefreshTable := Vector (Vector (Vector RefreshChoice 2) 2) 4

/-- The configuration parameters of R7 and R8: the block's read-only control registers (10_state.md R38, R39). -/
structure Config where
  /-- `T_ROWS`, rows of a full telegram. -/
  tRows : Nat
  /-- `B_WORDS`, words of a full burst. -/
  bWords : Nat
  cmdSysRun : Word
  cmdStandby : Word
  cmdSleep : Word
  cmdRegRd : Word
  cmdRegWr : Word
  cmdLdImg : Word
  cmdLdImgArea : Word
  cmdLdImgEnd : Word
  cmdDpyArea : Word
  cmdDpyBufArea : Word
  cmdGetDevInfo : Word
  regPackedCtrl : Word
  packedEnableValue : Word
  regAddrLo : Word
  regAddrHi : Word
  regCtrlHi : Word
  regBlend : Word
  regRenderStatus : Word
  /-- `RENDER_BUSY_MASK`: bit i set means bit i of the render status is a busy bit (R39). -/
  renderBusyMask : Word
  vcomAccess : VcomAccess
  /-- `FmtWord` (R103). -/
  fmtTable : FmtTable
  /-- `BlendWord`, as the pairs (fg:bg, word) at which it differs from fg:bg; the first pair of a key counts.
  Every total function of two bytes is one such list (log 13). -/
  blendExceptions : List (Word × Word)
  /-- `VERSION_WORDS`, words of each version field (R28). -/
  versionWords : Nat
  busyIdleLevel : BitVec 1
  /-- `POLL_LIMIT`: `none` is the reference design, which hangs (R131). -/
  pollLimit : Option Nat
  /-- `RENDER_POLL_LIMIT` (R266). -/
  renderPollLimit : Option Nat
  interBurstDelayMs : Nat
  clearFill : Byte
  pairOrder : PairOrder
  rowAlign : RowAlignPolicy
  argFraming : ArgFraming
  /-- `REFRESH_MAP` (R272). -/
  refreshMap : Option RefreshTable
  /-- `SRC_SIZE`, the size in bytes of the host's source buffer space (R61). -/
  srcSize : BitVec 32
  deriving DecidableEq, Repr

/-- FREE VALUE (log 5): the byte the chip answers at the `n`-th `RxByte` past its queue (R17: "free draws"). -/
opaque Config.freeRx : Nat → Byte

/-- FREE VALUE (log 5): the `n`-th allocation outcome past the queue (60_exceptions.md R306). -/
opaque Config.freeAlloc : Nat → Bool

/-- FREE VALUE (log 7): how many busy samples the chip answers before idle, in the `n`-th busy-wait past its queue. -/
opaque Config.freeBusyRun : Nat → Nat

/-- FREE VALUE (log 9): how many further readings an unbounded render poll goes on past the chip's queue. -/
opaque Config.freeRenderPolls : Nat → Nat

/-- FREE VALUE (log 10): `REG_VCOM`, "OPEN, no value" in REFCFG (00_scope.md R8). -/
opaque Config.openRegVcom : Word

/-- FREE VALUE (log 10): `INTER_BURST_DELAY_MS`, OPEN, with no REFCFG number (00_scope.md R8). -/
opaque Config.openInterBurstDelayMs : Nat

end Sys2Proof
end

