-- ==== Sys2Proof/Machine/Configuration.lean ====
section
/-! DEFINITION. The reference configuration REFCFG (00_scope.md R7, R8) and the legality check of a configuration
(10_state.md R38). The command codes, register addresses and code tables of REFCFG are the spec's general
knowledge, not its source's (93_implementation_defined.md section 2; log 11). -/

namespace Sys2Proof.Machine

/-- REFCFG's `ENDIAN_CODE`: LITTLE 0, BIG 1 (R103). -/
def refEndianCode : Endian → BitVec 1
  | .little => 0
  | .big => 1

/-- REFCFG's `PF_CODE`: 2 to 0, 4 to 2, 8 to 3 (R103). -/
def refPfCode : ChipFormat → BitVec 4
  | .p2 => 0
  | .p4 => 2
  | .p8 => 3

/-- REFCFG's `ROT_CODE`: the identity on 0 to 3 (R103). -/
def refRotCode (r : Rotation) : BitVec 2 := r

/-- One format word from its three codes: [8] endianness, [7:4] pixel format, [1:0] rotation (R39, R103). -/
def fmtOfCodes (e : BitVec 1) (p : BitVec 4) (r : BitVec 2) : Word :=
  (e.setWidth 16 <<< 8) ||| (p.setWidth 16 <<< 4) ||| r.setWidth 16

/-- The format table made from code functions. -/
def fmtTableOf (ec : Endian → BitVec 1) (pc : ChipFormat → BitVec 4) (rc : Rotation → BitVec 2) : FmtTable :=
  let word := fun e p r => fmtOfCodes (ec e) (pc p) (rc r)
  let perRot := fun e p => #v[word e p 0, word e p 1, word e p 2, word e p 3]
  let perFmt := fun e => #v[perRot e .p2, perRot e .p4, perRot e .p8]
  #v[perFmt .little, perFmt .big]

/-- REFCFG (R7, R8), with `REG_VCOM` and `INTER_BURST_DELAY_MS` left open (log 10) and no source buffer (log 3). -/
def refConfig : Config where
  tRows := 100
  bWords := 8190
  cmdSysRun := 0x0001
  cmdStandby := 0x0002
  cmdSleep := 0x0003
  cmdRegRd := 0x0010
  cmdRegWr := 0x0011
  cmdLdImg := 0x0020
  cmdLdImgArea := 0x0021
  cmdLdImgEnd := 0x0022
  cmdDpyArea := 0x0034
  cmdDpyBufArea := 0x0037
  cmdGetDevInfo := 0x0302
  regPackedCtrl := 0x0004
  packedEnableValue := 0x0001
  regAddrLo := 0x0208
  regAddrHi := 0x020A
  regCtrlHi := 0x113A
  regBlend := 0x1250
  regRenderStatus := 0x1224
  renderBusyMask := 0xFFFF
  vcomAccess := .register Config.openRegVcom
  fmtTable := fmtTableOf refEndianCode refPfCode refRotCode
  blendExceptions := []
  versionWords := 8
  busyIdleLevel := 1
  pollLimit := none
  renderPollLimit := none
  interBurstDelayMs := Config.openInterBurstDelayMs
  clearFill := 0xFF
  pairOrder := .firstHigh
  rowAlign := .reject
  argFraming := .perWord
  refreshMap := none
  srcSize := 0

/-- The eleven `CMD_*` codes (R38). -/
def commandCodes (c : Config) : List Word :=
  [c.cmdSysRun, c.cmdStandby, c.cmdSleep, c.cmdRegRd, c.cmdRegWr, c.cmdLdImg, c.cmdLdImgArea, c.cmdLdImgEnd,
   c.cmdDpyArea, c.cmdDpyBufArea, c.cmdGetDevInfo]

/-- No word stands twice in the list. -/
def allDistinct : List Word → Bool
  | [] => true
  | w :: ws => !ws.contains w && allDistinct ws

/-- A poll limit is `none` or at least 1 (R38). -/
def limitLegal : Option Nat → Bool
  | none => true
  | some n => decide (1 ≤ n)

/-- The number of words of the descriptor read, `4 + 2*VERSION_WORDS` (R104). -/
def descWords (c : Config) : Nat := 4 + 2 * c.versionWords

/-- The legal configurations (R38). The enumerations, the totality of `FmtWord` and `BlendWord` and the range of
`BUSY_IDLE_LEVEL` hold by their types. -/
def configLegal (c : Config) : Bool :=
  decide (1 ≤ c.tRows) && decide (1 ≤ c.bWords) && limitLegal c.pollLimit && limitLegal c.renderPollLimit
    && allDistinct (commandCodes c) && decide (descWords c ≤ c.bWords)

end Sys2Proof.Machine
end

