-- ==== Sys2Proof/Machine/State.lean ====
section
/-! DEFINITION. The machine's state as plain data: the state record of 10_state.md R20, the control registers of R38
(the configuration), the launch inputs (program, SRC) and the chip's oracle answers; the ways a step can stop; and
the state after block reset (70_reset_and_hazards.md R340). -/

namespace Sys2Proof.Machine

/-- The wire events (00_scope.md R13, 10_state.md R36). -/
inductive Event where
  | sel
  | rel
  | tx (b : Byte)
  | rx (b : Byte)
  | poll (s : BitVec 1)
  | delay (ms : Nat)
  | rst (l : BitVec 1)
  deriving DecidableEq, Repr

/-- `SESSION` (10_state.md R26). -/
inductive Session where
  | unready | ready
  deriving DecidableEq, Repr

/-- `DESC`, the device-descriptor register file (10_state.md R27, R28). -/
structure Descriptor where
  panelW : Word
  panelH : Word
  imgAddr : Addr
  fwVer : List Byte
  lutVer : List Byte
  deriving DecidableEq, Repr

/-- The chip's answer to one busy-wait, as far as the block can see it: how many busy samples come before the
first idle one, or that none ever comes (40_frame_preambler.md R131; log 6). -/
inductive BusyRun where
  | idleAfter (busy : Nat)
  | never
  deriving DecidableEq, Repr

/-- The oracle draws (00_scope.md R13, R17; 60_exceptions.md R306): queues of the next answers, and how many free
values have been drawn past each queue (log 4, 5, 7, 9). Not state of the block; a statement about every state is
a statement about every oracle. -/
structure Oracle where
  waits : List BusyRun
  rx : List Byte
  alloc : List Bool
  freeWaits : Nat
  freeRx : Nat
  freeAllocs : Nat
  freeRenders : Nat
  deriving DecidableEq, Repr

/-- SRC, the host's source buffer space: (address, byte) pairs, addresses strictly rising, no entry equal to what
an unlisted address reads as (20_memory.md R60, R61; the operations stand in Machine/Memory.lean). -/
abbrev Memory := List Host.Cell

/-- The errors a host operation can raise (60_exceptions.md R300). -/
inductive ErrKind where
  | hwTimeout | protocolMisuse | allocFail | invalidGeometry | deviceAbsent | srcBounds | unsupported
  deriving DecidableEq, Repr

/-- Where a step stops for good. -/
inductive Fault where
  /-- Raised by a busy-wait whose line never reads idle under `POLL_LIMIT = none`: the operation never completes
  (R131, R313). Safe: the spec gives no end state. -/
  | busyHang
  /-- Raised by a render poll that sees no idle reading under `RENDER_POLL_LIMIT = none` (R266, R313; log 9).
  Safe: the spec gives no end state. -/
  | renderHang
  /-- Raised by a geometry check with SESSION = READY and DESC = none, which R26's invariant excludes (log 16).
  Safe: no run reaches it. -/
  | noDescriptor
  /-- Raised by the host reading RDATA while it is none, "a fault of the observation" (R35; log 17). No operation
  raises it. Safe. -/
  | rdataUnread
  deriving DecidableEq, Repr

/-- Why a step is refused. -/
inductive Refusal where
  /-- An operation that has no meaning yet (raised by no arm of this model). Safe. -/
  | notModelled (mnemonic : String)
  /-- The program's word list is cut short at request `position`: no run of it exists (R110, R314). Safe. -/
  | truncated (position : Nat)
  /-- The configuration breaks R38: refused as a whole. Safe. -/
  | illegalConfiguration
  /-- `pc = len(P)`: the run has ended and no request is left (R347; log 15). Safe. -/
  | endOfRun
  deriving DecidableEq, Repr

/-- How an operation is abandoned: by an error result, or for good. -/
inductive Stop where
  | raise (e : ErrKind) (info : Byte)
  | stuck (f : Fault)
  deriving DecidableEq, Repr

/-- The arguments of `LoadImage` (43_pixel_packing.md R230). -/
structure LoadJob where
  d : Depth
  e : Endian
  r : Rotation
  tgt : Addr
  src : Addr
  stride : Nat
  x : Word
  y : Word
  w : Word
  h : Word
  /-- `fill`: none, or some byte. -/
  fill : Option Byte
  deriving DecidableEq, Repr

/-- The machine's state. -/
structure State where
  /-- `pc`, the index of the next host operation (R23). -/
  pc : Nat
  /-- `CS`, the bus-select line: 0 asserted, 1 released (R24). -/
  cs : BitVec 1
  /-- `RSTL`, the chip's reset line (R25). -/
  rstl : BitVec 1
  /-- `SESSION` (R26). -/
  session : Session
  /-- `DESC` (R27). -/
  desc : Option Descriptor
  /-- `TGT` (R29). -/
  tgt : Option Addr
  /-- `LOAD_OPEN` (R30). -/
  loadOpen : Bool
  /-- `RENDER_PENDING` (R31). -/
  renderPending : Bool
  /-- `RES` (R32). -/
  res : Byte
  /-- `EINFO` (R33). -/
  einfo : Byte
  /-- `FAULTS` (R34). -/
  faults : Byte
  /-- `RDATA` (R35). -/
  rdata : Option Word
  /-- `RBUF` (R35). -/
  rbuf : List Word
  /-- `TRACE` (R36). -/
  trace : List Event
  /-- The control registers: the configuration, which no operation writes (R38, R39; log 1). -/
  cfg : Config
  /-- The host's program word list (R90, R105; log 2). -/
  prog : List Word
  /-- SRC (R61; log 3). -/
  src : Memory
  /-- The oracle's draws (log 4). -/
  chip : Oracle
  deriving DecidableEq, Repr

/-- Block reset (70_reset_and_hazards.md R340), with REFCFG, no program, no source bytes and no chip answers queued. -/
def State.reset : State where
  pc := 0
  cs := 1
  rstl := 1
  session := .unready
  desc := none
  tgt := none
  loadOpen := false
  renderPending := false
  res := 0
  einfo := 0
  faults := 0
  rdata := none
  rbuf := []
  trace := []
  cfg := refConfig
  prog := []
  src := []
  chip := { waits := [], rx := [], alloc := [], freeWaits := 0, freeRx := 0, freeAllocs := 0, freeRenders := 0 }

/-- A launch (R343): the block-reset state with the host's configuration, program and SRC, and the chip's draws. -/
def State.launch (cfg : Config) (prog : List Word) (src : Memory) (chip : Oracle) : State :=
  { State.reset with cfg := cfg, prog := prog, src := src, chip := chip }

end Sys2Proof.Machine
end

