-- ==== Sys2Proof/Machine/Flags.lean ====
section
/-! DEFINITION. The result registers RES, EINFO and FAULTS (10_state.md R32 to R34, 60_exceptions.md R300): the only
status flags of the block. -/

namespace Sys2Proof.Machine

/-- The result code of an error (R300). -/
def errCode : ErrKind → Byte
  | .hwTimeout => 1
  | .protocolMisuse => 2
  | .allocFail => 3
  | .invalidGeometry => 4
  | .deviceAbsent => 5
  | .srcBounds => 6
  | .unsupported => 7

/-- `1 << code`, the bit of FAULTS an error sets (R34). -/
def faultBit (e : ErrKind) : Byte := 1 <<< (errCode e).toNat

/-- RES, EINFO and FAULTS after an error: the first two lines of the error epilogue (R310). -/
def recordError (e : ErrKind) (info : Byte) (s : State) : State :=
  { s with res := errCode e, einfo := info, faults := s.faults ||| faultBit e }

/-- RES and EINFO after success; FAULTS is unchanged (R311). -/
def recordOk (s : State) : State := { s with res := 0, einfo := 0 }

end Sys2Proof.Machine
end

