-- ==== Sys2Proof/Machine/Memory.lean ====
section
/-! DEFINITION. SRC as plain data (20_memory.md R60, R61): reading a byte, the host's placing of bytes before a
launch, and the canonical form. The block itself never writes it (00_scope.md R12). -/

namespace Sys2Proof.Machine

/-- What an unlisted address reads as (log 3). -/
def blankByte : Byte := 0

/-- The byte at an address. -/
def Memory.read : Memory → Nat → Byte
  | [], _ => blankByte
  | (a, b) :: m, x => if a = x then b else Memory.read m x

/-- Put an entry in front, unless it is what an unlisted address reads as. -/
def Memory.cons (x : Nat) (v : Byte) (m : Memory) : Memory := if v = blankByte then m else (x, v) :: m

/-- Place one byte, keeping the canonical form (the host's supply of SRC, R61). -/
def Memory.write : Memory → Nat → Byte → Memory
  | [], x, v => Memory.cons x v []
  | (a, b) :: m, x, v =>
    if x < a then Memory.cons x v ((a, b) :: m)
    else if x = a then Memory.cons x v m
    else (a, b) :: Memory.write m x v

/-- Place consecutive bytes from an address on. -/
def Memory.writeBytes (m : Memory) (x : Nat) : List Byte → Memory
  | [] => m
  | v :: vs => Memory.writeBytes (Memory.write m x v) (x + 1) vs

/-- The entries stand at strictly rising addresses from `lo` on, none of them blank. -/
def Memory.wfFrom : Nat → Memory → Bool
  | _, [] => true
  | lo, (a, b) :: m => decide (lo ≤ a) && decide (b ≠ blankByte) && Memory.wfFrom (a + 1) m

/-- The canonical form. -/
def Memory.wf (m : Memory) : Bool := Memory.wfFrom 0 m

end Sys2Proof.Machine
end

