-- ==== Sys2Proof/Machine/Bits.lean ====
section
/-! DEFINITION. Bit fields and byte order: halves of words and addresses, and their joins (00_scope.md R10,
20_memory.md R65, R67, 30_encoding.md R92). -/

namespace Sys2Proof.Machine

/-- `w[15:8]`. -/
def hiByte (w : Word) : Byte := w.extractLsb' 8 8

/-- `w[7:0]`. -/
def loByte (w : Word) : Byte := w.extractLsb' 0 8

/-- `a:b` of two bytes, `a` in the high part (R10). -/
def joinBytes (a b : Byte) : Word := a ++ b

/-- `a[15:0]`, the half that travels first (R67). -/
def loHalf (a : Addr) : Word := a.extractLsb' 0 16

/-- `a[31:16]`. -/
def hiHalf (a : Addr) : Word := a.extractLsb' 16 16

/-- A 32-bit operand from its two words, low half first: `hi:lo` (R92). -/
def joinHalves (lo hi : Word) : Addr := hi ++ lo

/-- `ceil(a/b)` for `b > 0` (R10). -/
def ceilDiv (a b : Nat) : Nat := (a + b - 1) / b

end Sys2Proof.Machine
end

