-- ==== Sys2Proof/Syntax.lean ====
section
/-! DEFINITION. The host operations, one constructor per row of spec/opcode_table.json (30_encoding.md R94), and
the requests a program is made of (R90, R96). An operation keeps its whole MOD byte: a reserved MOD bit decodes
and is refused by execution (R97). -/

namespace Sys2Proof

/-- The modifier byte `MOD = H[7:0]` of a header (R90, R93). -/
abbrev Mod := BitVec 8

/-- The host operations (R94). `m` is MOD; 32-bit operands are joined, low half first (R92). -/
inductive Instr where
  | wrCmd (m : Mod) (code : Word)
  | wrData (m : Mod) (w : Word)
  /-- The count word `n` is the length of `ws`. -/
  | wrMulti (m : Mod) (ws : List Word)
  | rdData (m : Mod)
  | rdMulti (m : Mod) (n : Word)
  /-- The count word `n` is the length of `args`. -/
  | wrMultiArg (m : Mod) (code : Word) (args : List Word)
  | rdReg (m : Mod) (addr : Word)
  | wrReg (m : Mod) (addr val : Word)
  | init (m : Mod) (vcom : Word)
  | beginLoad (m : Mod) (tgt : Addr)
  | beginLoadArea (m : Mod) (tgt : Addr) (x y w h : Word)
  | endLoad (m : Mod)
  | load1bpp (m : Mod) (tgt src : Addr) (stride x y w h : Word)
  | load2bpp (m : Mod) (tgt src : Addr) (stride x y w h : Word)
  | load4bpp (m : Mod) (tgt src : Addr) (stride x y w h : Word)
  | load8bpp (m : Mod) (tgt src : Addr) (stride x y w h : Word)
  | displayArea (m : Mod) (x y w h mode : Word)
  | displayAreaBuf (m : Mod) (x y w h mode : Word) (adr : Addr)
  /-- `adr` is present exactly when B = MOD[0] is 1. -/
  | display1bpp (m : Mod) (x y w h mode fgbg : Word) (adr : Option Addr)
  | waitRenderIdle (m : Mod)
  | clearAndRefresh (m : Mod) (adr : Addr) (mode : Word)
  | refresh1bpp (m : Mod) (src : Addr) (x y w h : Word) (adr : Addr)
  | refresh2bpp (m : Mod) (src : Addr) (x y w h : Word) (adr : Addr)
  | refresh4bpp (m : Mod) (src : Addr) (x y w h : Word) (adr : Addr)
  | refresh8bpp (m : Mod) (src : Addr) (x y w h : Word) (adr : Addr)
  | sleep (m : Mod)
  | standby (m : Mod)
  deriving DecidableEq, Repr

/-- One request of a program: an operation of R94, or a reserved OP, which is one header word long (R96, R105). -/
inductive Request where
  | op (i : Instr)
  | reserved (header : Word)
  deriving DecidableEq, Repr

/-- What the decoder refuses: fewer words remain than R91 requires. `position` is the index of the request that is
cut short (R105, R110). -/
inductive DecodeError where
  | truncated (position : Nat)
  deriving DecidableEq, Repr

end Sys2Proof
end

