-- ==== Sys2Proof/Machine/Operands.lean ====
section
/-! DEFINITION. The operand forms: MOD fields (30_encoding.md R93, R97), format, blend and refresh tables
(R103, R265, R272), and the sizes and chip units of a load (43_pixel_packing.md R221, R222, R225). -/

namespace Sys2Proof.Machine

/-- No bit of `mask` is set in MOD: the reserved bits are 0 (R97). -/
def modClear (mask m : Mod) : Bool := m &&& mask == 0

/-- The reserved MOD bits of an operation that uses none. -/
def maskNone : Mod := 0xFF

/-- The reserved MOD bits of BEGIN_LOAD and BEGIN_LOAD_AREA (PSEL, ENDIAN, ROT used). -/
def maskBegin : Mod := 0xC8

/-- The reserved MOD bits of LOAD_dBPP (ENDIAN, ROT used). -/
def maskLoad : Mod := 0xF8

/-- The reserved MOD bits of DISPLAY_1BPP (B used). -/
def maskDisplay1bpp : Mod := 0xFE

/-- The reserved MOD bits of REFRESH_dBPP (HOLD, PACKED used). -/
def maskRefresh : Mod := 0xFC

/-- `ROT = MOD[1:0]` (R93). -/
def modRot (m : Mod) : Rotation := m.extractLsb' 0 2

/-- `ENDIAN = MOD[2]` (R93). -/
def modEndian (m : Mod) : Endian := if m.getLsbD 2 then .big else .little

/-- `PSEL = MOD[5:4]` (R93). -/
def modPsel (m : Mod) : BitVec 2 := m.extractLsb' 4 2

/-- The chip pixel format of a PSEL: 1 is 2 bpp, 2 is 4 bpp, 3 is 8 bpp, 0 is reserved (R93). -/
def pselFormat (p : BitVec 2) : Option ChipFormat :=
  if p = 1 then some .p2 else if p = 2 then some .p4 else if p = 3 then some .p8 else none

/-- `HOLD = MOD[0]` of REFRESH_dBPP (R93). -/
def modHold (m : Mod) : Bool := m.getLsbD 0

/-- `PACKED = MOD[1]` of REFRESH_dBPP (R93). -/
def modPacked (m : Mod) : Bool := m.getLsbD 1

/-- The place of an endianness tag in the format table. -/
def endianIndex : Endian → Fin 2
  | .little => 0
  | .big => 1

/-- The place of a pixel format in the format table. -/
def formatIndex : ChipFormat → Fin 3
  | .p2 => 0
  | .p4 => 1
  | .p8 => 2

/-- `FmtWord(e, p, r)` (R103). -/
def fmtWord (c : Config) (e : Endian) (p : ChipFormat) (r : Rotation) : Word :=
  ((c.fmtTable.get (endianIndex e)).get (formatIndex p)).get r.toFin

/-- The word of a key in a list of exceptions, or the key itself. -/
def lookupWord : List (Word × Word) → Word → Word
  | [], k => k
  | (a, v) :: xs, k => if a = k then v else lookupWord xs k

/-- `BlendWord(fg, bg)` (R265). -/
def blendWord (c : Config) (fg bg : Byte) : Word := lookupWord c.blendExceptions (joinBytes fg bg)

/-- The bits per pixel of a depth. -/
def depthBits : Depth → Nat
  | .d1 => 1
  | .d2 => 2
  | .d4 => 4
  | .d8 => 8

/-- The place of a depth in the refresh table. -/
def depthIndex : Depth → Fin 4
  | .d1 => 0
  | .d2 => 1
  | .d4 => 2
  | .d8 => 3

/-- The place of a bit in the refresh table. -/
def boolIndex : Bool → Fin 2
  | false => 0
  | true => 1

/-- `REFRESH_MAP(d, HOLD, PACKED)` (R272). -/
def refreshChoice (t : RefreshTable) (d : Depth) (hold packed : Bool) : RefreshChoice :=
  ((t.get (depthIndex d)).get (boolIndex hold)).get (boolIndex packed)

/-- `BPR = (w * d) div 8` (R221). -/
def bytesPerRow (d : Depth) (w : Nat) : Nat := w * depthBits d / 8

/-- `WPR = BPR div 2` (R221). -/
def wordsPerRow (d : Depth) (w : Nat) : Nat := bytesPerRow d w / 2

/-- The chip pixel format of a load: 8 bpp for d = 1, otherwise d (R222). -/
def loadFormat : Depth → ChipFormat
  | .d1 => .p8
  | .d2 => .p2
  | .d4 => .p4
  | .d8 => .p8

/-- The chip x or width argument of a load: a count of bytes for d = 1, otherwise of pixels (R222). -/
def chipUnits (d : Depth) (v : Word) : Word :=
  match d with
  | .d1 => v / 8
  | .d2 => v
  | .d4 => v
  | .d8 => v

/-- A pixel word from its two source bytes in address order (R66, R225). -/
def pairWord (o : PairOrder) (b0 b1 : Byte) : Word :=
  match o with
  | .firstHigh => joinBytes b0 b1
  | .firstLow => joinBytes b1 b0

/-- The bytes of a version field, high byte of each word first (R28, R174). -/
def wordBytes : List Word → List Byte
  | [] => []
  | w :: ws => hiByte w :: loByte w :: wordBytes ws

/-- `DecodeDesc(ws)` (R174, R104). -/
def decodeDesc (versionWords : Nat) (ws : List Word) : Descriptor where
  panelW := ws.getD 0 0
  panelH := ws.getD 1 0
  imgAddr := joinHalves (ws.getD 2 0) (ws.getD 3 0)
  fwVer := wordBytes ((ws.drop 4).take versionWords)
  lutVer := wordBytes ((ws.drop (4 + versionWords)).take versionWords)

/-- `TRACKED`: the nine codes a raw operation may not send (R139). -/
def trackedCodes (c : Config) : List Word :=
  [c.cmdSysRun, c.cmdStandby, c.cmdSleep, c.cmdGetDevInfo, c.cmdLdImg, c.cmdLdImgArea, c.cmdLdImgEnd,
   c.cmdDpyArea, c.cmdDpyBufArea]

/-- `1 << BIT_1BPP`, with `BIT_1BPP = 2` (R7, R264). -/
def mode1Bit : Word := 0x0004

end Sys2Proof.Machine
end

