-- ==== Sys2Proof/Machine/Ops.lean ====
section
/-! DEFINITION. The named operations: the wire primitives (00_scope.md R13), the oracle's draws, the busy-wait and the
transactions (40_frame_preambler.md R130 to R138), the checks more than one operation makes, and how an operation
ends: the error epilogue, which is the block's taking of an exception (60_exceptions.md R310), and the success
epilogue (R311). There is no return from an exception (R309, R312). -/

namespace Sys2Proof.Machine

/-- A piece of a host operation: it runs from a state to a value and a state, or is abandoned with the state as it
then stands (R14, R308). -/
abbrev Op (α : Type) := EStateM Stop State α

/-- `raise E(info)` (R14). -/
def raise {α : Type} (e : ErrKind) (info : Byte) : Op α := fun s => .error (.raise e info) s

/-- `if c: raise E(info)`. -/
def raiseIf (c : Prop) [Decidable c] (e : ErrKind) (info : Byte) : Op Unit :=
  fun s => if c then .error (.raise e info) s else .ok () s

/-- The operation goes no further, for good. -/
def stuck {α : Type} (f : Fault) : Op α := fun s => .error (.stuck f) s

/-- The state. -/
def readState : Op State := fun s => .ok s s

/-- The configuration. -/
def readCfg : Op Config := fun s => .ok s.cfg s

/-- Change the state. -/
def update (f : State → State) : Op Unit := fun s => .ok () (f s)

/-! ### Wire primitives (R13) -/

/-- Append events to the trace (R36). -/
def State.emit (es : List Event) (s : State) : State := { s with trace := s.trace ++ es }

/-- The select line asserted, with its event. -/
def State.selected (s : State) : State := { s with trace := s.trace ++ [.sel], cs := 0 }

/-- The select line released, with its event. -/
def State.released (s : State) : State := { s with trace := s.trace ++ [.rel], cs := 1 }

/-- `Select()`. -/
def select : Op Unit := update State.selected

/-- `Release()`. -/
def release : Op Unit := update State.released

/-- `TxByte(b)`. -/
def txByte (b : Byte) : Op Unit := update (State.emit [.tx b])

/-- `Delay(ms)`. -/
def delay (ms : Nat) : Op Unit := update (State.emit [.delay ms])

/-- `ResetLine(l)`. -/
def resetLine (l : BitVec 1) : Op Unit := update (fun s => { s with trace := s.trace ++ [.rst l], rstl := l })

/-- `TxWord(w)`: high byte first (R13, R65). -/
def txWord (w : Word) : Op Unit := do
  txByte (hiByte w)
  txByte (loByte w)

/-- Words sent one after another. -/
def txWords : List Word → Op Unit
  | [] => pure ()
  | w :: ws => do
    txWord w
    txWords ws

/-- The next byte the chip answers: from its queue, or a free value (R17; log 4, 5). -/
def drawRx (c : Oracle) : Byte × Oracle :=
  match c.rx with
  | b :: rest => (b, { c with rx := rest })
  | [] => (Config.freeRx c.freeRx, { c with freeRx := c.freeRx + 1 })

/-- The chip's answer to the next busy-wait: from its queue, or one that ends after a free number of busy samples
(log 4, 6, 7). -/
def drawWait (c : Oracle) : BusyRun × Oracle :=
  match c.waits with
  | r :: rest => (r, { c with waits := rest })
  | [] => (.idleAfter (Config.freeBusyRun c.freeWaits), { c with freeWaits := c.freeWaits + 1 })

/-- The next allocation outcome (60_exceptions.md R306; log 4, 5). -/
def drawAlloc (c : Oracle) : Bool × Oracle :=
  match c.alloc with
  | b :: rest => (b, { c with alloc := rest })
  | [] => (Config.freeAlloc c.freeAllocs, { c with freeAllocs := c.freeAllocs + 1 })

/-- `RxByte()`. -/
def rxByte : Op Byte := fun s =>
  let d := drawRx s.chip
  .ok d.1 { s with trace := s.trace ++ [.rx d.1], chip := d.2 }

/-- `RxWord()`: high byte first (R13, R65). -/
def rxWord : Op Word := do
  let hi ← rxByte
  let lo ← rxByte
  pure (joinBytes hi lo)

/-- `n` words received one after another. -/
def rxWords : Nat → Op (List Word)
  | 0 => pure []
  | n + 1 => do
    let w ← rxWord
    let ws ← rxWords n
    pure (w :: ws)

/-- `AllocOk()`: one draw (43_pixel_packing.md R227). -/
def allocOk : Op Bool := fun s =>
  let d := drawAlloc s.chip
  .ok d.1 { s with chip := d.2 }

/-- `MemRead(addr, n)`: bytes of SRC in address order, or SrcBounds (R12, R303). -/
def memRead (addr n : Nat) : Op (List Byte) := fun s =>
  if n = 0 ∨ addr + n ≤ s.cfg.srcSize.toNat then
    .ok ((List.range n).map (fun i => s.src.read (addr + i))) s
  else .error (.raise .srcBounds 0) s

/-! ### Busy-waits and transactions -/

/-- The events of `n` busy samples. -/
def busyPolls (idle : BitVec 1) (n : Nat) : List Event := List.replicate n (.poll (~~~idle))

/-- The events of a busy-wait that ends: `n` busy samples, then the idle one. -/
def endedPolls (idle : BitVec 1) (n : Nat) : List Event := busyPolls idle n ++ [.poll idle]

/-- The state after a busy-wait's samples `es`, its answer taken from the oracle. -/
def State.waited (es : List Event) (s : State) : State :=
  { s with trace := s.trace ++ es, chip := (drawWait s.chip).2 }

/-- `BusWaitIdle(phase)` (R131). With the limit `some l` the `l`-th busy sample in a row raises HwTimeout; with
`none` a line that never reads idle hangs (R313). Laws/Ops.lean shows that this is R131's loop over the samples. -/
def busWaitIdle (phase : Byte) : Op Unit := fun s =>
  match (drawWait s.chip).1, s.cfg.pollLimit with
  | .idleAfter k, none => .ok () (s.waited (endedPolls s.cfg.busyIdleLevel k))
  | .never, none => .error (.stuck .busyHang) s
  | .idleAfter k, some l =>
    if k < max l 1 then .ok () (s.waited (endedPolls s.cfg.busyIdleLevel k))
    else .error (.raise .hwTimeout phase) (s.waited (busyPolls s.cfg.busyIdleLevel (max l 1)))
  | .never, some l => .error (.raise .hwTimeout phase) (s.waited (busyPolls s.cfg.busyIdleLevel (max l 1)))

/-- `PRE_CMD`, the command preamble (R7, R99). -/
def preCmd : Word := 0x6000

/-- `PRE_WR`, the data-write preamble (R7, R99). -/
def preWr : Word := 0x0000

/-- `PRE_RD`, the data-read preamble (R7, R99). -/
def preRd : Word := 0x1000

/-- How every transaction opens: busy-wait, select, preamble, busy-wait (R130). -/
def openFrame (pre : Word) : Op Unit := do
  busWaitIdle 1
  select
  txWord pre
  busWaitIdle 2

/-- `TxnCommand(c)` (R132). -/
def txnCommand (c : Word) : Op Unit := do
  openFrame preCmd
  txWord c
  release

/-- `TxnWrite(ws)` (R133). -/
def txnWrite (ws : List Word) : Op Unit := do
  openFrame preWr
  txWords ws
  release

/-- `TxnRead(n)`: one dummy word, discarded, then `n` words (R135). -/
def txnRead (n : Nat) : Op (List Word) := do
  openFrame preRd
  let _ ← rxWord
  let out ← rxWords n
  release
  pure out

/-- Words cut into pieces of at most `b`, in order. -/
def cutInto (b : Nat) (ws : List Word) : List (List Word) :=
  (List.range (ceilDiv ws.length b)).map (fun i => (ws.drop (i * b)).take b)

/-- How the arguments of a command are grouped into write frames (R136): one each, or all of them in one frame if there are
any. MULTI 'requires' that they fit one frame, and R134 says that the block's own callers hold to the burst limit; but R38
allows MULTI with `B_WORDS` 4 to 6, where the 5 arguments of CMD_LD_IMG_AREA and CMD_DPY_AREA and the 7 of
CMD_DPY_BUF_AREA may not fit, and no rule gives an outcome. DESIGN CHOICE (log 20, unsafe): there they go out in frames of
`B_WORDS` words and a last one of the rest, so that R134 holds of every frame. -/
def argGroups (c : Config) (args : List Word) : List (List Word) :=
  match c.argFraming with
  | .perWord => args.map (fun a => [a])
  | .multi =>
    if args = [] then []
    else if args.length ≤ c.bWords then [args]
    else cutInto c.bWords args

/-- One write frame per group of words. -/
def txnWrites : List (List Word) → Op Unit
  | [] => pure ()
  | ws :: rest => do
    txnWrite ws
    txnWrites rest

/-- `MultiArg(c, args)` (R136; log 20). -/
def multiArg (c : Word) (args : List Word) : Op Unit := do
  txnCommand c
  let cfg ← readCfg
  txnWrites (argGroups cfg args)

/-- `RegRead(a)` (R137). -/
def regRead (a : Word) : Op Word := do
  let cfg ← readCfg
  txnCommand cfg.cmdRegRd
  txnWrite [a]
  let ws ← txnRead 1
  pure (ws.headD 0)

/-- `RegWrite(a, v)` (R138). -/
def regWrite (a v : Word) : Op Unit := do
  let cfg ← readCfg
  multiArg cfg.cmdRegWr [a, v]

/-! ### How an operation ends -/

/-- The error epilogue (R310), the one way the block takes an exception: RES, EINFO and FAULTS record it, the select
line is released if it is held, a hardware timeout ends the session, and the next operation follows. -/
def errorEpilogue (e : ErrKind) (info : Byte) (s : State) : State :=
  let s1 := recordError e info s
  let s2 := if s1.cs = 0 then s1.released else s1
  let s3 := if e = .hwTimeout then { s2 with session := .unready } else s2
  { s3 with pc := s3.pc + 1 }

/-- The success epilogue (R311). -/
def successEpilogue (s : State) : State :=
  let s1 := recordOk s
  { s1 with pc := s1.pc + 1 }

/-- A whole host operation: its body, then the epilogue it earns. -/
def runOp (body : Op Unit) (s : State) : Host.Outcome State Fault Refusal :=
  match body s with
  | .ok _ t => .next (successEpilogue t)
  | .error (.raise e info) t => .next (errorEpilogue e info t)
  | .error (.stuck f) _ => .fault f

/-! ### Checks more than one operation makes -/

/-- The reserved MOD bits of `mask` must be 0: `Unsupported(5)` (30_encoding.md R97). -/
def checkMod (mask m : Mod) : Op Unit := raiseIf (modClear mask m = false) .unsupported 5

/-- A load is open: `ProtocolMisuse(info)` (60_exceptions.md R302). -/
def refuseLoadOpen (info : Byte) : Op Unit := do
  let s ← readState
  raiseIf (s.loadOpen = true) .protocolMisuse info

/-- The session is not ready: `ProtocolMisuse(5)` (R302). -/
def requireReady : Op Unit := do
  let s ← readState
  raiseIf (s.session ≠ .ready) .protocolMisuse 5

/-- A render is pending: `ProtocolMisuse(4)` (R302). -/
def refuseRenderPending : Op Unit := do
  let s ← readState
  raiseIf (s.renderPending = true) .protocolMisuse 4

/-- `LoadAdmit(op)`, its state checks (42_image_load.md R204). -/
def loadAdmitState : Op Unit := do
  refuseLoadOpen 1
  requireReady
  refuseRenderPending

/-- `LoadAdmit(op)` for an operation with no PSEL (R204). -/
def loadAdmit (mask m : Mod) : Op Unit := do
  checkMod mask m
  loadAdmitState

/-- The descriptor, which R26's invariant says is there when the session is ready (log 16). -/
def readDesc : Op Descriptor := fun s =>
  match s.desc with
  | some d => .ok d s
  | none => .error (.stuck .noDescriptor) s

/-- `AreaCheck(x, y, w, h, W, H)`, without wrap-around (42_image_load.md R205). -/
def areaCheck (x y w h panelW panelH : Word) : Op Unit := do
  raiseIf (w = 0 ∨ h = 0) .invalidGeometry 1
  raiseIf (x.toNat + w.toNat > panelW.toNat) .invalidGeometry 2
  raiseIf (y.toNat + h.toNat > panelH.toNat) .invalidGeometry 3

/-- `AreaCheck` against the descriptor's panel. -/
def panelCheck (x y w h : Word) : Op Unit := do
  let d ← readDesc
  areaCheck x y w h d.panelW d.panelH

/-- A request with a reserved OP: `Unsupported(1)` and no wire event (30_encoding.md R96; log 19). -/
def execReserved (_ : Word) (s : State) : Host.Outcome State Fault Refusal := runOp (raise .unsupported 1) s

/-- The host's reading of RDATA after an operation; reading `none` is a fault of the observation (10_state.md R35). -/
def hostReadRdata (s : State) : Except Fault Word :=
  match s.rdata with
  | some v => .ok v
  | none => .error .rdataUnread

end Sys2Proof.Machine
end

