-- ==== Sys2Proof/Machine/ImageLoad.lean ====
section
/-! DEFINITION. The image-load protocol: BEGIN_LOAD, BEGIN_LOAD_AREA, END_LOAD and the procedures the repackers
share with them (42_image_load.md R200 to R208). -/

namespace Sys2Proof.Machine

/-- `SetTargetAddr(a)`: low half, then high half, then the record of it (R200). -/
def setTargetAddr (a : Addr) : Op Unit := do
  let c ← readCfg
  regWrite c.regAddrLo (loHalf a)
  regWrite c.regAddrHi (hiHalf a)
  update (fun s => { s with tgt := some a })

/-- LOAD_OPEN written. -/
def setLoadOpen (b : Bool) : Op Unit := update (fun s => { s with loadOpen := b })

/-- `BeginLoadCore(e, p, r, a)` (R201). -/
def beginLoadCore (e : Endian) (p : ChipFormat) (r : Rotation) (a : Addr) : Op Unit := do
  setTargetAddr a
  let c ← readCfg
  multiArg c.cmdLdImg [fmtWord c e p r]
  setLoadOpen true

/-- `BeginLoadAreaCore(e, p, r, a, x, y, w, h)` (R202). -/
def beginLoadAreaCore (e : Endian) (p : ChipFormat) (r : Rotation) (a : Addr) (x y w h : Word) : Op Unit := do
  setTargetAddr a
  let c ← readCfg
  multiArg c.cmdLdImgArea [fmtWord c e p r, x, y, w, h]
  setLoadOpen true

/-- `EndLoadCore()` (R203). -/
def endLoadCore : Op Unit := do
  let c ← readCfg
  txnCommand c.cmdLdImgEnd
  setLoadOpen false

/-- The chip pixel format PSEL selects; `Unsupported(5)` for the reserved value (R93, R97, R204). -/
def readPsel (m : Mod) : Op ChipFormat :=
  match pselFormat (modPsel m) with
  | some p => pure p
  | none => raise .unsupported 5

/-- `LoadAdmit(op)` for an operation with a PSEL (R204). -/
def loadAdmitPsel (m : Mod) : Op ChipFormat := do
  checkMod maskBegin m
  let p ← readPsel m
  loadAdmitState
  pure p

/-- BEGIN_LOAD (R206). -/
def execBeginLoad (m : Mod) (tgt : Addr) (s : State) : Host.Outcome State Fault Refusal :=
  runOp (do
    let p ← loadAdmitPsel m
    beginLoadCore (modEndian m) p (modRot m) tgt) s

/-- BEGIN_LOAD_AREA (R207). -/
def execBeginLoadArea (m : Mod) (tgt : Addr) (x y w h : Word) (s : State) : Host.Outcome State Fault Refusal :=
  runOp (do
    let p ← loadAdmitPsel m
    panelCheck x y w h
    beginLoadAreaCore (modEndian m) p (modRot m) tgt x y w h) s

/-- No load is open: `ProtocolMisuse(2)` (R208). -/
def requireLoadOpen : Op Unit := do
  let s ← readState
  raiseIf (s.loadOpen = false) .protocolMisuse 2

/-- END_LOAD (R208). -/
def execEndLoad (m : Mod) (s : State) : Host.Outcome State Fault Refusal :=
  runOp (do
    checkMod maskNone m
    requireLoadOpen
    endLoadCore) s

end Sys2Proof.Machine
end

