-- ==== Sys2Proof/Machine/PixelPacking.lean ====
section
/-! DEFINITION. The pixel repackers and the telegram/burst chunker: `LoadImage` and LOAD_1BPP, LOAD_2BPP, LOAD_4BPP,
LOAD_8BPP (43_pixel_packing.md R220 to R244). -/

namespace Sys2Proof.Machine

/-- `LoadGeom(d, x, y, w, h, stride)`, its checks in order (R224). The sizes are `bytesPerRow`, `wordsPerRow`,
`loadFormat` and `chipUnits`. -/
def loadGeom (j : LoadJob) : Op Unit := do
  panelCheck j.x j.y j.w j.h
  let c ← readCfg
  raiseIf (c.rowAlign = .reject ∧ j.w.toNat * depthBits j.d % 16 ≠ 0) .invalidGeometry 4
  raiseIf (wordsPerRow j.d j.w.toNat = 0) .invalidGeometry 4
  raiseIf (j.d = .d1 ∧ j.x.toNat % 8 ≠ 0) .invalidGeometry 5
  raiseIf (j.stride < bytesPerRow j.d j.w.toNat) .invalidGeometry 6

/-- `last` of `Footprint`: the highest SRC address a load reads (R226). -/
def footprintLast (j : LoadJob) : Nat :=
  j.src.toNat + (j.h.toNat - 1) * j.stride + 2 * wordsPerRow j.d j.w.toNat - 1

/-- `Footprint(src, stride, h, WPR)`, only for a load that reads SRC (R226, R244). -/
def footprint (j : LoadJob) : Op Unit := do
  let c ← readCfg
  raiseIf (j.fill = none ∧ footprintLast j ≥ c.srcSize.toNat) .srcBounds 0

/-- The allocation draw of a load (R227). -/
def requireAlloc : Op Unit := do
  let ok ← allocOk
  raiseIf (ok = false) .allocFail 0

/-- `Word(i)` of the telegram that starts at row `r0` (R225, R230). -/
def loadWord (j : LoadJob) (r0 i : Nat) : Op Word :=
  let wpr := wordsPerRow j.d j.w.toNat
  match j.fill with
  | some f => pure (joinBytes f f)
  | none => do
    let c ← readCfg
    let b ← memRead (j.src.toNat + (r0 + i / wpr) * j.stride + 2 * (i % wpr)) 2
    pure (pairWord c.pairOrder (b.getD 0 0) (b.getD 1 0))

/-- `count` words of a telegram from word `i` on (R229). -/
def loadWords (j : LoadJob) (r0 : Nat) : (count i : Nat) → Op (List Word)
  | 0, _ => pure []
  | n + 1, i => do
    let w ← loadWord j r0 i
    let ws ← loadWords j r0 n (i + 1)
    pure (w :: ws)

/-- The delay before burst `b`: none before the first of a telegram (R232). -/
def interBurstDelay (b : Nat) : Op Unit := do
  let c ← readCfg
  if b > 0 then delay c.interBurstDelayMs else pure ()

/-- Burst `b` of a telegram of `n` words: the delay between bursts, then one write frame (R229, R230, R232, R233). -/
def loadBurst (j : LoadJob) (r0 n b : Nat) : Op Unit := do
  interBurstDelay b
  let c ← readCfg
  let ws ← loadWords j r0 (min n ((b + 1) * c.bWords) - b * c.bWords) (b * c.bWords)
  txnWrite ws

/-- `count` bursts of a telegram from burst `b` on. -/
def loadBursts (j : LoadJob) (r0 n : Nat) : (count b : Nat) → Op Unit
  | 0, _ => pure ()
  | k + 1, b => do
    loadBurst j r0 n b
    loadBursts j r0 n k (b + 1)

/-- The rows of telegram `t`: `min(T_ROWS, h - R0)` (R228). -/
def telegramRows (tRows h t : Nat) : Nat := min tRows (h - t * tRows)

/-- Telegram `t`: begin-area, its bursts, end (R228, R230). -/
def loadTelegram (j : LoadJob) (t : Nat) : Op Unit := do
  let c ← readCfg
  let r0 := t * c.tRows
  let rows := telegramRows c.tRows j.h.toNat t
  let n := wordsPerRow j.d j.w.toNat * rows
  beginLoadAreaCore j.e (loadFormat j.d) j.r j.tgt (chipUnits j.d j.x) (BitVec.ofNat 16 (j.y.toNat + r0))
    (chipUnits j.d j.w) (BitVec.ofNat 16 rows)
  loadBursts j r0 n (ceilDiv n c.bWords) 0
  endLoadCore

/-- `count` telegrams from telegram `t` on. -/
def loadTelegrams (j : LoadJob) : (count t : Nat) → Op Unit
  | 0, _ => pure ()
  | k + 1, t => do
    loadTelegram j t
    loadTelegrams j k (t + 1)

/-- `LoadImage` (R230): every check before any bus event, then the telegrams. -/
def loadImage (j : LoadJob) : Op Unit := do
  loadGeom j
  footprint j
  requireAlloc
  let c ← readCfg
  loadTelegrams j (ceilDiv j.h.toNat c.tRows) 0

/-- A LOAD_dBPP operation: `LoadAdmit`, then `LoadImage` with no fill (R240 to R243). -/
def loadBody (d : Depth) (m : Mod) (tgt src : Addr) (stride x y w h : Word) : Op Unit := do
  loadAdmit maskLoad m
  loadImage { d := d, e := modEndian m, r := modRot m, tgt := tgt, src := src, stride := stride.toNat,
              x := x, y := y, w := w, h := h, fill := none }

/-- LOAD_1BPP (R240). -/
def execLoad1bpp (m : Mod) (tgt src : Addr) (stride x y w h : Word) (s : State) :
    Host.Outcome State Fault Refusal := runOp (loadBody .d1 m tgt src stride x y w h) s

/-- LOAD_2BPP (R241). -/
def execLoad2bpp (m : Mod) (tgt src : Addr) (stride x y w h : Word) (s : State) :
    Host.Outcome State Fault Refusal := runOp (loadBody .d2 m tgt src stride x y w h) s

/-- LOAD_4BPP (R242). -/
def execLoad4bpp (m : Mod) (tgt src : Addr) (stride x y w h : Word) (s : State) :
    Host.Outcome State Fault Refusal := runOp (loadBody .d4 m tgt src stride x y w h) s

/-- LOAD_8BPP (R243). -/
def execLoad8bpp (m : Mod) (tgt src : Addr) (stride x y w h : Word) (s : State) :
    Host.Outcome State Fault Refusal := runOp (loadBody .d8 m tgt src stride x y w h) s

end Sys2Proof.Machine
end

