-- ==== Sys2Proof/Machine/Display.lean ====
section
/-! DEFINITION. Display commands, the render wait, clear, refresh and power: DISPLAY_AREA, DISPLAY_AREA_BUF,
DISPLAY_1BPP, WAIT_RENDER_IDLE, CLEAR_AND_REFRESH, REFRESH_dBPP, SLEEP, STANDBY (44_display.md R260 to R278). -/

namespace Sys2Proof.Machine

/-- `DisplayAdmit(op)` (R261). -/
def displayAdmit (mask m : Mod) : Op Unit := do
  checkMod mask m
  refuseLoadOpen 3
  requireReady
  refuseRenderPending

/-- The display command in its two forms: five arguments, or seven with an address (R263, R67). -/
def displayCommand (x y w h mode : Word) (adr : Option Addr) : Op Unit := do
  let c ← readCfg
  match adr with
  | none => multiArg c.cmdDpyArea [x, y, w, h, mode]
  | some a => multiArg c.cmdDpyBufArea [x, y, w, h, mode, loHalf a, hiHalf a]

/-- `DisplayCore(buf, x, y, w, h, mode, adr)`: with an address when `buf = 1` (R263). -/
def displayCore (x y w h mode : Word) (adr : Option Addr) : Op Unit := do
  displayCommand x y w h mode adr
  update (fun s => { s with renderPending := true })

/-- `Mode1On()`: a fresh read-modify-write of REG_CTRL_HI (R264). -/
def mode1On : Op Unit := do
  let c ← readCfg
  let v ← regRead c.regCtrlHi
  regWrite c.regCtrlHi (v ||| mode1Bit)

/-- `Mode1Off()` (R264). -/
def mode1Off : Op Unit := do
  let c ← readCfg
  let v ← regRead c.regCtrlHi
  regWrite c.regCtrlHi (v &&& ~~~mode1Bit)

/-- `SetBlend(fg, bg)` (R265). -/
def setBlend (fg bg : Byte) : Op Unit := do
  let c ← readCfg
  regWrite c.regBlend (blendWord c fg bg)

/-- A busy render reading counted against `RENDER_POLL_LIMIT`: the `l`-th raises `HwTimeout(3)` (R266). -/
def countRenderPoll (npoll : Nat) : Op Unit := do
  let c ← readCfg
  match c.renderPollLimit with
  | some l => raiseIf (npoll ≥ l) .hwTimeout 3
  | none => pure ()

/-- The loop of `WaitRenderIdle()`, `npoll` busy readings counted so far (R266). `fuel` is how many readings it may
make; an unbounded poll that has used them up hangs (R313; log 9). -/
def renderPolls : (fuel npoll : Nat) → Op Unit
  | 0, _ => stuck .renderHang
  | fuel + 1, npoll => do
    let c ← readCfg
    let v ← regRead c.regRenderStatus
    if v &&& c.renderBusyMask = 0 then pure ()
    else do
      countRenderPoll (npoll + 1)
      renderPolls fuel (npoll + 1)

/-- How many readings a render poll may make (log 9): with a limit, one more than it counts, which no poll uses up;
without one, enough for every byte the chip's queue holds, and a free number more, drawn afresh for each poll. -/
def drawRenderFuel : Op Nat := fun s =>
  match s.cfg.renderPollLimit with
  | some l => .ok (l + 1) s
  | none =>
    .ok (s.chip.rx.length + Config.freeRenderPolls s.chip.freeRenders + 1)
      { s with chip := { s.chip with freeRenders := s.chip.freeRenders + 1 } }

/-- `WaitRenderIdle()` (R266). -/
def waitRender : Op Unit := do
  let fuel ← drawRenderFuel
  renderPolls fuel 0
  update (fun s => { s with renderPending := false })

/-- DISPLAY_AREA (R267). -/
def execDisplayArea (m : Mod) (x y w h mode : Word) (s : State) : Host.Outcome State Fault Refusal :=
  runOp (do
    displayAdmit maskNone m
    panelCheck x y w h
    displayCore x y w h mode none) s

/-- DISPLAY_AREA_BUF (R268). -/
def execDisplayAreaBuf (m : Mod) (x y w h mode : Word) (adr : Addr) (s : State) :
    Host.Outcome State Fault Refusal :=
  runOp (do
    displayAdmit maskNone m
    panelCheck x y w h
    displayCore x y w h mode (some adr)) s

/-- The 1-bpp display sequence: mode bit on, blend, display, render wait, mode bit off (R269, R272). -/
def display1bppSequence (x y w h mode fgbg : Word) (adr : Option Addr) : Op Unit := do
  mode1On
  setBlend (hiByte fgbg) (loByte fgbg)
  displayCore x y w h mode adr
  waitRender
  mode1Off

/-- DISPLAY_1BPP (R269). -/
def execDisplay1bpp (m : Mod) (x y w h mode fgbg : Word) (adr : Option Addr) (s : State) :
    Host.Outcome State Fault Refusal :=
  runOp (do
    displayAdmit maskDisplay1bpp m
    panelCheck x y w h
    display1bppSequence x y w h mode fgbg adr) s

/-- WAIT_RENDER_IDLE (R270). -/
def execWaitRenderIdle (m : Mod) (s : State) : Host.Outcome State Fault Refusal :=
  runOp (do
    checkMod maskNone m
    refuseLoadOpen 3
    waitRender) s

/-- CLEAR_AND_REFRESH (R271): a 4-bpp fill of the whole panel, then the buffer-addressed display. -/
def execClearAndRefresh (m : Mod) (adr : Addr) (mode : Word) (s : State) : Host.Outcome State Fault Refusal :=
  runOp (do
    loadAdmit maskNone m
    let d ← readDesc
    let c ← readCfg
    loadImage { d := .d4, e := .little, r := 0, tgt := adr, src := 0, stride := d.panelW.toNat * 4 / 8,
                x := 0, y := 0, w := d.panelW, h := d.panelH, fill := some c.clearFill }
    displayCore 0 0 d.panelW d.panelH mode (some adr)) s

/-- `REFRESH_MAP(d, HOLD, PACKED)`, or `Unsupported(4)` when there is no map (R272). -/
def readRefreshMap (d : Depth) (m : Mod) : Op RefreshChoice := do
  let c ← readCfg
  match c.refreshMap with
  | some t => pure (refreshChoice t d (modHold m) (modPacked m))
  | none => raise .unsupported 4

/-- `Refresh(d, HOLD, PACKED, src, x, y, w, h, adr)` (R272). -/
def refreshBody (d : Depth) (m : Mod) (src : Addr) (x y w h : Word) (adr : Addr) : Op Unit := do
  loadAdmit maskRefresh m
  let f ← readRefreshMap d m
  loadImage { d := d, e := .little, r := 0, tgt := adr, src := src, stride := bytesPerRow d w.toNat,
              x := x, y := y, w := w, h := h, fill := none }
  match d with
  | .d1 => display1bppSequence x y w h f.mode f.fgbg (some adr)
  | .d2 | .d4 | .d8 => do
    displayCore x y w h f.mode (some adr)
    if f.wait then waitRender else pure ()

/-- REFRESH_1BPP (R273). -/
def execRefresh1bpp (m : Mod) (src : Addr) (x y w h : Word) (adr : Addr) (s : State) :
    Host.Outcome State Fault Refusal := runOp (refreshBody .d1 m src x y w h adr) s

/-- REFRESH_2BPP (R274). -/
def execRefresh2bpp (m : Mod) (src : Addr) (x y w h : Word) (adr : Addr) (s : State) :
    Host.Outcome State Fault Refusal := runOp (refreshBody .d2 m src x y w h adr) s

/-- REFRESH_4BPP (R275). -/
def execRefresh4bpp (m : Mod) (src : Addr) (x y w h : Word) (adr : Addr) (s : State) :
    Host.Outcome State Fault Refusal := runOp (refreshBody .d4 m src x y w h adr) s

/-- REFRESH_8BPP (R276). -/
def execRefresh8bpp (m : Mod) (src : Addr) (x y w h : Word) (adr : Addr) (s : State) :
    Host.Outcome State Fault Refusal := runOp (refreshBody .d8 m src x y w h adr) s

/-- The one-command power sequence: refused inside a load or a render, and the session ends (R277). -/
def powerBody (m : Mod) (code : Config → Word) : Op Unit := do
  checkMod maskNone m
  refuseLoadOpen 3
  refuseRenderPending
  let c ← readCfg
  txnCommand (code c)
  update (fun s => { s with session := .unready })

/-- SLEEP (R277). -/
def execSleep (m : Mod) (s : State) : Host.Outcome State Fault Refusal := runOp (powerBody m (·.cmdSleep)) s

/-- STANDBY (R278). -/
def execStandby (m : Mod) (s : State) : Host.Outcome State Fault Refusal := runOp (powerBody m (·.cmdStandby)) s

end Sys2Proof.Machine
end

