-- ==== Sys2Proof/Machine/Frame.lean ====
section
/-! DEFINITION. The raw operations of the frame preambler: WR_CMD, WR_DATA, WR_MULTI, RD_DATA, RD_MULTI,
WR_MULTI_ARG, RD_REG, WR_REG (40_frame_preambler.md R139 to R148). -/

namespace Sys2Proof.Machine

/-- `RawAdmit(op)` of WR_DATA and WR_MULTI, which an open load admits (R140). -/
def rawAdmitStream (m : Mod) : Op Unit := checkMod maskNone m

/-- `RawAdmit(op)` of the other raw operations (R140). -/
def rawAdmit (m : Mod) : Op Unit := do
  checkMod maskNone m
  refuseLoadOpen 3

/-- A raw operation may not send a tracked code: `Unsupported(3)` (R139). -/
def refuseTracked (code : Word) : Op Unit := do
  let c ← readCfg
  raiseIf (code ∈ trackedCodes c) .unsupported 3

/-- A count above the burst limit: `ProtocolMisuse(6)` (R134). -/
def refuseOverBurst (n : Nat) : Op Unit := do
  let c ← readCfg
  raiseIf (n > c.bWords) .protocolMisuse 6

/-- WR_CMD (R141). -/
def execWrCmd (m : Mod) (code : Word) (s : State) : Host.Outcome State Fault Refusal :=
  runOp (do
    rawAdmit m
    refuseTracked code
    txnCommand code) s

/-- WR_DATA (R142). -/
def execWrData (m : Mod) (w : Word) (s : State) : Host.Outcome State Fault Refusal :=
  runOp (do
    rawAdmitStream m
    txnWrite [w]) s

/-- WR_MULTI (R143). -/
def execWrMulti (m : Mod) (ws : List Word) (s : State) : Host.Outcome State Fault Refusal :=
  runOp (do
    rawAdmitStream m
    raiseIf (ws.length = 0) .unsupported 2
    refuseOverBurst ws.length
    txnWrite ws) s

/-- RD_DATA (R144). -/
def execRdData (m : Mod) (s : State) : Host.Outcome State Fault Refusal :=
  runOp (do
    rawAdmit m
    let ws ← txnRead 1
    update (fun t => { t with rdata := some (ws.headD 0) })) s

/-- RD_MULTI (R145). -/
def execRdMulti (m : Mod) (n : Word) (s : State) : Host.Outcome State Fault Refusal :=
  runOp (do
    rawAdmit m
    raiseIf (n = 0) .unsupported 2
    refuseOverBurst n.toNat
    let ws ← txnRead n.toNat
    update (fun t => { t with rbuf := ws })) s

/-- WR_MULTI_ARG under MULTI framing sends its arguments in one frame, so their count is limited (R146). -/
def refuseOverBurstMulti (n : Nat) : Op Unit := do
  let c ← readCfg
  raiseIf (c.argFraming = .multi ∧ n > c.bWords) .protocolMisuse 6

/-- WR_MULTI_ARG (R146). -/
def execWrMultiArg (m : Mod) (code : Word) (args : List Word) (s : State) : Host.Outcome State Fault Refusal :=
  runOp (do
    rawAdmit m
    refuseTracked code
    refuseOverBurstMulti args.length
    multiArg code args) s

/-- RD_REG (R147). -/
def execRdReg (m : Mod) (addr : Word) (s : State) : Host.Outcome State Fault Refusal :=
  runOp (do
    rawAdmit m
    let v ← regRead addr
    update (fun t => { t with rdata := some v })) s

/-- WR_REG (R148). TGT is not updated, whatever the address. -/
def execWrReg (m : Mod) (addr val : Word) (s : State) : Host.Outcome State Fault Refusal :=
  runOp (do
    rawAdmit m
    regWrite addr val) s

end Sys2Proof.Machine
end

