-- ==== Sys2Proof/Machine/Session.lean ====
section
/-! DEFINITION. Device session bring-up: INIT and its steps (41_device_session.md R170 to R179). -/

namespace Sys2Proof.Machine

/-- `ResetPulse()` (R172, R7 `RESET_DELAYS_MS`). -/
def resetPulse : Op Unit := do
  resetLine 1
  delay 200
  resetLine 0
  delay 10
  resetLine 1
  delay 200

/-- The mirrors cleared and the session closed, right after the pulse (R171). -/
def clearSession : Op Unit :=
  update (fun s => { s with loadOpen := false, renderPending := false, session := .unready, desc := none })

/-- `GetDeviceInfo()`: the whole descriptor in one read frame (R174). -/
def getDeviceInfo : Op (List Word) := do
  let c ← readCfg
  txnCommand c.cmdGetDevInfo
  txnRead (descWords c)

/-- `VcomRead()`, by register or by command (R179). -/
def vcomRead : Op Word := do
  let c ← readCfg
  match c.vcomAccess with
  | .register a => regRead a
  | .command code => do
    txnCommand code
    txnWrite [0x0000]
    let ws ← txnRead 1
    pure (ws.headD 0)

/-- `VcomWrite(v)`, by register or by command (R179). -/
def vcomWrite (v : Word) : Op Unit := do
  let c ← readCfg
  match c.vcomAccess with
  | .register a => regWrite a v
  | .command code => do
    txnCommand code
    txnWrite [0x0001]
    txnWrite [v]

/-- `VcomReconcile(vcom)`: set VCOM only when it differs (R178). -/
def vcomReconcile (vcom : Word) : Op Unit := do
  let cur ← vcomRead
  if cur ≠ vcom then vcomWrite vcom else pure ()

/-- The absent-device check on the descriptor words (R175). -/
def requirePresent (ws : List Word) : Op Unit := do
  raiseIf (ws.getD 0 0 = 0) .deviceAbsent 1
  raiseIf (ws.getD 1 0 = 0) .deviceAbsent 2

/-- The commit, after every other step has succeeded (R177). -/
def commitSession (ws : List Word) : Op Unit :=
  update (fun s =>
    let d := decodeDesc s.cfg.versionWords ws
    { s with desc := some d, tgt := some d.imgAddr, session := .ready })

/-- INIT (R170, R171). -/
def execInit (m : Mod) (vcom : Word) (s : State) : Host.Outcome State Fault Refusal :=
  runOp (do
    checkMod maskNone m
    resetPulse
    clearSession
    let c ← readCfg
    txnCommand c.cmdSysRun
    let ws ← getDeviceInfo
    requirePresent ws
    regWrite c.regPackedCtrl c.packedEnableValue
    vcomReconcile vcom
    commitSession ws) s

end Sys2Proof.Machine
end

