-- ==== Sys2Proof/Machine/Dispatch.lean ====
section
/-! DEFINITION. One host operation: one arm per constructor of Instr, each one call of its meaning. -/

namespace Sys2Proof.Machine

def exec (i : Instr) (s : State) : Host.Outcome State Fault Refusal :=
  match i with
  | .wrCmd m code => Sys2Proof.Machine.execWrCmd m code s
  | .wrData m w => Sys2Proof.Machine.execWrData m w s
  | .wrMulti m ws => Sys2Proof.Machine.execWrMulti m ws s
  | .rdData m => Sys2Proof.Machine.execRdData m s
  | .rdMulti m n => Sys2Proof.Machine.execRdMulti m n s
  | .wrMultiArg m code args => Sys2Proof.Machine.execWrMultiArg m code args s
  | .rdReg m addr => Sys2Proof.Machine.execRdReg m addr s
  | .wrReg m addr val => Sys2Proof.Machine.execWrReg m addr val s
  | .init m vcom => Sys2Proof.Machine.execInit m vcom s
  | .beginLoad m tgt => Sys2Proof.Machine.execBeginLoad m tgt s
  | .beginLoadArea m tgt x y w h => Sys2Proof.Machine.execBeginLoadArea m tgt x y w h s
  | .endLoad m => Sys2Proof.Machine.execEndLoad m s
  | .load1bpp m tgt src stride x y w h => Sys2Proof.Machine.execLoad1bpp m tgt src stride x y w h s
  | .load2bpp m tgt src stride x y w h => Sys2Proof.Machine.execLoad2bpp m tgt src stride x y w h s
  | .load4bpp m tgt src stride x y w h => Sys2Proof.Machine.execLoad4bpp m tgt src stride x y w h s
  | .load8bpp m tgt src stride x y w h => Sys2Proof.Machine.execLoad8bpp m tgt src stride x y w h s
  | .displayArea m x y w h mode => Sys2Proof.Machine.execDisplayArea m x y w h mode s
  | .displayAreaBuf m x y w h mode adr => Sys2Proof.Machine.execDisplayAreaBuf m x y w h mode adr s
  | .display1bpp m x y w h mode fgbg adr => Sys2Proof.Machine.execDisplay1bpp m x y w h mode fgbg adr s
  | .waitRenderIdle m => Sys2Proof.Machine.execWaitRenderIdle m s
  | .clearAndRefresh m adr mode => Sys2Proof.Machine.execClearAndRefresh m adr mode s
  | .refresh1bpp m src x y w h adr => Sys2Proof.Machine.execRefresh1bpp m src x y w h adr s
  | .refresh2bpp m src x y w h adr => Sys2Proof.Machine.execRefresh2bpp m src x y w h adr s
  | .refresh4bpp m src x y w h adr => Sys2Proof.Machine.execRefresh4bpp m src x y w h adr s
  | .refresh8bpp m src x y w h adr => Sys2Proof.Machine.execRefresh8bpp m src x y w h adr s
  | .sleep m => Sys2Proof.Machine.execSleep m s
  | .standby m => Sys2Proof.Machine.execStandby m s

end Sys2Proof.Machine
end

