-- ==== Sys2Proof/WellFormed.lean ====
section
/-! DEFINITION. Which operations have a word list: the counts fit their 16-bit count word (30_encoding.md R91) and
DISPLAY_1BPP carries an address exactly when its B bit says so (R93, R94). Every decoded operation is well-formed. -/

namespace Sys2Proof

/-- The check of one operation. -/
def Instr.wf : Instr → Bool
  | .wrCmd _ _ => true
  | .wrData _ _ => true
  | .wrMulti _ ws => decide (ws.length ≤ 0xFFFF)
  | .rdData _ => true
  | .rdMulti _ _ => true
  | .wrMultiArg _ _ args => decide (args.length ≤ 0xFFFF)
  | .rdReg _ _ => true
  | .wrReg _ _ _ => true
  | .init _ _ => true
  | .beginLoad _ _ => true
  | .beginLoadArea _ _ _ _ _ _ => true
  | .endLoad _ => true
  | .load1bpp _ _ _ _ _ _ _ _ => true
  | .load2bpp _ _ _ _ _ _ _ _ => true
  | .load4bpp _ _ _ _ _ _ _ _ => true
  | .load8bpp _ _ _ _ _ _ _ _ => true
  | .displayArea _ _ _ _ _ _ => true
  | .displayAreaBuf _ _ _ _ _ _ _ => true
  | .display1bpp m _ _ _ _ _ _ adr => decide (m.getLsbD 0 = adr.isSome)
  | .waitRenderIdle _ => true
  | .clearAndRefresh _ _ _ => true
  | .refresh1bpp _ _ _ _ _ _ _ => true
  | .refresh2bpp _ _ _ _ _ _ _ => true
  | .refresh4bpp _ _ _ _ _ _ _ => true
  | .refresh8bpp _ _ _ _ _ _ _ => true
  | .sleep _ => true
  | .standby _ => true

/-- The operation has a word list (R91, R93). -/
abbrev WellFormed (i : Instr) : Prop := i.wf = true

end Sys2Proof
end

