-- ==== Sys2Proof/Decode.lean ====
section
/-! DEFINITION. The request decoder, total on any word list (30_encoding.md R90 to R97, R105, R106, R110), the
program decoder, and the encoder written from the same table (R94). -/

namespace Sys2Proof

open Sys2Proof.Machine

/-- `OP = H[15:8]` (R90). -/
def headerOp (h : Word) : Byte := hiByte h

/-- `MOD = H[7:0]` (R90). -/
def headerMod (h : Word) : Mod := loByte h

/-- A header from its OP and MOD (R90). -/
def header (op : Byte) (m : Mod) : Word := joinBytes op m

/-- The refusal of a request cut short; the program decoder fills in its position (R105 (b)). -/
def cutShort : Except DecodeError (Request × List Word) := .error (.truncated 0)

/-- Exactly `n` words and the rest, or nothing when fewer remain (R91). -/
def takeWords : Nat → List Word → Option (List Word × List Word)
  | 0, ws => some ([], ws)
  | _ + 1, [] => none
  | n + 1, w :: ws =>
    match takeWords n ws with
    | some (got, rest) => some (w :: got, rest)
    | none => none

/-- The nine operand words of LOAD_dBPP (R94). -/
def decodeLoad (mk : Addr → Addr → Word → Word → Word → Word → Word → Instr) :
    List Word → Except DecodeError (Request × List Word)
  | tl :: th :: sl :: sh :: stride :: x :: y :: w :: h :: rest =>
    .ok (.op (mk (joinHalves tl th) (joinHalves sl sh) stride x y w h), rest)
  | _ => cutShort

/-- The eight operand words of REFRESH_dBPP (R94). -/
def decodeRefresh (mk : Addr → Word → Word → Word → Word → Addr → Instr) :
    List Word → Except DecodeError (Request × List Word)
  | sl :: sh :: x :: y :: w :: h :: al :: ah :: rest =>
    .ok (.op (mk (joinHalves sl sh) x y w h (joinHalves al ah)), rest)
  | _ => cutShort

/-- WR_MULTI: a count word, then that many words (R91). -/
def decodeWrMulti (m : Mod) : List Word → Except DecodeError (Request × List Word)
  | n :: rest =>
    match takeWords n.toNat rest with
    | some (ws, rest') => .ok (.op (.wrMulti m ws), rest')
    | none => cutShort
  | _ => cutShort

/-- WR_MULTI_ARG: a code, a count word, then that many words (R91). -/
def decodeWrMultiArg (m : Mod) : List Word → Except DecodeError (Request × List Word)
  | code :: n :: rest =>
    match takeWords n.toNat rest with
    | some (args, rest') => .ok (.op (.wrMultiArg m code args), rest')
    | none => cutShort
  | _ => cutShort

/-- DISPLAY_1BPP: six words, and two address words when B = MOD[0] is 1 (R91, R93). -/
def decodeDisplay1bpp (m : Mod) : List Word → Except DecodeError (Request × List Word)
  | x :: y :: w :: h :: mode :: fgbg :: rest =>
    if m.getLsbD 0 then
      match rest with
      | al :: ah :: rest' => .ok (.op (.display1bpp m x y w h mode fgbg (some (joinHalves al ah))), rest')
      | _ => cutShort
    else .ok (.op (.display1bpp m x y w h mode fgbg none), rest)
  | _ => cutShort

/-- An operation with one operand word. -/
def decode1 (mk : Word → Instr) : List Word → Except DecodeError (Request × List Word)
  | a :: rest => .ok (.op (mk a), rest)
  | _ => cutShort

/-- An operation with two operand words. -/
def decode2 (mk : Word → Word → Instr) : List Word → Except DecodeError (Request × List Word)
  | a :: b :: rest => .ok (.op (mk a b), rest)
  | _ => cutShort

/-- BEGIN_LOAD_AREA: an address and four words. -/
def decodeBeginLoadArea (m : Mod) : List Word → Except DecodeError (Request × List Word)
  | tl :: th :: x :: y :: w :: h :: rest => .ok (.op (.beginLoadArea m (joinHalves tl th) x y w h), rest)
  | _ => cutShort

/-- DISPLAY_AREA: five words. -/
def decodeDisplayArea (m : Mod) : List Word → Except DecodeError (Request × List Word)
  | x :: y :: w :: h :: mode :: rest => .ok (.op (.displayArea m x y w h mode), rest)
  | _ => cutShort

/-- DISPLAY_AREA_BUF: five words and an address. -/
def decodeDisplayAreaBuf (m : Mod) : List Word → Except DecodeError (Request × List Word)
  | x :: y :: w :: h :: mode :: al :: ah :: rest =>
    .ok (.op (.displayAreaBuf m x y w h mode (joinHalves al ah)), rest)
  | _ => cutShort

/-- CLEAR_AND_REFRESH: an address and a word. -/
def decodeClear (m : Mod) : List Word → Except DecodeError (Request × List Word)
  | al :: ah :: mode :: rest => .ok (.op (.clearAndRefresh m (joinHalves al ah) mode), rest)
  | _ => cutShort

/-- The operand words of the operation `op` with modifier `m`, whose header is `h` (R94, R96). -/
def decodeBody (op : Byte) (m : Mod) (h : Word) (ws : List Word) : Except DecodeError (Request × List Word) :=
  if op = 0x01 then decode1 (.wrCmd m) ws
  else if op = 0x02 then decode1 (.wrData m) ws
  else if op = 0x03 then decodeWrMulti m ws
  else if op = 0x04 then .ok (.op (.rdData m), ws)
  else if op = 0x05 then decode1 (.rdMulti m) ws
  else if op = 0x06 then decodeWrMultiArg m ws
  else if op = 0x07 then decode1 (.rdReg m) ws
  else if op = 0x08 then decode2 (.wrReg m) ws
  else if op = 0x10 then decode1 (.init m) ws
  else if op = 0x20 then decode2 (fun tl th => .beginLoad m (joinHalves tl th)) ws
  else if op = 0x21 then decodeBeginLoadArea m ws
  else if op = 0x22 then .ok (.op (.endLoad m), ws)
  else if op = 0x31 then decodeLoad (.load1bpp m) ws
  else if op = 0x32 then decodeLoad (.load2bpp m) ws
  else if op = 0x34 then decodeLoad (.load4bpp m) ws
  else if op = 0x38 then decodeLoad (.load8bpp m) ws
  else if op = 0x40 then decodeDisplayArea m ws
  else if op = 0x41 then decodeDisplayAreaBuf m ws
  else if op = 0x42 then decodeDisplay1bpp m ws
  else if op = 0x43 then .ok (.op (.waitRenderIdle m), ws)
  else if op = 0x44 then decodeClear m ws
  else if op = 0x51 then decodeRefresh (.refresh1bpp m) ws
  else if op = 0x52 then decodeRefresh (.refresh2bpp m) ws
  else if op = 0x54 then decodeRefresh (.refresh4bpp m) ws
  else if op = 0x58 then decodeRefresh (.refresh8bpp m) ws
  else if op = 0x60 then .ok (.op (.sleep m), ws)
  else if op = 0x61 then .ok (.op (.standby m), ws)
  else .ok (.reserved h, ws)

/-- One request from the front of a word list, and the words after it; or the refusal `Truncated` (R105). -/
def decodeRequest : List Word → Except DecodeError (Request × List Word)
  | [] => cutShort
  | h :: ws => decodeBody (headerOp h) (headerMod h) h ws

/-- The requests of a word list from position `pos` on. `fuel` bounds their number; a request takes at least one
word, so the length of the list is enough (R90, R105). -/
def decodeFrom : (fuel : Nat) → (pos : Nat) → List Word → Except DecodeError (List Request)
  | _, _, [] => .ok []
  | 0, pos, _ :: _ => .error (.truncated pos)
  | fuel + 1, pos, h :: ws =>
    match decodeRequest (h :: ws) with
    | .error _ => .error (.truncated pos)
    | .ok (r, rest) =>
      match decodeFrom fuel (pos + 1) rest with
      | .error e => .error e
      | .ok rs => .ok (r :: rs)

/-- The program of a word list: its requests, with no padding between them, or the position of the request that is
cut short (R90, R105, R110). -/
def decodeProgram (ws : List Word) : Except DecodeError (List Request) := decodeFrom ws.length 0 ws

/-- The words of an address operand, low half first (R92). -/
def addrWords (a : Addr) : List Word := [loHalf a, hiHalf a]

/-- A count word (R91). -/
def countWord (n : Nat) : Word := BitVec.ofNat 16 n

/-- The words of LOAD_dBPP's operands. -/
def loadOperandWords (tgt src : Addr) (stride x y w h : Word) : List Word :=
  addrWords tgt ++ addrWords src ++ [stride, x, y, w, h]

/-- The words of REFRESH_dBPP's operands. -/
def refreshOperandWords (src : Addr) (x y w h : Word) (adr : Addr) : List Word :=
  addrWords src ++ [x, y, w, h] ++ addrWords adr

/-- The OP of each operation (R94). -/
def Instr.opcode : Instr → Byte
  | .wrCmd _ _ => 0x01
  | .wrData _ _ => 0x02
  | .wrMulti _ _ => 0x03
  | .rdData _ => 0x04
  | .rdMulti _ _ => 0x05
  | .wrMultiArg _ _ _ => 0x06
  | .rdReg _ _ => 0x07
  | .wrReg _ _ _ => 0x08
  | .init _ _ => 0x10
  | .beginLoad _ _ => 0x20
  | .beginLoadArea _ _ _ _ _ _ => 0x21
  | .endLoad _ => 0x22
  | .load1bpp _ _ _ _ _ _ _ _ => 0x31
  | .load2bpp _ _ _ _ _ _ _ _ => 0x32
  | .load4bpp _ _ _ _ _ _ _ _ => 0x34
  | .load8bpp _ _ _ _ _ _ _ _ => 0x38
  | .displayArea _ _ _ _ _ _ => 0x40
  | .displayAreaBuf _ _ _ _ _ _ _ => 0x41
  | .display1bpp _ _ _ _ _ _ _ _ => 0x42
  | .waitRenderIdle _ => 0x43
  | .clearAndRefresh _ _ _ => 0x44
  | .refresh1bpp _ _ _ _ _ _ _ => 0x51
  | .refresh2bpp _ _ _ _ _ _ _ => 0x52
  | .refresh4bpp _ _ _ _ _ _ _ => 0x54
  | .refresh8bpp _ _ _ _ _ _ _ => 0x58
  | .sleep _ => 0x60
  | .standby _ => 0x61

/-- The MOD byte of each operation (R90). -/
def Instr.modByte : Instr → Mod
  | .wrCmd m _ => m
  | .wrData m _ => m
  | .wrMulti m _ => m
  | .rdData m => m
  | .rdMulti m _ => m
  | .wrMultiArg m _ _ => m
  | .rdReg m _ => m
  | .wrReg m _ _ => m
  | .init m _ => m
  | .beginLoad m _ => m
  | .beginLoadArea m _ _ _ _ _ => m
  | .endLoad m => m
  | .load1bpp m _ _ _ _ _ _ _ => m
  | .load2bpp m _ _ _ _ _ _ _ => m
  | .load4bpp m _ _ _ _ _ _ _ => m
  | .load8bpp m _ _ _ _ _ _ _ => m
  | .displayArea m _ _ _ _ _ => m
  | .displayAreaBuf m _ _ _ _ _ _ => m
  | .display1bpp m _ _ _ _ _ _ _ => m
  | .waitRenderIdle m => m
  | .clearAndRefresh m _ _ => m
  | .refresh1bpp m _ _ _ _ _ _ => m
  | .refresh2bpp m _ _ _ _ _ _ => m
  | .refresh4bpp m _ _ _ _ _ _ => m
  | .refresh8bpp m _ _ _ _ _ _ => m
  | .sleep m => m
  | .standby m => m

/-- The operand words that follow the header (R92, R94). -/
def Instr.operandWords : Instr → List Word
  | .wrCmd _ code => [code]
  | .wrData _ w => [w]
  | .wrMulti _ ws => countWord ws.length :: ws
  | .rdData _ => []
  | .rdMulti _ n => [n]
  | .wrMultiArg _ code args => code :: countWord args.length :: args
  | .rdReg _ addr => [addr]
  | .wrReg _ addr val => [addr, val]
  | .init _ vcom => [vcom]
  | .beginLoad _ tgt => addrWords tgt
  | .beginLoadArea _ tgt x y w h => addrWords tgt ++ [x, y, w, h]
  | .endLoad _ => []
  | .load1bpp _ tgt src stride x y w h => loadOperandWords tgt src stride x y w h
  | .load2bpp _ tgt src stride x y w h => loadOperandWords tgt src stride x y w h
  | .load4bpp _ tgt src stride x y w h => loadOperandWords tgt src stride x y w h
  | .load8bpp _ tgt src stride x y w h => loadOperandWords tgt src stride x y w h
  | .displayArea _ x y w h mode => [x, y, w, h, mode]
  | .displayAreaBuf _ x y w h mode adr => [x, y, w, h, mode] ++ addrWords adr
  | .display1bpp _ x y w h mode fgbg adr =>
    [x, y, w, h, mode, fgbg] ++ (match adr with | some a => addrWords a | none => [])
  | .waitRenderIdle _ => []
  | .clearAndRefresh _ adr mode => addrWords adr ++ [mode]
  | .refresh1bpp _ src x y w h adr => refreshOperandWords src x y w h adr
  | .refresh2bpp _ src x y w h adr => refreshOperandWords src x y w h adr
  | .refresh4bpp _ src x y w h adr => refreshOperandWords src x y w h adr
  | .refresh8bpp _ src x y w h adr => refreshOperandWords src x y w h adr
  | .sleep _ => []
  | .standby _ => []

/-- The words of an operation: its header, then its operands (R90, R94). -/
def encode (i : Instr) : List Word := header i.opcode i.modByte :: i.operandWords

/-- The number of words of the request whose header is `h` and whose first two operand words are `w1` and `w2` (R91,
R94); 1 for a reserved OP (R96). -/
def requestLength (h w1 w2 : Word) : Nat :=
  let op := headerOp h
  if op = 0x03 then 2 + w1.toNat
  else if op = 0x06 then 3 + w2.toNat
  else if op = 0x42 then (if (headerMod h).getLsbD 0 then 9 else 7)
  else if op = 0x01 ∨ op = 0x02 ∨ op = 0x05 ∨ op = 0x07 ∨ op = 0x10 then 2
  else if op = 0x08 ∨ op = 0x20 then 3
  else if op = 0x44 then 4
  else if op = 0x40 then 6
  else if op = 0x21 then 7
  else if op = 0x41 then 8
  else if op = 0x51 ∨ op = 0x52 ∨ op = 0x54 ∨ op = 0x58 then 9
  else if op = 0x31 ∨ op = 0x32 ∨ op = 0x34 ∨ op = 0x38 then 10
  else 1

/-- The words given by `nbits` bits numbered as spec/opcode_table.json numbers them: word `k` is bits
`16k+15 .. 16k` of `w`. -/
def tableWords (nbits w : Nat) : List Word :=
  (List.range ((max nbits 16 + 15) / 16)).map (fun k => BitVec.ofNat 16 ((w % 2 ^ nbits) >>> (16 * k)))

/-- The request of a table word: the given words, and words of zeros up to the request's length (R91). -/
def tableRequestWords (nbits w : Nat) : List Word :=
  let ws := tableWords nbits w
  ws ++ List.replicate (requestLength (ws.getD 0 0) (ws.getD 1 0) (ws.getD 2 0) - ws.length) 0

/-- The operation the decoder reads from a table word whose operand words above `nbits` are zeros. -/
def decodeTableWord (nbits w : Nat) : Option Instr :=
  match decodeRequest (tableRequestWords nbits w) with
  | .ok (.op i, _) => some i
  | .ok (.reserved _, _) => none
  | .error _ => none

end Sys2Proof
end

