-- ==== Sys2Proof/Machine/Fetch.lean ====
section
/-! DEFINITION. Fetching the next request: the launch premises a step checks (70_reset_and_hazards.md R343), and the
request at `pc` in the program its word list decodes to (10_state.md R23, 30_encoding.md R105). -/

namespace Sys2Proof.Machine

/-- The request at `pc`. A configuration outside R38 and a word list that is cut short admit no run (R38, R110, R314);
past the last request the run has ended (R347). -/
def fetch (s : State) : Except Refusal Request :=
  if configLegal s.cfg then
    match decodeProgram s.prog with
    | .error (.truncated pos) => .error (.truncated pos)
    | .ok rs =>
      match rs[s.pc]? with
      | some r => .ok r
      | none => .error .endOfRun
  else .error .illegalConfiguration

/-- The words of the first `n` requests of a word list, and how many requests are missing from it (a list cut short
yields no request there). -/
def leadingWords : (n : Nat) → List Word → List Word × Nat
  | 0, _ => ([], 0)
  | n + 1, ws =>
    match decodeRequest ws with
    | .error _ => ([], n + 1)
    | .ok (_, rest) =>
      let (got, missing) := leadingWords n rest
      (ws.take (ws.length - rest.length) ++ got, missing)

/-- The program whose request at `pc` is the one of the table word: the requests before `pc` as they are (a one-word
reserved request for each that is missing), then that request, and nothing after it (log 18). -/
def progWithTableWord (pc : Nat) (ws : List Word) (nbits w : Nat) : List Word :=
  let (lead, missing) := leadingWords pc ws
  lead ++ List.replicate missing 0 ++ tableRequestWords nbits w

end Sys2Proof.Machine
end

