-- ==== Sys2Proof/Machine/Step.lean ====
section
/-! DEFINITION. One step of the machine: fetch the request at `pc` and run it whole (00_scope.md R18,
70_reset_and_hazards.md R346). -/

namespace Sys2Proof.Machine

/-- One step: one whole host operation, or the reason there is none. -/
def step (s : State) : Host.Outcome State Fault Refusal :=
  match fetch s with
  | .error r => .refused r
  | .ok (.reserved h) => execReserved h s
  | .ok (.op i) => exec i s

/-- `s` with the request of a table word placed where `step` fetches its next request (log 2, 18). -/
def State.withFetchWord (s : State) (nbits w : Nat) : State :=
  { s with prog := progWithTableWord s.pc s.prog nbits w }

end Sys2Proof.Machine
end

