-- ==== Sys2Proof/Safety.lean ====
section
/-! DEFINITION. The terms claims are stated in: the wire as frames and collapsed traces (20_memory.md R64, 30_encoding.md
R100, R109), the frames each operation of the spec sends, what the chip's answers must be for an operation not to
wait for ever, the invariant of the machine's states, and the pairing of begin-load and end-load commands (R209).
Nothing here is used by a step. -/

namespace Sys2Proof.Safety

open Sys2Proof.Machine

/-! ### The wire -/

/-- An event of a collapsed trace: `WAIT`, or an event that is not part of an ended busy-wait (R64). -/
inductive Wire where
  | wait
  | event (e : Event)
  deriving DecidableEq, Repr

/-- The samples at the head of the list reach an idle one: none, one or more busy samples, and then the idle one. -/
def reachesIdle (idle : BitVec 1) : List Event → Bool
  | .poll s :: es => decide (s = idle) || reachesIdle idle es
  | _ => false

/-- The collapsed trace (R64) of the events of one operation: each run of busy samples that ends with an idle one is one
`WAIT`. The busy samples of a wait that was given up, which no idle one follows, stay. The events are those of one
operation, because the list alone does not show where one operation's given-up wait ends and the next one's begins. -/
def collapsed (idle : BitVec 1) : List Event → List Wire
  | [] => []
  | .poll s :: es =>
    if s = idle then .wait :: collapsed idle es
    else if reachesIdle idle es = true then collapsed idle es
    else .event (.poll s) :: collapsed idle es
  | .sel :: es => .event .sel :: collapsed idle es
  | .rel :: es => .event .rel :: collapsed idle es
  | .tx b :: es => .event (.tx b) :: collapsed idle es
  | .rx b :: es => .event (.rx b) :: collapsed idle es
  | .delay ms :: es => .event (.delay ms) :: collapsed idle es
  | .rst l :: es => .event (.rst l) :: collapsed idle es

/-- What an operation puts on the wire, in the abbreviations of R109: `CMD(c)`, `WR(...)`, `RD(n; ...)` with its
dummy word, `RST(l)`, `DELAY(ms)`. -/
inductive Frame where
  | cmd (code : Word)
  | wr (ws : List Word)
  | rd (dummy : Word) (vs : List Word)
  | rst (l : BitVec 1)
  | delay (ms : Nat)
  deriving DecidableEq, Repr

/-- A word sent, high byte first (R65). -/
def sentWord (w : Word) : List Wire := [.event (.tx (hiByte w)), .event (.tx (loByte w))]

/-- A word received, high byte first (R65). -/
def receivedWord (w : Word) : List Wire := [.event (.rx (hiByte w)), .event (.rx (loByte w))]

/-- A transaction: wait, select, the two preamble bytes, wait, payload, release (R100, R130). -/
def transaction (p0 p1 : Byte) (payload : List Wire) : List Wire :=
  [.wait, .event .sel, .event (.tx p0), .event (.tx p1), .wait] ++ payload ++ [.event .rel]

/-- The collapsed events of a frame (R99, R100, R109). -/
def frameWires : Frame → List Wire
  | .cmd c => transaction 0x60 0x00 (sentWord c)
  | .wr ws => transaction 0x00 0x00 (ws.flatMap sentWord)
  | .rd dummy vs => transaction 0x10 0x00 (receivedWord dummy ++ vs.flatMap receivedWord)
  | .rst l => [.event (.rst l)]
  | .delay ms => [.event (.delay ms)]

/-- The busy-waits of a frame: two of each transaction (R130). -/
def frameWaits : Frame → Nat
  | .cmd _ => 2
  | .wr _ => 2
  | .rd _ _ => 2
  | .rst _ => 0
  | .delay _ => 0

/-- The busy-waits of a list of frames. -/
def waitsOf (fs : List Frame) : Nat := (fs.map frameWaits).sum

/-- Between `s` and `t`, the states around one operation, the frames `fs` went over the wire in this order, and after
them the events `last`, in collapsed form, of a frame that was given up. -/
def EmittedThen (s t : State) (fs : List Frame) (last : List Wire) : Prop :=
  ∃ es, t.trace = s.trace ++ es ∧ collapsed s.cfg.busyIdleLevel es = fs.flatMap frameWires ++ last

/-- Between `s` and `t` exactly the frames `fs` went over the wire, in this order, all their busy-waits ended. -/
def Emitted (s t : State) (fs : List Frame) : Prop :=
  ∃ es, t.trace = s.trace ++ es ∧ collapsed s.cfg.busyIdleLevel es = fs.flatMap frameWires

/-- What stands in the trace after the last whole frame of an operation that ended in `t`: nothing; or, after a busy-wait
that reached its limit, its busy samples, and in phase 2 the select and the preamble before them and the epilogue's
release after them (R130, R131, R308, R310). -/
def GivenUp (c : Config) (t : State) (last : List Wire) : Prop :=
  let busy := List.replicate (c.pollLimit.getD 0) (Wire.event (.poll (~~~c.busyIdleLevel)))
  if t.res = 1 ∧ t.einfo = 1 then last = busy
  else if t.res = 1 ∧ t.einfo = 2 then
    ∃ pre ∈ ([0x6000, 0x0000, 0x1000] : List Word), last = [.wait, .event .sel] ++ sentWord pre ++ busy ++ [.event .rel]
  else last = []

/-- A data frame carries between 1 and `B_WORDS` words, the dummy word not counted (R71, R134). -/
def WithinBurst (c : Config) : Frame → Prop
  | .cmd _ => True
  | .wr ws => 1 ≤ ws.length ∧ ws.length ≤ c.bWords
  | .rd _ vs => 1 ≤ vs.length ∧ vs.length ≤ c.bWords
  | .rst _ => True
  | .delay _ => True

/-- The whole events of one transaction, busy samples and all: `a` of them before the preamble, `b` after it (R130,
R131). -/
def transactionEvents (idle : BitVec 1) (a b : Nat) (pre : Word) (payload : List Event) : List Event :=
  endedPolls idle a ++ [.sel, .tx (hiByte pre), .tx (loByte pre)] ++ endedPolls idle b ++ payload ++ [.rel]

/-! ### The chip's answers -/

/-- A busy-wait with `k` busy samples ends with an idle one: the limit, if any, is not reached (R131). -/
def EndsWithin (limit : Option Nat) (k : Nat) : Prop := ∀ l, limit = some l → k < l

/-- The chip's queue answers the next `n` busy-waits, and each of them ends. -/
def WaitsEnd (s : State) (n : Nat) : Prop :=
  n ≤ s.chip.waits.length ∧ ∀ r ∈ s.chip.waits.take n, ∃ k, r = .idleAfter k ∧ EndsWithin s.cfg.pollLimit k

/-- The `k`-th byte the chip answers from here on (R17): from its queue, or a free value. -/
def rxAt (c : Oracle) (k : Nat) : Byte :=
  if k < c.rx.length then c.rx.getD k 0 else Config.freeRx (c.freeRx + (k - c.rx.length))

/-- The `k`-th word the chip answers from here on. -/
def rxWordAt (c : Oracle) (k : Nat) : Word := joinBytes (rxAt c (2 * k)) (rxAt c (2 * k + 1))

/-- The words `k .. k+n-1` the chip answers from here on. -/
def rxWordsFrom (c : Oracle) (k n : Nat) : List Word := (List.range n).map (fun i => rxWordAt c (k + i))

/-- The next allocation outcome (R306). -/
def nextAlloc (c : Oracle) : Bool := (drawAlloc c).1

/-! ### The frames of the spec's procedures -/

/-- A list cut into `ceil(length/b)` pieces of `b` words, but the last (R229). -/
def burstsOf (b : Nat) (ws : List Word) : List (List Word) :=
  (List.range (ceilDiv ws.length b)).map (fun i => (ws.drop (i * b)).take b)

/-- The words of each argument frame (R136): one word each, or all the arguments in one frame; or, where the arguments are
more than `B_WORDS`, pieces of `B_WORDS` words, which is the model's choice (log 20). -/
def argumentFrames (c : Config) (args : List Word) : List (List Word) :=
  match c.argFraming with
  | .perWord => args.map (fun a => [a])
  | .multi =>
    if args = [] then [] else if args.length ≤ c.bWords then [args] else burstsOf c.bWords args

/-- `MultiArg(code, args)` (R136). -/
def multiArgFrames (c : Config) (code : Word) (args : List Word) : List Frame :=
  .cmd code :: (argumentFrames c args).map (fun ws => .wr ws)

/-- `RegWrite(a, v)` (R138). -/
def regWriteFrames (c : Config) (a v : Word) : List Frame := multiArgFrames c c.cmdRegWr [a, v]

/-- `RegRead(a)` that answers `v` (R137). -/
def regReadFrames (c : Config) (a dummy v : Word) : List Frame := [.cmd c.cmdRegRd, .wr [a], .rd dummy [v]]

/-- `SetTargetAddr(a)` (R200), written ADDR(a) in the spec's examples. -/
def targetFrames (c : Config) (a : Addr) : List Frame :=
  regWriteFrames c c.regAddrLo (loHalf a) ++ regWriteFrames c c.regAddrHi (hiHalf a)

/-- `BeginLoadCore` (R201). -/
def beginLoadFrames (c : Config) (e : Endian) (p : ChipFormat) (r : Rotation) (a : Addr) : List Frame :=
  targetFrames c a ++ multiArgFrames c c.cmdLdImg [fmtWord c e p r]

/-- `BeginLoadAreaCore` (R202). -/
def beginAreaFrames (c : Config) (e : Endian) (p : ChipFormat) (r : Rotation) (a : Addr) (x y w h : Word) :
    List Frame :=
  targetFrames c a ++ multiArgFrames c c.cmdLdImgArea [fmtWord c e p r, x, y, w, h]

/-- `DisplayCore` (R263). -/
def displayFrames (c : Config) (x y w h mode : Word) (adr : Option Addr) : List Frame :=
  match adr with
  | none => multiArgFrames c c.cmdDpyArea [x, y, w, h, mode]
  | some a => multiArgFrames c c.cmdDpyBufArea [x, y, w, h, mode, loHalf a, hiHalf a]

/-- `ResetPulse` (R172). -/
def resetFrames : List Frame := [.rst 1, .delay 200, .rst 0, .delay 10, .rst 1, .delay 200]

/-- `VcomRead` that answers `v` (R179). -/
def vcomReadFrames (c : Config) (dummy v : Word) : List Frame :=
  match c.vcomAccess with
  | .register a => regReadFrames c a dummy v
  | .command code => [.cmd code, .wr [0x0000], .rd dummy [v]]

/-- `VcomWrite(v)` (R179). -/
def vcomWriteFrames (c : Config) (v : Word) : List Frame :=
  match c.vcomAccess with
  | .register a => regWriteFrames c a v
  | .command code => [.cmd code, .wr [0x0001], .wr [v]]

/-- The frames of INIT up to the descriptor read, whose words are the chip's words `1 .. DESC_WORDS` (R171 to R174). -/
def bringUpFrames (c : Config) (chip : Oracle) : List Frame :=
  resetFrames ++ [.cmd c.cmdSysRun, .cmd c.cmdGetDevInfo,
    .rd (rxWordAt chip 0) (rxWordsFrom chip 1 (4 + 2 * c.versionWords))]

/-- The frames of INIT after the descriptor read: packed-write enable, VCOM read, and VCOM set only when it differs
(R176, R178). -/
def reconcileFrames (c : Config) (chip : Oracle) (vcom : Word) : List Frame :=
  regWriteFrames c c.regPackedCtrl c.packedEnableValue ++
    vcomReadFrames c (rxWordAt chip (5 + 2 * c.versionWords)) (rxWordAt chip (6 + 2 * c.versionWords)) ++
    (if rxWordAt chip (6 + 2 * c.versionWords) = vcom then [] else vcomWriteFrames c vcom)

/-- The bytes of words, high byte first (R174). -/
def bytesOfWords (ws : List Word) : List Byte := ws.flatMap (fun w => [hiByte w, loByte w])

/-- The descriptor in the chip's words `1 .. DESC_WORDS` (R174, R104). -/
def descriptorIn (c : Config) (chip : Oracle) : Descriptor where
  panelW := rxWordAt chip 1
  panelH := rxWordAt chip 2
  imgAddr := joinHalves (rxWordAt chip 3) (rxWordAt chip 4)
  fwVer := bytesOfWords (rxWordsFrom chip 5 c.versionWords)
  lutVer := bytesOfWords (rxWordsFrom chip (5 + c.versionWords) c.versionWords)

/-- `n` render-status readings of the words the chip answers from word `k` on: each a dummy and a value (R266). -/
def statusFrames (c : Config) (chip : Oracle) (k n : Nat) : List Frame :=
  (List.range n).flatMap (fun i =>
    regReadFrames c c.regRenderStatus (rxWordAt chip (k + 2 * i)) (rxWordAt chip (k + 2 * i + 1)))

/-- The reading that is the `i`-th of a render poll starting at word `k` shows a busy bit (R266). -/
def statusBusy (c : Config) (chip : Oracle) (k i : Nat) : Prop :=
  rxWordAt chip (k + 2 * i + 1) &&& c.renderBusyMask ≠ 0

/-- A render poll starting at the chip's word `k` sees `n` busy readings, within the limit, and then an idle one
(R266). All of them stand in the chip's queue. -/
def RenderEnds (s : State) (k n : Nat) : Prop :=
  (∀ i, i < n → statusBusy s.cfg s.chip k i) ∧ ¬ statusBusy s.cfg s.chip k n ∧
    EndsWithin s.cfg.renderPollLimit n ∧ 2 * (k + 2 * n + 2) ≤ s.chip.rx.length

/-- The 1-bpp display sequence up to its display command: mode bit on, blend, display (R269). -/
def display1bppOpening (c : Config) (chip : Oracle) (x y w h mode : Word) (fg bg : Byte) (adr : Option Addr) :
    List Frame :=
  let on := rxWordAt chip 1
  regReadFrames c c.regCtrlHi (rxWordAt chip 0) on ++ regWriteFrames c c.regCtrlHi (on ||| 0x0004) ++
    regWriteFrames c c.regBlend (blendWord c fg bg) ++ displayFrames c x y w h mode adr

/-- The 1-bpp display sequence, whose `n + 1` render-status readings start at the chip's word 2 (R269): mode bit on,
blend, display, render wait, mode bit off. -/
def display1bppFrames (c : Config) (chip : Oracle) (x y w h mode : Word) (fg bg : Byte) (adr : Option Addr) (n : Nat) :
    List Frame :=
  let off := rxWordAt chip (2 * n + 5)
  display1bppOpening c chip x y w h mode fg bg adr ++ statusFrames c chip 2 (n + 1) ++
    regReadFrames c c.regCtrlHi (rxWordAt chip (2 * n + 4)) off ++ regWriteFrames c c.regCtrlHi (off &&& 0xFFFB)

/-! ### The words of a load (43_pixel_packing.md) -/

/-- Word `k` of row `r` of a load (R225), or of a fill (R244). -/
def pixelWord (s : State) (j : LoadJob) (r k : Nat) : Word :=
  match j.fill with
  | some f => joinBytes f f
  | none =>
    let a := j.src.toNat + r * j.stride + 2 * k
    pairWord s.cfg.pairOrder (s.src.read a) (s.src.read (a + 1))

/-- The words of row `r`. -/
def rowWords (s : State) (j : LoadJob) (r : Nat) : List Word :=
  (List.range (wordsPerRow j.d j.w.toNat)).map (pixelWord s j r)

/-- The words of telegram `t`: its rows one after another (R228, R229). -/
def telegramWords (s : State) (j : LoadJob) (t : Nat) : List Word :=
  (List.range (min s.cfg.tRows (j.h.toNat - t * s.cfg.tRows))).flatMap (fun i => rowWords s j (t * s.cfg.tRows + i))

/-- The frames of a telegram that carries the given bursts: begin-area, the bursts with a delay between two of them,
end (R228 to R233). -/
def telegramFrames (s : State) (j : LoadJob) (t : Nat) (bursts : List (List Word)) : List Frame :=
  beginAreaFrames s.cfg j.e (loadFormat j.d) j.r j.tgt (chipUnits j.d j.x)
      (BitVec.ofNat 16 (j.y.toNat + t * s.cfg.tRows)) (chipUnits j.d j.w)
      (BitVec.ofNat 16 (min s.cfg.tRows (j.h.toNat - t * s.cfg.tRows)))
    ++ (bursts.map Frame.wr).intersperse (.delay s.cfg.interBurstDelayMs) ++ [.cmd s.cfg.cmdLdImgEnd]

/-- The frames of `LoadImage` (R230). -/
def loadFrames (s : State) (j : LoadJob) : List Frame :=
  (List.range (ceilDiv j.h.toNat s.cfg.tRows)).flatMap
    (fun t => telegramFrames s j t (burstsOf s.cfg.bWords (telegramWords s j t)))

/-- The first refusal `AreaCheck` finds on a panel (R205). -/
def areaRefusal (x y w h panelW panelH : Word) : Option Byte :=
  if w = 0 ∨ h = 0 then some 1
  else if x.toNat + w.toNat > panelW.toNat then some 2
  else if y.toNat + h.toNat > panelH.toNat then some 3
  else none

/-- The first refusal `LoadGeom` finds (R224). -/
def geometryRefusal (c : Config) (d : Descriptor) (j : LoadJob) : Option Byte :=
  match areaRefusal j.x j.y j.w j.h d.panelW d.panelH with
  | some i => some i
  | none =>
    if c.rowAlign = .reject ∧ j.w.toNat * depthBits j.d % 16 ≠ 0 then some 4
    else if j.w.toNat * depthBits j.d / 8 / 2 = 0 then some 4
    else if j.d = .d1 ∧ j.x.toNat % 8 ≠ 0 then some 5
    else if j.stride < j.w.toNat * depthBits j.d / 8 then some 6
    else none

/-- The first refusal `LoadImage` finds, as the code and detail of R300: geometry, footprint, allocation (R224, R226,
R227, R305). -/
def loadRefusal (s : State) (d : Descriptor) (j : LoadJob) : Option (Byte × Byte) :=
  match geometryRefusal s.cfg d j with
  | some i => some (4, i)
  | none =>
    if j.fill = none ∧
        j.src.toNat + (j.h.toNat - 1) * j.stride + 2 * (j.w.toNat * depthBits j.d / 8 / 2) - 1 ≥ s.cfg.srcSize.toNat
    then some (6, 0)
    else if nextAlloc s.chip = false then some (3, 0)
    else none

/-- The job of a LOAD_dBPP operation (R240 to R243). -/
def loadJob (d : Depth) (m : Mod) (tgt src : Addr) (stride x y w h : Word) : LoadJob :=
  { d := d, e := modEndian m, r := modRot m, tgt := tgt, src := src, stride := stride.toNat,
    x := x, y := y, w := w, h := h, fill := none }

/-- The job of CLEAR_AND_REFRESH on a panel (R271). -/
def clearJob (c : Config) (d : Descriptor) (adr : Addr) : LoadJob :=
  { d := .d4, e := .little, r := 0, tgt := adr, src := 0, stride := d.panelW.toNat * 4 / 8,
    x := 0, y := 0, w := d.panelW, h := d.panelH, fill := some c.clearFill }

/-- The job of a REFRESH_dBPP operation (R272). -/
def refreshJob (d : Depth) (src : Addr) (x y w h : Word) (adr : Addr) : LoadJob :=
  { d := d, e := .little, r := 0, tgt := adr, src := src, stride := w.toNat * depthBits d / 8,
    x := x, y := y, w := w, h := h, fill := none }

/-- The bytes of a word in source order (R235). -/
def unpackWord (o : PairOrder) (w : Word) : List Byte :=
  match o with
  | .firstHigh => [hiByte w, loByte w]
  | .firstLow => [loByte w, hiByte w]

/-- The `n` bytes of SRC from address `a` on. -/
def sourceBytes (s : State) (a n : Nat) : List Byte := (List.range n).map (fun i => s.src.read (a + i))

/-- LOAD_dBPP of each depth (R220). -/
def loadInstr (d : Depth) (m : Mod) (tgt src : Addr) (stride x y w h : Word) : Instr :=
  match d with
  | .d1 => .load1bpp m tgt src stride x y w h
  | .d2 => .load2bpp m tgt src stride x y w h
  | .d4 => .load4bpp m tgt src stride x y w h
  | .d8 => .load8bpp m tgt src stride x y w h

/-- REFRESH_dBPP of each depth (R272). -/
def refreshInstr (d : Depth) (m : Mod) (src : Addr) (x y w h : Word) (adr : Addr) : Instr :=
  match d with
  | .d1 => .refresh1bpp m src x y w h adr
  | .d2 => .refresh2bpp m src x y w h adr
  | .d4 => .refresh4bpp m src x y w h adr
  | .d8 => .refresh8bpp m src x y w h adr

/-- The state after one allocation draw (R306). -/
def afterAllocDraw (s : State) : State := { s with chip := (drawAlloc s.chip).2 }

/-! ### Requests and programs (30_encoding.md) -/

/-- The reserved OP values, as R96 lists them. -/
def ReservedOp (n : Nat) : Prop :=
  n = 0x00 ∨ (0x09 ≤ n ∧ n ≤ 0x0F) ∨ (0x11 ≤ n ∧ n ≤ 0x1F) ∨ (0x23 ≤ n ∧ n ≤ 0x30) ∨ n = 0x33 ∨
    (0x35 ≤ n ∧ n ≤ 0x37) ∨ (0x39 ≤ n ∧ n ≤ 0x3F) ∨ (0x45 ≤ n ∧ n ≤ 0x50) ∨ n = 0x53 ∨
    (0x55 ≤ n ∧ n ≤ 0x57) ∨ (0x59 ≤ n ∧ n ≤ 0x5F) ∨ (0x62 ≤ n ∧ n ≤ 0xFF)

/-- The words of a request: an operation's, or the one header word of a reserved OP (R94, R96). -/
def requestWords : Request → List Word
  | .op i => encode i
  | .reserved h => [h]

/-- A request that has a word list of its own kind. -/
def RequestOk : Request → Prop
  | .op i => WellFormed i
  | .reserved h => ReservedOp (h.extractLsb' 8 8).toNat

/-- The length column of R94, in words. -/
def tableLength : Instr → Nat
  | .wrCmd _ _ => 2
  | .wrData _ _ => 2
  | .wrMulti _ ws => 2 + ws.length
  | .rdData _ => 1
  | .rdMulti _ _ => 2
  | .wrMultiArg _ _ args => 3 + args.length
  | .rdReg _ _ => 2
  | .wrReg _ _ _ => 3
  | .init _ _ => 2
  | .beginLoad _ _ => 3
  | .beginLoadArea _ _ _ _ _ _ => 7
  | .endLoad _ => 1
  | .load1bpp _ _ _ _ _ _ _ _ => 10
  | .load2bpp _ _ _ _ _ _ _ _ => 10
  | .load4bpp _ _ _ _ _ _ _ _ => 10
  | .load8bpp _ _ _ _ _ _ _ _ => 10
  | .displayArea _ _ _ _ _ _ => 6
  | .displayAreaBuf _ _ _ _ _ _ _ => 8
  | .display1bpp _ _ _ _ _ _ _ adr => if adr.isSome then 9 else 7
  | .waitRenderIdle _ => 1
  | .clearAndRefresh _ _ _ => 4
  | .refresh1bpp _ _ _ _ _ _ _ => 9
  | .refresh2bpp _ _ _ _ _ _ _ => 9
  | .refresh4bpp _ _ _ _ _ _ _ => 9
  | .refresh8bpp _ _ _ _ _ _ _ => 9
  | .sleep _ => 1
  | .standby _ => 1

/-! ### Admission (30_encoding.md R97, 60_exceptions.md R302) -/

/-- The reserved MOD bits of each operation (R93, R97). -/
def reservedMask : Instr → Mod
  | .wrCmd _ _ => 0xFF
  | .wrData _ _ => 0xFF
  | .wrMulti _ _ => 0xFF
  | .rdData _ => 0xFF
  | .rdMulti _ _ => 0xFF
  | .wrMultiArg _ _ _ => 0xFF
  | .rdReg _ _ => 0xFF
  | .wrReg _ _ _ => 0xFF
  | .init _ _ => 0xFF
  | .beginLoad _ _ => 0xC8
  | .beginLoadArea _ _ _ _ _ _ => 0xC8
  | .endLoad _ => 0xFF
  | .load1bpp _ _ _ _ _ _ _ _ => 0xF8
  | .load2bpp _ _ _ _ _ _ _ _ => 0xF8
  | .load4bpp _ _ _ _ _ _ _ _ => 0xF8
  | .load8bpp _ _ _ _ _ _ _ _ => 0xF8
  | .displayArea _ _ _ _ _ _ => 0xFF
  | .displayAreaBuf _ _ _ _ _ _ _ => 0xFF
  | .display1bpp _ _ _ _ _ _ _ _ => 0xFE
  | .waitRenderIdle _ => 0xFF
  | .clearAndRefresh _ _ _ => 0xFF
  | .refresh1bpp _ _ _ _ _ _ _ => 0xFC
  | .refresh2bpp _ _ _ _ _ _ _ => 0xFC
  | .refresh4bpp _ _ _ _ _ _ _ => 0xFC
  | .refresh8bpp _ _ _ _ _ _ _ => 0xFC
  | .sleep _ => 0xFF
  | .standby _ => 0xFF

/-- The operations that have a PSEL field (R93). -/
def hasPsel : Instr → Bool
  | .beginLoad _ _ => true
  | .beginLoadArea _ _ _ _ _ _ => true
  | _ => false

/-- MOD is not reserved: no reserved bit is set, and PSEL is not 0 where it applies (R97). -/
def ModOk (i : Instr) : Prop :=
  i.modByte &&& reservedMask i = 0 ∧ (hasPsel i = true → i.modByte.extractLsb' 4 2 ≠ 0)

/-- How an operation stands to the three state columns of the admission table (R302). -/
inductive Admission where
  /-- WR_DATA, WR_MULTI, INIT: no column matters. -/
  | always
  /-- The other raw operations and WAIT_RENDER_IDLE: 3, -, -. -/
  | outsideLoad
  /-- BEGIN_LOAD, BEGIN_LOAD_AREA, LOAD_dBPP, CLEAR_AND_REFRESH, REFRESH_dBPP: 1, 5, 4. -/
  | load
  /-- END_LOAD: 2 if no load is open. -/
  | endLoad
  /-- DISPLAY_AREA, DISPLAY_AREA_BUF, DISPLAY_1BPP: 3, 5, 4. -/
  | display
  /-- SLEEP, STANDBY: 3, -, 4. -/
  | power
  deriving DecidableEq, Repr

/-- The row of each operation in the table of R302. -/
def admission : Instr → Admission
  | .wrData _ _ => .always
  | .wrMulti _ _ => .always
  | .init _ _ => .always
  | .wrCmd _ _ => .outsideLoad
  | .rdData _ => .outsideLoad
  | .rdMulti _ _ => .outsideLoad
  | .wrMultiArg _ _ _ => .outsideLoad
  | .rdReg _ _ => .outsideLoad
  | .wrReg _ _ _ => .outsideLoad
  | .waitRenderIdle _ => .outsideLoad
  | .beginLoad _ _ => .load
  | .beginLoadArea _ _ _ _ _ _ => .load
  | .load1bpp _ _ _ _ _ _ _ _ => .load
  | .load2bpp _ _ _ _ _ _ _ _ => .load
  | .load4bpp _ _ _ _ _ _ _ _ => .load
  | .load8bpp _ _ _ _ _ _ _ _ => .load
  | .clearAndRefresh _ _ _ => .load
  | .refresh1bpp _ _ _ _ _ _ _ => .load
  | .refresh2bpp _ _ _ _ _ _ _ => .load
  | .refresh4bpp _ _ _ _ _ _ _ => .load
  | .refresh8bpp _ _ _ _ _ _ _ => .load
  | .endLoad _ => .endLoad
  | .displayArea _ _ _ _ _ _ => .display
  | .displayAreaBuf _ _ _ _ _ _ _ => .display
  | .display1bpp _ _ _ _ _ _ _ _ => .display
  | .sleep _ => .power
  | .standby _ => .power

/-- The EINFO of the ProtocolMisuse the state columns of R302 give; the leftmost column wins (R305). -/
def misuseIn (s : State) : Admission → Option Byte
  | .always => none
  | .outsideLoad => if s.loadOpen then some 3 else none
  | .load =>
    if s.loadOpen then some 1
    else if s.session ≠ .ready then some 5
    else if s.renderPending then some 4
    else none
  | .endLoad => if s.loadOpen then none else some 2
  | .display =>
    if s.loadOpen then some 3
    else if s.session ≠ .ready then some 5
    else if s.renderPending then some 4
    else none
  | .power => if s.loadOpen then some 3 else if s.renderPending then some 4 else none

/-- A word count above `B_WORDS`, in the operations whose last column of R302 names it. -/
def CountTooLong (c : Config) (i : Instr) : Prop :=
  (∃ m ws, i = .wrMulti m ws ∧ ws.length > c.bWords) ∨ (∃ m n, i = .rdMulti m n ∧ n.toNat > c.bWords) ∨
    ∃ m code args, i = .wrMultiArg m code args ∧ c.argFraming = .multi ∧ args.length > c.bWords

/-- MOD and state admit the operation (R97, R302). -/
def Admitted (i : Instr) (s : State) : Prop := ModOk i ∧ misuseIn s (admission i) = none

/-! ### Before and after -/

/-- What no operation writes (10_state.md R20, R38; 00_scope.md R12; 20_memory.md R80). -/
def SameInputs (s t : State) : Prop :=
  t.cfg = s.cfg ∧ t.prog = s.prog ∧ ∀ a, t.src.read a = s.src.read a

/-- The success epilogue's registers, the select line released, and the inputs as before (R130, R311). -/
def Succeeded (s t : State) : Prop :=
  t.res = 0 ∧ t.einfo = 0 ∧ t.faults = s.faults ∧ t.pc = s.pc + 1 ∧ t.cs = 1 ∧ SameInputs s t

/-- The render poll reached its limit: the epilogue of HwTimeout(3), the session ended, and the descriptor, the read
registers and the inputs as before (R266, R301, R310). -/
def RenderTimedOut (s t : State) : Prop :=
  t.res = 1 ∧ t.einfo = 3 ∧ t.faults = s.faults ||| 0x02 ∧ t.pc = s.pc + 1 ∧ t.cs = 1 ∧ t.session = .unready ∧
    t.desc = s.desc ∧ t.rstl = s.rstl ∧ t.rdata = s.rdata ∧ t.rbuf = s.rbuf ∧ SameInputs s t

/-- The read registers are as before (R35). -/
def SameReads (s t : State) : Prop := t.rdata = s.rdata ∧ t.rbuf = s.rbuf

/-- The session registers are as before (R25, R26, R27). -/
def SameSession (s t : State) : Prop := t.session = s.session ∧ t.desc = s.desc ∧ t.rstl = s.rstl

/-- The load and render mirrors and the target are as before (R29 to R31). -/
def SameMirrors (s t : State) : Prop :=
  t.tgt = s.tgt ∧ t.loadOpen = s.loadOpen ∧ t.renderPending = s.renderPending

/-- The state after a refusal that emits nothing, with its code and detail of R300 (R302, R310): four registers are
written, and nothing else. -/
def refusedBy (s : State) (code info : Byte) : State :=
  { s with res := code, einfo := info, faults := s.faults ||| (1 <<< code.toNat), pc := s.pc + 1 }

/-- The pairs (RES, EINFO) an operation can leave, as R300 lists them. -/
def resultPairs : List (Byte × Byte) :=
  [(0, 0), (1, 1), (1, 2), (1, 3), (2, 1), (2, 2), (2, 3), (2, 4), (2, 5), (2, 6), (3, 0), (4, 1), (4, 2), (4, 3),
   (4, 4), (4, 5), (4, 6), (5, 1), (5, 2), (6, 0), (7, 1), (7, 2), (7, 3), (7, 4), (7, 5)]

/-- The observation of a run of at most `k` operations (R347): the list of (RES, EINFO), and the state it ends in. -/
def observe : (k : Nat) → State → List (Byte × Byte) × State
  | 0, s => ([], s)
  | k + 1, s =>
    match step s with
    | .next t =>
      let (rs, u) := observe k t
      ((t.res, t.einfo) :: rs, u)
    | .fault _ => ([], s)
    | .refused _ => ([], s)

/-! ### Invariants -/

/-- A descriptor is what an INIT that succeeded committed: a present panel, and version fields of their length (R27,
R28, R175). -/
def DescriptorOk (c : Config) (d : Descriptor) : Prop :=
  d.panelW ≠ 0 ∧ d.panelH ≠ 0 ∧ d.fwVer.length = 2 * c.versionWords ∧ d.lutVer.length = 2 * c.versionWords

/-- RES, EINFO and FAULTS agree (R32 to R34, R300): a success has no detail, an error is in FAULTS, OK is not. -/
def ResultsOk (s : State) : Prop :=
  (s.res = 0 → s.einfo = 0) ∧ s.res.toNat ≤ 7 ∧ (s.res ≠ 0 → s.faults.getLsbD s.res.toNat = true) ∧
    s.faults.getLsbD 0 = false

/-- The invariant of the states between operations: the select and reset lines are released (R24, R25), a ready session
has a descriptor (R26), a committed descriptor is a present panel's and has set a target (R27, R29), no load is open
while a render is pending (R302), the result registers agree, and SRC is in its canonical form. -/
def Inv (s : State) : Prop :=
  s.cs = 1 ∧ s.rstl = 1 ∧ (s.session = .ready → s.desc ≠ none) ∧
    (∀ d, s.desc = some d → DescriptorOk s.cfg d ∧ s.tgt ≠ none) ∧
    ¬ (s.loadOpen = true ∧ s.renderPending = true) ∧ ResultsOk s ∧ s.src.wf = true

/-- The bus level a trace leaves, or nothing where an event breaks the bus discipline (20_memory.md R78): a select only
while the line is released, a release and every byte only while it is held, reset pulses and delays only while it is
released. -/
def busLevel : (level : BitVec 1) → List Event → Option (BitVec 1)
  | l, [] => some l
  | l, .sel :: es => if l = 1 then busLevel 0 es else none
  | l, .rel :: es => if l = 0 then busLevel 1 es else none
  | l, .tx _ :: es => if l = 0 then busLevel l es else none
  | l, .rx _ :: es => if l = 0 then busLevel l es else none
  | l, .poll _ :: es => busLevel l es
  | l, .delay _ :: es => if l = 1 then busLevel l es else none
  | l, .rst _ :: es => if l = 1 then busLevel l es else none

/-- Every transaction of the trace is one `SEL ... REL` span, and the line is released now (R78). -/
def BusDisciplined (s : State) : Prop := s.cs = 1 ∧ busLevel 1 s.trace = some 1

/-- Where a reader of the trace stands: between transactions, after SEL, after a first preamble byte 0x60, in a command
frame with none, one or two payload bytes read, or in any other frame. -/
inductive Scan where
  | outside
  | selected
  | preamble
  | command
  | commandHi (hi : Byte)
  | commandCode (code : Word)
  | other
  deriving DecidableEq, Repr

/-- What a reader of the trace sees of the load protocol: a whole command frame, or the reset line going low. -/
inductive Mark where
  | command (code : Word)
  | resetPulse
  deriving DecidableEq, Repr

/-- One event read: where the reader stands after it, and what it has seen (R99, R100). -/
def scanEvent : Scan → Event → Scan × List Mark
  | _, .sel => (.selected, [])
  | .commandCode c, .rel => (.outside, [.command c])
  | _, .rel => (.outside, [])
  | .selected, .tx b => (if b = 0x60 then .preamble else .other, [])
  | .preamble, .tx b => (if b = 0x00 then .command else .other, [])
  | .command, .tx b => (.commandHi b, [])
  | .commandHi hi, .tx b => (.commandCode (joinBytes hi b), [])
  | _, .tx _ => (.other, [])
  | _, .rx _ => (.other, [])
  | p, .poll _ => (p, [])
  | p, .delay _ => (p, [])
  | p, .rst l => (p, if l = 0 then [.resetPulse] else [])

/-- What a reader sees of a trace. -/
def marksFrom : Scan → List Event → List Mark
  | _, [] => []
  | p, e :: es => (scanEvent p e).2 ++ marksFrom (scanEvent p e).1 es

/-- Whether a load is open on the chip after the marks seen, or nothing where a begin came before the last load's end, or
an end with no load open (R209). A reset pulse ends any load. -/
def loadOpenAfter (c : Config) : (isOpen : Bool) → List Mark → Option Bool
  | b, [] => some b
  | _, .resetPulse :: ms => loadOpenAfter c false ms
  | b, .command code :: ms =>
    if code = c.cmdLdImg ∨ code = c.cmdLdImgArea then (if b then none else loadOpenAfter c true ms)
    else if code = c.cmdLdImgEnd then (if b then loadOpenAfter c false ms else none)
    else loadOpenAfter c b ms

/-- Begin and end commands are paired in the trace (R209), and `LOAD_OPEN` is what the trace says; or a begin command
went out whose arguments timed out, after which only INIT may load again (R310). -/
def LoadsPaired (s : State) : Prop :=
  ∃ b, loadOpenAfter s.cfg false (marksFrom .outside s.trace) = some b ∧
    (b = s.loadOpen ∨ (b = true ∧ s.loadOpen = false ∧ s.session = .unready))

/-- What a reader of the frames knows of a register read under way: nothing, that its command went out, or that it asks
for the render status (R137, R266). -/
inductive Asked where
  | nothing
  | register
  | status
  deriving DecidableEq, Repr

/-- The commands that must not go out while the chip renders: load, display and power (R280). -/
def mustWait (c : Config) (code : Word) : Bool :=
  [c.cmdLdImg, c.cmdLdImgArea, c.cmdLdImgEnd, c.cmdDpyArea, c.cmdDpyBufArea, c.cmdSleep, c.cmdStandby].contains code

/-- One frame read: whether a render may be under way after it and what register read is, or nothing where a command that
must wait went out while one was (R280). A display command starts one; a render-status read that sees the busy bits
clear ends it, and so does a reset pulse. -/
def renderFrame (c : Config) : Bool × Asked → Frame → Option (Bool × Asked)
  | (busy, _), .cmd code =>
    if mustWait c code = true then
      if busy then none else some (decide (code = c.cmdDpyArea ∨ code = c.cmdDpyBufArea), .nothing)
    else some (busy, if code = c.cmdRegRd then .register else .nothing)
  | (busy, q), .wr ws => some (busy, if q = .register ∧ ws = [c.regRenderStatus] then .status else .nothing)
  | (busy, q), .rd _ vs => some (busy && !decide (q = .status ∧ vs.headD 0 &&& c.renderBusyMask = 0), .nothing)
  | (busy, _), .rst l => some (busy && decide (l ≠ 0), .nothing)
  | (busy, _), .delay _ => some (busy, .nothing)

/-- The frames read one after another (R280). -/
def renderAfter (c : Config) : Bool × Asked → List Frame → Option (Bool × Asked)
  | p, [] => some p
  | p, f :: fs => (renderFrame c p f).bind (fun q => renderAfter c q fs)

/-- What a reader of the frames waits for: nothing, the last `left` argument words of a begin-load or a display command, or
the next frame of a register read. -/
inductive Awaited where
  | nothing
  | load (left : Nat)
  | display (left : Nat)
  | register
  | status
  deriving DecidableEq, Repr

/-- What a reader of the frames takes the two mirrors to be (R30, R31), and what it waits for. -/
structure Watch where
  loadOpen : Bool
  renderPending : Bool
  awaits : Awaited
  deriving DecidableEq, Repr

/-- The argument words of a command that a mirror follows, or the register read it begins (R137, R201, R202, R263). -/
def awaitedAfter (c : Config) (code : Word) : Awaited :=
  if code = c.cmdLdImg then .load 1
  else if code = c.cmdLdImgArea then .load 5
  else if code = c.cmdDpyArea then .display 5
  else if code = c.cmdDpyBufArea then .display 7
  else if code = c.cmdRegRd then .register
  else .nothing

/-- One whole frame read. LOAD_OPEN is set by the last argument of a begin-load command and cleared by the end-load command
(R201 to R203); RENDER_PENDING is set by the last argument of a display command (R263) and cleared by a render-status
reading that shows no busy bit (R266); a reset pulse clears both (R171). -/
def watchFrame (c : Config) (m : Watch) : Frame → Watch
  | .cmd code => { m with loadOpen := m.loadOpen && !decide (code = c.cmdLdImgEnd), awaits := awaitedAfter c code }
  | .wr ws =>
    match m.awaits with
    | .load n =>
      if n ≤ ws.length then { m with loadOpen := true, awaits := .nothing }
      else { m with awaits := .load (n - ws.length) }
    | .display n =>
      if n ≤ ws.length then { m with renderPending := true, awaits := .nothing }
      else { m with awaits := .display (n - ws.length) }
    | .register => { m with awaits := if ws = [c.regRenderStatus] then .status else .nothing }
    | .status => { m with awaits := .nothing }
    | .nothing => m
  | .rd _ vs =>
    { m with renderPending := m.renderPending && !decide (m.awaits = .status ∧ vs.headD 0 &&& c.renderBusyMask = 0),
             awaits := .nothing }
  | .rst l => { loadOpen := m.loadOpen && decide (l ≠ 0), renderPending := m.renderPending && decide (l ≠ 0),
                awaits := .nothing }
  | .delay _ => { m with awaits := .nothing }

/-- The frames read one after another. -/
def watchFrames (c : Config) (m : Watch) (fs : List Frame) : Watch := fs.foldl (watchFrame c) m

/-- The raw operations, which no mirror follows: they may not send a tracked command, and set no target (R139, R148). -/
def isRaw : Instr → Bool
  | .wrCmd _ _ => true
  | .wrData _ _ => true
  | .wrMulti _ _ => true
  | .rdData _ => true
  | .rdMulti _ _ => true
  | .wrMultiArg _ _ _ => true
  | .rdReg _ _ => true
  | .wrReg _ _ _ => true
  | .init _ _ => false
  | .beginLoad _ _ => false
  | .beginLoadArea _ _ _ _ _ _ => false
  | .endLoad _ => false
  | .load1bpp _ _ _ _ _ _ _ _ => false
  | .load2bpp _ _ _ _ _ _ _ _ => false
  | .load4bpp _ _ _ _ _ _ _ _ => false
  | .load8bpp _ _ _ _ _ _ _ _ => false
  | .displayArea _ _ _ _ _ _ => false
  | .displayAreaBuf _ _ _ _ _ _ _ => false
  | .display1bpp _ _ _ _ _ _ _ _ => false
  | .waitRenderIdle _ => false
  | .clearAndRefresh _ _ _ => false
  | .refresh1bpp _ _ _ _ _ _ _ => false
  | .refresh2bpp _ _ _ _ _ _ _ => false
  | .refresh4bpp _ _ _ _ _ _ _ => false
  | .refresh8bpp _ _ _ _ _ _ _ => false
  | .sleep _ => false
  | .standby _ => false

/-- The address an operation passes to `SetTargetAddr` (R200 to R202, R230, R271, R272). -/
def targetOf : Instr → Option Addr
  | .beginLoad _ tgt => some tgt
  | .beginLoadArea _ tgt _ _ _ _ => some tgt
  | .load1bpp _ tgt _ _ _ _ _ _ => some tgt
  | .load2bpp _ tgt _ _ _ _ _ _ => some tgt
  | .load4bpp _ tgt _ _ _ _ _ _ => some tgt
  | .load8bpp _ tgt _ _ _ _ _ _ => some tgt
  | .clearAndRefresh _ adr _ => some adr
  | .refresh1bpp _ _ _ _ _ _ adr => some adr
  | .refresh2bpp _ _ _ _ _ _ adr => some adr
  | .refresh4bpp _ _ _ _ _ _ adr => some adr
  | .refresh8bpp _ _ _ _ _ _ adr => some adr
  | .wrCmd _ _ => none
  | .wrData _ _ => none
  | .wrMulti _ _ => none
  | .rdData _ => none
  | .rdMulti _ _ => none
  | .wrMultiArg _ _ _ => none
  | .rdReg _ _ => none
  | .wrReg _ _ _ => none
  | .init _ _ => none
  | .endLoad _ => none
  | .displayArea _ _ _ _ _ _ => none
  | .displayAreaBuf _ _ _ _ _ _ _ => none
  | .display1bpp _ _ _ _ _ _ _ _ => none
  | .waitRenderIdle _ => none
  | .sleep _ => none
  | .standby _ => none

/-- VCOM is not accessed by a command that the load protocol uses (R179 leaves its code open). -/
def VcomApart (c : Config) : Prop := ∀ code, c.vcomAccess = .command code → code ∉ trackedCodes c

end Sys2Proof.Safety
end

