-- ==== Sys2Proof/Certificates/Slice0/Obligations.lean ====
section
/-! DEFINITION. The statements for the provers, in the terms of Safety.lean. Each is about every state; where one would
fail in a state no run reaches, the premise is the invariant `Inv` or the part of it that is needed. -/

open Sys2Proof Sys2Proof.Machine Sys2Proof.Safety

/-! ### Encoding -/

/-- R90 to R94: decoding the words of a well-formed operation gives it back, with the words that follow untouched. -/
def Obligations.DecodeOfEncode : Prop :=
  ∀ (i : Instr) (rest : List Word), WellFormed i → decodeRequest (encode i ++ rest) = .ok (.op i, rest)

/-- R91, R94, R105: whatever the decoder accepts as an operation is that operation's one word list. -/
def Obligations.DecodedWordsAreTheEncoding : Prop :=
  ∀ (ws rest : List Word) (i : Instr), decodeRequest ws = .ok (.op i, rest) → WellFormed i ∧ ws = encode i ++ rest

/-- R90 to R94: words written out from the spec's encodings decode to the operations they stand for. -/
def Obligations.SpecWordsDecode : Prop :=
  decodeRequest [0x0100, 0x0010] = .ok (.op (.wrCmd 0 0x0010), []) ∧
  decodeRequest [0x0302, 0x0002, 0x0102, 0x0304] = .ok (.op (.wrMulti 2 [0x0102, 0x0304]), []) ∧
  decodeRequest [0x1000, 0x07DA, 0x2200] = .ok (.op (.init 0 2010), [0x2200]) ∧
  decodeRequest [0x2124, 0x36E0, 0x0012, 0, 0, 1448, 100] =
    .ok (.op (.beginLoadArea 0x24 0x001236E0 0 0 1448 100), []) ∧
  decodeRequest [0x3404, 0x36E0, 0x0012, 0x0001, 0x0000, 4, 0, 0, 8, 1] =
    .ok (.op (.load4bpp 0x04 0x001236E0 1 4 0 0 8 1), []) ∧
  decodeRequest [0x4201, 0, 0, 16, 1, 2, 0x00FF, 0x36E0, 0x0012] =
    .ok (.op (.display1bpp 1 0 0 16 1 2 0x00FF (some 0x001236E0)), []) ∧
  decodeRequest [0x4200, 0, 0, 16, 1, 2, 0x00FF, 0x36E0] =
    .ok (.op (.display1bpp 0 0 0 16 1 2 0x00FF none), [0x36E0]) ∧
  decodeRequest [0x5201, 0x0004, 0x0003, 0, 0, 8, 1, 0x36E0, 0x0012] =
    .ok (.op (.refresh2bpp 1 0x00030004 0 0 8 1 0x001236E0), []) ∧
  decodeRequest [0x6100] = .ok (.op (.standby 0), [])

/-- R105 (b): a word list that stops before the request's last word is refused as cut short. -/
def Obligations.CutShortRequestIsRefused : Prop :=
  ∀ (i : Instr) (n : Nat), WellFormed i → n < (encode i).length →
    decodeRequest ((encode i).take n) = .error (.truncated 0)

/-- R90, R105, R110: the requests of a program follow one another with no padding; a last request that is cut short is
refused at its position. -/
def Obligations.ProgramsDecode : Prop :=
  ∀ rs : List Request, (∀ r ∈ rs, RequestOk r) →
    decodeProgram (rs.flatMap requestWords) = .ok rs ∧
    ∀ (i : Instr) (n : Nat), WellFormed i → 0 < n → n < (encode i).length →
      decodeProgram (rs.flatMap requestWords ++ (encode i).take n) = .error (.truncated rs.length)

/-- R96: a reserved OP is one header word long, no other header is taken for one, and executing it raises
`Unsupported(1)` and emits nothing. -/
def Obligations.ReservedRequests : Prop :=
  (∀ (h : Word) (rest : List Word), ReservedOp (h.extractLsb' 8 8).toNat →
    decodeRequest (h :: rest) = .ok (.reserved h, rest)) ∧
  (∀ (h g : Word) (rest rest' : List Word), decodeRequest (h :: rest) = .ok (.reserved g, rest') →
    ReservedOp (h.extractLsb' 8 8).toNat) ∧
  (∀ (s : State) (rs : List Request) (h : Word), configLegal s.cfg = true → decodeProgram s.prog = .ok rs →
    rs[s.pc]? = some (.reserved h) → s.cs = 1 → step s = .next (refusedBy s 7 1))

/-! ### The step -/

/-- R18, R23, R346: a step runs the operation the program's words decode to at `pc`, and adds nothing to it. -/
def Obligations.StepRunsTheRequest : Prop :=
  ∀ (s : State) (rs : List Request) (i : Instr), configLegal s.cfg = true → decodeProgram s.prog = .ok rs →
    rs[s.pc]? = some (.op i) → step s = exec i s

/-- R38, R110, R343, R347: an illegal configuration and a program cut short have no run, and past the last request the
run has ended. That these are refusals is the model's choice (log 14, 15). -/
def Obligations.StepRefusesOutsideARun : Prop :=
  (∀ s : State, configLegal s.cfg = false → step s = .refused .illegalConfiguration) ∧
  (∀ (s : State) (p : Nat), configLegal s.cfg = true → decodeProgram s.prog = .error (.truncated p) →
    step s = .refused (.truncated p)) ∧
  (∀ (s : State) (rs : List Request), configLegal s.cfg = true → decodeProgram s.prog = .ok rs → rs.length ≤ s.pc →
    step s = .refused .endOfRun)

/-- R340: block reset: every element of the state record at its reset value, the configuration registers at their
configured values; and the model's reset state is one such. -/
def Obligations.BlockReset : Prop :=
  (∀ (cfg : Config) (prog : List Word) (src : Memory) (chip : Oracle),
    let s := State.launch cfg prog src chip
    s.pc = 0 ∧ s.cs = 1 ∧ s.rstl = 1 ∧ s.session = .unready ∧ s.desc = none ∧ s.tgt = none ∧ s.loadOpen = false ∧
    s.renderPending = false ∧ s.res = 0 ∧ s.einfo = 0 ∧ s.faults = 0 ∧ s.rdata = none ∧ s.rbuf = [] ∧ s.trace = [] ∧
    s.cfg = cfg) ∧
  ∃ (cfg : Config) (prog : List Word) (src : Memory) (chip : Oracle), State.reset = State.launch cfg prog src chip

/-! ### Invariants -/

/-- The state after reset meets the invariant. -/
def Obligations.ResetMeetsInvariant : Prop := Inv State.reset

/-- R24 to R35, R302: every step keeps the invariant of the states between operations. -/
def Obligations.StepKeepsInvariant : Prop := ∀ s t : State, Inv s → step s = .next t → Inv t

/-- R78, R130, R310: after every operation, complete or abandoned, each transaction of the trace is one select-to-release
span, with every byte inside one and every reset pulse and delay outside, and the line is released. -/
def Obligations.StepKeepsBusDiscipline : Prop :=
  ∀ s t : State, BusDisciplined s → step s = .next t → BusDisciplined t

/-- R209: in the trace begin-load and end-load command frames alternate, but for a load left open and for an INIT reset
pulse between the two; and `LOAD_OPEN` is what the trace says, or a begin command's arguments timed out. The premise
`VcomApart` holds of the spec's own `VCOM_ACCESS`, a register. -/
def Obligations.StepKeepsLoadsPaired : Prop :=
  ∀ s t : State, VcomApart s.cfg → BusDisciplined s → LoadsPaired s → step s = .next t → LoadsPaired t

/-! ### What every operation does and does not do -/

/-- R23: a completed operation, or an abandoned one, advances `pc` by exactly 1. -/
def Obligations.PcAdvancesByOne : Prop := ∀ s t : State, step s = .next t → t.pc = s.pc + 1

/-- R300: RES takes one of the listed values, and EINFO one of the details listed with it. -/
def Obligations.ResultCodes : Prop := ∀ s t : State, step s = .next t → (t.res, t.einfo) ∈ resultPairs

/-- R34, R310, R311: FAULTS gains exactly the bit of the raised code and loses none; success leaves it. -/
def Obligations.FaultsAreSticky : Prop :=
  ∀ s t : State, step s = .next t →
    (t.res = 0 → t.faults = s.faults) ∧ (t.res ≠ 0 → t.faults = s.faults ||| (1 <<< t.res.toNat))

/-- R12, R38, R80: no operation writes a configuration register, the program or a byte of SRC. -/
def Obligations.InputsAreNeverWritten : Prop := ∀ s t : State, step s = .next t → SameInputs s t

/-- R36: events are appended to the trace, and never removed. -/
def Obligations.TraceOnlyGrows : Prop := ∀ s t : State, step s = .next t → ∃ es, t.trace = s.trace ++ es

/-- R35: RDATA is written only by a successful RD_DATA or RD_REG, and RBUF only by a successful RD_MULTI; before the
first such read the host's reading of RDATA is a fault of the observation. -/
def Obligations.ReadRegistersAreWrittenByReads : Prop :=
  (∀ (i : Instr) (s t : State), exec i s = .next t →
    (t.rdata ≠ s.rdata → t.res = 0 ∧ ((∃ m, i = .rdData m) ∨ ∃ m a, i = .rdReg m a)) ∧
    (t.rbuf ≠ s.rbuf → t.res = 0 ∧ ∃ m n, i = .rdMulti m n)) ∧
  (∀ s : State, s.rdata = none → hostReadRdata s = .error .rdataUnread) ∧
  (∀ (s : State) (v : Word), s.rdata = some v → hostReadRdata s = .ok v)

/-- R25 to R27, R344, R345: no operation but INIT puts a reset-line event on the trace or changes the level of the line, or
writes DESC; and only an INIT that completes makes the session ready. -/
def Obligations.OnlyInitOpensASession : Prop :=
  ∀ (i : Instr) (s t : State), exec i s = .next t →
    ((¬ ∃ m v, i = .init m v) →
      t.rstl = s.rstl ∧ t.desc = s.desc ∧ ∃ es, t.trace = s.trace ++ es ∧ ∀ l, Event.rst l ∉ es) ∧
    (s.session = .unready → t.session = .ready → t.res = 0 ∧ ∃ m v, i = .init m v)

/-- R30, R201 to R203, R206, R208, R310: a load is opened only by a BEGIN_LOAD or BEGIN_LOAD_AREA that completes, or left
open by a LOAD_dBPP, CLEAR_AND_REFRESH or REFRESH_dBPP that timed out; and it is closed only by an END_LOAD that completes,
or by INIT. -/
def Obligations.LoadMirrorChanges : Prop :=
  ∀ (i : Instr) (s t : State), exec i s = .next t →
    (s.loadOpen = false → t.loadOpen = true →
      (t.res = 0 ∧ ((∃ m a, i = .beginLoad m a) ∨ ∃ m a x y w h, i = .beginLoadArea m a x y w h)) ∨
      (t.res = 1 ∧ ((∃ d m tgt src stride x y w h, i = loadInstr d m tgt src stride x y w h) ∨
        (∃ m adr mode, i = .clearAndRefresh m adr mode) ∨
        ∃ d m src adr x y w h, i = refreshInstr d m src x y w h adr))) ∧
    (s.loadOpen = true → t.loadOpen = false → (t.res = 0 ∧ ∃ m, i = .endLoad m) ∨ ∃ m v, i = .init m v)

/-- R31, R263, R266, R269, R272, R310: a render becomes pending only by a DISPLAY_AREA, DISPLAY_AREA_BUF or
CLEAR_AND_REFRESH that completes, or by a REFRESH_dBPP other than 1 bpp that completes; or it is left pending by a
DISPLAY_1BPP or REFRESH_dBPP that timed out; and it is cleared only by a WAIT_RENDER_IDLE that completes, or by INIT. -/
def Obligations.RenderMirrorChanges : Prop :=
  ∀ (i : Instr) (s t : State), exec i s = .next t →
    (s.renderPending = false → t.renderPending = true →
      (t.res = 0 ∧ ((∃ m x y w h mode, i = .displayArea m x y w h mode) ∨
        (∃ m x y w h mode adr, i = .displayAreaBuf m x y w h mode adr) ∨
        (∃ m adr mode, i = .clearAndRefresh m adr mode) ∨
        ∃ d m src adr x y w h, d ≠ .d1 ∧ i = refreshInstr d m src x y w h adr)) ∨
      (t.res = 1 ∧ ((∃ m x y w h mode fgbg adr, i = .display1bpp m x y w h mode fgbg adr) ∨
        ∃ d m src adr x y w h, i = refreshInstr d m src x y w h adr))) ∧
    (s.renderPending = true → t.renderPending = false →
      (t.res = 0 ∧ ∃ m, i = .waitRenderIdle m) ∨ ∃ m v, i = .init m v)

/-! ### Errors -/

/-- R310: what the error epilogue writes, in every state: the result registers, the release of a held line with its
event, the end of the session after a hardware timeout, and `pc`; the mirrors, the descriptor and the target stay. -/
def Obligations.ErrorEpilogueEffect : Prop :=
  ∀ (e : ErrKind) (info : Byte) (s : State),
    errorEpilogue e info s =
      { s with res := errCode e, einfo := info, faults := s.faults ||| (1 <<< (errCode e).toNat), cs := 1,
               trace := s.trace ++ (if s.cs = 0 then [.rel] else []),
               session := if e = .hwTimeout then .unready else s.session, pc := s.pc + 1 }

/-- R311: an operation whose pseudocode reaches its end in a state leaves that state with RES and EINFO 0 and `pc` one
further, FAULTS as it was; and an operation that ends with RES 0 has not touched FAULTS and leaves the select line
released. -/
def Obligations.SuccessEpilogueEffect : Prop :=
  (∀ (body : Op Unit) (s u : State), body s = .ok () u →
    runOp body s = .next { u with res := 0, einfo := 0, pc := u.pc + 1 }) ∧
  ∀ (i : Instr) (s t : State), s.cs = 1 → exec i s = .next t → t.res = 0 →
    t.einfo = 0 ∧ t.pc = s.pc + 1 ∧ t.faults = s.faults ∧ t.cs = 1

/-- R305, R310: an operation that ends in ProtocolMisuse, AllocFail, InvalidGeometry, SrcBounds or Unsupported has
emitted nothing and changed nothing but RES, EINFO, FAULTS and `pc` (and taken the allocation draw, for AllocFail). -/
def Obligations.RefusalsEmitNothing : Prop :=
  ∀ (i : Instr) (s t : State), s.cs = 1 → exec i s = .next t → t.res ≠ 0 → t.res ≠ 1 → t.res ≠ 5 →
    t = refusedBy (if t.res = 3 then afterAllocDraw s else s) t.res t.einfo

/-- R301, R310: HwTimeout comes only from a configured limit, the busy-wait's for details 1 and 2 and the render poll's for
detail 3, and it ends the session; DeviceAbsent comes only from INIT. -/
def Obligations.TimeoutsNeedALimit : Prop :=
  ∀ (i : Instr) (s t : State), exec i s = .next t →
    (t.res = 1 → t.session = .unready ∧ (t.einfo = 3 → s.cfg.renderPollLimit ≠ none) ∧
      (t.einfo ≠ 3 → s.cfg.pollLimit ≠ none)) ∧
    (t.res = 5 → ∃ m v, i = .init m v)

/-- R313: an operation is never refused, and it is stuck only in a hang under a limit of none. That a hang is a fault is the
model's choice (log 8), and so is that a render poll with no limit is stuck as `renderHang` after a free number of
readings, where the spec's loop still polls (log 9). The third case is a ready session without a descriptor, which the
invariant excludes (log 16). -/
def Obligations.OnlyHangsStop : Prop :=
  ∀ (i : Instr) (s : State), (∀ r, exec i s ≠ .refused r) ∧
    ∀ f, exec i s = .fault f →
      (f = .busyHang ∧ s.cfg.pollLimit = none) ∨ (f = .renderHang ∧ s.cfg.renderPollLimit = none) ∨
      (f = .noDescriptor ∧ s.session = .ready ∧ s.desc = none)

/-- R313: with both polls bounded, every operation completes, with a result or an error, whatever the chip answers. -/
def Obligations.BoundedPollsComplete : Prop :=
  ∀ (i : Instr) (s : State), s.cfg.pollLimit ≠ none → s.cfg.renderPollLimit ≠ none →
    (s.session = .ready → s.desc ≠ none) → ∃ t, exec i s = .next t

/-- R343, R346, R347: with both polls bounded, the run of a launched program makes one result for each of its requests and
ends after the last, all inputs as they were. That a step past the end answers the refusal `endOfRun` is the model's choice
(log 15): R347 says only that the run ends there. -/
def Obligations.BoundedRunsEnd : Prop :=
  ∀ (cfg : Config) (prog : List Word) (src : Memory) (chip : Oracle) (rs : List Request), configLegal cfg = true →
    decodeProgram prog = .ok rs → src.wf = true → cfg.pollLimit ≠ none → cfg.renderPollLimit ≠ none →
    (observe rs.length (State.launch cfg prog src chip)).1.length = rs.length ∧
    (observe rs.length (State.launch cfg prog src chip)).2.pc = rs.length ∧
    step (observe rs.length (State.launch cfg prog src chip)).2 = .refused .endOfRun ∧
    SameInputs (State.launch cfg prog src chip) (observe rs.length (State.launch cfg prog src chip)).2

/-! ### Refusals of each operation -/

/-- R97: a request with a set reserved MOD bit, or PSEL 0 where it applies, decodes with its normal length; executing it
raises `Unsupported(5)` and emits nothing. -/
def Obligations.ReservedModifiers : Prop :=
  ∀ i : Instr, ¬ ModOk i →
    (∀ rest : List Word, WellFormed i →
      decodeRequest (encode i ++ rest) = .ok (.op i, rest) ∧ (encode i).length = tableLength i) ∧
    (∀ s : State, s.cs = 1 → exec i s = .next (refusedBy s 7 5))

/-- R302: the admission table: its three state columns, the leftmost first, and the counts above `B_WORDS` of its last
column; and no other misuse is ever reported. -/
def Obligations.AdmissionTable : Prop :=
  (∀ (i : Instr) (s : State) (info : Byte), s.cs = 1 → ModOk i → misuseIn s (admission i) = some info →
    exec i s = .next (refusedBy s 2 info)) ∧
  (∀ (s : State) (ws : List Word), s.cs = 1 → ws.length > s.cfg.bWords →
    exec (.wrMulti 0 ws) s = .next (refusedBy s 2 6)) ∧
  (∀ (s : State) (n : Word), s.cs = 1 → s.loadOpen = false → n.toNat > s.cfg.bWords →
    exec (.rdMulti 0 n) s = .next (refusedBy s 2 6)) ∧
  (∀ (s : State) (code : Word) (args : List Word), s.cs = 1 → s.loadOpen = false → code ∉ trackedCodes s.cfg →
    s.cfg.argFraming = .multi → args.length > s.cfg.bWords →
    exec (.wrMultiArg 0 code args) s = .next (refusedBy s 2 6)) ∧
  (∀ (i : Instr) (s t : State), exec i s = .next t → t.res = 2 →
    misuseIn s (admission i) = some t.einfo ∨
      (misuseIn s (admission i) = none ∧ t.einfo = 6 ∧ CountTooLong s.cfg i))

/-- R139, R143, R145, R272: zero-length transfers, tracked codes sent raw, and refreshes without a `REFRESH_MAP`. -/
def Obligations.OperandChecks : Prop :=
  (∀ s : State, s.cs = 1 → exec (.wrMulti 0 []) s = .next (refusedBy s 7 2)) ∧
  (∀ s : State, s.cs = 1 → s.loadOpen = false → exec (.rdMulti 0 0) s = .next (refusedBy s 7 2)) ∧
  (∀ (s : State) (code : Word) (args : List Word), s.cs = 1 → s.loadOpen = false →
    code ∈ [s.cfg.cmdSysRun, s.cfg.cmdStandby, s.cfg.cmdSleep, s.cfg.cmdGetDevInfo, s.cfg.cmdLdImg,
      s.cfg.cmdLdImgArea, s.cfg.cmdLdImgEnd, s.cfg.cmdDpyArea, s.cfg.cmdDpyBufArea] →
    exec (.wrCmd 0 code) s = .next (refusedBy s 7 3) ∧ exec (.wrMultiArg 0 code args) s = .next (refusedBy s 7 3)) ∧
  (∀ (s : State) (d : Depth) (m : Mod) (src adr : Addr) (x y w h : Word), s.cs = 1 →
    Admitted (refreshInstr d m src x y w h adr) s → s.cfg.refreshMap = none →
    exec (refreshInstr d m src x y w h adr) s = .next (refusedBy s 7 4))

/-- R205, R207, R262: the area check of BEGIN_LOAD_AREA and of the displays, against the descriptor's panel. -/
def Obligations.AreaChecks : Prop :=
  ∀ (s : State) (des : Descriptor) (x y w h : Word) (info : Byte), s.cs = 1 → s.desc = some des →
    areaRefusal x y w h des.panelW des.panelH = some info →
    (∀ m tgt, Admitted (.beginLoadArea m tgt x y w h) s →
      exec (.beginLoadArea m tgt x y w h) s = .next (refusedBy s 4 info)) ∧
    (∀ m mode, Admitted (.displayArea m x y w h mode) s →
      exec (.displayArea m x y w h mode) s = .next (refusedBy s 4 info)) ∧
    (∀ m mode adr, Admitted (.displayAreaBuf m x y w h mode adr) s →
      exec (.displayAreaBuf m x y w h mode adr) s = .next (refusedBy s 4 info)) ∧
    (∀ m mode fgbg adr, Admitted (.display1bpp m x y w h mode fgbg adr) s →
      exec (.display1bpp m x y w h mode fgbg adr) s = .next (refusedBy s 4 info))

/-- R224, R226, R227, R305: the checks of a load in their order: geometry, footprint, allocation; also of the clear (R271,
which reads no SRC) and of a refresh under a map (R272). -/
def Obligations.LoadChecks : Prop :=
  ∀ (s : State) (des : Descriptor) (code info : Byte), s.cs = 1 → s.desc = some des →
    (∀ (d : Depth) (m : Mod) (tgt src : Addr) (stride x y w h : Word),
      Admitted (loadInstr d m tgt src stride x y w h) s →
      loadRefusal s des (loadJob d m tgt src stride x y w h) = some (code, info) →
      exec (loadInstr d m tgt src stride x y w h) s =
        .next (refusedBy (if code = 3 then afterAllocDraw s else s) code info)) ∧
    (∀ (m : Mod) (adr : Addr) (mode : Word), Admitted (.clearAndRefresh m adr mode) s →
      loadRefusal s des (clearJob s.cfg des adr) = some (code, info) →
      exec (.clearAndRefresh m adr mode) s =
        .next (refusedBy (if code = 3 then afterAllocDraw s else s) code info)) ∧
    (∀ (d : Depth) (m : Mod) (src adr : Addr) (x y w h : Word), Admitted (refreshInstr d m src x y w h adr) s →
      s.cfg.refreshMap ≠ none → loadRefusal s des (refreshJob d src x y w h adr) = some (code, info) →
      exec (refreshInstr d m src x y w h adr) s =
        .next (refusedBy (if code = 3 then afterAllocDraw s else s) code info))

/-! ### The raw operations -/

/-- R130 to R133, R141 to R143: WR_CMD, WR_DATA and WR_MULTI, to the last event: busy samples and the idle one before the
select, the preamble, samples again, the payload high byte first, the release; nothing else changes. -/
def Obligations.WriteFrames : Prop :=
  ∀ (s : State) (a b : Nat) (rest : List BusyRun), s.chip.waits = .idleAfter a :: .idleAfter b :: rest →
    EndsWithin s.cfg.pollLimit a → EndsWithin s.cfg.pollLimit b →
    let sent := fun (pre : Word) (ws : List Word) =>
      { s with trace := s.trace ++ transactionEvents s.cfg.busyIdleLevel a b pre
                 (ws.flatMap (fun w => [.tx (hiByte w), .tx (loByte w)])),
               cs := 1, res := 0, einfo := 0, pc := s.pc + 1, chip := { s.chip with waits := rest } }
    (∀ code, s.loadOpen = false → code ∉ trackedCodes s.cfg → exec (.wrCmd 0 code) s = .next (sent 0x6000 [code])) ∧
    (∀ w, exec (.wrData 0 w) s = .next (sent 0x0000 [w])) ∧
    (∀ ws, 1 ≤ ws.length → ws.length ≤ s.cfg.bWords → exec (.wrMulti 0 ws) s = .next (sent 0x0000 ws))

/-- R131, R308, R310: WR_CMD, WR_DATA and WR_MULTI when a busy-wait reaches the limit `l`: exactly `l` busy samples, then
HwTimeout with the phase; in phase 2 the select and the preamble stay in the trace and the epilogue releases the line. -/
def Obligations.WriteTimeouts : Prop :=
  ∀ (s : State) (l a : Nat) (late : BusyRun) (rest : List BusyRun), s.cs = 1 → s.cfg.pollLimit = some l →
    1 ≤ l → a < l → (∀ k, late = .idleAfter k → l ≤ k) →
    let failed := fun (info : Byte) (es : List Event) =>
      { s with trace := s.trace ++ es, res := 1, einfo := info, faults := s.faults ||| 0x02, session := .unready,
               pc := s.pc + 1, chip := { s.chip with waits := rest } }
    let busy := List.replicate l (Event.poll (~~~s.cfg.busyIdleLevel))
    let timesOut := fun (i : Instr) (pre : Word) =>
      (s.chip.waits = late :: rest → exec i s = .next (failed 1 busy)) ∧
      (s.chip.waits = .idleAfter a :: late :: rest → exec i s = .next (failed 2
        (endedPolls s.cfg.busyIdleLevel a ++ [.sel, .tx (hiByte pre), .tx (loByte pre)] ++ busy ++ [.rel])))
    (∀ code, s.loadOpen = false → code ∉ trackedCodes s.cfg → timesOut (.wrCmd 0 code) 0x6000) ∧
    (∀ w, timesOut (.wrData 0 w) 0x0000) ∧
    (∀ ws, 1 ≤ ws.length → ws.length ≤ s.cfg.bWords → timesOut (.wrMulti 0 ws) 0x0000)

/-- R135, R144, R145: RD_DATA and RD_MULTI, to the last event: one dummy word is received and discarded, then the words,
high byte first. -/
def Obligations.ReadFrames : Prop :=
  ∀ (s : State) (a b : Nat) (rest : List BusyRun), s.loadOpen = false →
    s.chip.waits = .idleAfter a :: .idleAfter b :: rest → EndsWithin s.cfg.pollLimit a →
    EndsWithin s.cfg.pollLimit b →
    let frame := fun (n : Nat) => transactionEvents s.cfg.busyIdleLevel a b 0x1000
      ((List.range (2 + 2 * n)).map (fun k => .rx (rxAt s.chip k)))
    (∃ c, c.waits = rest ∧ c.rx = s.chip.rx.drop 4 ∧ exec (.rdData 0) s = .next
      { s with trace := s.trace ++ frame 1, cs := 1, res := 0, einfo := 0, pc := s.pc + 1,
               rdata := some (joinBytes (rxAt s.chip 2) (rxAt s.chip 3)), chip := c }) ∧
    (∀ n : Word, n ≠ 0 → n.toNat ≤ s.cfg.bWords →
      ∃ c, c.waits = rest ∧ c.rx = s.chip.rx.drop (2 + 2 * n.toNat) ∧ exec (.rdMulti 0 n) s = .next
        { s with trace := s.trace ++ frame n.toNat, cs := 1, res := 0, einfo := 0, pc := s.pc + 1,
                 rbuf := (List.range n.toNat).map
                   (fun k => joinBytes (rxAt s.chip (2 + 2 * k)) (rxAt s.chip (3 + 2 * k))),
                 chip := c })

/-- R136, R138, R146, R148: WR_MULTI_ARG sends the command and its arguments, in one frame each or in one frame for all as
`ARG_FRAMING` says; WR_REG sends the register-write command, the address and the value, and leaves TGT. -/
def Obligations.ArgumentFrames : Prop :=
  ∀ s : State, s.loadOpen = false →
    (∀ (code : Word) (args : List Word), code ∉ trackedCodes s.cfg →
      (s.cfg.argFraming = .multi → args.length ≤ s.cfg.bWords) →
      WaitsEnd s (waitsOf (multiArgFrames s.cfg code args)) →
      ∃ t, exec (.wrMultiArg 0 code args) s = .next t ∧ Emitted s t (multiArgFrames s.cfg code args) ∧
        Succeeded s t ∧ SameReads s t ∧ SameSession s t ∧ SameMirrors s t) ∧
    (∀ addr val : Word, WaitsEnd s (waitsOf (multiArgFrames s.cfg s.cfg.cmdRegWr [addr, val])) →
      ∃ t, exec (.wrReg 0 addr val) s = .next t ∧ Emitted s t (multiArgFrames s.cfg s.cfg.cmdRegWr [addr, val]) ∧
        Succeeded s t ∧ SameReads s t ∧ SameSession s t ∧ SameMirrors s t)

/-- R137, R147: RD_REG sends the register-read command and the address, reads a dummy and a word, and puts the word into
RDATA. -/
def Obligations.RegisterRead : Prop :=
  ∀ (s : State) (addr : Word), s.loadOpen = false → WaitsEnd s 6 →
    ∃ t, exec (.rdReg 0 addr) s = .next t ∧
      Emitted s t [.cmd s.cfg.cmdRegRd, .wr [addr], .rd (rxWordAt s.chip 0) [rxWordAt s.chip 1]] ∧
      t.rdata = some (rxWordAt s.chip 1) ∧ t.rbuf = s.rbuf ∧ Succeeded s t ∧ SameSession s t ∧ SameMirrors s t

/-! ### Bring-up -/

/-- R170 to R179: INIT that completes, from any session state: the reset pulse, SystemRun, the descriptor read, the
packed-write enable, and VCOM read and set only when it differs; then DESC is the descriptor read, TGT its address, the
mirrors are clear and the session is ready. -/
def Obligations.InitCompletes : Prop :=
  ∀ (s : State) (vcom : Word), s.cs = 1 → rxWordAt s.chip 1 ≠ 0 → rxWordAt s.chip 2 ≠ 0 →
    WaitsEnd s (waitsOf (bringUpFrames s.cfg s.chip ++ reconcileFrames s.cfg s.chip vcom)) →
    ∃ t, exec (.init 0 vcom) s = .next t ∧
      Emitted s t (bringUpFrames s.cfg s.chip ++ reconcileFrames s.cfg s.chip vcom) ∧ Succeeded s t ∧
      SameReads s t ∧ t.session = .ready ∧ t.desc = some (descriptorIn s.cfg s.chip) ∧
      t.tgt = some (descriptorIn s.cfg s.chip).imgAddr ∧ t.loadOpen = false ∧ t.renderPending = false ∧ t.rstl = 1

/-- R175: a descriptor of width 0, or else of height 0, stops INIT after the descriptor read with DeviceAbsent(1) or (2);
no frame follows, the session is closed and TGT is left. -/
def Obligations.AbsentDevice : Prop :=
  ∀ (s : State) (vcom : Word), s.cs = 1 → rxWordAt s.chip 1 = 0 ∨ rxWordAt s.chip 2 = 0 →
    WaitsEnd s (waitsOf (bringUpFrames s.cfg s.chip)) →
    ∃ t, exec (.init 0 vcom) s = .next t ∧ Emitted s t (bringUpFrames s.cfg s.chip) ∧ t.res = 5 ∧
      t.einfo = (if rxWordAt s.chip 1 = 0 then 1 else 2) ∧ t.faults = s.faults ||| 0x20 ∧ t.pc = s.pc + 1 ∧
      t.session = .unready ∧ t.desc = none ∧ t.loadOpen = false ∧ t.renderPending = false ∧ t.rstl = 1 ∧
      t.cs = 1 ∧ t.tgt = s.tgt ∧ SameReads s t ∧ SameInputs s t

/-- R26, R171, R310: an INIT that fails after its reset pulse, at whatever point, leaves the session closed, no descriptor,
the mirrors clear and TGT as it was. -/
def Obligations.FailedInitClosesTheSession : Prop :=
  ∀ (s t : State) (vcom : Word), exec (.init 0 vcom) s = .next t → t.res ≠ 0 →
    t.session = .unready ∧ t.desc = none ∧ t.loadOpen = false ∧ t.renderPending = false ∧ t.tgt = s.tgt ∧
    SameReads s t

/-! ### The load protocol -/

/-- R200 to R202, R206, R207: BEGIN_LOAD and BEGIN_LOAD_AREA write the target address low half first, send the load
command with the format word and, for an area, its four arguments, and open the load. (Under MULTI framing, arguments
above `B_WORDS` go out in frames of at most `B_WORDS` words by the model's choice, log 20.) -/
def Obligations.BeginLoads : Prop :=
  ∀ (s : State) (m : Mod) (tgt : Addr) (p : ChipFormat),
    (m.extractLsb' 4 2, p) ∈ [((1 : BitVec 2), ChipFormat.p2), (2, .p4), (3, .p8)] →
    let e := if m.getLsbD 2 then Endian.big else Endian.little
    let r := m.extractLsb' 0 2
    let opened := fun (t : State) => Succeeded s t ∧ SameReads s t ∧ SameSession s t ∧ t.tgt = some tgt ∧
      t.loadOpen = true ∧ t.renderPending = false
    (Admitted (.beginLoad m tgt) s → WaitsEnd s (waitsOf (beginLoadFrames s.cfg e p r tgt)) →
      ∃ t, exec (.beginLoad m tgt) s = .next t ∧ Emitted s t (beginLoadFrames s.cfg e p r tgt) ∧ opened t) ∧
    (∀ (des : Descriptor) (x y w h : Word), Admitted (.beginLoadArea m tgt x y w h) s → s.desc = some des →
      areaRefusal x y w h des.panelW des.panelH = none →
      WaitsEnd s (waitsOf (beginAreaFrames s.cfg e p r tgt x y w h)) →
      ∃ t, exec (.beginLoadArea m tgt x y w h) s = .next t ∧
        Emitted s t (beginAreaFrames s.cfg e p r tgt x y w h) ∧ opened t)

/-- R203, R208: END_LOAD sends the load-end command and closes the load, in every session state. -/
def Obligations.EndLoad : Prop :=
  ∀ s : State, s.loadOpen = true → WaitsEnd s 2 →
    ∃ t, exec (.endLoad 0) s = .next t ∧ Emitted s t [.cmd s.cfg.cmdLdImgEnd] ∧ Succeeded s t ∧ SameReads s t ∧
      SameSession s t ∧ t.tgt = s.tgt ∧ t.loadOpen = false ∧ t.renderPending = s.renderPending

/-! ### The loads -/

/-- R228 to R233, R240 to R243: LOAD_dBPP of every depth, when no check refuses it: for each telegram begin-area, its
bursts with a delay between two, and end; the words are SRC's bytes row by row. (Under MULTI framing, arguments above
`B_WORDS` go out in frames of at most `B_WORDS` words by the model's choice, log 20.) -/
def Obligations.LoadsComplete : Prop :=
  ∀ (d : Depth) (s : State) (des : Descriptor) (m : Mod) (tgt src : Addr) (stride x y w h : Word),
    configLegal s.cfg = true → s.cs = 1 → s.desc = some des → Admitted (loadInstr d m tgt src stride x y w h) s →
    let j := loadJob d m tgt src stride x y w h
    loadRefusal s des j = none → WaitsEnd s (waitsOf (loadFrames s j)) →
    ∃ t, exec (loadInstr d m tgt src stride x y w h) s = .next t ∧ Emitted s t (loadFrames s j) ∧ Succeeded s t ∧
      SameReads s t ∧ SameSession s t ∧ t.tgt = some tgt ∧ t.loadOpen = false ∧ t.renderPending = false

/-- R221, R222: the chip format, x argument, width argument and words per row of each depth. -/
def Obligations.DepthTable : Prop :=
  ∀ v : Word,
    (loadFormat .d1, (chipUnits .d1 v).toNat, wordsPerRow .d1 v.toNat) = (.p8, v.toNat / 8, v.toNat * 1 / 8 / 2) ∧
    (loadFormat .d2, chipUnits .d2 v, wordsPerRow .d2 v.toNat) = (.p2, v, v.toNat * 2 / 8 / 2) ∧
    (loadFormat .d4, chipUnits .d4 v, wordsPerRow .d4 v.toNat) = (.p4, v, v.toNat * 4 / 8 / 2) ∧
    (loadFormat .d8, chipUnits .d8 v, wordsPerRow .d8 v.toNat) = (.p8, v, v.toNat * 8 / 8 / 2)

/-- R234: a completed LOAD_dBPP sends `ceil(h/T)` begin-area commands; the telegrams' rows sum to `h`, the last having
the remainder or a full telegram; each telegram of `N` words has `ceil(N/B)` bursts, all but the last of exactly `B`
words; and the words sent number `WPR * h`. (Under MULTI framing, arguments above `B_WORDS` go out in frames of at most
`B_WORDS` words by the model's choice, log 20.) -/
def Obligations.LoadCounting : Prop :=
  ∀ (d : Depth) (s : State) (des : Descriptor) (m : Mod) (tgt src : Addr) (stride x y w h : Word),
    configLegal s.cfg = true → s.cs = 1 → s.desc = some des → Admitted (loadInstr d m tgt src stride x y w h) s →
    let j := loadJob d m tgt src stride x y w h
    loadRefusal s des j = none → WaitsEnd s (waitsOf (loadFrames s j)) →
    let T := s.cfg.tRows
    let B := s.cfg.bWords
    let wpr := w.toNat * depthBits d / 8 / 2
    ∃ (t : State) (rows : List Nat) (bursts : List (List (List Word))),
      exec (loadInstr d m tgt src stride x y w h) s = .next t ∧
      (let fs := (bursts.mapIdx (fun k bs => telegramFrames s j k bs)).flatten
       Emitted s t fs ∧ fs.count (.cmd s.cfg.cmdLdImgArea) = (h.toNat + T - 1) / T) ∧
      rows = (List.range bursts.length).map (fun k => min T (h.toNat - k * T)) ∧ rows.sum = h.toNat ∧
      rows.getLast? = some (if h.toNat % T ≠ 0 then h.toNat % T else T) ∧
      (∀ (k : Nat) (bs : List (List Word)) (n : Nat), bursts[k]? = some bs → rows[k]? = some n →
        bs.length = (wpr * n + B - 1) / B ∧ bs.flatten.length = wpr * n ∧
        (∀ (i : Nat) (b : List Word), bs[i]? = some b → i + 1 < bs.length → b.length = B)) ∧
      bursts.flatten.flatten.length = wpr * h.toNat

/-- R235: under REJECT, the data words of a completed LOAD_dBPP, split back into bytes, are exactly the rows' bytes of
SRC. (Under MULTI framing, arguments above `B_WORDS` go out in frames of at most `B_WORDS` words by the model's choice,
log 20.) -/
def Obligations.LoadRoundTrip : Prop :=
  ∀ (d : Depth) (s : State) (des : Descriptor) (m : Mod) (tgt src : Addr) (stride x y w h : Word),
    configLegal s.cfg = true → s.cs = 1 → s.desc = some des → Admitted (loadInstr d m tgt src stride x y w h) s →
    let j := loadJob d m tgt src stride x y w h
    loadRefusal s des j = none → s.cfg.rowAlign = .reject → WaitsEnd s (waitsOf (loadFrames s j)) →
    ∃ (t : State) (bursts : List (List (List Word))),
      exec (loadInstr d m tgt src stride x y w h) s = .next t ∧
      Emitted s t (bursts.mapIdx (fun k bs => telegramFrames s j k bs)).flatten ∧
      bursts.flatten.flatten.flatMap (unpackWord s.cfg.pairOrder) =
        (List.range h.toNat).flatMap
          (fun r => sourceBytes s (src.toNat + r * stride.toNat) (w.toNat * depthBits d / 8))

/-- R236: under PER_WORD framing each telegram of a completed LOAD_dBPP that carries `nB` bursts is `13 + nB` frames and
`nB - 1` delays. -/
def Obligations.TelegramFrameCount : Prop :=
  ∀ (d : Depth) (s : State) (des : Descriptor) (m : Mod) (tgt src : Addr) (stride x y w h : Word),
    configLegal s.cfg = true → s.cs = 1 → s.desc = some des → Admitted (loadInstr d m tgt src stride x y w h) s →
    let j := loadJob d m tgt src stride x y w h
    loadRefusal s des j = none → s.cfg.argFraming = .perWord → WaitsEnd s (waitsOf (loadFrames s j)) →
    ∃ (t : State) (telegrams : List (List Frame)),
      exec (loadInstr d m tgt src stride x y w h) s = .next t ∧ Emitted s t telegrams.flatten ∧
      telegrams.length = (h.toNat + s.cfg.tRows - 1) / s.cfg.tRows ∧
      ∀ (k : Nat) (fs : List Frame), telegrams[k]? = some fs →
        let n := w.toNat * depthBits d / 8 / 2 * min s.cfg.tRows (h.toNat - k * s.cfg.tRows)
        let nB := (n + s.cfg.bWords - 1) / s.cfg.bWords
        fs.countP (fun f => frameWaits f = 2) = 13 + nB ∧
        fs.count (.delay s.cfg.interBurstDelayMs) = nB - 1

/-! ### Display, clear, refresh and power -/

/-- R263, R267, R268: DISPLAY_AREA and DISPLAY_AREA_BUF send their command, with the address low half first in the
second form, and leave the render pending and TGT as it was. (Under MULTI framing, arguments above `B_WORDS` go out in
frames of at most `B_WORDS` words by the model's choice, log 20.) -/
def Obligations.DisplaysComplete : Prop :=
  ∀ (s : State) (des : Descriptor) (x y w h mode : Word), s.desc = some des →
    areaRefusal x y w h des.panelW des.panelH = none →
    let pending := fun (t : State) => Succeeded s t ∧ SameReads s t ∧ SameSession s t ∧ t.tgt = s.tgt ∧
      t.loadOpen = false ∧ t.renderPending = true
    (Admitted (.displayArea 0 x y w h mode) s →
      WaitsEnd s (waitsOf (multiArgFrames s.cfg s.cfg.cmdDpyArea [x, y, w, h, mode])) →
      ∃ t, exec (.displayArea 0 x y w h mode) s = .next t ∧
        Emitted s t (multiArgFrames s.cfg s.cfg.cmdDpyArea [x, y, w, h, mode]) ∧ pending t) ∧
    (∀ adr : Addr, Admitted (.displayAreaBuf 0 x y w h mode adr) s →
      let args := [x, y, w, h, mode, adr.extractLsb' 0 16, adr.extractLsb' 16 16]
      WaitsEnd s (waitsOf (multiArgFrames s.cfg s.cfg.cmdDpyBufArea args)) →
      ∃ t, exec (.displayAreaBuf 0 x y w h mode adr) s = .next t ∧
        Emitted s t (multiArgFrames s.cfg s.cfg.cmdDpyBufArea args) ∧ pending t)

/-- R264 to R266, R269, R279: DISPLAY_1BPP, whose render poll sees `n` busy readings and then an idle one: mode bit
set, blend, display, the render wait, mode bit cleared from a fresh read, in that order; the render is no longer
pending. (Under MULTI framing, arguments above `B_WORDS` go out in frames of at most `B_WORDS` words by the model's
choice, log 20.) -/
def Obligations.Display1bppCompletes : Prop :=
  ∀ (s : State) (des : Descriptor) (m : Mod) (x y w h mode fgbg : Word) (adr : Option Addr) (n : Nat),
    s.desc = some des → Admitted (.display1bpp m x y w h mode fgbg adr) s →
    areaRefusal x y w h des.panelW des.panelH = none → RenderEnds s 2 n →
    let fs := display1bppFrames s.cfg s.chip x y w h mode (fgbg.extractLsb' 8 8) (fgbg.extractLsb' 0 8) adr n
    WaitsEnd s (waitsOf fs) →
    ∃ t, exec (.display1bpp m x y w h mode fgbg adr) s = .next t ∧ Emitted s t fs ∧ Succeeded s t ∧ SameReads s t ∧
      SameSession s t ∧ t.tgt = s.tgt ∧ t.loadOpen = false ∧ t.renderPending = false

/-- R266, R270: WAIT_RENDER_IDLE reads the render status until a reading shows no busy bit, whether or not a render is
pending, and clears RENDER_PENDING. -/
def Obligations.RenderWaitCompletes : Prop :=
  ∀ (s : State) (n : Nat), s.loadOpen = false → RenderEnds s 0 n → WaitsEnd s (6 * (n + 1)) →
    ∃ t, exec (.waitRenderIdle 0) s = .next t ∧ Emitted s t (statusFrames s.cfg s.chip 0 (n + 1)) ∧ Succeeded s t ∧
      SameReads s t ∧ SameSession s t ∧ t.tgt = s.tgt ∧ t.loadOpen = false ∧ t.renderPending = false

/-- R266, R270, R301, R310: WAIT_RENDER_IDLE under a render-poll limit `l`: the `l`-th busy reading raises HwTimeout(3) and
leaves RENDER_PENDING; the session ends. -/
def Obligations.RenderWaitTimesOut : Prop :=
  ∀ (s : State) (l : Nat), s.loadOpen = false → s.cfg.renderPollLimit = some l → 1 ≤ l →
    (∀ i, i < l → statusBusy s.cfg s.chip 0 i) → WaitsEnd s (6 * l) →
    ∃ t, exec (.waitRenderIdle 0) s = .next t ∧ Emitted s t (statusFrames s.cfg s.chip 0 l) ∧ RenderTimedOut s t ∧
      SameMirrors s t

/-- R271, R244: CLEAR_AND_REFRESH fills the whole panel at 4 bpp with the clear level, in telegrams and bursts, and
sends the buffer-addressed display of it, leaving the render pending. (Under MULTI framing, arguments above `B_WORDS`
go out in frames of at most `B_WORDS` words by the model's choice, log 20.) -/
def Obligations.ClearCompletes : Prop :=
  ∀ (s : State) (des : Descriptor) (adr : Addr) (mode : Word), configLegal s.cfg = true → s.cs = 1 →
    s.desc = some des → Admitted (.clearAndRefresh 0 adr mode) s →
    let j := clearJob s.cfg des adr
    loadRefusal s des j = none →
    let fs := loadFrames s j ++ displayFrames s.cfg 0 0 des.panelW des.panelH mode (some adr)
    WaitsEnd s (waitsOf fs) →
    ∃ t, exec (.clearAndRefresh 0 adr mode) s = .next t ∧ Emitted s t fs ∧ Succeeded s t ∧ SameReads s t ∧
      SameSession s t ∧ t.tgt = some adr ∧ t.loadOpen = false ∧ t.renderPending = true

/-- R272 to R276: REFRESH_dBPP under a `REFRESH_MAP`: the load with rows consecutive in SRC, then for d = 1 the 1-bpp
display sequence, and for the other depths the buffer-addressed display, with a render wait when the map asks for it.
(Under MULTI framing, arguments above `B_WORDS` go out in frames of at most `B_WORDS` words by the model's choice, log
20.) -/
def Obligations.RefreshesComplete : Prop :=
  ∀ (d : Depth) (s : State) (des : Descriptor) (table : RefreshTable) (m : Mod) (src adr : Addr) (x y w h : Word)
    (n : Nat), configLegal s.cfg = true → s.cs = 1 → s.desc = some des →
    Admitted (refreshInstr d m src x y w h adr) s → s.cfg.refreshMap = some table →
    let f := refreshChoice table d (m.getLsbD 0) (m.getLsbD 1)
    let j := refreshJob d src x y w h adr
    loadRefusal s des j = none →
    let shown := displayFrames s.cfg x y w h f.mode (some adr)
    let ends := fun (fs : List Frame) (pending : Bool) => WaitsEnd s (waitsOf fs) →
      ∃ t, exec (refreshInstr d m src x y w h adr) s = .next t ∧ Emitted s t fs ∧ Succeeded s t ∧ SameReads s t ∧
        SameSession s t ∧ t.tgt = some adr ∧ t.loadOpen = false ∧ t.renderPending = pending
    (d = .d1 → RenderEnds s 2 n →
      ends (loadFrames s j ++ display1bppFrames s.cfg s.chip x y w h f.mode (f.fgbg.extractLsb' 8 8)
        (f.fgbg.extractLsb' 0 8) (some adr) n) false) ∧
    (d ≠ .d1 → f.wait = true → RenderEnds s 0 n →
      ends (loadFrames s j ++ shown ++ statusFrames s.cfg s.chip 0 (n + 1)) false) ∧
    (d ≠ .d1 → f.wait = false → ends (loadFrames s j ++ shown) true)

/-- R277, R278: SLEEP and STANDBY send their one command and end the session; the descriptor and the target stay. -/
def Obligations.PowerCommands : Prop :=
  ∀ s : State, s.loadOpen = false → s.renderPending = false → WaitsEnd s 2 →
    let asleep := fun (t : State) => Succeeded s t ∧ SameReads s t ∧ t.session = .unready ∧ t.desc = s.desc ∧
      t.rstl = s.rstl ∧ SameMirrors s t
    (∃ t, exec (.sleep 0) s = .next t ∧ Emitted s t [.cmd s.cfg.cmdSleep] ∧ asleep t) ∧
    (∃ t, exec (.standby 0) s = .next t ∧ Emitted s t [.cmd s.cfg.cmdStandby] ∧ asleep t)

/-! ### Whole operations on the wire, and render waits that time out -/

/-- R100, R130, R134: every operation puts whole frames on the wire and nothing else, but for the samples, and in phase 2
the select, preamble and release, of a last frame whose busy-wait reached its limit; and every data frame carries between
1 and `B_WORDS` words. (That MULTI framing keeps the limit where a command's own arguments are more than `B_WORDS`, which
R38 allows, is the model's choice, log 20.) -/
def Obligations.OperationsSendWholeFrames : Prop :=
  ∀ (i : Instr) (s t : State), configLegal s.cfg = true → s.cs = 1 → exec i s = .next t →
    ∃ fs last, EmittedThen s t fs last ∧ GivenUp s.cfg t last ∧ ∀ f ∈ fs, WithinBurst s.cfg f

/-- R280: no load, display or power command goes out between a display command and a render-status read that sees the
busy bits clear, or a reset pulse: within each operation, and from one to the next, because a render that may be under way
after an operation is pending in `RENDER_PENDING`, unless the operation timed out (R280's second exception). The premise
`VcomApart` holds of the spec's own `VCOM_ACCESS`, a register. -/
def Obligations.RendersAreWaitedFor : Prop :=
  ∀ (i : Instr) (s t : State) (busy : Bool), Inv s → configLegal s.cfg = true → VcomApart s.cfg →
    (busy = true → s.renderPending = true) → exec i s = .next t →
    ∃ fs last after asked, EmittedThen s t fs last ∧ GivenUp s.cfg t last ∧
      renderAfter s.cfg (busy, .nothing) fs = some (after, asked) ∧
      (t.res ≠ 1 → after = true → t.renderPending = true)

/-- R266, R269, R272, R301, R310: DISPLAY_1BPP and REFRESH_dBPP, of every depth with a render wait, under a render-poll
limit `l`: the `l`-th busy reading after the display command raises HwTimeout(3), no frame follows, so the mode bit
stays set on the chip, and the render stays pending; the session ends. (Under MULTI framing, arguments above `B_WORDS`
go out in frames of at most `B_WORDS` words by the model's choice, log 20.) -/
def Obligations.DisplayWaitsTimeOut : Prop :=
  ∀ (s : State) (des : Descriptor) (l : Nat), s.desc = some des → s.cfg.renderPollLimit = some l → 1 ≤ l →
    let timesOut := fun (i : Instr) (fs : List Frame) (tgt : Option Addr) => WaitsEnd s (waitsOf fs) →
      ∃ t, exec i s = .next t ∧ Emitted s t fs ∧ RenderTimedOut s t ∧ t.tgt = tgt ∧ t.loadOpen = false ∧
        t.renderPending = true
    let opening := fun (x y w h mode fgbg : Word) (adr : Option Addr) =>
      display1bppOpening s.cfg s.chip x y w h mode (fgbg.extractLsb' 8 8) (fgbg.extractLsb' 0 8) adr
    (∀ (m : Mod) (x y w h mode fgbg : Word) (adr : Option Addr), Admitted (.display1bpp m x y w h mode fgbg adr) s →
      areaRefusal x y w h des.panelW des.panelH = none → (∀ i, i < l → statusBusy s.cfg s.chip 2 i) →
      timesOut (.display1bpp m x y w h mode fgbg adr)
        (opening x y w h mode fgbg adr ++ statusFrames s.cfg s.chip 2 l) s.tgt) ∧
    (∀ (d : Depth) (table : RefreshTable) (m : Mod) (src adr : Addr) (x y w h : Word), configLegal s.cfg = true →
      s.cs = 1 → Admitted (refreshInstr d m src x y w h adr) s → s.cfg.refreshMap = some table →
      let f := refreshChoice table d (m.getLsbD 0) (m.getLsbD 1)
      let j := refreshJob d src x y w h adr
      loadRefusal s des j = none →
      (d = .d1 → (∀ i, i < l → statusBusy s.cfg s.chip 2 i) → timesOut (refreshInstr d m src x y w h adr)
        (loadFrames s j ++ opening x y w h f.mode f.fgbg (some adr) ++ statusFrames s.cfg s.chip 2 l) (some adr)) ∧
      (d ≠ .d1 → f.wait = true → (∀ i, i < l → statusBusy s.cfg s.chip 0 i) →
        timesOut (refreshInstr d m src x y w h adr)
          (loadFrames s j ++ displayFrames s.cfg x y w h f.mode (some adr) ++ statusFrames s.cfg s.chip 0 l)
          (some adr)))

/-- R29 to R31, R171, R177, R200 to R203, R263, R266, R310: on every path, a timeout's too, LOAD_OPEN and RENDER_PENDING
are what the whole frames on the wire make of them: a begin-load or a display command sets its mirror with its last
argument and not before, a whole end-load command clears LOAD_OPEN, and an idle reading of a render wait clears
RENDER_PENDING. TGT is the operation's own target once both address writes are whole, and as before until then; an INIT
that completes sets it to the descriptor's address; and no other operation writes it. Raw operations leave all three. The
premise `VcomApart` holds of the spec's own `VCOM_ACCESS`, a register. -/
def Obligations.MirrorsFollowTheWire : Prop :=
  ∀ (i : Instr) (s t : State), configLegal s.cfg = true → VcomApart s.cfg → s.cs = 1 → exec i s = .next t →
    ∃ fs last, EmittedThen s t fs last ∧ GivenUp s.cfg t last ∧
      (isRaw i = true → t.loadOpen = s.loadOpen ∧ t.renderPending = s.renderPending) ∧
      (isRaw i = false → ∃ awaits, watchFrames s.cfg ⟨s.loadOpen, s.renderPending, .nothing⟩ fs =
        ⟨t.loadOpen, t.renderPending, awaits⟩) ∧
      (∀ a, targetOf i = some a → t.tgt = if targetFrames s.cfg a <+: fs then some a else s.tgt) ∧
      (targetOf i = none → (∀ m v, i = .init m v → t.res ≠ 0) → t.tgt = s.tgt) ∧
      (∀ m v, i = .init m v → t.res = 0 → t.tgt = t.desc.map (·.imgAddr))
end

