-- ==== Sys2Proof/Laws/State.lean ====
section
/-! SUPPORT. One lemma per field per named update of State, so that no proof unfolds a record update. -/

namespace Sys2Proof.Machine

/-! ### emit, selected, released, waited -/

@[simp] theorem State.emit_pc (es : List Event) (s : State) : (s.emit es).pc = s.pc := rfl
@[simp] theorem State.emit_cs (es : List Event) (s : State) : (s.emit es).cs = s.cs := rfl
@[simp] theorem State.emit_rstl (es : List Event) (s : State) : (s.emit es).rstl = s.rstl := rfl
@[simp] theorem State.emit_session (es : List Event) (s : State) : (s.emit es).session = s.session := rfl
@[simp] theorem State.emit_desc (es : List Event) (s : State) : (s.emit es).desc = s.desc := rfl
@[simp] theorem State.emit_tgt (es : List Event) (s : State) : (s.emit es).tgt = s.tgt := rfl
@[simp] theorem State.emit_loadOpen (es : List Event) (s : State) : (s.emit es).loadOpen = s.loadOpen := rfl
@[simp] theorem State.emit_renderPending (es : List Event) (s : State) : (s.emit es).renderPending = s.renderPending := rfl
@[simp] theorem State.emit_res (es : List Event) (s : State) : (s.emit es).res = s.res := rfl
@[simp] theorem State.emit_einfo (es : List Event) (s : State) : (s.emit es).einfo = s.einfo := rfl
@[simp] theorem State.emit_faults (es : List Event) (s : State) : (s.emit es).faults = s.faults := rfl
@[simp] theorem State.emit_rdata (es : List Event) (s : State) : (s.emit es).rdata = s.rdata := rfl
@[simp] theorem State.emit_rbuf (es : List Event) (s : State) : (s.emit es).rbuf = s.rbuf := rfl
@[simp] theorem State.emit_trace (es : List Event) (s : State) : (s.emit es).trace = s.trace ++ es := rfl
@[simp] theorem State.emit_cfg (es : List Event) (s : State) : (s.emit es).cfg = s.cfg := rfl
@[simp] theorem State.emit_prog (es : List Event) (s : State) : (s.emit es).prog = s.prog := rfl
@[simp] theorem State.emit_src (es : List Event) (s : State) : (s.emit es).src = s.src := rfl
@[simp] theorem State.emit_chip (es : List Event) (s : State) : (s.emit es).chip = s.chip := rfl

@[simp] theorem State.selected_pc (s : State) : (s.selected).pc = s.pc := rfl
@[simp] theorem State.selected_cs (s : State) : (s.selected).cs = 0 := rfl
@[simp] theorem State.selected_rstl (s : State) : (s.selected).rstl = s.rstl := rfl
@[simp] theorem State.selected_session (s : State) : (s.selected).session = s.session := rfl
@[simp] theorem State.selected_desc (s : State) : (s.selected).desc = s.desc := rfl
@[simp] theorem State.selected_tgt (s : State) : (s.selected).tgt = s.tgt := rfl
@[simp] theorem State.selected_loadOpen (s : State) : (s.selected).loadOpen = s.loadOpen := rfl
@[simp] theorem State.selected_renderPending (s : State) : (s.selected).renderPending = s.renderPending := rfl
@[simp] theorem State.selected_res (s : State) : (s.selected).res = s.res := rfl
@[simp] theorem State.selected_einfo (s : State) : (s.selected).einfo = s.einfo := rfl
@[simp] theorem State.selected_faults (s : State) : (s.selected).faults = s.faults := rfl
@[simp] theorem State.selected_rdata (s : State) : (s.selected).rdata = s.rdata := rfl
@[simp] theorem State.selected_rbuf (s : State) : (s.selected).rbuf = s.rbuf := rfl
@[simp] theorem State.selected_trace (s : State) : (s.selected).trace = s.trace ++ [.sel] := rfl
@[simp] theorem State.selected_cfg (s : State) : (s.selected).cfg = s.cfg := rfl
@[simp] theorem State.selected_prog (s : State) : (s.selected).prog = s.prog := rfl
@[simp] theorem State.selected_src (s : State) : (s.selected).src = s.src := rfl
@[simp] theorem State.selected_chip (s : State) : (s.selected).chip = s.chip := rfl

@[simp] theorem State.released_pc (s : State) : (s.released).pc = s.pc := rfl
@[simp] theorem State.released_cs (s : State) : (s.released).cs = 1 := rfl
@[simp] theorem State.released_rstl (s : State) : (s.released).rstl = s.rstl := rfl
@[simp] theorem State.released_session (s : State) : (s.released).session = s.session := rfl
@[simp] theorem State.released_desc (s : State) : (s.released).desc = s.desc := rfl
@[simp] theorem State.released_tgt (s : State) : (s.released).tgt = s.tgt := rfl
@[simp] theorem State.released_loadOpen (s : State) : (s.released).loadOpen = s.loadOpen := rfl
@[simp] theorem State.released_renderPending (s : State) : (s.released).renderPending = s.renderPending := rfl
@[simp] theorem State.released_res (s : State) : (s.released).res = s.res := rfl
@[simp] theorem State.released_einfo (s : State) : (s.released).einfo = s.einfo := rfl
@[simp] theorem State.released_faults (s : State) : (s.released).faults = s.faults := rfl
@[simp] theorem State.released_rdata (s : State) : (s.released).rdata = s.rdata := rfl
@[simp] theorem State.released_rbuf (s : State) : (s.released).rbuf = s.rbuf := rfl
@[simp] theorem State.released_trace (s : State) : (s.released).trace = s.trace ++ [.rel] := rfl
@[simp] theorem State.released_cfg (s : State) : (s.released).cfg = s.cfg := rfl
@[simp] theorem State.released_prog (s : State) : (s.released).prog = s.prog := rfl
@[simp] theorem State.released_src (s : State) : (s.released).src = s.src := rfl
@[simp] theorem State.released_chip (s : State) : (s.released).chip = s.chip := rfl

@[simp] theorem State.waited_pc (es : List Event) (s : State) : (s.waited es).pc = s.pc := rfl
@[simp] theorem State.waited_cs (es : List Event) (s : State) : (s.waited es).cs = s.cs := rfl
@[simp] theorem State.waited_rstl (es : List Event) (s : State) : (s.waited es).rstl = s.rstl := rfl
@[simp] theorem State.waited_session (es : List Event) (s : State) : (s.waited es).session = s.session := rfl
@[simp] theorem State.waited_desc (es : List Event) (s : State) : (s.waited es).desc = s.desc := rfl
@[simp] theorem State.waited_tgt (es : List Event) (s : State) : (s.waited es).tgt = s.tgt := rfl
@[simp] theorem State.waited_loadOpen (es : List Event) (s : State) : (s.waited es).loadOpen = s.loadOpen := rfl
@[simp] theorem State.waited_renderPending (es : List Event) (s : State) : (s.waited es).renderPending = s.renderPending := rfl
@[simp] theorem State.waited_res (es : List Event) (s : State) : (s.waited es).res = s.res := rfl
@[simp] theorem State.waited_einfo (es : List Event) (s : State) : (s.waited es).einfo = s.einfo := rfl
@[simp] theorem State.waited_faults (es : List Event) (s : State) : (s.waited es).faults = s.faults := rfl
@[simp] theorem State.waited_rdata (es : List Event) (s : State) : (s.waited es).rdata = s.rdata := rfl
@[simp] theorem State.waited_rbuf (es : List Event) (s : State) : (s.waited es).rbuf = s.rbuf := rfl
@[simp] theorem State.waited_trace (es : List Event) (s : State) : (s.waited es).trace = s.trace ++ es := rfl
@[simp] theorem State.waited_cfg (es : List Event) (s : State) : (s.waited es).cfg = s.cfg := rfl
@[simp] theorem State.waited_prog (es : List Event) (s : State) : (s.waited es).prog = s.prog := rfl
@[simp] theorem State.waited_src (es : List Event) (s : State) : (s.waited es).src = s.src := rfl
@[simp] theorem State.waited_chip (es : List Event) (s : State) : (s.waited es).chip = (drawWait s.chip).2 := rfl

/-! ### The result registers and the epilogues -/

@[simp] theorem recordError_pc (e : ErrKind) (i : Byte) (s : State) : (recordError e i s).pc = s.pc := rfl
@[simp] theorem recordError_cs (e : ErrKind) (i : Byte) (s : State) : (recordError e i s).cs = s.cs := rfl
@[simp] theorem recordError_rstl (e : ErrKind) (i : Byte) (s : State) : (recordError e i s).rstl = s.rstl := rfl
@[simp] theorem recordError_session (e : ErrKind) (i : Byte) (s : State) : (recordError e i s).session = s.session := rfl
@[simp] theorem recordError_desc (e : ErrKind) (i : Byte) (s : State) : (recordError e i s).desc = s.desc := rfl
@[simp] theorem recordError_tgt (e : ErrKind) (i : Byte) (s : State) : (recordError e i s).tgt = s.tgt := rfl
@[simp] theorem recordError_loadOpen (e : ErrKind) (i : Byte) (s : State) : (recordError e i s).loadOpen = s.loadOpen := rfl
@[simp] theorem recordError_renderPending (e : ErrKind) (i : Byte) (s : State) : (recordError e i s).renderPending = s.renderPending := rfl
@[simp] theorem recordError_res (e : ErrKind) (i : Byte) (s : State) : (recordError e i s).res = errCode e := rfl
@[simp] theorem recordError_einfo (e : ErrKind) (i : Byte) (s : State) : (recordError e i s).einfo = i := rfl
@[simp] theorem recordError_faults (e : ErrKind) (i : Byte) (s : State) : (recordError e i s).faults = s.faults ||| faultBit e := rfl
@[simp] theorem recordError_rdata (e : ErrKind) (i : Byte) (s : State) : (recordError e i s).rdata = s.rdata := rfl
@[simp] theorem recordError_rbuf (e : ErrKind) (i : Byte) (s : State) : (recordError e i s).rbuf = s.rbuf := rfl
@[simp] theorem recordError_trace (e : ErrKind) (i : Byte) (s : State) : (recordError e i s).trace = s.trace := rfl
@[simp] theorem recordError_cfg (e : ErrKind) (i : Byte) (s : State) : (recordError e i s).cfg = s.cfg := rfl
@[simp] theorem recordError_prog (e : ErrKind) (i : Byte) (s : State) : (recordError e i s).prog = s.prog := rfl
@[simp] theorem recordError_src (e : ErrKind) (i : Byte) (s : State) : (recordError e i s).src = s.src := rfl
@[simp] theorem recordError_chip (e : ErrKind) (i : Byte) (s : State) : (recordError e i s).chip = s.chip := rfl

@[simp] theorem recordOk_pc (s : State) : (recordOk s).pc = s.pc := rfl
@[simp] theorem recordOk_cs (s : State) : (recordOk s).cs = s.cs := rfl
@[simp] theorem recordOk_rstl (s : State) : (recordOk s).rstl = s.rstl := rfl
@[simp] theorem recordOk_session (s : State) : (recordOk s).session = s.session := rfl
@[simp] theorem recordOk_desc (s : State) : (recordOk s).desc = s.desc := rfl
@[simp] theorem recordOk_tgt (s : State) : (recordOk s).tgt = s.tgt := rfl
@[simp] theorem recordOk_loadOpen (s : State) : (recordOk s).loadOpen = s.loadOpen := rfl
@[simp] theorem recordOk_renderPending (s : State) : (recordOk s).renderPending = s.renderPending := rfl
@[simp] theorem recordOk_res (s : State) : (recordOk s).res = 0 := rfl
@[simp] theorem recordOk_einfo (s : State) : (recordOk s).einfo = 0 := rfl
@[simp] theorem recordOk_faults (s : State) : (recordOk s).faults = s.faults := rfl
@[simp] theorem recordOk_rdata (s : State) : (recordOk s).rdata = s.rdata := rfl
@[simp] theorem recordOk_rbuf (s : State) : (recordOk s).rbuf = s.rbuf := rfl
@[simp] theorem recordOk_trace (s : State) : (recordOk s).trace = s.trace := rfl
@[simp] theorem recordOk_cfg (s : State) : (recordOk s).cfg = s.cfg := rfl
@[simp] theorem recordOk_prog (s : State) : (recordOk s).prog = s.prog := rfl
@[simp] theorem recordOk_src (s : State) : (recordOk s).src = s.src := rfl
@[simp] theorem recordOk_chip (s : State) : (recordOk s).chip = s.chip := rfl

@[simp] theorem successEpilogue_pc (s : State) : (successEpilogue s).pc = s.pc + 1 := rfl
@[simp] theorem successEpilogue_cs (s : State) : (successEpilogue s).cs = s.cs := rfl
@[simp] theorem successEpilogue_rstl (s : State) : (successEpilogue s).rstl = s.rstl := rfl
@[simp] theorem successEpilogue_session (s : State) : (successEpilogue s).session = s.session := rfl
@[simp] theorem successEpilogue_desc (s : State) : (successEpilogue s).desc = s.desc := rfl
@[simp] theorem successEpilogue_tgt (s : State) : (successEpilogue s).tgt = s.tgt := rfl
@[simp] theorem successEpilogue_loadOpen (s : State) : (successEpilogue s).loadOpen = s.loadOpen := rfl
@[simp] theorem successEpilogue_renderPending (s : State) : (successEpilogue s).renderPending = s.renderPending := rfl
@[simp] theorem successEpilogue_res (s : State) : (successEpilogue s).res = 0 := rfl
@[simp] theorem successEpilogue_einfo (s : State) : (successEpilogue s).einfo = 0 := rfl
@[simp] theorem successEpilogue_faults (s : State) : (successEpilogue s).faults = s.faults := rfl
@[simp] theorem successEpilogue_rdata (s : State) : (successEpilogue s).rdata = s.rdata := rfl
@[simp] theorem successEpilogue_rbuf (s : State) : (successEpilogue s).rbuf = s.rbuf := rfl
@[simp] theorem successEpilogue_trace (s : State) : (successEpilogue s).trace = s.trace := rfl
@[simp] theorem successEpilogue_cfg (s : State) : (successEpilogue s).cfg = s.cfg := rfl
@[simp] theorem successEpilogue_prog (s : State) : (successEpilogue s).prog = s.prog := rfl
@[simp] theorem successEpilogue_src (s : State) : (successEpilogue s).src = s.src := rfl
@[simp] theorem successEpilogue_chip (s : State) : (successEpilogue s).chip = s.chip := rfl

/-- A select line is held or released. -/
theorem lineLevel_cases (c : BitVec 1) : c = 0 ∨ c = 1 := by revert c; decide

/-- The error epilogue, field by field (R310): the line is released after it, with an event if it was held. -/
theorem errorEpilogue_eq (e : ErrKind) (i : Byte) (s : State) : errorEpilogue e i s =
    { s with pc := s.pc + 1, cs := 1, session := if e = .hwTimeout then .unready else s.session,
             res := errCode e, einfo := i, faults := s.faults ||| faultBit e,
             trace := if s.cs = 0 then s.trace ++ [.rel] else s.trace } := by
  rcases lineLevel_cases s.cs with h | h <;> by_cases he : e = .hwTimeout <;>
    simp [errorEpilogue, recordError, State.released, h, he]

@[simp] theorem errorEpilogue_pc (e : ErrKind) (i : Byte) (s : State) :
    (errorEpilogue e i s).pc = s.pc + 1 := by rw [errorEpilogue_eq]
@[simp] theorem errorEpilogue_cs (e : ErrKind) (i : Byte) (s : State) :
    (errorEpilogue e i s).cs = 1 := by rw [errorEpilogue_eq]
@[simp] theorem errorEpilogue_rstl (e : ErrKind) (i : Byte) (s : State) :
    (errorEpilogue e i s).rstl = s.rstl := by rw [errorEpilogue_eq]
@[simp] theorem errorEpilogue_session (e : ErrKind) (i : Byte) (s : State) :
    (errorEpilogue e i s).session = if e = .hwTimeout then .unready else s.session := by rw [errorEpilogue_eq]
@[simp] theorem errorEpilogue_desc (e : ErrKind) (i : Byte) (s : State) :
    (errorEpilogue e i s).desc = s.desc := by rw [errorEpilogue_eq]
@[simp] theorem errorEpilogue_tgt (e : ErrKind) (i : Byte) (s : State) :
    (errorEpilogue e i s).tgt = s.tgt := by rw [errorEpilogue_eq]
@[simp] theorem errorEpilogue_loadOpen (e : ErrKind) (i : Byte) (s : State) :
    (errorEpilogue e i s).loadOpen = s.loadOpen := by rw [errorEpilogue_eq]
@[simp] theorem errorEpilogue_renderPending (e : ErrKind) (i : Byte) (s : State) :
    (errorEpilogue e i s).renderPending = s.renderPending := by rw [errorEpilogue_eq]
@[simp] theorem errorEpilogue_res (e : ErrKind) (i : Byte) (s : State) :
    (errorEpilogue e i s).res = errCode e := by rw [errorEpilogue_eq]
@[simp] theorem errorEpilogue_einfo (e : ErrKind) (i : Byte) (s : State) :
    (errorEpilogue e i s).einfo = i := by rw [errorEpilogue_eq]
@[simp] theorem errorEpilogue_faults (e : ErrKind) (i : Byte) (s : State) :
    (errorEpilogue e i s).faults = s.faults ||| faultBit e := by rw [errorEpilogue_eq]
@[simp] theorem errorEpilogue_rdata (e : ErrKind) (i : Byte) (s : State) :
    (errorEpilogue e i s).rdata = s.rdata := by rw [errorEpilogue_eq]
@[simp] theorem errorEpilogue_rbuf (e : ErrKind) (i : Byte) (s : State) :
    (errorEpilogue e i s).rbuf = s.rbuf := by rw [errorEpilogue_eq]
@[simp] theorem errorEpilogue_trace (e : ErrKind) (i : Byte) (s : State) :
    (errorEpilogue e i s).trace = if s.cs = 0 then s.trace ++ [.rel] else s.trace := by rw [errorEpilogue_eq]
@[simp] theorem errorEpilogue_cfg (e : ErrKind) (i : Byte) (s : State) :
    (errorEpilogue e i s).cfg = s.cfg := by rw [errorEpilogue_eq]
@[simp] theorem errorEpilogue_prog (e : ErrKind) (i : Byte) (s : State) :
    (errorEpilogue e i s).prog = s.prog := by rw [errorEpilogue_eq]
@[simp] theorem errorEpilogue_src (e : ErrKind) (i : Byte) (s : State) :
    (errorEpilogue e i s).src = s.src := by rw [errorEpilogue_eq]
@[simp] theorem errorEpilogue_chip (e : ErrKind) (i : Byte) (s : State) :
    (errorEpilogue e i s).chip = s.chip := by rw [errorEpilogue_eq]

/-- The bit of FAULTS an error sets is the bit of its code (R34). -/
theorem faultBit_getLsbD (e : ErrKind) : (faultBit e).getLsbD (errCode e).toNat = true := by cases e <;> decide

/-- No error sets the bit of OK. -/
theorem faultBit_ok (e : ErrKind) : (faultBit e).getLsbD 0 = false := by cases e <;> decide

/-- No error has the code of OK. -/
theorem errCode_ne_zero (e : ErrKind) : errCode e ≠ 0 := by cases e <;> decide

/-- Error codes tell errors apart. -/
theorem errCode_injective {a b : ErrKind} (h : errCode a = errCode b) : a = b := by
  cases a <;> cases b <;> first | rfl | (exact absurd h (by decide))

end Sys2Proof.Machine
end

