-- ==== Sys2Proof/Laws/Ops.lean ====
section
/-! SUPPORT. What each shared operation can do, said once: sequencing, the busy-wait (and R131's loop), the
transactions with every outcome they can have, and how an operation ends. -/

namespace Sys2Proof.Machine

open Sys2Proof.Safety

/-! ### Sequencing -/

theorem bind_ok {α β : Type} {m : Op α} {f : α → Op β} {s t : State} {a : α} (h : m s = .ok a t) :
    (m >>= f) s = f a t := by
  show EStateM.bind m f s = f a t
  simp [EStateM.bind, h]

theorem bind_error {α β : Type} {m : Op α} {f : α → Op β} {s t : State} {e : Stop} (h : m s = .error e t) :
    (m >>= f) s = .error e t := by
  show EStateM.bind m f s = _
  simp [EStateM.bind, h]

@[simp] theorem pure_run {α : Type} (a : α) (s : State) : (pure a : Op α) s = .ok a s := rfl

@[simp] theorem raise_run {α : Type} (e : ErrKind) (i : Byte) (s : State) :
    (raise e i : Op α) s = .error (.raise e i) s := rfl

@[simp] theorem stuck_run {α : Type} (f : Fault) (s : State) : (stuck f : Op α) s = .error (.stuck f) s := rfl

@[simp] theorem readState_run (s : State) : readState s = .ok s s := rfl

@[simp] theorem readCfg_run (s : State) : readCfg s = .ok s.cfg s := rfl

@[simp] theorem update_run (f : State → State) (s : State) : update f s = .ok () (f s) := rfl

@[simp] theorem raiseIf_run (c : Prop) [Decidable c] (e : ErrKind) (i : Byte) (s : State) :
    raiseIf c e i s = if c then .error (.raise e i) s else .ok () s := rfl

/-- A sequence succeeds exactly when its first part does and its second part does from there. -/
theorem bind_eq_ok {α β : Type} {m : Op α} {f : α → Op β} {s u : State} {b : β} :
    (m >>= f) s = .ok b u ↔ ∃ a t, m s = .ok a t ∧ f a t = .ok b u := by
  cases h : m s with
  | ok a t => rw [bind_ok h]; simp
  | error e t => rw [bind_error h]; simp

/-- A sequence is abandoned in its first part, or in its second part after the first succeeded. -/
theorem bind_eq_error {α β : Type} {m : Op α} {f : α → Op β} {s u : State} {e : Stop} :
    (m >>= f) s = .error e u ↔ m s = .error e u ∨ ∃ a t, m s = .ok a t ∧ f a t = .error e u := by
  cases h : m s with
  | ok a t => rw [bind_ok h]; simp
  | error e' t => rw [bind_error h]; simp

/-! ### All outcomes of an operation -/

/-- From every state that meets `P`, the operation ends in a value and a state that meet `Q`, or is abandoned with a
reason and a state that meet `E`. -/
def Triple {α : Type} (P : State → Prop) (m : Op α) (Q : α → State → Prop) (E : Stop → State → Prop) : Prop :=
  ∀ s, P s → match m s with | .ok a t => Q a t | .error e t => E e t

theorem Triple.bind {α β : Type} {P : State → Prop} {m : Op α} {f : α → Op β} {Q : α → State → Prop}
    {R : β → State → Prop} {E : Stop → State → Prop} (hm : Triple P m Q E) (hf : ∀ a, Triple (Q a) (f a) R E) :
    Triple P (m >>= f) R E := by
  intro s hs
  have h := hm s hs
  cases hr : m s with
  | ok a t =>
    rw [hr] at h
    rw [bind_ok hr]
    exact hf a t h
  | error e t =>
    rw [hr] at h
    rw [bind_error hr]
    exact h

theorem Triple.weaken {α : Type} {P P' : State → Prop} {m : Op α} {Q Q' : α → State → Prop}
    {E E' : Stop → State → Prop} (h : Triple P m Q E) (hP : ∀ s, P' s → P s) (hQ : ∀ a t, Q a t → Q' a t)
    (hE : ∀ e t, E e t → E' e t) : Triple P' m Q' E' := by
  intro s hs
  have h := h s (hP s hs)
  cases hr : m s with
  | ok a t => rw [hr] at h; exact hQ a t h
  | error e t => rw [hr] at h; exact hE e t h

theorem Triple.ok {α : Type} {P : State → Prop} {m : Op α} {Q : α → State → Prop} {E : Stop → State → Prop}
    (h : Triple P m Q E) {s t : State} {a : α} (hs : P s) (hm : m s = .ok a t) : Q a t := by
  have := h s hs
  rw [hm] at this
  exact this

theorem Triple.error {α : Type} {P : State → Prop} {m : Op α} {Q : α → State → Prop} {E : Stop → State → Prop}
    (h : Triple P m Q E) {s t : State} {e : Stop} (hs : P s) (hm : m s = .error e t) : E e t := by
  have := h s hs
  rw [hm] at this
  exact this

/-- A value and no change. -/
theorem Triple.pure {α : Type} {P : State → Prop} (a : α) {Q : α → State → Prop} {E : Stop → State → Prop}
    (h : ∀ s, P s → Q a s) : Triple P (pure a : Op α) Q E := fun s hs => h s hs

/-- A change of the state. -/
theorem Triple.update {P : State → Prop} {f : State → State} {Q : Unit → State → Prop} {E : Stop → State → Prop}
    (h : ∀ s, P s → Q () (f s)) : Triple P (update f) Q E := fun s hs => h s hs

/-- A check. -/
theorem Triple.raiseIf {P : State → Prop} {c : Prop} [Decidable c] {e : ErrKind} {i : Byte} {Q : Unit → State → Prop}
    {E : Stop → State → Prop} (hok : ∀ s, P s → ¬ c → Q () s) (herr : ∀ s, P s → c → E (.raise e i) s) :
    Triple P (raiseIf c e i) Q E := by
  intro s hs
  by_cases hc : c
  · simpa [hc] using herr s hs hc
  · simpa [hc] using hok s hs hc

/-- The state read. -/
theorem Triple.readState {P : State → Prop} {E : Stop → State → Prop} :
    Triple P readState (fun a t => P t ∧ a = t) E := fun _ hs => ⟨hs, rfl⟩

/-- The configuration read. -/
theorem Triple.readCfg {P : State → Prop} {E : Stop → State → Prop} :
    Triple P readCfg (fun a t => P t ∧ a = t.cfg) E := fun _ hs => ⟨hs, rfl⟩

/-- How a whole operation answers a next state: its body succeeded, or raised an error. -/
theorem runOp_next {body : Op Unit} {s t : State} (h : runOp body s = .next t) :
    (∃ u, body s = .ok () u ∧ t = successEpilogue u) ∨
      (∃ e i u, body s = .error (.raise e i) u ∧ t = errorEpilogue e i u) := by
  unfold runOp at h
  cases hb : body s with
  | ok a u =>
    rw [hb] at h
    cases h
    exact .inl ⟨u, rfl, rfl⟩
  | error e u =>
    rw [hb] at h
    cases e with
    | raise e i => cases h; exact .inr ⟨e, i, u, rfl, rfl⟩
    | stuck f => cases h

/-- How a whole operation faults: its body is stuck. -/
theorem runOp_fault {body : Op Unit} {s : State} {f : Fault} (h : runOp body s = .fault f) :
    ∃ u, body s = .error (.stuck f) u := by
  unfold runOp at h
  cases hb : body s with
  | ok a u => rw [hb] at h; cases h
  | error e u =>
    rw [hb] at h
    cases e with
    | raise e i => cases h
    | stuck g => cases h; exact ⟨u, rfl⟩

theorem runOp_ok {body : Op Unit} {s u : State} (h : body s = .ok () u) :
    runOp body s = .next (successEpilogue u) := by unfold runOp; rw [h]

theorem runOp_raise {body : Op Unit} {s u : State} {e : ErrKind} {i : Byte} (h : body s = .error (.raise e i) u) :
    runOp body s = .next (errorEpilogue e i u) := by unfold runOp; rw [h]

theorem runOp_stuck {body : Op Unit} {s u : State} {f : Fault} (h : body s = .error (.stuck f) u) :
    runOp body s = .fault f := by unfold runOp; rw [h]

/-! ### Words on the wire -/

/-- The events of words sent. -/
def sentEvents (ws : List Word) : List Event := ws.flatMap (fun w => [.tx (hiByte w), .tx (loByte w)])

/-- The events of words received. -/
def receivedEvents (ws : List Word) : List Event := ws.flatMap (fun w => [.rx (hiByte w), .rx (loByte w)])

@[simp] theorem emit_emit (es fs : List Event) (s : State) : (s.emit es).emit fs = s.emit (es ++ fs) := by
  simp [State.emit]

@[simp] theorem emit_nil (s : State) : s.emit [] = s := by simp [State.emit]

@[simp] theorem txByte_run (b : Byte) (s : State) : txByte b s = .ok () (s.emit [.tx b]) := rfl

@[simp] theorem select_run (s : State) : select s = .ok () s.selected := rfl

@[simp] theorem release_run (s : State) : release s = .ok () s.released := rfl

@[simp] theorem delay_run (ms : Nat) (s : State) : delay ms s = .ok () (s.emit [.delay ms]) := rfl

@[simp] theorem resetLine_run (l : BitVec 1) (s : State) :
    resetLine l s = .ok () { s with trace := s.trace ++ [.rst l], rstl := l } := rfl

@[simp] theorem txWord_run (w : Word) (s : State) : txWord w s = .ok () (s.emit (sentEvents [w])) := by
  unfold txWord
  rw [bind_ok (txByte_run _ _)]
  simp [sentEvents]

@[simp] theorem txWords_run (ws : List Word) (s : State) : txWords ws s = .ok () (s.emit (sentEvents ws)) := by
  induction ws generalizing s with
  | nil => simp [txWords, sentEvents]
  | cons w ws ih =>
    unfold txWords
    rw [bind_ok (txWord_run w s), ih]
    simp [sentEvents]

/-- The oracle after `k` bytes. -/
def skipRx (k : Nat) (c : Oracle) : Oracle :=
  { c with rx := c.rx.drop k, freeRx := c.freeRx + (k - c.rx.length) }

/-- The oracle after `n` busy-waits. -/
def skipWaits (n : Nat) (c : Oracle) : Oracle :=
  { c with waits := c.waits.drop n, freeWaits := c.freeWaits + (n - c.waits.length) }

@[simp] theorem skipRx_zero (c : Oracle) : skipRx 0 c = c := by simp [skipRx]

@[simp] theorem skipWaits_zero (c : Oracle) : skipWaits 0 c = c := by simp [skipWaits]

theorem skipRx_skipRx (j k : Nat) (c : Oracle) : skipRx j (skipRx k c) = skipRx (k + j) c := by
  simp only [skipRx, List.drop_drop, List.length_drop]
  congr 1
  omega

theorem skipWaits_skipWaits (j k : Nat) (c : Oracle) : skipWaits j (skipWaits k c) = skipWaits (k + j) c := by
  simp only [skipWaits, List.drop_drop, List.length_drop]
  congr 1
  omega

theorem skipWaits_skipRx (j k : Nat) (c : Oracle) : skipWaits j (skipRx k c) = skipRx k (skipWaits j c) := rfl

/-- A byte answered after `k` others is the `k`-th one from here. -/
theorem rxAt_skipRx (c : Oracle) (k i : Nat) : rxAt (skipRx k c) i = rxAt c (k + i) := by
  unfold rxAt skipRx
  simp only [List.length_drop, List.getD_eq_getElem?_getD, List.getElem?_drop]
  by_cases h : k + i < c.rx.length
  · have h' : i < c.rx.length - k := by omega
    simp [h, h']
  · have h' : ¬ i < c.rx.length - k := by omega
    simp only [h, h', if_false]
    congr 1
    omega

@[simp] theorem rxAt_skipWaits (c : Oracle) (k i : Nat) : rxAt (skipWaits k c) i = rxAt c i := rfl

theorem rxWordAt_skipRx (c : Oracle) (k i : Nat) : rxWordAt (skipRx (2 * k) c) i = rxWordAt c (k + i) := by
  unfold rxWordAt
  rw [rxAt_skipRx, rxAt_skipRx]
  congr 2 <;> omega

@[simp] theorem rxWordAt_skipWaits (c : Oracle) (k i : Nat) : rxWordAt (skipWaits k c) i = rxWordAt c i := rfl

/-- The oracle's next byte, and the oracle after it. -/
theorem drawRx_eq (c : Oracle) : drawRx c = (rxAt c 0, skipRx 1 c) := by
  unfold drawRx rxAt skipRx
  cases h : c.rx with
  | nil => simp
  | cons b rest => simp

theorem getLsbD_joinBytes (a b : Byte) (i : Nat) :
    (joinBytes a b).getLsbD i = if i < 8 then b.getLsbD i else a.getLsbD (i - 8) := BitVec.getLsbD_append

theorem getLsbD_joinHalves (lo hi : Word) (i : Nat) :
    (joinHalves lo hi).getLsbD i = if i < 16 then lo.getLsbD i else hi.getLsbD (i - 16) := BitVec.getLsbD_append

@[simp] theorem hiByte_joinBytes (a b : Byte) : hiByte (joinBytes a b) = a := by
  unfold hiByte
  ext i hi
  simp [getLsbD_joinBytes, BitVec.getLsbD_eq_getElem hi]

@[simp] theorem loByte_joinBytes (a b : Byte) : loByte (joinBytes a b) = b := by
  unfold loByte
  ext i hi
  simp [getLsbD_joinBytes, hi]

@[simp] theorem joinBytes_hi_lo (w : Word) : joinBytes (hiByte w) (loByte w) = w := by
  unfold hiByte loByte joinBytes
  ext i hi
  simp only [BitVec.getElem_append, BitVec.getElem_extractLsb']
  split
  · simp [BitVec.getLsbD_eq_getElem hi]
  · have h : 8 + (i - 8) = i := by omega
    rw [h, BitVec.getLsbD_eq_getElem hi]

@[simp] theorem loHalf_joinHalves (lo hi : Word) : loHalf (joinHalves lo hi) = lo := by
  unfold loHalf
  ext i hi'
  simp [getLsbD_joinHalves, hi']

@[simp] theorem hiHalf_joinHalves (lo hi : Word) : hiHalf (joinHalves lo hi) = hi := by
  unfold hiHalf
  ext i hi'
  simp [getLsbD_joinHalves, BitVec.getLsbD_eq_getElem hi']

@[simp] theorem joinHalves_lo_hi (a : Addr) : joinHalves (loHalf a) (hiHalf a) = a := by
  unfold loHalf hiHalf joinHalves
  ext i hi
  simp only [BitVec.getElem_append, BitVec.getElem_extractLsb']
  split
  · simp [BitVec.getLsbD_eq_getElem hi]
  · have h : 16 + (i - 16) = i := by omega
    rw [h, BitVec.getLsbD_eq_getElem hi]

/-- The state after received words. -/
def State.received (ws : List Word) (s : State) : State :=
  { s with trace := s.trace ++ receivedEvents ws, chip := skipRx (2 * ws.length) s.chip }

theorem rxByte_run (s : State) :
    rxByte s = .ok (rxAt s.chip 0) { s with trace := s.trace ++ [.rx (rxAt s.chip 0)], chip := skipRx 1 s.chip } := by
  unfold rxByte
  simp only [drawRx_eq]

theorem rxWord_run (s : State) : rxWord s = .ok (rxWordAt s.chip 0) (s.received [rxWordAt s.chip 0]) := by
  unfold rxWord
  rw [bind_ok (rxByte_run s), bind_ok (rxByte_run _)]
  simp [State.received, receivedEvents, rxWordAt, rxAt_skipRx, skipRx_skipRx]

theorem rxWords_run (n : Nat) (s : State) :
    rxWords n s = .ok (rxWordsFrom s.chip 0 n) (s.received (rxWordsFrom s.chip 0 n)) := by
  induction n generalizing s with
  | zero => simp [rxWords, rxWordsFrom, State.received, receivedEvents]
  | succ n ih =>
    unfold rxWords
    rw [bind_ok (rxWord_run s), bind_ok (ih _)]
    have h : rxWordsFrom s.chip 0 (n + 1) =
        rxWordAt s.chip 0 :: rxWordsFrom (s.received [rxWordAt s.chip 0]).chip 0 n := by
      simp only [rxWordsFrom, List.range_succ_eq_map, List.map_cons, List.map_map]
      congr 1
      apply List.map_congr_left
      intro i _
      have := rxWordAt_skipRx s.chip 1 i
      simp only [State.received, Function.comp, List.length_singleton, Nat.zero_add] at this ⊢
      rw [this]
      congr 1
      omega
    rw [h]
    simp only [pure_run]
    congr 1
    simp [State.received, receivedEvents, skipRx_skipRx, Nat.mul_add, Nat.add_comm]

/-! ### The busy-wait -/

/-- R131's loop over the samples of one busy-wait: `left` busy samples are still to come before the idle one (`none`: it
never comes, and `fuel` bounds how many are looked at), `npoll` have been counted. -/
def pollLoop (idle : BitVec 1) (limit : Option Nat) : (left npoll : Nat) → List Event × Bool
  | 0, _ => ([.poll idle], true)
  | left + 1, npoll =>
    if ∃ l, limit = some l ∧ npoll + 1 ≥ l then ([.poll (~~~idle)], false)
    else
      let r := pollLoop idle limit left (npoll + 1)
      (.poll (~~~idle) :: r.1, r.2)

/-- With no limit, or one that is not reached, the loop makes every busy sample and the idle one. -/
theorem pollLoop_ends (idle : BitVec 1) (limit : Option Nat) (left npoll : Nat)
    (h : ∀ l, limit = some l → left = 0 ∨ npoll + left < l) :
    pollLoop idle limit left npoll = (endedPolls idle left, true) := by
  induction left generalizing npoll with
  | zero => rfl
  | succ left ih =>
    have hn : ¬ ∃ l, limit = some l ∧ npoll + 1 ≥ l := by
      rintro ⟨l, hl, hge⟩
      rcases h l hl with h | h <;> omega
    unfold pollLoop
    rw [if_neg hn, ih (npoll + 1)]
    · simp [endedPolls, busyPolls, List.replicate_succ]
    · intro l hl
      rcases h l hl with h | h
      · omega
      · right; omega

/-- With a limit that is reached, the loop stops at the sample that reaches it. -/
theorem pollLoop_times_out (idle : BitVec 1) (l left npoll : Nat) (hl : npoll < l) (h : l ≤ npoll + left) :
    pollLoop idle (some l) left npoll = (busyPolls idle (l - npoll), false) := by
  induction left generalizing npoll with
  | zero => omega
  | succ left ih =>
    unfold pollLoop
    by_cases hn : npoll + 1 ≥ l
    · have : l - npoll = 1 := by omega
      rw [if_pos ⟨l, rfl, hn⟩, this]
      rfl
    · have hn' : ¬ ∃ l', some l = some l' ∧ npoll + 1 ≥ l' := by
        rintro ⟨l', h', hge⟩
        cases h'
        exact hn hge
      have hk : l - npoll = (l - (npoll + 1)) + 1 := by omega
      rw [if_neg hn', ih (npoll + 1) (by omega) (by omega), hk]
      simp [busyPolls, List.replicate_succ]

/-- The busy-wait is R131's loop: from a chip that answers `k` busy samples and then an idle one, it makes exactly the
loop's samples, and succeeds or times out as the loop does. -/
theorem busWaitIdle_eq_pollLoop (phase : Byte) (s : State) (k : Nat) (h : (drawWait s.chip).1 = .idleAfter k)
    (hl : limitLegal s.cfg.pollLimit = true) :
    busWaitIdle phase s =
      let r := pollLoop s.cfg.busyIdleLevel s.cfg.pollLimit k 0
      if r.2 then .ok () (s.waited r.1) else .error (.raise .hwTimeout phase) (s.waited r.1) := by
  unfold busWaitIdle
  rw [h]
  cases hp : s.cfg.pollLimit with
  | none =>
    rw [pollLoop_ends _ none k 0 (by simp)]
    simp
  | some l =>
    rw [hp] at hl
    have h1 : 1 ≤ l := by simpa [limitLegal] using hl
    have hm : max l 1 = l := by omega
    simp only [hm]
    by_cases hk : k < l
    · rw [pollLoop_ends _ _ k 0 (by intro l' h'; cases h'; right; omega)]
      simp [hk]
    · rw [pollLoop_times_out _ l k 0 (by omega) (by omega)]
      simp [hk]

/-- Everything a busy-wait can do. -/
theorem busWaitIdle_cases (phase : Byte) (s : State) :
    (∃ k, busWaitIdle phase s = .ok () (s.waited (endedPolls s.cfg.busyIdleLevel k))) ∨
      (∃ l, s.cfg.pollLimit = some l ∧
        busWaitIdle phase s = .error (.raise .hwTimeout phase) (s.waited (busyPolls s.cfg.busyIdleLevel (max l 1)))) ∨
      (s.cfg.pollLimit = none ∧ busWaitIdle phase s = .error (.stuck .busyHang) s) := by
  unfold busWaitIdle
  cases hd : (drawWait s.chip).1 with
  | idleAfter k =>
    cases hp : s.cfg.pollLimit with
    | none => exact .inl ⟨k, rfl⟩
    | some l =>
      by_cases hk : k < max l 1
      · exact .inl ⟨k, by simp [hk]⟩
      · exact .inr (.inl ⟨l, rfl, by simp [hk]⟩)
  | never =>
    cases hp : s.cfg.pollLimit with
    | none => exact .inr (.inr ⟨rfl, rfl⟩)
    | some l => exact .inr (.inl ⟨l, rfl, rfl⟩)

/-- A queued busy-wait that ends within the limit. -/
theorem busWaitIdle_ends (phase : Byte) (s : State) (k : Nat) (rest : List BusyRun)
    (hw : s.chip.waits = .idleAfter k :: rest) (hk : EndsWithin s.cfg.pollLimit k) :
    busWaitIdle phase s = .ok () { s with trace := s.trace ++ endedPolls s.cfg.busyIdleLevel k,
                                          chip := { s.chip with waits := rest } } := by
  have hd : drawWait s.chip = (.idleAfter k, { s.chip with waits := rest }) := by simp [drawWait, hw]
  unfold busWaitIdle
  rw [hd]
  cases hp : s.cfg.pollLimit with
  | none => simp [State.waited, hd]
  | some l =>
    have : k < max l 1 := by have := hk l hp; omega
    simp [State.waited, hd, this]

/-! ### Transactions -/

/-- The events of an open frame: a busy-wait, the select, the preamble, a busy-wait (R130). -/
def openEvents (idle : BitVec 1) (a b : Nat) (pre : Word) : List Event :=
  endedPolls idle a ++ ([.sel] ++ (sentEvents [pre] ++ endedPolls idle b))

/-- The events of a frame whose second busy-wait timed out after `b` samples. -/
def openTimeoutEvents (idle : BitVec 1) (a b : Nat) (pre : Word) : List Event :=
  endedPolls idle a ++ ([.sel] ++ (sentEvents [pre] ++ busyPolls idle b))

/-- Everything the opening of a frame can do. -/
theorem openFrame_cases (pre : Word) (s : State) :
    (∃ a b c, openFrame pre s = .ok ()
        { s with trace := s.trace ++ openEvents s.cfg.busyIdleLevel a b pre, cs := 0, chip := c }) ∨
      (∃ l c, s.cfg.pollLimit = some l ∧ openFrame pre s = .error (.raise .hwTimeout 1)
        { s with trace := s.trace ++ busyPolls s.cfg.busyIdleLevel (max l 1), chip := c }) ∨
      (∃ a l c, s.cfg.pollLimit = some l ∧ openFrame pre s = .error (.raise .hwTimeout 2)
        { s with trace := s.trace ++ openTimeoutEvents s.cfg.busyIdleLevel a (max l 1) pre, cs := 0, chip := c }) ∨
      (∃ t, s.cfg.pollLimit = none ∧ openFrame pre s = .error (.stuck .busyHang) t) := by
  unfold openFrame
  rcases busWaitIdle_cases 1 s with ⟨a, h1⟩ | ⟨a, hp, h1⟩ | ⟨hp, h1⟩
  · rw [bind_ok h1, bind_ok (select_run _), bind_ok (txWord_run pre _)]
    rcases busWaitIdle_cases 2 (State.emit (sentEvents [pre])
        (s.waited (endedPolls s.cfg.busyIdleLevel a)).selected) with ⟨b, h2⟩ | ⟨b, hp, h2⟩ | ⟨hp, h2⟩
    · rw [h2]
      exact .inl ⟨a, b, _, by simp [State.waited, State.selected, State.emit, openEvents]; rfl⟩
    · rw [h2]
      exact .inr (.inr (.inl ⟨a, b, _, hp,
        by simp [State.waited, State.selected, State.emit, openTimeoutEvents]; rfl⟩))
    · rw [h2]
      exact .inr (.inr (.inr ⟨_, by simpa using hp, rfl⟩))
  · rw [bind_error h1]
    exact .inr (.inl ⟨a, _, hp, by simp [State.waited]; rfl⟩)
  · rw [bind_error h1]
    exact .inr (.inr (.inr ⟨_, hp, rfl⟩))

/-- The outcomes of a transaction with the given preamble, whose payload's events are `pl` when it completes with the
value `v` (R130, R131, R308): complete; timed out before the preamble; timed out after it, the line held; or hung. -/
inductive TxnOutcome {α : Type} (pre : Word) (pl : α → List Event) (s : State) :
    EStateM.Result Stop State α → Prop where
  | complete (a b : Nat) (c : Oracle) (v : α) :
    TxnOutcome pre pl s (.ok v { s with
      trace := s.trace ++ (openEvents s.cfg.busyIdleLevel a b pre ++ (pl v ++ [.rel])), cs := 1, chip := c })
  | timeoutBefore (l : Nat) (c : Oracle) (hp : s.cfg.pollLimit = some l) :
    TxnOutcome pre pl s (.error (.raise .hwTimeout 1) { s with
      trace := s.trace ++ busyPolls s.cfg.busyIdleLevel (max l 1), chip := c })
  | timeoutAfter (a l : Nat) (c : Oracle) (hp : s.cfg.pollLimit = some l) :
    TxnOutcome pre pl s (.error (.raise .hwTimeout 2) { s with
      trace := s.trace ++ openTimeoutEvents s.cfg.busyIdleLevel a (max l 1) pre, cs := 0, chip := c })
  | hung (t : State) (hp : s.cfg.pollLimit = none) : TxnOutcome pre pl s (.error (.stuck .busyHang) t)

theorem txnCommand_outcome (c : Word) (s : State) :
    TxnOutcome preCmd (fun _ => sentEvents [c]) s (txnCommand c s) := by
  unfold txnCommand
  rcases openFrame_cases preCmd s with ⟨a, b, ch, h⟩ | ⟨a, ch, hp, h⟩ | ⟨a, b, ch, hp, h⟩ | ⟨t, hp, h⟩
  · rw [bind_ok h, bind_ok (txWord_run c _)]
    have := TxnOutcome.complete (pre := preCmd) (pl := fun _ : Unit => sentEvents [c]) (s := s) a b ch ()
    simpa [release, State.released, State.emit] using this
  · rw [bind_error h]; exact .timeoutBefore a ch hp
  · rw [bind_error h]; exact .timeoutAfter a b ch hp
  · rw [bind_error h]; exact .hung t hp

theorem txnWrite_outcome (ws : List Word) (s : State) :
    TxnOutcome preWr (fun _ => sentEvents ws) s (txnWrite ws s) := by
  unfold txnWrite
  rcases openFrame_cases preWr s with ⟨a, b, ch, h⟩ | ⟨a, ch, hp, h⟩ | ⟨a, b, ch, hp, h⟩ | ⟨t, hp, h⟩
  · rw [bind_ok h, bind_ok (txWords_run ws _)]
    have := TxnOutcome.complete (pre := preWr) (pl := fun _ : Unit => sentEvents ws) (s := s) a b ch ()
    simpa [release, State.released, State.emit] using this
  · rw [bind_error h]; exact .timeoutBefore a ch hp
  · rw [bind_error h]; exact .timeoutAfter a b ch hp
  · rw [bind_error h]; exact .hung t hp

/-- A read's payload events: a dummy word, then the words it answers; the dummy is not in the value (R135). -/
theorem txnRead_outcome (n : Nat) (s : State) :
    ∃ dummy, TxnOutcome preRd (fun ws => receivedEvents (dummy :: ws)) s (txnRead n s) := by
  unfold txnRead
  rcases openFrame_cases preRd s with ⟨a, b, ch, h⟩ | ⟨a, ch, hp, h⟩ | ⟨a, b, ch, hp, h⟩ | ⟨t, hp, h⟩
  · rw [bind_ok h, bind_ok (rxWord_run _), bind_ok (rxWords_run n _), bind_ok (release_run _)]
    refine ⟨rxWordAt ch 0, ?_⟩
    have := TxnOutcome.complete (pre := preRd) (pl := fun ws => receivedEvents (rxWordAt ch 0 :: ws)) (s := s) a b
      (skipRx (2 * n) (skipRx 2 ch)) (rxWordsFrom (skipRx 2 ch) 0 n)
    simpa [State.released, State.received, receivedEvents, rxWordsFrom] using this
  · rw [bind_error h]; exact ⟨0, .timeoutBefore a ch hp⟩
  · rw [bind_error h]; exact ⟨0, .timeoutAfter a b ch hp⟩
  · rw [bind_error h]; exact ⟨0, .hung t hp⟩

end Sys2Proof.Machine
end

