-- ==== Sys2Proof/Laws/Wire.lean ====
section
/-! SUPPORT. What the shared procedures do when every busy-wait they make ends: the frames they put on the wire and the
registers they leave. Composed part by part, these give the effect of a whole operation that completes. -/

namespace Sys2Proof.Machine

open Sys2Proof.Safety

/-- What a procedure on the wire may set besides the trace, the select line and the answers it reads. -/
structure Regs where
  rstl : BitVec 1
  session : Session
  desc : Option Descriptor
  tgt : Option Addr
  loadOpen : Bool
  renderPending : Bool
  alloc : List Bool
  freeAllocs : Nat
  freeRenders : Nat

/-- Those parts of a state. -/
def State.regs (s : State) : Regs :=
  ⟨s.rstl, s.session, s.desc, s.tgt, s.loadOpen, s.renderPending, s.chip.alloc, s.chip.freeAllocs, s.chip.freeRenders⟩

/-- The state after events `es`, `n` busy-waits and `r` words read, with registers `ρ` and the line released. -/
def State.after (s : State) (es : List Event) (n r : Nat) (ρ : Regs) : State :=
  { s with cs := 1, rstl := ρ.rstl, session := ρ.session, desc := ρ.desc, tgt := ρ.tgt, loadOpen := ρ.loadOpen,
           renderPending := ρ.renderPending, trace := s.trace ++ es,
           chip := { skipRx (2 * r) (skipWaits n s.chip) with
                     alloc := ρ.alloc, freeAllocs := ρ.freeAllocs, freeRenders := ρ.freeRenders } }

theorem after_after (s : State) (es fs : List Event) (n m q r : Nat) (ρ σ : Regs) :
    (s.after es n q ρ).after fs m r σ = s.after (es ++ fs) (n + m) (q + r) σ := by
  simp only [State.after, skipRx, skipWaits, List.append_assoc, List.drop_drop, List.length_drop, Nat.mul_add]
  congr 2 <;> omega

@[simp] theorem after_regs (s : State) (es : List Event) (n r : Nat) (ρ : Regs) : (s.after es n r ρ).regs = ρ := rfl

@[simp] theorem after_cfg (s : State) (es : List Event) (n r : Nat) (ρ : Regs) : (s.after es n r ρ).cfg = s.cfg := rfl

@[simp] theorem after_src (s : State) (es : List Event) (n r : Nat) (ρ : Regs) : (s.after es n r ρ).src = s.src := rfl

@[simp] theorem after_word (s : State) (es : List Event) (n r : Nat) (ρ : Regs) (k : Nat) :
    rxWordAt (s.after es n r ρ).chip k = rxWordAt s.chip (r + k) := by
  have h : rxWordAt (s.after es n r ρ).chip k = rxWordAt (skipRx (2 * r) s.chip) k := rfl
  rw [h, rxWordAt_skipRx]

@[simp] theorem after_words (s : State) (es : List Event) (n r : Nat) (ρ : Regs) (k m : Nat) :
    rxWordsFrom (s.after es n r ρ).chip k m = rxWordsFrom s.chip (r + k) m := by
  simp only [rxWordsFrom, after_word, Nat.add_assoc]

@[simp] theorem waitsOf_nil : waitsOf [] = 0 := rfl

@[simp] theorem waitsOf_append (fs gs : List Frame) : waitsOf (fs ++ gs) = waitsOf fs + waitsOf gs := by
  simp [waitsOf]

@[simp] theorem waitsOf_cons (f : Frame) (fs : List Frame) : waitsOf (f :: fs) = frameWaits f + waitsOf fs := by
  simp [waitsOf]

/-- Some first busy-waits end, and so do those after them. -/
theorem WaitsEnd.split {s t : State} {n m : Nat} (h : WaitsEnd s (n + m)) (hc : t.cfg = s.cfg)
    (hw : t.chip.waits = s.chip.waits.drop n) : WaitsEnd s n ∧ WaitsEnd t m := by
  obtain ⟨hl, he⟩ := h
  refine ⟨⟨by omega, fun r hr => he r ?_⟩, ⟨by rw [hw, List.length_drop]; omega, fun r hr => ?_⟩⟩
  · rw [List.take_add]
    exact List.mem_append_left _ hr
  · rw [hc]
    refine he r ?_
    rw [List.take_add]
    rw [hw] at hr
    exact List.mem_append_right _ hr

/-- When the busy-waits of the frames `fs` end, the procedure succeeds with value `a`, puts exactly `fs` on the wire,
reads `r` words and leaves the registers `ρ`. -/
def Does {α : Type} (m : Op α) (s : State) (fs : List Frame) (r : Nat) (a : α) (ρ : Regs) : Prop :=
  WaitsEnd s (waitsOf fs) → ∃ es, m s = .ok a (s.after es (waitsOf fs) r ρ) ∧
    collapsed s.cfg.busyIdleLevel es = fs.flatMap frameWires

/-- Every busy-wait of the events ended: no sample is left in the collapsed trace. -/
def Settled (idle : BitVec 1) (es : List Event) : Prop := ∀ v, Wire.event (.poll v) ∉ collapsed idle es

theorem reachesIdle_append (idle : BitVec 1) {es : List Event} (fs : List Event) (h : reachesIdle idle es = true) :
    reachesIdle idle (es ++ fs) = true := by
  induction es with
  | nil => cases h
  | cons e es ih =>
    cases e with
    | poll v =>
      simp only [reachesIdle, List.cons_append, Bool.or_eq_true] at h ⊢
      exact h.imp_right ih
    | _ => cases h

/-- Behind events whose busy-waits all ended, a trace collapses part by part. -/
theorem collapsed_append {idle : BitVec 1} {es : List Event} (fs : List Event) (h : Settled idle es) :
    collapsed idle (es ++ fs) = collapsed idle es ++ collapsed idle fs := by
  induction es with
  | nil => rfl
  | cons e es ih =>
    cases e with
    | poll v =>
      simp only [Settled, collapsed] at h
      simp only [List.cons_append, collapsed]
      by_cases hv : v = idle
      · rw [if_pos hv, if_pos hv, ih (fun u hu => h u (by rw [if_pos hv]; exact List.mem_cons_of_mem _ hu))]
        rfl
      · rw [if_neg hv, if_neg hv]
        by_cases hr : reachesIdle idle es = true
        · rw [if_pos hr, if_pos (reachesIdle_append idle fs hr)]
          exact ih (fun u hu => h u (by rw [if_neg hv, if_pos hr]; exact hu))
        · exact absurd (by rw [if_neg hv, if_neg hr]; exact List.mem_cons_self) (h v)
    | _ =>
      simp only [List.cons_append, collapsed, List.cons.injEq, true_and]
      exact ih (fun u hu => h u (by simp only [collapsed]; exact List.mem_cons_of_mem _ hu))

/-- Before events that begin with no ended busy-wait, a trace collapses part by part too. -/
theorem collapsed_before {idle : BitVec 1} (es : List Event) {fs : List Event} (h : reachesIdle idle fs = false) :
    collapsed idle (es ++ fs) = collapsed idle es ++ collapsed idle fs := by
  have hr : ∀ es, reachesIdle idle (es ++ fs) = reachesIdle idle es := by
    intro es
    induction es with
    | nil => exact h
    | cons e es ih => cases e <;> simp [reachesIdle, ih]
  induction es with
  | nil => rfl
  | cons e es ih =>
    cases e with
    | poll v =>
      simp only [List.cons_append, collapsed, hr, ih]
      split
      · rfl
      · split <;> rfl
    | _ => simp only [List.cons_append, collapsed, ih]

theorem mem_frameWires {f : Frame} {v : BitVec 1} : Wire.event (.poll v) ∉ frameWires f := by
  cases f <;> simp [frameWires, transaction, sentWord, receivedWord]

/-- Events that collapse to whole frames. -/
theorem settled_frames {idle : BitVec 1} {es : List Event} {fs : List Frame}
    (h : collapsed idle es = fs.flatMap frameWires) : Settled idle es := by
  intro v hv
  rw [h, List.mem_flatMap] at hv
  obtain ⟨f, -, hf⟩ := hv
  exact mem_frameWires hf

theorem Does.bind {α β : Type} {m : Op α} {f : α → Op β} {s : State} {fs gs : List Frame} {q r : Nat} {a : α} {b : β}
    {ρ σ : Regs} (hm : Does m s fs q a ρ)
    (hf : ∀ es, Does (f a) (s.after es (waitsOf fs) q ρ) gs r b σ) :
    Does (m >>= f) s (fs ++ gs) (q + r) b σ := by
  intro hw
  rw [waitsOf_append] at hw
  have hs := fun es => WaitsEnd.split (t := s.after es (waitsOf fs) q ρ) hw rfl rfl
  obtain ⟨es, he, hc⟩ := hm (hs []).1
  obtain ⟨es', he', hc'⟩ := hf es (hs es).2
  refine ⟨es ++ es', ?_, ?_⟩
  · rw [bind_ok he, he', after_after, waitsOf_append]
  · rw [collapsed_append _ (settled_frames hc), hc]
    simp only [after_cfg] at hc'
    rw [hc', List.flatMap_append]

/-- A first part that only looks at the state. -/
theorem Does.look {α β : Type} {m : Op α} {f : α → Op β} {s : State} {fs : List Frame} {r : Nat} {a : α} {b : β}
    {ρ : Regs} (hm : m s = .ok a s) (hf : Does (f a) s fs r b ρ) : Does (m >>= f) s fs r b ρ := by
  intro hw
  obtain ⟨es, he, hc⟩ := hf hw
  exact ⟨es, by rw [bind_ok hm, he], hc⟩

/-- A last part that only sets registers, or only gives a value. -/
theorem Does.finish {α β : Type} {m : Op α} {f : α → Op β} {s : State} {fs : List Frame} {r : Nat} {a : α} {b : β}
    {ρ σ : Regs} (hm : Does m s fs r a ρ)
    (hf : ∀ es, f a (s.after es (waitsOf fs) r ρ) = .ok b (s.after es (waitsOf fs) r σ)) :
    Does (m >>= f) s fs r b σ := by
  intro hw
  obtain ⟨es, he, hc⟩ := hm hw
  exact ⟨es, by rw [bind_ok he, hf es], hc⟩

/-- The same procedure, its frames written in another way. -/
theorem Does.frames {α : Type} {m : Op α} {s : State} {fs gs : List Frame} {q r : Nat} {a : α} {ρ : Regs}
    (h : Does m s fs q a ρ) (hfs : fs = gs) (hq : q = r) : Does m s gs r a ρ := by
  subst hfs hq
  exact h

/-- Nothing to do. -/
theorem Does.nothing {s : State} (hcs : s.cs = 1) : Does (pure () : Op Unit) s [] 0 () s.regs := by
  intro _
  refine ⟨[], ?_, rfl⟩
  simp [State.after, State.regs, ← hcs]

theorem after_cs (s : State) (es : List Event) (n r : Nat) (ρ : Regs) : (s.after es n r ρ).cs = 1 := rfl

theorem busy_ne_idle (idle : BitVec 1) : ~~~idle ≠ idle := by revert idle; decide

theorem reachesIdle_busyPolls (idle : BitVec 1) (n : Nat) (es : List Event) :
    reachesIdle idle (busyPolls idle n ++ es) = reachesIdle idle es := by
  induction n with
  | zero => rfl
  | succ n ih =>
    have : busyPolls idle (n + 1) ++ es = .poll (~~~idle) :: (busyPolls idle n ++ es) := rfl
    rw [this, reachesIdle, ih]
    simp

/-- Busy samples before something that is no sample, or at the end, stay; before an idle one they go. -/
theorem collapsed_busyPolls (idle : BitVec 1) (n : Nat) (es : List Event) :
    collapsed idle (busyPolls idle n ++ es) =
      (if reachesIdle idle es = true then [] else List.replicate n (.event (.poll (~~~idle)))) ++ collapsed idle es := by
  induction n with
  | zero => simp [busyPolls]
  | succ n ih =>
    have : busyPolls idle (n + 1) ++ es = .poll (~~~idle) :: (busyPolls idle n ++ es) := rfl
    rw [this, collapsed, if_neg (busy_ne_idle idle), reachesIdle_busyPolls, ih]
    by_cases h : reachesIdle idle es = true
    · simp [h]
    · simp [h, List.replicate_succ]

theorem collapsed_endedPolls (idle : BitVec 1) (n : Nat) : collapsed idle (endedPolls idle n) = [.wait] := by
  rw [endedPolls, collapsed_busyPolls]
  simp [collapsed, reachesIdle]

theorem collapsed_givenUp (idle : BitVec 1) (n : Nat) :
    collapsed idle (busyPolls idle n) = List.replicate n (.event (.poll (~~~idle))) := by
  have := collapsed_busyPolls idle n []
  simpa [reachesIdle, collapsed] using this

theorem settled_endedPolls (idle : BitVec 1) (n : Nat) : Settled idle (endedPolls idle n) := by
  intro v
  rw [collapsed_endedPolls]
  simp

theorem collapsed_sentEvents (idle : BitVec 1) (ws : List Word) :
    collapsed idle (sentEvents ws) = ws.flatMap sentWord := by
  induction ws with
  | nil => rfl
  | cons w ws ih =>
    have : sentEvents (w :: ws) = .tx (hiByte w) :: .tx (loByte w) :: sentEvents ws := rfl
    rw [this, collapsed, collapsed, ih]
    rfl

theorem settled_sentEvents (idle : BitVec 1) (ws : List Word) : Settled idle (sentEvents ws) := by
  intro v
  rw [collapsed_sentEvents]
  simp [sentWord]

theorem collapsed_receivedEvents (idle : BitVec 1) (ws : List Word) :
    collapsed idle (receivedEvents ws) = ws.flatMap receivedWord := by
  induction ws with
  | nil => rfl
  | cons w ws ih =>
    have : receivedEvents (w :: ws) = .rx (hiByte w) :: .rx (loByte w) :: receivedEvents ws := rfl
    rw [this, collapsed, collapsed, ih]
    rfl

theorem settled_receivedEvents (idle : BitVec 1) (ws : List Word) : Settled idle (receivedEvents ws) := by
  intro v
  rw [collapsed_receivedEvents]
  simp [receivedWord]

/-- The first two busy-waits of a queue in which two end. -/
theorem WaitsEnd.two {s : State} (h : WaitsEnd s 2) : ∃ a b rest, s.chip.waits = .idleAfter a :: .idleAfter b :: rest ∧
    EndsWithin s.cfg.pollLimit a ∧ EndsWithin s.cfg.pollLimit b := by
  obtain ⟨hl, he⟩ := h
  match hw : s.chip.waits with
  | [] => rw [hw] at hl; simp at hl
  | [_] => rw [hw] at hl; simp at hl
  | x :: y :: rest =>
    rw [hw] at he
    obtain ⟨a, rfl, ha⟩ := he x (by simp)
    obtain ⟨b, rfl, hb⟩ := he y (by simp)
    exact ⟨a, b, rest, rfl, ha, hb⟩

/-- A frame opens: its two busy-waits end. -/
theorem openFrame_ends (pre : Word) (s : State) {a b : Nat} {rest : List BusyRun}
    (hw : s.chip.waits = .idleAfter a :: .idleAfter b :: rest) (ha : EndsWithin s.cfg.pollLimit a)
    (hb : EndsWithin s.cfg.pollLimit b) :
    openFrame pre s = .ok () { s with trace := s.trace ++ openEvents s.cfg.busyIdleLevel a b pre, cs := 0,
                                      chip := { s.chip with waits := rest } } := by
  unfold openFrame
  rw [bind_ok (busWaitIdle_ends 1 s a _ hw ha), bind_ok (select_run _), bind_ok (txWord_run pre _)]
  refine Eq.trans (busWaitIdle_ends 2 (State.emit (sentEvents [pre]) (State.selected { s with
    trace := s.trace ++ endedPolls s.cfg.busyIdleLevel a, chip := { s.chip with waits := .idleAfter b :: rest } }))
    b rest rfl hb) ?_
  simp [State.selected, State.emit, openEvents]

theorem skipWaits_two {c : Oracle} {x y : BusyRun} {rest : List BusyRun} (hw : c.waits = x :: y :: rest) :
    skipWaits 2 c = { c with waits := rest } := by
  simp [skipWaits, hw]

theorem collapsed_openEvents (idle : BitVec 1) (a b : Nat) (pre : Word) :
    collapsed idle (openEvents idle a b pre) =
      [.wait, .event .sel, .event (.tx (hiByte pre)), .event (.tx (loByte pre)), .wait] := by
  have h : openEvents idle a b pre = endedPolls idle a ++ (.sel :: (sentEvents [pre] ++ endedPolls idle b)) := by
    simp [openEvents]
  rw [h, collapsed_append _ (settled_endedPolls idle a), collapsed_endedPolls, collapsed,
    collapsed_append _ (settled_sentEvents idle [pre]), collapsed_sentEvents, collapsed_endedPolls]
  rfl

theorem settled_openEvents (idle : BitVec 1) (a b : Nat) (pre : Word) : Settled idle (openEvents idle a b pre) := by
  intro v
  rw [collapsed_openEvents]
  simp

theorem txnCommand_does (c : Word) (s : State) : Does (txnCommand c) s [.cmd c] 0 () s.regs := by
  intro hw
  obtain ⟨a, b, rest, hq, ha, hb⟩ := WaitsEnd.two hw
  refine ⟨openEvents s.cfg.busyIdleLevel a b preCmd ++ (sentEvents [c] ++ [.rel]), ?_, ?_⟩
  · unfold txnCommand
    rw [bind_ok (openFrame_ends preCmd s hq ha hb), bind_ok (txWord_run c _), release_run]
    simp [State.released, State.emit, State.after, State.regs, waitsOf, frameWaits, skipWaits_two hq]
  · rw [collapsed_append _ (settled_openEvents _ _ _ _), collapsed_openEvents, collapsed_append _ (settled_sentEvents _ _),
      collapsed_sentEvents]
    rfl

theorem txnWrite_does (ws : List Word) (s : State) : Does (txnWrite ws) s [.wr ws] 0 () s.regs := by
  intro hw
  obtain ⟨a, b, rest, hq, ha, hb⟩ := WaitsEnd.two hw
  refine ⟨openEvents s.cfg.busyIdleLevel a b preWr ++ (sentEvents ws ++ [.rel]), ?_, ?_⟩
  · unfold txnWrite
    rw [bind_ok (openFrame_ends preWr s hq ha hb), bind_ok (txWords_run ws _), release_run]
    simp [State.released, State.emit, State.after, State.regs, waitsOf, frameWaits, skipWaits_two hq]
  · rw [collapsed_append _ (settled_openEvents _ _ _ _), collapsed_openEvents, collapsed_append _ (settled_sentEvents _ _),
      collapsed_sentEvents]
    simp [frameWires, transaction, collapsed]
    exact ⟨by decide, by decide⟩

theorem txnRead_does (n : Nat) (s : State) :
    Does (txnRead n) s [.rd (rxWordAt s.chip 0) (rxWordsFrom s.chip 1 n)] (n + 1) (rxWordsFrom s.chip 1 n) s.regs := by
  intro hw
  obtain ⟨a, b, rest, hq, ha, hb⟩ := WaitsEnd.two hw
  refine ⟨openEvents s.cfg.busyIdleLevel a b preRd ++
    (receivedEvents (rxWordAt s.chip 0 :: rxWordsFrom s.chip 1 n) ++ [.rel]), ?_, ?_⟩
  · unfold txnRead
    rw [bind_ok (openFrame_ends preRd s hq ha hb), bind_ok (rxWord_run _), bind_ok (rxWords_run n _),
      bind_ok (release_run _), pure_run]
    have hsame : ∀ k, rxWordAt ({ s.chip with waits := rest } : Oracle) k = rxWordAt s.chip k := fun _ => rfl
    have hws : rxWordsFrom (skipRx (2 * 1) ({ s.chip with waits := rest } : Oracle)) 0 n =
        rxWordsFrom s.chip 1 n := by
      simp only [rxWordsFrom, Nat.zero_add, rxWordAt_skipRx, hsame]
    simp only [State.received, List.length_singleton, hws, hsame]
    congr 1
    have hlen : (rxWordsFrom s.chip 1 n).length = n := by simp [rxWordsFrom]
    simp [State.released, State.after, State.regs, waitsOf, frameWaits, skipWaits_two hq, skipRx_skipRx, hlen,
      receivedEvents, Nat.mul_add, Nat.add_comm]
    rfl
  · rw [collapsed_append _ (settled_openEvents _ _ _ _), collapsed_openEvents, collapsed_append _ (settled_receivedEvents _ _),
      collapsed_receivedEvents]
    simp [frameWires, transaction, collapsed]
    exact ⟨by decide, by decide⟩

theorem after_regs_self (s : State) (es : List Event) (n r : Nat) :
    (s.after es n r s.regs).regs = s.regs := rfl

theorem txnWrites_does (gs : List (List Word)) (s : State) (hcs : s.cs = 1) :
    Does (txnWrites gs) s (gs.map (fun ws => .wr ws)) 0 () s.regs := by
  induction gs generalizing s with
  | nil => exact Does.nothing hcs
  | cons ws gs ih =>
    exact (Does.bind (txnWrite_does ws s) (fun _ => ih _ rfl)).frames rfl rfl

/-- The groups the block sends are the argument frames (R136). -/
theorem argGroups_eq (c : Config) (args : List Word) : argGroups c args = argumentFrames c args := rfl

theorem multiArg_does (c : Word) (args : List Word) (s : State) :
    Does (multiArg c args) s (multiArgFrames s.cfg c args) 0 () s.regs :=
  Does.bind (fs := [.cmd c]) (q := 0) (r := 0) (txnCommand_does c s) (fun _ =>
    Does.look (readCfg_run _) (txnWrites_does _ _ rfl))

theorem regWrite_does (a v : Word) (s : State) :
    Does (regWrite a v) s (regWriteFrames s.cfg a v) 0 () s.regs :=
  Does.look (readCfg_run s) (multiArg_does _ _ s)

theorem regRead_does (a : Word) (s : State) :
    Does (regRead a) s (regReadFrames s.cfg a (rxWordAt s.chip 0) (rxWordAt s.chip 1)) 2 (rxWordAt s.chip 1) s.regs := by
  refine Does.look (readCfg_run s) ?_
  refine Does.bind (fs := [.cmd s.cfg.cmdRegRd]) (q := 0) (r := 2) (txnCommand_does _ s) (fun es => ?_)
  refine Does.bind (fs := [.wr [a]]) (q := 0) (r := 2) (txnWrite_does [a] _) (fun es' => ?_)
  have h := txnRead_does 1 ((s.after es (waitsOf [.cmd s.cfg.cmdRegRd]) 0 s.regs).after es' (waitsOf [.wr [a]]) 0 s.regs)
  simp only [rxWordsFrom, List.range_one, List.map_cons, List.map_nil, after_word, Nat.zero_add, Nat.add_zero,
    after_regs] at h
  exact Does.finish h (fun _ => rfl)

theorem setTargetAddr_does (a : Addr) (s : State) :
    Does (setTargetAddr a) s (targetFrames s.cfg a) 0 () { s.regs with tgt := some a } :=
  Does.look (readCfg_run s) (Does.bind (q := 0) (r := 0) (regWrite_does s.cfg.regAddrLo (loHalf a) s)
    (fun _ => Does.finish (regWrite_does s.cfg.regAddrHi (hiHalf a) _) (fun _ => rfl)))

theorem beginLoadCore_does (e : Endian) (p : ChipFormat) (r : Rotation) (a : Addr) (s : State) :
    Does (beginLoadCore e p r a) s (beginLoadFrames s.cfg e p r a) 0 ()
      { s.regs with tgt := some a, loadOpen := true } :=
  Does.bind (q := 0) (r := 0) (setTargetAddr_does a s) (fun _ => Does.look (readCfg_run _)
    (Does.finish (multiArg_does _ _ _) (fun _ => rfl)))

theorem beginLoadAreaCore_does (e : Endian) (p : ChipFormat) (r : Rotation) (a : Addr) (x y w h : Word) (s : State) :
    Does (beginLoadAreaCore e p r a x y w h) s (beginAreaFrames s.cfg e p r a x y w h) 0 ()
      { s.regs with tgt := some a, loadOpen := true } :=
  Does.bind (q := 0) (r := 0) (setTargetAddr_does a s) (fun _ => Does.look (readCfg_run _)
    (Does.finish (multiArg_does _ _ _) (fun _ => rfl)))

theorem endLoadCore_does (s : State) :
    Does endLoadCore s [.cmd s.cfg.cmdLdImgEnd] 0 () { s.regs with loadOpen := false } :=
  Does.look (readCfg_run s) (Does.finish (txnCommand_does _ s) (fun _ => rfl))

theorem displayCommand_does (x y w h mode : Word) (adr : Option Addr) (s : State) :
    Does (displayCommand x y w h mode adr) s (displayFrames s.cfg x y w h mode adr) 0 () s.regs := by
  refine Does.look (readCfg_run s) ?_
  cases adr with
  | none => exact multiArg_does _ _ s
  | some a => exact multiArg_does _ _ s

theorem displayCore_does (x y w h mode : Word) (adr : Option Addr) (s : State) :
    Does (displayCore x y w h mode adr) s (displayFrames s.cfg x y w h mode adr) 0 ()
      { s.regs with renderPending := true } :=
  Does.finish (displayCommand_does x y w h mode adr s) (fun _ => rfl)

end Sys2Proof.Machine
end

