-- ==== Sys2Proof/Laws/Procedures.lean ====
section
/-! SUPPORT. The longer procedures when every wait they make ends: bring-up, the 1-bpp display sequence, the render wait,
and `LoadImage` with its telegrams and bursts. -/

namespace Sys2Proof.Machine

open Sys2Proof.Safety

/-! ### Bring-up -/

theorem delay_does (ms : Nat) (s : State) (hcs : s.cs = 1) : Does (delay ms) s [.delay ms] 0 () s.regs := by
  intro _
  refine ⟨[.delay ms], ?_, rfl⟩
  rw [delay_run]
  simp [State.emit, State.after, State.regs, waitsOf, frameWaits, ← hcs]

theorem resetLine_does (l : BitVec 1) (s : State) (hcs : s.cs = 1) :
    Does (resetLine l) s [.rst l] 0 () { s.regs with rstl := l } := by
  intro _
  refine ⟨[.rst l], ?_, rfl⟩
  rw [resetLine_run]
  simp [State.after, State.regs, waitsOf, frameWaits, ← hcs]

theorem resetPulse_run (s : State) : resetPulse s = .ok () { s with
    trace := s.trace ++ [.rst 1, .delay 200, .rst 0, .delay 10, .rst 1, .delay 200], rstl := 1 } := by
  unfold resetPulse
  rw [bind_ok (resetLine_run _ _), bind_ok (delay_run _ _), bind_ok (resetLine_run _ _), bind_ok (delay_run _ _),
    bind_ok (resetLine_run _ _), delay_run]
  simp [State.emit]

theorem resetPulse_does (s : State) (hcs : s.cs = 1) :
    Does resetPulse s resetFrames 0 () { s.regs with rstl := 1 } := by
  intro _
  refine ⟨[.rst 1, .delay 200, .rst 0, .delay 10, .rst 1, .delay 200], (resetPulse_run s).trans ?_, rfl⟩
  simp [State.after, State.regs, waitsOf, frameWaits, resetFrames, ← hcs]

theorem vcomRead_does (s : State) :
    Does vcomRead s (vcomReadFrames s.cfg (rxWordAt s.chip 0) (rxWordAt s.chip 1)) 2 (rxWordAt s.chip 1) s.regs := by
  refine Does.look (readCfg_run s) ?_
  unfold vcomReadFrames
  cases s.cfg.vcomAccess with
  | register a => exact regRead_does a s
  | command code =>
    refine Does.bind (fs := [.cmd code]) (q := 0) (r := 2) (txnCommand_does _ s) (fun es => ?_)
    refine Does.bind (fs := [.wr [0x0000]]) (q := 0) (r := 2) (txnWrite_does _ _) (fun es' => ?_)
    have h := txnRead_does 1 ((s.after es (waitsOf [.cmd code]) 0 s.regs).after es' (waitsOf [.wr [0x0000]]) 0 s.regs)
    simp only [rxWordsFrom, List.range_one, List.map_cons, List.map_nil, after_word, Nat.zero_add, Nat.add_zero,
      after_regs] at h
    exact Does.finish h (fun _ => rfl)

theorem vcomWrite_does (v : Word) (s : State) : Does (vcomWrite v) s (vcomWriteFrames s.cfg v) 0 () s.regs := by
  refine Does.look (readCfg_run s) ?_
  unfold vcomWriteFrames
  cases s.cfg.vcomAccess with
  | register a => exact regWrite_does a v s
  | command code =>
    exact Does.bind (fs := [.cmd code]) (q := 0) (r := 0) (txnCommand_does _ s) (fun _ =>
      Does.bind (fs := [.wr [0x0001]]) (q := 0) (r := 0) (txnWrite_does _ _) (fun _ => txnWrite_does [v] _))

/-! ### The render wait -/

theorem regs_freeRenders (s : State) : s.regs.freeRenders = s.chip.freeRenders := rfl

/-- `n + 1` readings, the last of them idle, from a poll with fuel for them. -/
theorem renderPolls_does (n : Nat) : ∀ (npoll fuel : Nat) (s : State), n < fuel →
    (∀ i, i < n → statusBusy s.cfg s.chip 0 i) → ¬ statusBusy s.cfg s.chip 0 n →
    EndsWithin s.cfg.renderPollLimit (npoll + n) →
    Does (renderPolls fuel npoll) s (statusFrames s.cfg s.chip 0 (n + 1)) (2 * (n + 1)) () s.regs := by
  induction n with
  | zero =>
    intro npoll fuel s hf _ hi _
    obtain ⟨f, rfl⟩ : ∃ f, fuel = f + 1 := ⟨fuel - 1, by omega⟩
    refine Does.look (readCfg_run s) ?_
    have hidle : rxWordAt s.chip 1 &&& s.cfg.renderBusyMask = 0 := by simpa [statusBusy] using hi
    refine Does.finish (ρ := s.regs) ((regRead_does s.cfg.regRenderStatus s).frames (by simp [statusFrames]) rfl) ?_
    intro es
    rw [if_pos hidle]
    rfl
  | succ n ih =>
    intro npoll fuel s hf hb hi hl
    obtain ⟨f, rfl⟩ : ∃ f, fuel = f + 1 := ⟨fuel - 1, by omega⟩
    refine Does.look (readCfg_run s) ?_
    have hbusy : ¬ (rxWordAt s.chip 1 &&& s.cfg.renderBusyMask = 0) := by
      simpa [statusBusy] using hb 0 (by omega)
    have hframes : statusFrames s.cfg s.chip 0 (n + 1 + 1) =
        regReadFrames s.cfg s.cfg.regRenderStatus (rxWordAt s.chip 0) (rxWordAt s.chip 1) ++
          (List.range (n + 1)).flatMap (fun i => regReadFrames s.cfg s.cfg.regRenderStatus
            (rxWordAt s.chip (2 + (0 + 2 * i))) (rxWordAt s.chip (2 + (0 + 2 * i + 1)))) := by
      unfold statusFrames
      rw [List.range_succ_eq_map, List.flatMap_cons, List.flatMap_map]
      simp only [Nat.mul_succ, Nat.zero_add, Nat.mul_zero]
      congr 3
      funext i
      congr 2 <;> omega
    have hn : 2 * (n + 1 + 1) = 2 + 2 * (n + 1) := by omega
    rw [hframes, hn]
    refine Does.bind (regRead_does s.cfg.regRenderStatus s) (fun es => ?_)
    rw [if_neg hbusy]
    have hcount : ∀ t : State, t.cfg = s.cfg → countRenderPoll (npoll + 1) t = .ok () t := by
      intro t ht
      unfold countRenderPoll
      rw [bind_ok (readCfg_run t), ht]
      cases hp : s.cfg.renderPollLimit with
      | none => rfl
      | some l =>
        have := hl l hp
        simp only [raiseIf_run]
        rw [if_neg (by omega)]
    refine Does.look (hcount _ rfl) ?_
    have hword : ∀ k, rxWordAt (s.after es (waitsOf (regReadFrames s.cfg s.cfg.regRenderStatus (rxWordAt s.chip 0)
        (rxWordAt s.chip 1))) 2 s.regs).chip k = rxWordAt s.chip (2 + k) := fun k => after_word ..
    have h := ih (npoll + 1) f (s.after es (waitsOf (regReadFrames s.cfg s.cfg.regRenderStatus (rxWordAt s.chip 0)
      (rxWordAt s.chip 1))) 2 s.regs) (by omega)
      (fun i hi' => by
        have := hb (i + 1) (by omega)
        simp only [statusBusy, hword, after_cfg] at this ⊢
        rwa [show 2 + (0 + 2 * i + 1) = 0 + 2 * (i + 1) + 1 by omega])
      (by
        simp only [statusBusy, hword, after_cfg] at hi ⊢
        rwa [show 2 + (0 + 2 * n + 1) = 0 + 2 * (n + 1) + 1 by omega])
      (fun l hp => by have := hl l hp; omega)
    simp only [statusFrames, hword, after_cfg, after_regs] at h
    exact h

/-- The registers after a render wait. -/
def Regs.rendered (ρ : Regs) (c : Config) : Regs :=
  { ρ with renderPending := false, freeRenders := if c.renderPollLimit = none then ρ.freeRenders + 1 else ρ.freeRenders }

theorem waitRender_does (n : Nat) (s : State) (h : RenderEnds s 0 n) :
    Does waitRender s (statusFrames s.cfg s.chip 0 (n + 1)) (2 * (n + 1)) () (s.regs.rendered s.cfg) := by
  obtain ⟨hb, hi, hl, hq⟩ := h
  unfold waitRender
  cases hp : s.cfg.renderPollLimit with
  | some l =>
    have hd : drawRenderFuel s = .ok (l + 1) s := by unfold drawRenderFuel; rw [hp]
    refine Does.look hd ?_
    have hn := hl l hp
    refine Does.finish (renderPolls_does n 0 (l + 1) s (by omega) hb hi (by simpa using hl)) ?_
    intro es
    simp [Regs.rendered, State.after, State.regs, hp]
  | none =>
    let s' : State := { s with chip := { s.chip with freeRenders := s.chip.freeRenders + 1 } }
    have hd : drawRenderFuel s = .ok (s.chip.rx.length + Config.freeRenderPolls s.chip.freeRenders + 1) s' := by
      unfold drawRenderFuel
      rw [hp]
    have key : Does (do renderPolls (s.chip.rx.length + Config.freeRenderPolls s.chip.freeRenders + 1) 0
                        update (fun s => { s with renderPending := false })) s'
        (statusFrames s.cfg s.chip 0 (n + 1)) (2 * (n + 1)) () (s.regs.rendered s.cfg) := by
      refine Does.finish (renderPolls_does n 0 _ s' (by omega) hb hi (by simpa using hl)) ?_
      intro es
      simp [Regs.rendered, State.after, State.regs, hp, s']
    intro hw
    obtain ⟨es, he, hc⟩ := key hw
    refine ⟨es, ?_, hc⟩
    rw [bind_ok hd, he]
    simp [State.after, s', skipRx, skipWaits]

/-! ### The 1-bpp display sequence -/

theorem mode1On_does (s : State) :
    Does mode1On s (regReadFrames s.cfg s.cfg.regCtrlHi (rxWordAt s.chip 0) (rxWordAt s.chip 1) ++
      regWriteFrames s.cfg s.cfg.regCtrlHi (rxWordAt s.chip 1 ||| 0x0004)) 2 () s.regs :=
  Does.look (readCfg_run s) (Does.bind (q := 2) (r := 0) (regRead_does _ s) (fun _ => regWrite_does _ _ _))

theorem mode1Off_does (s : State) :
    Does mode1Off s (regReadFrames s.cfg s.cfg.regCtrlHi (rxWordAt s.chip 0) (rxWordAt s.chip 1) ++
      regWriteFrames s.cfg s.cfg.regCtrlHi (rxWordAt s.chip 1 &&& 0xFFFB)) 2 () s.regs :=
  Does.look (readCfg_run s) (Does.bind (q := 2) (r := 0) (regRead_does _ s) (fun _ => regWrite_does _ _ _))

theorem setBlend_does (fg bg : Byte) (s : State) :
    Does (setBlend fg bg) s (regWriteFrames s.cfg s.cfg.regBlend (blendWord s.cfg fg bg)) 0 () s.regs :=
  Does.look (readCfg_run s) (regWrite_does _ _ s)

theorem RenderEnds.later {s : State} {es : List Event} {n m r : Nat} {ρ : Regs} (h : RenderEnds s r m) :
    RenderEnds (s.after es n r ρ) 0 m := by
  obtain ⟨hb, hi, hl, hq⟩ := h
  refine ⟨fun i hi' => ?_, ?_, hl, ?_⟩
  · have := hb i hi'
    simp only [statusBusy, after_word, after_cfg, Nat.zero_add, Nat.add_assoc] at this ⊢
    exact this
  · simp only [statusBusy, after_word, after_cfg, Nat.zero_add, Nat.add_assoc] at hi ⊢
    exact hi
  · show _ ≤ (s.chip.rx.drop (2 * r)).length
    rw [List.length_drop]
    omega

theorem display1bppSequence_does (x y w h mode fgbg : Word) (adr : Option Addr) (n : Nat) (s : State)
    (hr : RenderEnds s 2 n) :
    Does (display1bppSequence x y w h mode fgbg adr) s
      (display1bppFrames s.cfg s.chip x y w h mode (hiByte fgbg) (loByte fgbg) adr n) (2 * n + 6) ()
      (s.regs.rendered s.cfg) := by
  let on := regReadFrames s.cfg s.cfg.regCtrlHi (rxWordAt s.chip 0) (rxWordAt s.chip 1) ++
    regWriteFrames s.cfg s.cfg.regCtrlHi (rxWordAt s.chip 1 ||| 0x0004)
  let blend := regWriteFrames s.cfg s.cfg.regBlend (blendWord s.cfg (hiByte fgbg) (loByte fgbg))
  let off := regReadFrames s.cfg s.cfg.regCtrlHi (rxWordAt s.chip (2 * n + 4)) (rxWordAt s.chip (2 * n + 5)) ++
    regWriteFrames s.cfg s.cfg.regCtrlHi (rxWordAt s.chip (2 * n + 5) &&& 0xFFFB)
  suffices h : Does (display1bppSequence x y w h mode fgbg adr) s
      (on ++ (blend ++ (displayFrames s.cfg x y w h mode adr ++ (statusFrames s.cfg s.chip 2 (n + 1) ++ off))))
      (2 + (0 + (0 + (2 * (n + 1) + 2)))) () (s.regs.rendered s.cfg) by
    refine Does.frames h ?_ (by omega)
    simp [display1bppFrames, display1bppOpening, on, blend, off, List.append_assoc]
  refine Does.bind (fs := on) (ρ := s.regs) (mode1On_does s) (fun es1 => ?_)
  refine Does.bind (fs := blend) (ρ := s.regs) (setBlend_does _ _ _) (fun es2 => ?_)
  refine Does.bind (fs := displayFrames s.cfg x y w h mode adr) (ρ := { s.regs with renderPending := true })
    (displayCore_does x y w h mode adr _) (fun es3 => ?_)
  refine Does.bind (fs := statusFrames s.cfg s.chip 2 (n + 1)) (ρ := s.regs.rendered s.cfg) (a := ()) ?_ (fun es4 => ?_)
  · have h := waitRender_does n (((s.after es1 (waitsOf on) 2 s.regs).after es2 (waitsOf blend) 0 s.regs).after es3
      (waitsOf (displayFrames s.cfg x y w h mode adr)) 0
      { s.regs with renderPending := true }) (by
        rw [after_after, after_after]
        exact RenderEnds.later hr)
    simp only [statusFrames, after_word, after_cfg, after_regs] at h ⊢
    refine Does.frames h ?_ rfl
    congr 1
    funext i
    congr 2 <;> omega
  · have h := mode1Off_does ((((s.after es1 (waitsOf on) 2 s.regs).after es2 (waitsOf blend) 0 s.regs).after es3
      (waitsOf (displayFrames s.cfg x y w h mode adr)) 0
      { s.regs with renderPending := true }).after es4 (waitsOf (statusFrames s.cfg s.chip 2 (n + 1))) (2 * (n + 1))
        (s.regs.rendered s.cfg))
    simp only [after_word, after_cfg, after_regs] at h
    refine Does.frames h ?_ rfl
    rw [show 2 + (0 + (0 + (2 * (n + 1) + 0))) = 2 * n + 4 by omega,
      show 2 + (0 + (0 + (2 * (n + 1) + 1))) = 2 * n + 5 by omega]

/-! ### The words of a load -/

/-- A load that reads no byte outside SRC (R226), or none at all. -/
def SourceFits (s : State) (j : LoadJob) : Prop :=
  ∀ r k, r < j.h.toNat → k < wordsPerRow j.d j.w.toNat → j.fill = none →
    j.src.toNat + r * j.stride + 2 * k + 2 ≤ s.cfg.srcSize.toNat

theorem loadWord_run (j : LoadJob) (r0 i : Nat) (s : State)
    (hfit : j.fill = none → j.src.toNat + (r0 + i / wordsPerRow j.d j.w.toNat) * j.stride +
      2 * (i % wordsPerRow j.d j.w.toNat) + 2 ≤ s.cfg.srcSize.toNat) :
    loadWord j r0 i s = .ok (pixelWord s j (r0 + i / wordsPerRow j.d j.w.toNat)
      (i % wordsPerRow j.d j.w.toNat)) s := by
  unfold loadWord pixelWord
  cases hf : j.fill with
  | some f => rfl
  | none =>
    have := hfit hf
    simp only []
    rw [bind_ok (readCfg_run s)]
    have hm : memRead (j.src.toNat + (r0 + i / wordsPerRow j.d j.w.toNat) * j.stride +
        2 * (i % wordsPerRow j.d j.w.toNat)) 2 s = .ok ((List.range 2).map (fun q => s.src.read
          (j.src.toNat + (r0 + i / wordsPerRow j.d j.w.toNat) * j.stride +
            2 * (i % wordsPerRow j.d j.w.toNat) + q))) s := by
      unfold memRead
      rw [if_pos (by omega)]
    rw [bind_ok hm]
    rfl

/-- The words `i .. i + n - 1` of the telegram that starts at row `r0`. -/
def telegramSlice (s : State) (j : LoadJob) (r0 i n : Nat) : List Word :=
  (List.range n).map (fun q => pixelWord s j (r0 + (i + q) / wordsPerRow j.d j.w.toNat)
    ((i + q) % wordsPerRow j.d j.w.toNat))

theorem loadWords_run (j : LoadJob) (r0 n i : Nat) (s : State)
    (hfit : ∀ q, q < n → j.fill = none → j.src.toNat + (r0 + (i + q) / wordsPerRow j.d j.w.toNat) * j.stride +
      2 * ((i + q) % wordsPerRow j.d j.w.toNat) + 2 ≤ s.cfg.srcSize.toNat) :
    loadWords j r0 n i s = .ok (telegramSlice s j r0 i n) s := by
  induction n generalizing i with
  | zero => rfl
  | succ n ih =>
    unfold loadWords
    rw [bind_ok (loadWord_run j r0 i s (by simpa using hfit 0 (by omega))), bind_ok (ih (i + 1) ?_)]
    · simp only [telegramSlice, List.range_succ_eq_map, List.map_cons, List.map_map, pure_run, Nat.add_zero]
      congr 3
      funext q
      simp only [Function.comp, Nat.succ_eq_add_one]
      rw [show i + 1 + q = i + (q + 1) by omega]
    · intro q hq
      have := hfit (q + 1) (by omega)
      rwa [show i + (q + 1) = i + 1 + q by omega] at this

theorem telegramSlice_after (s : State) (es : List Event) (n r : Nat) (ρ : Regs) (j : LoadJob) (r0 i m : Nat) :
    telegramSlice (s.after es n r ρ) j r0 i m = telegramSlice s j r0 i m := rfl

theorem length_telegramSlice (s : State) (j : LoadJob) (r0 i n : Nat) : (telegramSlice s j r0 i n).length = n := by
  simp [telegramSlice]

/-- Burst `b` of a telegram of `n` words is that cut of its words. -/
theorem slice_cut (s : State) (j : LoadJob) (r0 n b w : Nat) :
    telegramSlice s j r0 (b * w) (min n ((b + 1) * w) - b * w) = ((telegramSlice s j r0 0 n).drop (b * w)).take w := by
  apply List.ext_getElem
  · simp only [length_telegramSlice, List.length_take, List.length_drop]
    have : (b + 1) * w = b * w + w := Nat.succ_mul b w
    omega
  · intro q h1 h2
    simp [telegramSlice, List.getElem_take, List.getElem_drop]

/-- The telegram's words row by row. -/
theorem slice_rows (s : State) (j : LoadJob) (r0 rows : Nat) (hw : 0 < wordsPerRow j.d j.w.toNat) :
    telegramSlice s j r0 0 (wordsPerRow j.d j.w.toNat * rows) =
      (List.range rows).flatMap (fun i => rowWords s j (r0 + i)) := by
  induction rows with
  | zero => simp [telegramSlice]
  | succ rows ih =>
    rw [List.range_succ, List.flatMap_append, ← ih]
    unfold telegramSlice rowWords
    rw [Nat.mul_succ, List.range_add, List.map_append, List.map_map]
    congr 1
    simp only [List.flatMap_cons, List.flatMap_nil, List.append_nil]
    apply List.map_congr_left
    intro q hq
    have hq' : q < wordsPerRow j.d j.w.toNat := List.mem_range.mp hq
    simp only [Function.comp, Nat.zero_add]
    rw [Nat.mul_add_div hw, Nat.mul_add_mod, Nat.mod_eq_of_lt hq', Nat.div_eq_of_lt hq', Nat.add_zero]

/-! ### Bursts and telegrams -/

/-- The delay before burst `b`, and the burst. -/
def burstFrames (ms b : Nat) (ws : List Word) : List Frame := (if b > 0 then [.delay ms] else []) ++ [.wr ws]

theorem interBurstDelay_does (b : Nat) (s : State) (hcs : s.cs = 1) :
    Does (interBurstDelay b) s (if b > 0 then [.delay s.cfg.interBurstDelayMs] else []) 0 () s.regs := by
  refine Does.look (readCfg_run s) ?_
  by_cases hb : b > 0
  · simp only [hb, if_true]
    exact delay_does _ s hcs
  · simp only [hb, if_false]
    exact Does.nothing hcs

/-- The row and column of every word of a telegram are within the rectangle, so its reads are within SRC. -/
theorem SourceFits.slice {s : State} {j : LoadJob} (h : SourceFits s j) {r0 rows i n : Nat}
    (hr : r0 + rows ≤ j.h.toNat) (hn : i + n ≤ wordsPerRow j.d j.w.toNat * rows) :
    ∀ q, q < n → j.fill = none → j.src.toNat + (r0 + (i + q) / wordsPerRow j.d j.w.toNat) * j.stride +
      2 * ((i + q) % wordsPerRow j.d j.w.toNat) + 2 ≤ s.cfg.srcSize.toNat := by
  intro q hq hf
  have hpos : 0 < wordsPerRow j.d j.w.toNat := by
    rcases Nat.eq_zero_or_pos (wordsPerRow j.d j.w.toNat) with h0 | h0
    · rw [h0, Nat.zero_mul] at hn; omega
    · exact h0
  have hdiv : (i + q) / wordsPerRow j.d j.w.toNat < rows := by
    rw [Nat.div_lt_iff_lt_mul hpos, Nat.mul_comm]
    omega
  exact h _ _ (by omega) (Nat.mod_lt _ hpos) hf

theorem loadBurst_does (j : LoadJob) (r0 rows n b : Nat) (s : State) (hcs : s.cs = 1) (hfit : SourceFits s j)
    (hr : r0 + rows ≤ j.h.toNat) (hn : n = wordsPerRow j.d j.w.toNat * rows) (hb : b * s.cfg.bWords ≤ n) :
    Does (loadBurst j r0 n b) s (burstFrames s.cfg.interBurstDelayMs b
      (((telegramSlice s j r0 0 n).drop (b * s.cfg.bWords)).take s.cfg.bWords)) 0 () s.regs := by
  refine Does.bind (q := 0) (r := 0) (interBurstDelay_does b s hcs) (fun es => Does.look (readCfg_run _) ?_)
  refine Does.look (loadWords_run j r0 _ _ _ ?_) ?_
  · exact hfit.slice (rows := rows) hr (by simp only [after_cfg]; omega)
  · rw [telegramSlice_after, after_cfg, slice_cut]
    exact txnWrite_does _ _

theorem loadBursts_does (j : LoadJob) (r0 rows n : Nat) (hr : r0 + rows ≤ j.h.toNat)
    (hn : n = wordsPerRow j.d j.w.toNat * rows) : ∀ (count b : Nat) (s : State), s.cs = 1 → SourceFits s j →
    (∀ i, i < count → (b + i) * s.cfg.bWords ≤ n) →
    Does (loadBursts j r0 n count b) s ((List.range count).flatMap (fun i =>
      burstFrames s.cfg.interBurstDelayMs (b + i)
        (((telegramSlice s j r0 0 n).drop ((b + i) * s.cfg.bWords)).take s.cfg.bWords))) 0 () s.regs := by
  intro count
  induction count with
  | zero => intro b s hcs _ _; exact Does.nothing hcs
  | succ count ih =>
    intro b s hcs hfit hb
    have hnext : ∀ i, i < count → (b + 1 + i) * s.cfg.bWords ≤ n := fun i hi => by
      have := hb (i + 1) (by omega)
      rwa [show b + (i + 1) = b + 1 + i by omega] at this
    let first := burstFrames s.cfg.interBurstDelayMs b
      (((telegramSlice s j r0 0 n).drop (b * s.cfg.bWords)).take s.cfg.bWords)
    refine Does.frames (q := 0) (Does.bind (fs := first) (q := 0) (r := 0)
      (gs := (List.range count).flatMap (fun i => burstFrames s.cfg.interBurstDelayMs (b + 1 + i)
        (((telegramSlice s j r0 0 n).drop ((b + 1 + i) * s.cfg.bWords)).take s.cfg.bWords)))
      (loadBurst_does j r0 rows n b s hcs hfit hr hn (by simpa using hb 0 (by omega)))
      (fun es => ih (b + 1) (s.after es (waitsOf first) 0 s.regs) rfl hfit hnext)) ?_ rfl
    rw [List.range_succ_eq_map, List.flatMap_cons, List.flatMap_map]
    congr 2
    funext i
    rw [show b + Nat.succ i = b + 1 + i by omega]

theorem intersperse_bursts (ms : Nat) (f : Nat → List Word) (n : Nat) :
    (List.range n).flatMap (fun i => burstFrames ms i (f i)) =
      (((List.range n).map f).map Frame.wr).intersperse (.delay ms) := by
  induction n with
  | zero => rfl
  | succ n ih =>
    rw [List.range_succ, List.flatMap_append, ih, List.map_append, List.map_append]
    cases n with
    | zero => simp [burstFrames]
    | succ n =>
      have hlast : ∀ (xs : List Frame) (x y : Frame), xs ≠ [] →
          (xs ++ [y]).intersperse x = xs.intersperse x ++ [x, y] := by
        intro xs x y
        induction xs with
        | nil => intro h; exact absurd rfl h
        | cons z zs ihz =>
          intro _
          cases zs with
          | nil => rfl
          | cons z' zs' =>
            have := ihz (by simp)
            simp only [List.cons_append, List.intersperse_cons_cons] at this ⊢
            rw [this]
      simp only [List.map_cons, List.map_nil, List.flatMap_cons, List.flatMap_nil, List.append_nil]
      rw [hlast _ _ _ (by simp [List.range_succ])]
      simp [burstFrames]

theorem ceilDiv_le {n w i : Nat} (hw : 0 < w) (hi : i < ceilDiv n w) : i * w ≤ n := by
  unfold ceilDiv at hi
  have h1 : i + 1 ≤ (n + w - 1) / w := hi
  rw [Nat.le_div_iff_mul_le hw] at h1
  have h2 : (i + 1) * w = i * w + w := Nat.succ_mul i w
  omega

theorem loadTelegram_does (j : LoadJob) (t : Nat) (s : State) (hfit : SourceFits s j)
    (hb : 0 < s.cfg.bWords) (hw : 0 < wordsPerRow j.d j.w.toNat) (ht : t * s.cfg.tRows ≤ j.h.toNat) :
    Does (loadTelegram j t) s (telegramFrames s j t (burstsOf s.cfg.bWords (telegramWords s j t))) 0 ()
      { s.regs with tgt := some j.tgt, loadOpen := false } := by
  refine Does.look (readCfg_run s) ?_
  have hrows : t * s.cfg.tRows + telegramRows s.cfg.tRows j.h.toNat t ≤ j.h.toNat := by
    unfold telegramRows; omega
  let opened : Regs := { s.regs with tgt := some j.tgt, loadOpen := true }
  let begins := beginAreaFrames s.cfg j.e (loadFormat j.d) j.r j.tgt (chipUnits j.d j.x)
    (BitVec.ofNat 16 (j.y.toNat + t * s.cfg.tRows)) (chipUnits j.d j.w)
    (BitVec.ofNat 16 (telegramRows s.cfg.tRows j.h.toNat t))
  let n := wordsPerRow j.d j.w.toNat * telegramRows s.cfg.tRows j.h.toNat t
  let bursts := (List.range (ceilDiv n s.cfg.bWords)).flatMap (fun i => burstFrames s.cfg.interBurstDelayMs (0 + i)
    (((telegramSlice s j (t * s.cfg.tRows) 0 n).drop ((0 + i) * s.cfg.bWords)).take s.cfg.bWords))
  refine Does.frames (fs := begins ++ (bursts ++ [.cmd s.cfg.cmdLdImgEnd])) (q := 0)
    (Does.bind (fs := begins) (ρ := opened) (q := 0) (r := 0)
      (beginLoadAreaCore_does _ _ _ _ _ _ _ _ s) (fun es =>
      Does.bind (fs := bursts) (ρ := opened) (q := 0) (r := 0)
        (loadBursts_does j _ (telegramRows s.cfg.tRows j.h.toNat t) n hrows rfl _ 0
          (s.after es (waitsOf begins) 0 opened) rfl hfit (fun i hi => by simpa using ceilDiv_le hb hi))
        (fun es' => endLoadCore_does _))) ?_ rfl
  simp only [begins, bursts, n]
  unfold telegramFrames
  simp only [Nat.zero_add, slice_rows s j _ _ hw]
  rw [List.append_assoc]
  congr 2
  rw [intersperse_bursts]
  unfold burstsOf telegramWords telegramRows
  have hlen : ∀ rows, ((List.range rows).flatMap (fun i => rowWords s j (t * s.cfg.tRows + i))).length =
      wordsPerRow j.d j.w.toNat * rows := by
    intro rows
    rw [← slice_rows s j _ _ hw, length_telegramSlice]
  rw [hlen]

theorem loadTelegrams_does (j : LoadJob) (hw : 0 < wordsPerRow j.d j.w.toNat) :
    ∀ (count t : Nat) (s : State), s.cs = 1 → SourceFits s j → 0 < s.cfg.bWords →
    (∀ i, i < count → (t + i) * s.cfg.tRows ≤ j.h.toNat) →
    Does (loadTelegrams j count t) s ((List.range count).flatMap (fun i =>
      telegramFrames s j (t + i) (burstsOf s.cfg.bWords (telegramWords s j (t + i))))) 0 ()
      (if count = 0 then s.regs else { s.regs with tgt := some j.tgt, loadOpen := false }) := by
  intro count
  induction count with
  | zero => intro t s hcs _ _ _; exact Does.nothing hcs
  | succ count ih =>
    intro t s hcs hfit hb ht
    have hnext : ∀ i, i < count → (t + 1 + i) * s.cfg.tRows ≤ j.h.toNat := fun i hi => by
      have := ht (i + 1) (by omega)
      rwa [show t + (i + 1) = t + 1 + i by omega] at this
    let done : Regs := { s.regs with tgt := some j.tgt, loadOpen := false }
    let first := telegramFrames s j t (burstsOf s.cfg.bWords (telegramWords s j t))
    have h : ∀ es, Does (loadTelegrams j count (t + 1)) (s.after es (waitsOf first) 0 done)
        ((List.range count).flatMap (fun i =>
          telegramFrames s j (t + 1 + i) (burstsOf s.cfg.bWords (telegramWords s j (t + 1 + i))))) 0 () done := by
      intro es
      have h := ih (t + 1) (s.after es (waitsOf first) 0 done) rfl hfit hb hnext
      simp only [after_regs] at h
      rw [show (if count = 0 then done else { done with tgt := some j.tgt, loadOpen := false }) = done by
        simp [done]] at h
      exact h
    refine Does.frames (q := 0) (Does.bind (fs := first) (ρ := done) (q := 0) (r := 0)
      (loadTelegram_does j t s hfit hb hw (by simpa using ht 0 (by omega))) h) ?_ rfl
    rw [List.range_succ_eq_map, List.flatMap_cons, List.flatMap_map]
    congr 2
    funext i
    rw [show t + Nat.succ i = t + 1 + i by omega]

end Sys2Proof.Machine
end

