-- ==== Sys2Proof/Laws/Checks.lean ====
section
/-! SUPPORT. The checks an operation makes before it emits anything, each said once as the first refusal it finds, and
`LoadImage` from a state in which no check refuses it. -/

namespace Sys2Proof.Machine

open Sys2Proof.Safety

/-- A check that raises the given detail, or passes; the state is as before. -/
def verdict (e : ErrKind) (o : Option Byte) (s : State) : EStateM.Result Stop State Unit :=
  match o with
  | some i => .error (.raise e i) s
  | none => .ok () s

@[simp] theorem verdict_none (e : ErrKind) (s : State) : verdict e none s = .ok () s := rfl

@[simp] theorem verdict_some (e : ErrKind) (i : Byte) (s : State) :
    verdict e (some i) s = .error (.raise e i) s := rfl

theorem checkMod_run (mask m : Mod) (s : State) :
    checkMod mask m s = if m &&& mask = 0 then .ok () s else .error (.raise .unsupported 5) s := by
  unfold checkMod modClear
  by_cases h : m &&& mask = 0 <;> simp [h]

theorem refuseLoadOpen_run (i : Byte) (s : State) :
    refuseLoadOpen i s = verdict .protocolMisuse (if s.loadOpen then some i else none) s := by
  unfold refuseLoadOpen
  rw [bind_ok (readState_run s), raiseIf_run]
  cases s.loadOpen <;> rfl

theorem rawAdmit_run (m : Mod) (s : State) :
    rawAdmit m s = if m = 0 then verdict .protocolMisuse (misuseIn s .outsideLoad) s
      else .error (.raise .unsupported 5) s := by
  have hm : m &&& maskNone = m := by unfold maskNone; revert m; decide
  unfold rawAdmit
  by_cases h : m = 0
  · rw [bind_ok (t := s) (a := ()) (by rw [checkMod_run, hm, if_pos h]), refuseLoadOpen_run, if_pos h]
    rfl
  · rw [bind_error (t := s) (e := .raise .unsupported 5) (by rw [checkMod_run, hm, if_neg h]), if_neg h]

theorem loadAdmitState_run (s : State) :
    loadAdmitState s = verdict .protocolMisuse (misuseIn s .load) s := by
  unfold loadAdmitState requireReady refuseRenderPending
  unfold misuseIn
  cases hl : s.loadOpen with
  | true => rw [bind_error (by rw [refuseLoadOpen_run, hl]; rfl)]; rfl
  | false =>
    rw [bind_ok (a := ()) (t := s) (by rw [refuseLoadOpen_run, hl]; rfl)]
    by_cases hr : s.session = .ready
    · rw [bind_ok (a := ()) (t := s) (by rw [bind_ok (readState_run s)]; simp [hr]), bind_ok (readState_run s)]
      cases hp : s.renderPending <;> simp [hr]
    · rw [bind_error (t := s) (e := .raise .protocolMisuse 5) (by rw [bind_ok (readState_run s)]; simp [hr])]
      simp [hr]

theorem displayAdmit_run (mask m : Mod) (s : State) :
    displayAdmit mask m s = if m &&& mask = 0 then verdict .protocolMisuse (misuseIn s .display) s
      else .error (.raise .unsupported 5) s := by
  unfold displayAdmit requireReady refuseRenderPending
  by_cases hm : m &&& mask = 0
  · rw [bind_ok (a := ()) (t := s) (by rw [checkMod_run, if_pos hm]), if_pos hm]
    unfold misuseIn
    cases hl : s.loadOpen with
    | true => rw [bind_error (by rw [refuseLoadOpen_run, hl]; rfl)]; rfl
    | false =>
      rw [bind_ok (a := ()) (t := s) (by rw [refuseLoadOpen_run, hl]; rfl)]
      by_cases hr : s.session = .ready
      · rw [bind_ok (a := ()) (t := s) (by rw [bind_ok (readState_run s)]; simp [hr]), bind_ok (readState_run s)]
        cases hp : s.renderPending <;> simp [hr]
      · rw [bind_error (t := s) (e := .raise .protocolMisuse 5) (by rw [bind_ok (readState_run s)]; simp [hr])]
        simp [hr]
  · rw [bind_error (t := s) (e := .raise .unsupported 5) (by rw [checkMod_run, if_neg hm]), if_neg hm]

theorem loadAdmit_run (mask m : Mod) (s : State) :
    loadAdmit mask m s = if m &&& mask = 0 then verdict .protocolMisuse (misuseIn s .load) s
      else .error (.raise .unsupported 5) s := by
  unfold loadAdmit
  by_cases hm : m &&& mask = 0
  · rw [bind_ok (a := ()) (t := s) (by rw [checkMod_run, if_pos hm]), if_pos hm, loadAdmitState_run]
  · rw [bind_error (t := s) (e := .raise .unsupported 5) (by rw [checkMod_run, if_neg hm]), if_neg hm]

theorem areaCheck_run (x y w h panelW panelH : Word) (s : State) :
    areaCheck x y w h panelW panelH s = verdict .invalidGeometry (areaRefusal x y w h panelW panelH) s := by
  unfold areaCheck areaRefusal
  by_cases h1 : w = 0 ∨ h = 0
  · rw [bind_error (by rw [raiseIf_run, if_pos h1]), if_pos h1]; rfl
  · rw [bind_ok (a := ()) (t := s) (by rw [raiseIf_run, if_neg h1]), if_neg h1]
    by_cases h2 : x.toNat + w.toNat > panelW.toNat
    · rw [bind_error (by rw [raiseIf_run, if_pos h2]), if_pos h2]; rfl
    · rw [bind_ok (a := ()) (t := s) (by rw [raiseIf_run, if_neg h2]), if_neg h2, raiseIf_run]
      by_cases h3 : y.toNat + h.toNat > panelH.toNat
      · rw [if_pos h3, if_pos h3]; rfl
      · rw [if_neg h3, if_neg h3]; rfl

theorem panelCheck_run (x y w h : Word) (s : State) {d : Descriptor} (hd : s.desc = some d) :
    panelCheck x y w h s = verdict .invalidGeometry (areaRefusal x y w h d.panelW d.panelH) s := by
  unfold panelCheck
  rw [bind_ok (a := d) (t := s) (by unfold readDesc; rw [hd]), areaCheck_run]

theorem loadGeom_run (j : LoadJob) (s : State) {d : Descriptor} (hd : s.desc = some d) :
    loadGeom j s = verdict .invalidGeometry (geometryRefusal s.cfg d j) s := by
  unfold loadGeom geometryRefusal
  have hp := panelCheck_run j.x j.y j.w j.h s hd
  cases ha : areaRefusal j.x j.y j.w j.h d.panelW d.panelH with
  | some i => rw [ha] at hp; rw [bind_error hp]; rfl
  | none =>
    rw [ha] at hp
    rw [bind_ok hp, bind_ok (readCfg_run s)]
    by_cases h1 : s.cfg.rowAlign = .reject ∧ j.w.toNat * depthBits j.d % 16 ≠ 0
    · rw [bind_error (by rw [raiseIf_run, if_pos h1])]; simp [h1]
    · rw [bind_ok (a := ()) (t := s) (by rw [raiseIf_run, if_neg h1])]
      by_cases h2 : wordsPerRow j.d j.w.toNat = 0
      · rw [bind_error (by rw [raiseIf_run, if_pos h2])]
        have h2' : j.w.toNat * depthBits j.d / 8 / 2 = 0 := h2
        simp only [if_neg h1, if_pos h2', verdict_some]
      · rw [bind_ok (a := ()) (t := s) (by rw [raiseIf_run, if_neg h2])]
        have h2' : ¬ j.w.toNat * depthBits j.d / 8 / 2 = 0 := h2
        by_cases h3 : j.d = .d1 ∧ j.x.toNat % 8 ≠ 0
        · rw [bind_error (by rw [raiseIf_run, if_pos h3])]
          simp only [if_neg h1, if_neg h2', if_pos h3, verdict_some]
        · rw [bind_ok (a := ()) (t := s) (by rw [raiseIf_run, if_neg h3]), raiseIf_run]
          simp only [if_neg h1, if_neg h2', if_neg h3]
          by_cases h4 : j.stride < bytesPerRow j.d j.w.toNat
          · have h4' : j.stride < j.w.toNat * depthBits j.d / 8 := h4
            rw [if_pos h4, if_pos h4', verdict_some]
          · have h4' : ¬ j.stride < j.w.toNat * depthBits j.d / 8 := h4
            rw [if_neg h4, if_neg h4', verdict_none]

theorem allocOk_run (s : State) : allocOk s = .ok (drawAlloc s.chip).1 (afterAllocDraw s) := rfl

/-- The allocation draw of a load. -/
theorem requireAlloc_run (s : State) : requireAlloc s =
    if nextAlloc s.chip = false then .error (.raise .allocFail 0) (afterAllocDraw s) else .ok () (afterAllocDraw s) := by
  unfold requireAlloc
  rw [bind_ok (allocOk_run s), raiseIf_run]
  rfl

/-- The footprint check of a load. -/
theorem footprint_run (j : LoadJob) (s : State) : footprint j s =
    if j.fill = none ∧ footprintLast j ≥ s.cfg.srcSize.toNat then .error (.raise .srcBounds 0) s else .ok () s := by
  unfold footprint
  rw [bind_ok (readCfg_run s), raiseIf_run]

/-- The code of an error is that of one kind. -/
def kindOf (code : Byte) : ErrKind := if code = 4 then .invalidGeometry else if code = 6 then .srcBounds else .allocFail

/-- A load that a check refuses: nothing is emitted, and only AllocFail has taken its draw. -/
theorem loadImage_refused (j : LoadJob) (s : State) {d : Descriptor} (hd : s.desc = some d) {code info : Byte}
    (h : loadRefusal s d j = some (code, info)) :
    loadImage j s = .error (.raise (kindOf code) info) (if code = 3 then afterAllocDraw s else s) ∧
      errCode (kindOf code) = code := by
  unfold loadRefusal at h
  unfold loadImage
  have hg := loadGeom_run j s hd
  cases hr : geometryRefusal s.cfg d j with
  | some i =>
    rw [hr] at h hg
    cases h
    exact ⟨bind_error hg, rfl⟩
  | none =>
    rw [hr] at h hg
    rw [bind_ok hg]
    simp only at h
    split at h
    · rename_i hf
      cases h
      exact ⟨bind_error ((footprint_run j s).trans (if_pos hf)), rfl⟩
    · rename_i hf
      split at h
      · rename_i ha
        cases h
        refine ⟨?_, rfl⟩
        rw [bind_ok ((footprint_run j s).trans (if_neg hf))]
        exact bind_error ((requireAlloc_run s).trans (if_pos ha))
      · cases h

/-- What a load that no check refuses has: whole non-empty rows, within SRC and within the stride. -/
theorem loadRefusal_none {j : LoadJob} {s : State} {d : Descriptor} (h : loadRefusal s d j = none) :
    geometryRefusal s.cfg d j = none ∧ 0 < j.h.toNat ∧ 0 < wordsPerRow j.d j.w.toNat ∧ SourceFits s j ∧
      nextAlloc s.chip = true ∧
      ¬ (j.fill = none ∧ footprintLast j ≥ s.cfg.srcSize.toNat) := by
  unfold loadRefusal at h
  cases hr : geometryRefusal s.cfg d j with
  | some i => rw [hr] at h; cases h
  | none =>
    rw [hr] at h
    simp only at h
    split at h
    · cases h
    · rename_i hf
      split at h
      · cases h
      · rename_i ha
        unfold geometryRefusal at hr
        cases harea : areaRefusal j.x j.y j.w j.h d.panelW d.panelH with
        | some i => rw [harea] at hr; cases hr
        | none =>
          rw [harea] at hr
          simp only at hr
          split at hr
          · cases hr
          · split at hr
            · cases hr
            · rename_i h2
              split at hr
              · cases hr
              · split at hr
                · cases hr
                · rename_i h4
                  unfold areaRefusal at harea
                  split at harea
                  · cases harea
                  · rename_i h0
                    have hh : 0 < j.h.toNat := by
                      rcases Nat.eq_zero_or_pos j.h.toNat with h | h
                      · exact absurd (Or.inr (BitVec.eq_of_toNat_eq h)) h0
                      · exact h
                    have hwp : 0 < wordsPerRow j.d j.w.toNat := Nat.pos_of_ne_zero h2
                    refine ⟨rfl, hh, hwp, ?_, by simpa using ha, hf⟩
                    intro r k hr' hk hfill
                    have hlast : footprintLast j < s.cfg.srcSize.toNat := by
                      by_contra hcon
                      exact hf ⟨hfill, Nat.le_of_not_lt hcon⟩
                    unfold footprintLast at hlast
                    have hmul : r * j.stride ≤ (j.h.toNat - 1) * j.stride :=
                      Nat.mul_le_mul_right _ (by omega)
                    omega

/-- `LoadImage` when no check refuses it: the telegrams, with the load closed at the end. -/
theorem loadImage_does (j : LoadJob) (s : State) {d : Descriptor} (hd : s.desc = some d) (hc : configLegal s.cfg = true)
    (hcs : s.cs = 1) (h : loadRefusal s d j = none) :
    Does (loadImage j) s (loadFrames s j) 0 ()
      { s.regs with tgt := some j.tgt, loadOpen := false, alloc := (drawAlloc s.chip).2.alloc,
                    freeAllocs := (drawAlloc s.chip).2.freeAllocs } := by
  obtain ⟨hg, hh, hwp, hfit, ha, hf⟩ := loadRefusal_none h
  have hlegal : 0 < s.cfg.tRows ∧ 0 < s.cfg.bWords := by
    simp only [configLegal, Bool.and_eq_true, decide_eq_true_eq] at hc
    omega
  have hgeom := loadGeom_run j s hd
  rw [hg] at hgeom
  refine Does.look hgeom (Does.look ((footprint_run j s).trans (if_neg hf)) ?_)
  · have hdraw : (drawAlloc s.chip).2.waits = s.chip.waits ∧ (drawAlloc s.chip).2.rx = s.chip.rx ∧
        (drawAlloc s.chip).2.freeWaits = s.chip.freeWaits ∧ (drawAlloc s.chip).2.freeRx = s.chip.freeRx ∧
        (drawAlloc s.chip).2.freeRenders = s.chip.freeRenders := by
      unfold drawAlloc
      split <;> exact ⟨rfl, rfl, rfl, rfl, rfl⟩
    have hok : requireAlloc s = .ok () (afterAllocDraw s) :=
      (requireAlloc_run s).trans (if_neg (by rw [ha]; simp))
    have key := loadTelegrams_does j hwp (ceilDiv j.h.toNat s.cfg.tRows) 0 (afterAllocDraw s) hcs hfit hlegal.2
      (fun i hi => by rw [Nat.zero_add]; exact ceilDiv_le hlegal.1 hi)
    have hpos : ¬ ceilDiv j.h.toNat s.cfg.tRows = 0 := by
      unfold ceilDiv
      have := (Nat.le_div_iff_mul_le hlegal.1).mpr (show 1 * s.cfg.tRows ≤ j.h.toNat + s.cfg.tRows - 1 by omega)
      omega
    rw [if_neg hpos] at key
    intro hw
    have hframes : (List.range (ceilDiv j.h.toNat s.cfg.tRows)).flatMap (fun i =>
        telegramFrames (afterAllocDraw s) j (0 + i) (burstsOf (afterAllocDraw s).cfg.bWords
          (telegramWords (afterAllocDraw s) j (0 + i)))) = loadFrames s j := by
      simp only [Nat.zero_add]
      rfl
    rw [hframes] at key
    obtain ⟨es, he, hcol⟩ := key (by
      obtain ⟨h1, h2⟩ := hw
      refine ⟨?_, ?_⟩
      · show _ ≤ (drawAlloc s.chip).2.waits.length
        rw [hdraw.1]; exact h1
      · show ∀ r ∈ List.take _ (drawAlloc s.chip).2.waits, _
        rw [hdraw.1]; exact h2)
    refine ⟨es, ?_, hcol⟩
    rw [bind_ok hok, bind_ok (readCfg_run _)]
    refine Eq.trans he ?_
    obtain ⟨e1, e2, e3, e4, e5⟩ := hdraw
    simp only [State.after, State.regs, afterAllocDraw, skipRx, skipWaits, e1, e2, e3, e4, e5]

/-! ### Operations as bodies -/

/-- A whole operation whose body does `fs`: it answers a next state, with the registers the body leaves. -/
theorem Does.completes {body : Op Unit} {s : State} {fs : List Frame} {r : Nat} {ρ : Regs}
    (h : Does body s fs r () ρ) (hw : WaitsEnd s (waitsOf fs)) :
    ∃ t, runOp body s = .next t ∧ Emitted s t fs ∧ Succeeded s t ∧ SameReads s t ∧
      t.rstl = ρ.rstl ∧ t.session = ρ.session ∧ t.desc = ρ.desc ∧ t.tgt = ρ.tgt ∧ t.loadOpen = ρ.loadOpen ∧
      t.renderPending = ρ.renderPending := by
  obtain ⟨es, he, hc⟩ := h hw
  refine ⟨_, runOp_ok he, ⟨es, rfl, hc⟩, ?_, ⟨rfl, rfl⟩, rfl, rfl, rfl, rfl, rfl, rfl⟩
  exact ⟨rfl, rfl, rfl, rfl, rfl, rfl, rfl, fun _ => rfl⟩

end Sys2Proof.Machine
end

