-- ==== Sys2Proof/Laws/Acts.lean ====
section
/-! SUPPORT. Everything a procedure can do, whether it completes or is abandoned: the parts of the state it may change and
the ways it can stop, said once for each procedure and composed by `Acts.bind`. -/

namespace Sys2Proof.Machine

open Sys2Proof.Safety

/-- From every state the procedure ends in a state related to it by `T`; if it is abandoned, `X` says how it can be. -/
def Acts {α : Type} (T : State → State → Prop) (X : Config → Stop → Prop) (m : Op α) : Prop :=
  ∀ s, match m s with | .ok _ t => T s t | .error e t => T s t ∧ X s.cfg e

/-- A relation that procedures compose along: it holds of no change, of a change after a change, and keeps the
configuration. -/
structure Chain (T : State → State → Prop) : Prop where
  refl : ∀ s, T s s
  trans : ∀ s t u, T s t → T t u → T s u
  cfg : ∀ s t, T s t → t.cfg = s.cfg

section

variable {α β : Type} {T T' : State → State → Prop} {X X' : Config → Stop → Prop} {m : Op α}

theorem Acts.ok (h : Acts T X m) {s t : State} {a : α} (hm : m s = .ok a t) : T s t := by
  have := h s
  rw [hm] at this
  exact this

theorem Acts.error (h : Acts T X m) {s t : State} {e : Stop} (hm : m s = .error e t) : T s t ∧ X s.cfg e := by
  have := h s
  rw [hm] at this
  exact this

theorem Acts.bind {f : α → Op β} (hT : Chain T) (hm : Acts T X m) (hf : ∀ a, Acts T X (f a)) :
    Acts T X (m >>= f) := by
  intro s
  cases hr : m s with
  | error e t => rw [bind_error hr]; exact hm.error hr
  | ok a t =>
    have h1 := hm.ok hr
    rw [bind_ok hr]
    cases hq : f a t with
    | ok b u => exact hT.trans _ _ _ h1 ((hf a).ok hq)
    | error e u =>
      have h2 := (hf a).error hq
      rw [hT.cfg _ _ h1] at h2
      exact ⟨hT.trans _ _ _ h1 h2.1, h2.2⟩

theorem Acts.weaken (h : Acts T X m) (hT : ∀ s t, T s t → T' s t) (hX : ∀ c e, X c e → X' c e) : Acts T' X' m := by
  intro s
  cases hr : m s with
  | ok a t => exact hT _ _ (h.ok hr)
  | error e t => exact ⟨hT _ _ (h.error hr).1, hX _ _ (h.error hr).2⟩

theorem Acts.pure (hT : Chain T) (a : α) : Acts T X (pure a : Op α) := fun s => hT.refl s

theorem Acts.readCfg (hT : Chain T) : Acts T X readCfg := fun s => hT.refl s

theorem Acts.readState (hT : Chain T) : Acts T X readState := fun s => hT.refl s

theorem Acts.update {f : State → State} (h : ∀ s, T s (f s)) : Acts T X (update f) := fun s => h s

theorem Acts.raise (hT : Chain T) {e : ErrKind} {i : Byte} (h : ∀ c, X c (.raise e i)) :
    Acts T X (raise e i : Op α) := fun s => ⟨hT.refl s, h _⟩

theorem Acts.raiseIf (hT : Chain T) {c : Prop} [Decidable c] {e : ErrKind} {i : Byte} (h : ∀ k, X k (.raise e i)) :
    Acts T X (raiseIf c e i) := by
  intro s
  rw [raiseIf_run]
  by_cases hc : c
  · rw [if_pos hc]; exact ⟨hT.refl s, h _⟩
  · rw [if_neg hc]; exact hT.refl s

theorem Acts.ite (c : Prop) [Decidable c] {n : Op α} (hm : Acts T X m) (hn : Acts T X n) :
    Acts T X (if c then m else n) := by
  by_cases hc : c
  · rw [if_pos hc]; exact hm
  · rw [if_neg hc]; exact hn

end

/-! ### Procedures on the wire -/

/-- No event of the reset line (R25). -/
def NoReset (es : List Event) : Prop := ∀ l, Event.rst l ∉ es

theorem NoReset.nil : NoReset [] := fun _ h => by cases h

theorem NoReset.append {es fs : List Event} (h : NoReset es) (h' : NoReset fs) : NoReset (es ++ fs) :=
  fun l hl => (List.mem_append.1 hl).elim (h l) (h' l)

theorem noReset_busyPolls (idle : BitVec 1) (n : Nat) : NoReset (busyPolls idle n) :=
  fun _ h => by simp [busyPolls] at h

theorem noReset_endedPolls (idle : BitVec 1) (n : Nat) : NoReset (endedPolls idle n) :=
  (noReset_busyPolls idle n).append fun _ h => by simp at h

theorem noReset_sentEvents (ws : List Word) : NoReset (sentEvents ws) := fun _ h => by simp [sentEvents] at h

theorem noReset_receivedEvents (ws : List Word) : NoReset (receivedEvents ws) :=
  fun _ h => by simp [receivedEvents] at h

/-- Only the trace (which grows, by no reset-line event), the select line and the oracle may differ. -/
def Wired (s t : State) : Prop :=
  ∃ es c k, NoReset es ∧ t = { s with trace := s.trace ++ es, cs := c, chip := k }

theorem wired_chain : Chain Wired where
  refl s := ⟨[], s.cs, s.chip, NoReset.nil, by simp⟩
  trans := by
    rintro s _ _ ⟨es, c, k, h, rfl⟩ ⟨fs, c', k', h', rfl⟩
    exact ⟨es ++ fs, c', k', h.append h', by simp⟩
  cfg := by
    rintro s _ ⟨es, c, k, -, rfl⟩
    rfl

/-- How a transaction is abandoned: a timeout of phase 1 or 2 under a limit, or a hang under none (R131, R301, R313). -/
def wireStop (c : Config) : Stop → Prop
  | .raise e i => e = .hwTimeout ∧ (i = 1 ∨ i = 2) ∧ c.pollLimit ≠ none
  | .stuck f => f = .busyHang ∧ c.pollLimit = none

theorem busWaitIdle_acts {phase : Byte} (hp : phase = 1 ∨ phase = 2) : Acts Wired wireStop (busWaitIdle phase) := by
  intro s
  rcases busWaitIdle_cases phase s with ⟨k, h⟩ | ⟨k, hl, h⟩ | ⟨hl, h⟩
  · rw [h]; exact ⟨_, s.cs, _, noReset_endedPolls _ _, rfl⟩
  · rw [h]; exact ⟨⟨_, s.cs, _, noReset_busyPolls _ _, rfl⟩, rfl, hp, by simp [hl]⟩
  · rw [h]; exact ⟨wired_chain.refl s, rfl, hl⟩

theorem select_acts : Acts Wired wireStop select :=
  Acts.update fun s => ⟨[.sel], 0, s.chip, fun _ h => by simp at h, rfl⟩

theorem release_acts : Acts Wired wireStop release :=
  Acts.update fun s => ⟨[.rel], 1, s.chip, fun _ h => by simp at h, rfl⟩

theorem delay_acts (ms : Nat) : Acts Wired wireStop (delay ms) :=
  Acts.update fun s => ⟨[.delay ms], s.cs, s.chip, fun _ h => by simp at h, rfl⟩

theorem txWords_acts (ws : List Word) : Acts Wired wireStop (txWords ws) := by
  intro s
  rw [txWords_run]
  exact ⟨_, s.cs, s.chip, noReset_sentEvents _, rfl⟩

theorem txWord_acts (w : Word) : Acts Wired wireStop (txWord w) := by
  intro s
  rw [txWord_run]
  exact ⟨_, s.cs, s.chip, noReset_sentEvents _, rfl⟩

theorem rxWord_acts : Acts Wired wireStop rxWord := by
  intro s
  rw [rxWord_run]
  exact ⟨_, s.cs, _, noReset_receivedEvents _, rfl⟩

theorem rxWords_acts (n : Nat) : Acts Wired wireStop (rxWords n) := by
  intro s
  rw [rxWords_run]
  exact ⟨_, s.cs, _, noReset_receivedEvents _, rfl⟩

theorem openFrame_acts (pre : Word) : Acts Wired wireStop (openFrame pre) :=
  (busWaitIdle_acts (.inl rfl)).bind wired_chain fun _ => select_acts.bind wired_chain fun _ =>
    (txWord_acts pre).bind wired_chain fun _ => busWaitIdle_acts (.inr rfl)

theorem txnCommand_acts (c : Word) : Acts Wired wireStop (txnCommand c) :=
  (openFrame_acts _).bind wired_chain fun _ => (txWord_acts c).bind wired_chain fun _ => release_acts

theorem txnWrite_acts (ws : List Word) : Acts Wired wireStop (txnWrite ws) :=
  (openFrame_acts _).bind wired_chain fun _ => (txWords_acts ws).bind wired_chain fun _ => release_acts

theorem txnRead_acts (n : Nat) : Acts Wired wireStop (txnRead n) :=
  (openFrame_acts _).bind wired_chain fun _ => rxWord_acts.bind wired_chain fun _ =>
    (rxWords_acts n).bind wired_chain fun _ => release_acts.bind wired_chain fun _ => Acts.pure wired_chain _

theorem txnWrites_acts (gs : List (List Word)) : Acts Wired wireStop (txnWrites gs) := by
  induction gs with
  | nil => exact Acts.pure wired_chain ()
  | cons ws gs ih => exact (txnWrite_acts ws).bind wired_chain fun _ => ih

theorem multiArg_acts (c : Word) (args : List Word) : Acts Wired wireStop (multiArg c args) :=
  (txnCommand_acts c).bind wired_chain fun _ => (Acts.readCfg wired_chain).bind wired_chain fun _ =>
    txnWrites_acts _

theorem regWrite_acts (a v : Word) : Acts Wired wireStop (regWrite a v) :=
  (Acts.readCfg wired_chain).bind wired_chain fun _ => multiArg_acts _ _

theorem regRead_acts (a : Word) : Acts Wired wireStop (regRead a) :=
  (Acts.readCfg wired_chain).bind wired_chain fun _ => (txnCommand_acts _).bind wired_chain fun _ =>
    (txnWrite_acts _).bind wired_chain fun _ => (txnRead_acts 1).bind wired_chain fun _ => Acts.pure wired_chain _

theorem getDeviceInfo_acts : Acts Wired wireStop getDeviceInfo :=
  (Acts.readCfg wired_chain).bind wired_chain fun _ => (txnCommand_acts _).bind wired_chain fun _ => txnRead_acts _

theorem vcomReconcile_acts (vcom : Word) : Acts Wired wireStop (vcomReconcile vcom) := by
  have hr : Acts Wired wireStop vcomRead := by
    refine (Acts.readCfg wired_chain).bind wired_chain fun c => ?_
    cases c.vcomAccess with
    | register a => exact regRead_acts a
    | command code =>
      exact (txnCommand_acts _).bind wired_chain fun _ => (txnWrite_acts _).bind wired_chain fun _ =>
        (txnRead_acts 1).bind wired_chain fun _ => Acts.pure wired_chain _
  have hw : Acts Wired wireStop (vcomWrite vcom) := by
    refine (Acts.readCfg wired_chain).bind wired_chain fun c => ?_
    cases c.vcomAccess with
    | register a => exact regWrite_acts a vcom
    | command code =>
      exact (txnCommand_acts _).bind wired_chain fun _ => (txnWrite_acts _).bind wired_chain fun _ => txnWrite_acts _
  exact hr.bind wired_chain fun _ => Acts.ite _ hw (Acts.pure wired_chain ())

theorem displayCommand_acts (x y w h mode : Word) (adr : Option Addr) :
    Acts Wired wireStop (displayCommand x y w h mode adr) := by
  refine (Acts.readCfg wired_chain).bind wired_chain fun _ => ?_
  cases adr with
  | none => exact multiArg_acts _ _
  | some a => exact multiArg_acts _ _

theorem mode1On_acts : Acts Wired wireStop mode1On :=
  (Acts.readCfg wired_chain).bind wired_chain fun _ => (regRead_acts _).bind wired_chain fun _ => regWrite_acts _ _

theorem mode1Off_acts : Acts Wired wireStop mode1Off :=
  (Acts.readCfg wired_chain).bind wired_chain fun _ => (regRead_acts _).bind wired_chain fun _ => regWrite_acts _ _

theorem setBlend_acts (fg bg : Byte) : Acts Wired wireStop (setBlend fg bg) :=
  (Acts.readCfg wired_chain).bind wired_chain fun _ => regWrite_acts _ _

/-! ### The render wait -/

/-- How a render poll is abandoned: as a transaction is, by a timeout of phase 3 under its limit, or by a hang under none
(R266, R301, R313). -/
def renderStop (c : Config) : Stop → Prop
  | .raise e i => wireStop c (.raise e i) ∨ (e = .hwTimeout ∧ i = 3 ∧ c.renderPollLimit ≠ none)
  | .stuck f => wireStop c (.stuck f) ∨ (f = .renderHang ∧ c.renderPollLimit = none)

theorem wireStop_renderStop (c : Config) (e : Stop) (h : wireStop c e) : renderStop c e := by
  cases e with
  | raise e i => exact .inl h
  | stuck f => exact .inl h

theorem Acts.onWire {α : Type} {m : Op α} (h : Acts Wired wireStop m) : Acts Wired renderStop m :=
  h.weaken (fun _ _ h => h) wireStop_renderStop

/-- A render poll that has fuel for one reading more than its limit still counts never runs out of it. -/
theorem renderPolls_acts : ∀ (fuel npoll : Nat) (s : State),
    (∀ l, s.cfg.renderPollLimit = some l → l < npoll + fuel ∧ 0 < fuel) →
    match renderPolls fuel npoll s with
    | .ok _ t => Wired s t
    | .error e t => Wired s t ∧ renderStop s.cfg e := by
  intro fuel
  induction fuel with
  | zero =>
    intro npoll s hf
    refine ⟨wired_chain.refl s, .inr ⟨rfl, ?_⟩⟩
    cases hl : s.cfg.renderPollLimit with
    | none => rfl
    | some l => have := hf l hl; omega
  | succ fuel ih =>
    intro npoll s hf
    unfold renderPolls
    rw [bind_ok (readCfg_run s)]
    have hread := (regRead_acts s.cfg.regRenderStatus).onWire
    cases hr : regRead s.cfg.regRenderStatus s with
    | error e t => rw [bind_error hr]; exact hread.error hr
    | ok v t =>
      have ht := hread.ok hr
      have hc := wired_chain.cfg _ _ ht
      rw [bind_ok hr]
      by_cases hv : v &&& s.cfg.renderBusyMask = 0
      · rw [if_pos hv]; exact ht
      · rw [if_neg hv]
        have hcount : countRenderPoll (npoll + 1) t =
            match s.cfg.renderPollLimit with
            | some l => if npoll + 1 ≥ l then .error (.raise .hwTimeout 3) t else .ok () t
            | none => .ok () t := by
          unfold countRenderPoll
          rw [bind_ok (readCfg_run t), hc]
          cases s.cfg.renderPollLimit <;> rfl
        have hgo : ∀ hok : countRenderPoll (npoll + 1) t = .ok () t,
            (∀ l, s.cfg.renderPollLimit = some l → npoll + 1 < l) →
            match (countRenderPoll (npoll + 1) >>= fun _ => renderPolls fuel (npoll + 1)) t with
            | .ok _ u => Wired s u
            | .error e u => Wired s u ∧ renderStop s.cfg e := by
          intro hok hlt
          rw [bind_ok hok]
          have h := ih (npoll + 1) t (by
            intro l hl
            rw [hc] at hl
            have := hf l hl
            have := hlt l hl
            omega)
          cases hq : renderPolls fuel (npoll + 1) t with
          | ok b u => rw [hq] at h; exact wired_chain.trans _ _ _ ht h
          | error e u => rw [hq] at h; exact ⟨wired_chain.trans _ _ _ ht h.1, hc ▸ h.2⟩
        cases hl : s.cfg.renderPollLimit with
        | none =>
          rw [hl] at hcount
          exact hgo hcount (by intro l h; rw [hl] at h; cases h)
        | some l =>
          rw [hl] at hcount
          by_cases hge : npoll + 1 ≥ l
          · rw [bind_error (hcount.trans (if_pos hge))]
            exact ⟨ht, .inr ⟨rfl, rfl, by rw [hl]; simp⟩⟩
          · exact hgo (hcount.trans (if_neg hge)) (by intro l' h; rw [hl] at h; cases h; omega)

/-- The reading part of a render wait, with the fuel it draws. -/
theorem renderReadings_acts : Acts Wired renderStop (drawRenderFuel >>= fun fuel => renderPolls fuel 0) := by
  intro s
  have hd : ∃ n k, drawRenderFuel s = .ok n { s with chip := k } ∧
      ∀ l, s.cfg.renderPollLimit = some l → l < 0 + n ∧ 0 < n := by
    unfold drawRenderFuel
    cases hl : s.cfg.renderPollLimit with
    | some l => exact ⟨l + 1, s.chip, rfl, by intro l' h; cases h; omega⟩
    | none => exact ⟨_, _, rfl, by intro l' h; cases h⟩
  obtain ⟨n, k, hd, hn⟩ := hd
  rw [bind_ok hd]
  have hw : Wired s { s with chip := k } := ⟨[], s.cs, k, NoReset.nil, by simp⟩
  have h := renderPolls_acts n 0 { s with chip := k } hn
  cases hq : renderPolls n 0 { s with chip := k } with
  | ok b u => rw [hq] at h; exact wired_chain.trans _ _ _ hw h
  | error e u => rw [hq] at h; exact ⟨wired_chain.trans _ _ _ hw h.1, h.2⟩

/-! ### Any part of an operation -/

/-- What a part of an operation other than INIT may change: the trace (which grows, by no reset-line event), the select
line, the oracle, and the target and the mirrors. -/
def Loaded (s t : State) : Prop :=
  ∃ es c k g l p, NoReset es ∧
    t = { s with trace := s.trace ++ es, cs := c, chip := k, tgt := g, loadOpen := l, renderPending := p }

theorem loaded_chain : Chain Loaded where
  refl s := ⟨[], s.cs, s.chip, s.tgt, s.loadOpen, s.renderPending, NoReset.nil, by simp⟩
  trans := by
    rintro s _ _ ⟨es, c, k, g, l, p, h, rfl⟩ ⟨fs, c', k', g', l', p', h', rfl⟩
    exact ⟨es ++ fs, c', k', g', l', p', h.append h', by simp⟩
  cfg := by
    rintro s _ ⟨es, c, k, g, l, p, -, rfl⟩
    rfl

theorem Wired.loaded {s t : State} (h : Wired s t) : Loaded s t := by
  obtain ⟨es, c, k, hn, rfl⟩ := h
  exact ⟨es, c, k, s.tgt, s.loadOpen, s.renderPending, hn, rfl⟩

/-- How a part of an operation other than INIT is abandoned: as a render wait is, or by a refusal; a ready session without
a descriptor is stuck. -/
def opStop (c : Config) : Stop → Prop
  | .raise e i => renderStop c (.raise e i) ∨ (e ≠ .hwTimeout ∧ e ≠ .deviceAbsent ∧ (errCode e, i) ∈ resultPairs)
  | .stuck f => renderStop c (.stuck f) ∨ f = .noDescriptor

theorem renderStop_opStop (c : Config) (e : Stop) (h : renderStop c e) : opStop c e := by
  cases e with
  | raise e i => exact .inl h
  | stuck f => exact .inl h

theorem Acts.inOp {α : Type} {m : Op α} (h : Acts Wired renderStop m) : Acts Loaded opStop m :=
  h.weaken (fun _ _ h => h.loaded) renderStop_opStop

theorem waitRender_acts : Acts Loaded opStop waitRender := by
  have h : waitRender = (drawRenderFuel >>= fun fuel => renderPolls fuel 0) >>= fun _ =>
      update (fun s => { s with renderPending := false }) := by
    unfold waitRender
    rw [bind_assoc]
  rw [h]
  refine renderReadings_acts.inOp.bind loaded_chain fun _ => Acts.update fun s => ?_
  exact ⟨[], s.cs, s.chip, s.tgt, s.loadOpen, false, NoReset.nil, by simp⟩

/-! ### Checks -/

/-- The refusals that precede everything an operation emits (R300). -/
theorem refusal_opStop {e : ErrKind} {i : Byte} (h : e ≠ .hwTimeout ∧ e ≠ .deviceAbsent ∧ (errCode e, i) ∈ resultPairs)
    (c : Config) : opStop c (.raise e i) := .inr h

theorem checkMod_acts (mask m : Mod) : Acts Loaded opStop (checkMod mask m) :=
  Acts.raiseIf loaded_chain (refusal_opStop (by decide))

theorem refuseLoadOpen_acts {i : Byte} (h : i = 1 ∨ i = 3) : Acts Loaded opStop (refuseLoadOpen i) :=
  (Acts.readState loaded_chain).bind loaded_chain fun _ =>
    Acts.raiseIf loaded_chain (refusal_opStop (by rcases h with rfl | rfl <;> decide))

theorem requireReady_acts : Acts Loaded opStop requireReady :=
  (Acts.readState loaded_chain).bind loaded_chain fun _ => Acts.raiseIf loaded_chain (refusal_opStop (by decide))

theorem refuseRenderPending_acts : Acts Loaded opStop refuseRenderPending :=
  (Acts.readState loaded_chain).bind loaded_chain fun _ => Acts.raiseIf loaded_chain (refusal_opStop (by decide))

theorem requireLoadOpen_acts : Acts Loaded opStop requireLoadOpen :=
  (Acts.readState loaded_chain).bind loaded_chain fun _ => Acts.raiseIf loaded_chain (refusal_opStop (by decide))

theorem refuseTracked_acts (code : Word) : Acts Loaded opStop (refuseTracked code) :=
  (Acts.readCfg loaded_chain).bind loaded_chain fun _ => Acts.raiseIf loaded_chain (refusal_opStop (by decide))

theorem refuseOverBurst_acts (n : Nat) : Acts Loaded opStop (refuseOverBurst n) :=
  (Acts.readCfg loaded_chain).bind loaded_chain fun _ => Acts.raiseIf loaded_chain (refusal_opStop (by decide))

theorem refuseOverBurstMulti_acts (n : Nat) : Acts Loaded opStop (refuseOverBurstMulti n) :=
  (Acts.readCfg loaded_chain).bind loaded_chain fun _ => Acts.raiseIf loaded_chain (refusal_opStop (by decide))

theorem rawAdmit_acts (m : Mod) : Acts Loaded opStop (rawAdmit m) :=
  (checkMod_acts _ m).bind loaded_chain fun _ => refuseLoadOpen_acts (.inr rfl)

theorem loadAdmitState_acts : Acts Loaded opStop loadAdmitState :=
  (refuseLoadOpen_acts (.inl rfl)).bind loaded_chain fun _ => requireReady_acts.bind loaded_chain fun _ =>
    refuseRenderPending_acts

theorem loadAdmit_acts (mask m : Mod) : Acts Loaded opStop (loadAdmit mask m) :=
  (checkMod_acts mask m).bind loaded_chain fun _ => loadAdmitState_acts

theorem loadAdmitPsel_acts (m : Mod) : Acts Loaded opStop (loadAdmitPsel m) := by
  refine (checkMod_acts _ m).bind loaded_chain fun _ => ?_
  have hp : Acts Loaded opStop (readPsel m) := by
    unfold readPsel
    cases pselFormat (modPsel m) with
    | some p => exact Acts.pure loaded_chain p
    | none => exact Acts.raise loaded_chain (refusal_opStop (by decide))
  exact hp.bind loaded_chain fun p => loadAdmitState_acts.bind loaded_chain fun _ => Acts.pure loaded_chain p

theorem displayAdmit_acts (mask m : Mod) : Acts Loaded opStop (displayAdmit mask m) :=
  (checkMod_acts mask m).bind loaded_chain fun _ => (refuseLoadOpen_acts (.inr rfl)).bind loaded_chain fun _ =>
    requireReady_acts.bind loaded_chain fun _ => refuseRenderPending_acts

theorem readDesc_acts : Acts Loaded opStop readDesc := by
  intro s
  unfold readDesc
  cases s.desc with
  | some d => exact loaded_chain.refl s
  | none => exact ⟨loaded_chain.refl s, .inr rfl⟩

theorem areaCheck_acts (x y w h panelW panelH : Word) : Acts Loaded opStop (areaCheck x y w h panelW panelH) :=
  (Acts.raiseIf loaded_chain (refusal_opStop (by decide))).bind loaded_chain fun _ =>
    (Acts.raiseIf loaded_chain (refusal_opStop (by decide))).bind loaded_chain fun _ =>
      Acts.raiseIf loaded_chain (refusal_opStop (by decide))

theorem panelCheck_acts (x y w h : Word) : Acts Loaded opStop (panelCheck x y w h) :=
  readDesc_acts.bind loaded_chain fun _ => areaCheck_acts _ _ _ _ _ _

theorem readRefreshMap_acts (d : Depth) (m : Mod) : Acts Loaded opStop (readRefreshMap d m) := by
  refine (Acts.readCfg loaded_chain).bind loaded_chain fun c => ?_
  cases c.refreshMap with
  | some t => exact Acts.pure loaded_chain _
  | none => exact Acts.raise loaded_chain (refusal_opStop (by decide))

/-! ### The load protocol -/

theorem Acts.wire {α : Type} {m : Op α} (h : Acts Wired wireStop m) : Acts Loaded opStop m := h.onWire.inOp

theorem setLoadOpen_acts (b : Bool) : Acts Loaded opStop (setLoadOpen b) :=
  Acts.update fun s => ⟨[], s.cs, s.chip, s.tgt, b, s.renderPending, NoReset.nil, by simp⟩

theorem setTargetAddr_acts (a : Addr) : Acts Loaded opStop (setTargetAddr a) :=
  (Acts.readCfg loaded_chain).bind loaded_chain fun _ => (regWrite_acts _ _).wire.bind loaded_chain fun _ =>
    (regWrite_acts _ _).wire.bind loaded_chain fun _ =>
      Acts.update fun s => ⟨[], s.cs, s.chip, some a, s.loadOpen, s.renderPending, NoReset.nil, by simp⟩

theorem beginLoadCore_acts (e : Endian) (p : ChipFormat) (r : Rotation) (a : Addr) :
    Acts Loaded opStop (beginLoadCore e p r a) :=
  (setTargetAddr_acts a).bind loaded_chain fun _ => (Acts.readCfg loaded_chain).bind loaded_chain fun _ =>
    (multiArg_acts _ _).wire.bind loaded_chain fun _ => setLoadOpen_acts true

theorem beginLoadAreaCore_acts (e : Endian) (p : ChipFormat) (r : Rotation) (a : Addr) (x y w h : Word) :
    Acts Loaded opStop (beginLoadAreaCore e p r a x y w h) :=
  (setTargetAddr_acts a).bind loaded_chain fun _ => (Acts.readCfg loaded_chain).bind loaded_chain fun _ =>
    (multiArg_acts _ _).wire.bind loaded_chain fun _ => setLoadOpen_acts true

theorem endLoadCore_acts : Acts Loaded opStop endLoadCore :=
  (Acts.readCfg loaded_chain).bind loaded_chain fun _ => (txnCommand_acts _).wire.bind loaded_chain fun _ =>
    setLoadOpen_acts false

theorem displayCore_acts (x y w h mode : Word) (adr : Option Addr) :
    Acts Loaded opStop (displayCore x y w h mode adr) :=
  (displayCommand_acts x y w h mode adr).wire.bind loaded_chain fun _ =>
    Acts.update fun s => ⟨[], s.cs, s.chip, s.tgt, s.loadOpen, true, NoReset.nil, by simp⟩

theorem display1bppSequence_acts (x y w h mode fgbg : Word) (adr : Option Addr) :
    Acts Loaded opStop (display1bppSequence x y w h mode fgbg adr) :=
  mode1On_acts.wire.bind loaded_chain fun _ => (setBlend_acts _ _).wire.bind loaded_chain fun _ =>
    (displayCore_acts x y w h mode adr).bind loaded_chain fun _ => waitRender_acts.bind loaded_chain fun _ =>
      mode1Off_acts.wire

/-! ### The loads -/

theorem loadGeom_acts (j : LoadJob) : Acts Loaded opStop (loadGeom j) :=
  (panelCheck_acts _ _ _ _).bind loaded_chain fun _ => (Acts.readCfg loaded_chain).bind loaded_chain fun _ =>
    (Acts.raiseIf loaded_chain (refusal_opStop (by decide))).bind loaded_chain fun _ =>
      (Acts.raiseIf loaded_chain (refusal_opStop (by decide))).bind loaded_chain fun _ =>
        (Acts.raiseIf loaded_chain (refusal_opStop (by decide))).bind loaded_chain fun _ =>
          Acts.raiseIf loaded_chain (refusal_opStop (by decide))

theorem footprint_acts (j : LoadJob) : Acts Loaded opStop (footprint j) :=
  (Acts.readCfg loaded_chain).bind loaded_chain fun _ => Acts.raiseIf loaded_chain (refusal_opStop (by decide))

theorem requireAlloc_acts : Acts Loaded opStop requireAlloc := by
  have h : Acts Loaded opStop allocOk := fun s =>
    ⟨[], s.cs, (drawAlloc s.chip).2, s.tgt, s.loadOpen, s.renderPending, NoReset.nil, by simp⟩
  exact h.bind loaded_chain fun _ => Acts.raiseIf loaded_chain (refusal_opStop (by decide))

theorem memRead_acts (addr n : Nat) : Acts Loaded opStop (memRead addr n) := by
  intro s
  unfold memRead
  by_cases h : n = 0 ∨ addr + n ≤ s.cfg.srcSize.toNat
  · rw [if_pos h]; exact loaded_chain.refl s
  · rw [if_neg h]; exact ⟨loaded_chain.refl s, refusal_opStop (by decide) _⟩

theorem loadWords_acts (j : LoadJob) (r0 : Nat) : ∀ count i, Acts Loaded opStop (loadWords j r0 count i) := by
  intro count
  induction count with
  | zero => intro i; exact Acts.pure loaded_chain _
  | succ n ih =>
    intro i
    have h : Acts Loaded opStop (loadWord j r0 i) := by
      unfold loadWord
      cases j.fill with
      | some f => exact Acts.pure loaded_chain _
      | none =>
        exact (Acts.readCfg loaded_chain).bind loaded_chain fun _ => (memRead_acts _ _).bind loaded_chain fun _ =>
          Acts.pure loaded_chain _
    exact h.bind loaded_chain fun _ => (ih (i + 1)).bind loaded_chain fun _ => Acts.pure loaded_chain _

theorem loadBursts_acts (j : LoadJob) (r0 n : Nat) : ∀ count b, Acts Loaded opStop (loadBursts j r0 n count b) := by
  intro count
  induction count with
  | zero => intro b; exact Acts.pure loaded_chain _
  | succ k ih =>
    intro b
    have hd : Acts Loaded opStop (interBurstDelay b) :=
      (Acts.readCfg loaded_chain).bind loaded_chain fun _ =>
        Acts.ite _ (delay_acts _).wire (Acts.pure loaded_chain ())
    have hb : Acts Loaded opStop (loadBurst j r0 n b) :=
      hd.bind loaded_chain fun _ => (Acts.readCfg loaded_chain).bind loaded_chain fun _ =>
        (loadWords_acts j r0 _ _).bind loaded_chain fun _ => (txnWrite_acts _).wire
    exact hb.bind loaded_chain fun _ => ih (b + 1)

theorem loadTelegrams_acts (j : LoadJob) : ∀ count t, Acts Loaded opStop (loadTelegrams j count t) := by
  intro count
  induction count with
  | zero => intro t; exact Acts.pure loaded_chain _
  | succ k ih =>
    intro t
    have ht : Acts Loaded opStop (loadTelegram j t) :=
      (Acts.readCfg loaded_chain).bind loaded_chain fun _ =>
        (beginLoadAreaCore_acts _ _ _ _ _ _ _ _).bind loaded_chain fun _ =>
          (loadBursts_acts j _ _ _ _).bind loaded_chain fun _ => endLoadCore_acts
    exact ht.bind loaded_chain fun _ => ih (t + 1)

theorem loadImage_acts (j : LoadJob) : Acts Loaded opStop (loadImage j) :=
  (loadGeom_acts j).bind loaded_chain fun _ => (footprint_acts j).bind loaded_chain fun _ =>
    requireAlloc_acts.bind loaded_chain fun _ => (Acts.readCfg loaded_chain).bind loaded_chain fun _ =>
      loadTelegrams_acts j _ _

end Sys2Proof.Machine
end

