-- ==== Sys2Proof/Laws/Encoding.lean ====
section
/-! SUPPORT. The small lemmas of the encoding: headers, count words, address operands and runs of counted words. -/

namespace Sys2Proof

open Sys2Proof.Machine

@[simp] theorem headerOp_header (op : Byte) (m : Mod) : headerOp (header op m) = op := hiByte_joinBytes op m

@[simp] theorem headerMod_header (op : Byte) (m : Mod) : headerMod (header op m) = m := loByte_joinBytes op m

@[simp] theorem header_op_mod (h : Word) : header (headerOp h) (headerMod h) = h := joinBytes_hi_lo h

/-- A count that fits its word comes back from it. -/
theorem toNat_countWord {n : Nat} (h : n ≤ 0xFFFF) : (countWord n).toNat = n := by
  unfold countWord
  rw [BitVec.toNat_ofNat]
  omega

/-- A word is the count word of its value. -/
theorem countWord_toNat (n : Word) : countWord n.toNat = n := by simp [countWord]

/-- Exactly the words asked for are taken. -/
theorem takeWords_append (ws rest : List Word) : takeWords ws.length (ws ++ rest) = some (ws, rest) := by
  induction ws with
  | nil => cases rest <;> rfl
  | cons w ws ih =>
    show takeWords (ws.length + 1) (w :: (ws ++ rest)) = _
    unfold takeWords
    rw [ih]

/-- What is taken stands in front of what is left. -/
theorem takeWords_eq_some {n : Nat} {ws got rest : List Word} (h : takeWords n ws = some (got, rest)) :
    got.length = n ∧ ws = got ++ rest := by
  induction n generalizing ws got with
  | zero =>
    unfold takeWords at h
    cases h
    exact ⟨rfl, rfl⟩
  | succ n ih =>
    cases ws with
    | nil => cases h
    | cons w ws =>
      unfold takeWords at h
      cases hr : takeWords n ws with
      | none => rw [hr] at h; cases h
      | some p =>
        obtain ⟨g, r⟩ := p
        rw [hr] at h
        cases h
        obtain ⟨h1, h2⟩ := ih hr
        exact ⟨by simp [h1], by simp [h2]⟩

/-- Too few words: nothing is taken. -/
theorem takeWords_eq_none {n : Nat} {ws : List Word} (h : ws.length < n) : takeWords n ws = none := by
  induction n generalizing ws with
  | zero => omega
  | succ n ih =>
    cases ws with
    | nil => rfl
    | cons w ws =>
      unfold takeWords
      rw [ih (by simpa using h)]

end Sys2Proof
end

