-- ==== Sys2Proof/Laws/Frames.lean ====
section
/-! SUPPORT. What a procedure puts on the wire whether it completes or is abandoned: whole frames, and after them at most
the start of one whose busy-wait reached its limit (30_encoding.md R100, 40_frame_preambler.md R130, R131); composed part
by part. And what those frames say of a render under way (44_display.md R280). -/

namespace Sys2Proof.Machine

open Sys2Proof.Safety

/-! ### Whole frames -/

/-- The data frames are within the burst limit (R134). -/
def Fit (c : Config) (fs : List Frame) : Prop := ∀ f ∈ fs, WithinBurst c f

theorem Fit.nil (c : Config) : Fit c [] := fun _ h => by cases h

theorem Fit.append {c : Config} {fs gs : List Frame} (h : Fit c fs) (h' : Fit c gs) : Fit c (fs ++ gs) :=
  fun f hf => (List.mem_append.1 hf).elim (h f) (h' f)

/-- The collapsed busy samples of a wait that reached its limit (R131). -/
def lateSamples (c : Config) : List Wire :=
  List.replicate (c.pollLimit.getD 0) (.event (.poll (~~~c.busyIdleLevel)))

/-- What a procedure abandoned by an error leaves behind its whole frames, and the level of the select line: a busy-wait
that reached its limit leaves its samples, in phase 2 behind a select and a preamble; anything else leaves nothing. -/
def CutOff (c : Config) (cs : BitVec 1) (k : ErrKind) (i : Byte) (last : List Wire) : Prop :=
  if k = .hwTimeout ∧ i = 1 then last = lateSamples c ∧ cs = 1
  else if k = .hwTimeout ∧ i = 2 then
    (∃ pre ∈ ([0x6000, 0x0000, 0x1000] : List Word), last = [.wait, .event .sel] ++ sentWord pre ++ lateSamples c) ∧
      cs = 0
  else last = [] ∧ cs = 1

/-- From `s` the procedure sends whole frames and leaves the line released, with `Q` of its value, its frames and the state
after it; or it is abandoned by an error after whole frames, with `E` of the error, the frames and the state; or it
hangs. -/
def Sends {α : Type} (m : Op α) (s : State) (Q : α → List Frame → State → Prop)
    (E : ErrKind → Byte → List Frame → State → Prop) : Prop :=
  match m s with
  | .ok a t => ∃ fs, EmittedThen s t fs [] ∧ Fit s.cfg fs ∧ t.cs = 1 ∧ t.cfg = s.cfg ∧ Q a fs t
  | .error (.raise k i) t =>
    ∃ fs last, EmittedThen s t fs last ∧ Fit s.cfg fs ∧ CutOff s.cfg t.cs k i last ∧ t.cfg = s.cfg ∧ E k i fs t
  | .error (.stuck _) _ => True

section

variable {α β : Type} {m : Op α} {f : α → Op β} {s t u : State} {Q Q' : α → List Frame → State → Prop}
  {E E' : ErrKind → Byte → List Frame → State → Prop} {R : β → List Frame → State → Prop}

/-- Events behind whole frames. -/
theorem emittedThen_append {fs gs : List Frame} {last : List Wire} (h : EmittedThen s t fs [])
    (h' : EmittedThen t u gs last) (hc : t.cfg = s.cfg) : EmittedThen s u (fs ++ gs) last := by
  obtain ⟨es, he, hf⟩ := h
  obtain ⟨es', he', hf'⟩ := h'
  rw [List.append_nil] at hf
  refine ⟨es ++ es', by rw [he', he, List.append_assoc], ?_⟩
  rw [collapsed_append _ (settled_frames hf), hf, ← hc, hf', List.flatMap_append, List.append_assoc]

theorem emittedThen_nothing (h : t.trace = s.trace) : EmittedThen s t [] [] := ⟨[], by simp [h], rfl⟩

theorem Sends.bind (hm : Sends m s Q E) (hE : ∀ k i fs t, E k i fs t → E' k i fs t)
    (hf : ∀ a fs t, t.cs = 1 → t.cfg = s.cfg → Q a fs t →
      Sends (f a) t (fun b gs u => R b (fs ++ gs) u) (fun k i gs u => E' k i (fs ++ gs) u)) :
    Sends (m >>= f) s R E' := by
  cases hr : m s with
  | error e t =>
    cases e with
    | stuck g =>
      unfold Sends
      rw [bind_error hr]
      trivial
    | raise k i =>
      unfold Sends at hm ⊢
      rw [hr] at hm
      rw [bind_error hr]
      obtain ⟨fs, last, h1, h2, h3, h4, h5⟩ := hm
      exact ⟨fs, last, h1, h2, h3, h4, hE _ _ _ _ h5⟩
  | ok a t =>
    unfold Sends at hm
    rw [hr] at hm
    obtain ⟨fs, h1, h2, h3, h4, h5⟩ := hm
    have h := hf a fs t h3 h4 h5
    unfold Sends at h ⊢
    rw [bind_ok hr]
    cases hq : f a t with
    | ok b u =>
      rw [hq] at h
      obtain ⟨gs, g1, g2, g3, g4, g5⟩ := h
      exact ⟨fs ++ gs, emittedThen_append h1 g1 h4, h2.append (h4 ▸ g2), g3, g4.trans h4, g5⟩
    | error e u =>
      cases e with
      | stuck g => trivial
      | raise k i =>
        rw [hq] at h
        obtain ⟨gs, last, g1, g2, g3, g4, g5⟩ := h
        exact ⟨fs ++ gs, last, emittedThen_append h1 g1 h4, h2.append (h4 ▸ g2), h4 ▸ g3, g4.trans h4, g5⟩

/-- The same with a weaker account, and with what `Acts` says of the procedure. -/
theorem Sends.conclude {T : State → State → Prop} {X : Config → Stop → Prop} (h : Sends m s Q E) (ha : Acts T X m)
    (hQ : ∀ a fs t, T s t → Q a fs t → Q' a fs t)
    (hE : ∀ k i fs t, T s t → X s.cfg (.raise k i) → E k i fs t → E' k i fs t) : Sends m s Q' E' := by
  unfold Sends at h ⊢
  cases hr : m s with
  | ok a t =>
    rw [hr] at h
    obtain ⟨fs, h1, h2, h3, h4, h5⟩ := h
    exact ⟨fs, h1, h2, h3, h4, hQ _ _ _ (ha.ok hr) h5⟩
  | error e t =>
    cases e with
    | stuck g => trivial
    | raise k i =>
      rw [hr] at h
      obtain ⟨fs, last, h1, h2, h3, h4, h5⟩ := h
      exact ⟨fs, last, h1, h2, h3, h4, hE _ _ _ _ (ha.error hr).1 (ha.error hr).2 h5⟩

theorem Sends.weaken (h : Sends m s Q E) (hQ : ∀ a fs t, Q a fs t → Q' a fs t)
    (hE : ∀ k i fs t, E k i fs t → E' k i fs t) : Sends m s Q' E' := by
  unfold Sends at h ⊢
  cases hr : m s with
  | ok a t =>
    rw [hr] at h
    obtain ⟨fs, h1, h2, h3, h4, h5⟩ := h
    exact ⟨fs, h1, h2, h3, h4, hQ _ _ _ h5⟩
  | error e t =>
    cases e with
    | stuck g => trivial
    | raise k i =>
      rw [hr] at h
      obtain ⟨fs, last, h1, h2, h3, h4, h5⟩ := h
      exact ⟨fs, last, h1, h2, h3, h4, hE _ _ _ _ h5⟩

/-- With what is known of the value and the state it ends in. -/
theorem Sends.reaches {P : α → State → Prop} (h : Sends m s Q E) (hP : ∀ a t, m s = .ok a t → P a t) :
    Sends m s (fun a fs t => P a t ∧ Q a fs t) E := by
  unfold Sends at h ⊢
  cases hr : m s with
  | ok a t =>
    rw [hr] at h
    obtain ⟨fs, h1, h2, h3, h4, h5⟩ := h
    exact ⟨fs, h1, h2, h3, h4, hP a t hr, h5⟩
  | error e t =>
    cases e with
    | stuck g => trivial
    | raise k i => rw [hr] at h; exact h

/-- A first part that only looks at the state, and passes. -/
theorem Sends.look {a : α} (hm : m s = .ok a s) (hf : Sends (f a) s R E) : Sends (m >>= f) s R E := by
  unfold Sends at hf ⊢
  rw [bind_ok hm]
  exact hf

/-- A refusal before anything is sent. -/
theorem Sends.refused {k : ErrKind} {i : Byte} (hm : m s = .error (.raise k i) s) (hk : k ≠ .hwTimeout)
    (hcs : s.cs = 1) (hE : E k i [] s) : Sends m s Q E := by
  unfold Sends
  rw [hm]
  exact ⟨[], [], emittedThen_nothing rfl, Fit.nil _, by simp [CutOff, hk, hcs], rfl, hE⟩

/-- A part that completes. -/
theorem Sends.ok {a : α} {fs : List Frame} (hm : m s = .ok a t) (he : EmittedThen s t fs []) (hf : Fit s.cfg fs)
    (hcs : t.cs = 1) (hc : t.cfg = s.cfg) (hQ : Q a fs t) : Sends m s Q E := by
  unfold Sends
  rw [hm]
  exact ⟨fs, he, hf, hcs, hc, hQ⟩

/-- A part that puts nothing on the wire. -/
theorem Sends.silent {a : α} (hm : m s = .ok a t) (htr : t.trace = s.trace) (hcs : t.cs = 1) (hc : t.cfg = s.cfg)
    (hQ : Q a [] t) : Sends m s Q E := by
  exact Sends.ok hm (emittedThen_nothing htr) (Fit.nil _) hcs hc hQ

end

/-! ### Transactions -/

theorem limit_legal {c : Config} (hc : configLegal c = true) {l : Nat} (h : c.pollLimit = some l) : max l 1 = l := by
  have hl : limitLegal c.pollLimit = true := by
    simp only [configLegal, Bool.and_eq_true] at hc
    exact hc.1.1.1.2
  rw [h] at hl
  simp only [limitLegal, decide_eq_true_eq] at hl
  omega

theorem collapsed_openTimeoutEvents (idle : BitVec 1) (a n : Nat) (pre : Word) :
    collapsed idle (openTimeoutEvents idle a n pre) =
      [.wait, .event .sel] ++ sentWord pre ++ List.replicate n (.event (.poll (~~~idle))) := by
  have h : openTimeoutEvents idle a n pre = endedPolls idle a ++ (.sel :: (sentEvents [pre] ++ busyPolls idle n)) := by
    simp [openTimeoutEvents]
  rw [h, collapsed_append _ (settled_endedPolls idle a), collapsed_endedPolls, collapsed,
    collapsed_append _ (settled_sentEvents idle [pre]), collapsed_sentEvents, collapsed_givenUp]
  simp

/-- How a transaction is abandoned: with no whole frame, by a timeout. -/
def txnError (k : ErrKind) (_ : Byte) (fs : List Frame) (_ : State) : Prop := k = .hwTimeout ∧ fs = []

/-- A transaction, from its outcomes (R130, R131): its one frame, or the start of it. -/
theorem TxnOutcome.sends {α : Type} {m : Op α} {s : State} {pre : Word} {pl : α → List Event} {g : α → Frame}
    (h : TxnOutcome pre pl s (m s)) (hcs : s.cs = 1) (hc : configLegal s.cfg = true)
    (hpre : pre ∈ ([0x6000, 0x0000, 0x1000] : List Word))
    (hset : ∀ v, Settled s.cfg.busyIdleLevel (pl v))
    (hg : ∀ v, frameWires (g v) = transaction (hiByte pre) (loByte pre) (collapsed s.cfg.busyIdleLevel (pl v)))
    (hfit : ∀ v t, m s = .ok v t → Fit s.cfg [g v]) : Sends m s (fun v fs _ => fs = [g v]) txnError := by
  unfold Sends
  generalize hr : m s = r at h hfit
  cases h with
  | complete a b c v =>
    refine ⟨[g v], ⟨_, rfl, ?_⟩, hfit v _ rfl, rfl, rfl, rfl⟩
    rw [collapsed_append _ (settled_openEvents _ _ _ _), collapsed_openEvents, collapsed_append _ (hset v)]
    simp [hg, transaction, collapsed]
  | timeoutBefore l c hp =>
    refine ⟨[], _, ⟨_, rfl, rfl⟩, Fit.nil _, ?_, rfl, rfl, rfl⟩
    simp [CutOff, hcs, collapsed_givenUp, lateSamples, hp, limit_legal hc hp]
  | timeoutAfter a l c hp =>
    refine ⟨[], _, ⟨_, rfl, rfl⟩, Fit.nil _, ?_, rfl, rfl, rfl⟩
    rw [CutOff, if_neg (by decide), if_pos (by decide), collapsed_openTimeoutEvents, limit_legal hc hp]
    exact ⟨⟨pre, hpre, by simp [lateSamples, hp]⟩, rfl⟩
  | hung t hp => trivial

theorem txnCommand_sends (c : Word) {s : State} (hcs : s.cs = 1) (hc : configLegal s.cfg = true) :
    Sends (txnCommand c) s (fun _ fs _ => fs = [.cmd c]) txnError :=
  (txnCommand_outcome c s).sends hcs hc (by decide) (fun _ => settled_sentEvents _ _)
    (fun _ => by rw [collapsed_sentEvents]; rfl)
    (fun _ _ _ f hf => by rw [List.mem_singleton.1 hf]; trivial)

theorem txnWrite_sends (ws : List Word) {s : State} (hcs : s.cs = 1) (hc : configLegal s.cfg = true)
    (hfit : Fit s.cfg [.wr ws]) : Sends (txnWrite ws) s (fun _ fs _ => fs = [.wr ws]) txnError :=
  (txnWrite_outcome ws s).sends hcs hc (by decide) (fun _ => settled_sentEvents _ _)
    (fun _ => by rw [collapsed_sentEvents]; rfl) (fun _ _ _ => hfit)

theorem txnRead_length {n : Nat} {s t : State} {vs : List Word} (h : txnRead n s = .ok vs t) : vs.length = n := by
  unfold txnRead at h
  rcases openFrame_cases preRd s with ⟨a, b, ch, ho⟩ | ⟨l, ch, hp, ho⟩ | ⟨a, l, ch, hp, ho⟩ | ⟨u, hp, ho⟩
  · rw [bind_ok ho, bind_ok (rxWord_run _), bind_ok (rxWords_run n _), bind_ok (release_run _), pure_run] at h
    cases h
    simp [rxWordsFrom]
  · rw [bind_error ho] at h; cases h
  · rw [bind_error ho] at h; cases h
  · rw [bind_error ho] at h; cases h

theorem txnRead_sends (n : Nat) {s : State} (hcs : s.cs = 1) (hc : configLegal s.cfg = true)
    (hfit : 1 ≤ n ∧ n ≤ s.cfg.bWords) :
    Sends (txnRead n) s (fun vs fs _ => vs.length = n ∧ ∃ dummy, fs = [.rd dummy vs]) txnError := by
  obtain ⟨dummy, h⟩ := txnRead_outcome n s
  refine ((h.sends (g := fun vs => .rd dummy vs) hcs hc (by decide) (fun _ => settled_receivedEvents _ _)
    (fun _ => by rw [collapsed_receivedEvents]; rfl) (fun vs t hr f hf => ?_)).reaches
    (fun _ _ hr => txnRead_length hr)).weaken (fun _ _ _ h => ⟨h.1, dummy, h.2⟩) (fun _ _ _ _ h => h)
  rw [List.mem_singleton.1 hf, WithinBurst, txnRead_length hr]
  exact hfit

/-- Write frames and nothing else. -/
def Writes (fs : List Frame) : Prop := ∀ f ∈ fs, ∃ ws, f = .wr ws

theorem Writes.nil : Writes [] := fun _ h => by cases h

theorem Writes.one (ws : List Word) : Writes [.wr ws] := fun _ h => ⟨ws, List.mem_singleton.1 h⟩

theorem Writes.append {fs gs : List Frame} (h : Writes fs) (h' : Writes gs) : Writes (fs ++ gs) :=
  fun f hf => (List.mem_append.1 hf).elim (h f) (h' f)

theorem burst_legal {c : Config} (hc : configLegal c = true) : 1 ≤ c.bWords := by
  simp only [configLegal, Bool.and_eq_true, decide_eq_true_eq] at hc
  exact hc.1.1.1.1.2

theorem fit_one {c : Config} (hc : configLegal c = true) (w : Word) : Fit c [.wr [w]] := by
  intro f hf
  rw [List.mem_singleton.1 hf]
  exact ⟨Nat.le_refl 1, burst_legal hc⟩

/-- A list that is cut has pieces of 1 to `b` words, which put together are the list again. -/
theorem burstsOf_length {b : Nat} (hb : 1 ≤ b) {ws piece : List Word} (h : piece ∈ burstsOf b ws) :
    1 ≤ piece.length ∧ piece.length ≤ b := by
  simp only [burstsOf, List.mem_map, List.mem_range] at h
  obtain ⟨i, hi, rfl⟩ := h
  have h3 := (Nat.le_div_iff_mul_le (by omega)).1 (Nat.succ_le_of_lt hi)
  rw [Nat.succ_mul] at h3
  simp only [List.length_take, List.length_drop]
  omega

theorem burstsOf_flatten {b : Nat} (hb : 1 ≤ b) (ws : List Word) : (burstsOf b ws).flatten = ws := by
  have key : ∀ n, ((List.range n).map (fun i => (ws.drop (i * b)).take b)).flatten = ws.take (n * b) := by
    intro n
    induction n with
    | zero => simp
    | succ n ih => rw [List.range_succ, List.map_append, List.flatten_append, ih, Nat.succ_mul, List.take_add]; simp
  rw [burstsOf, key, List.take_of_length_le]
  have h := Nat.div_add_mod (ws.length + b - 1) b
  have h' := Nat.mod_lt (ws.length + b - 1) (show 0 < b by omega)
  rw [Nat.mul_comm] at h
  unfold ceilDiv
  omega

/-- The argument frames are within the burst limit (R134, R136). -/
theorem argumentFrames_fit {c : Config} (hc : configLegal c = true) (args : List Word) :
    Fit c ((argumentFrames c args).map (fun ws => .wr ws)) := by
  intro f hf
  obtain ⟨ws, hws, rfl⟩ := List.mem_map.1 hf
  have hb := burst_legal hc
  show 1 ≤ ws.length ∧ ws.length ≤ c.bWords
  unfold argumentFrames at hws
  cases hm : c.argFraming with
  | perWord =>
    rw [hm] at hws
    obtain ⟨a, -, rfl⟩ := List.mem_map.1 hws
    exact ⟨Nat.le_refl 1, hb⟩
  | multi =>
    rw [hm] at hws
    simp only at hws
    split at hws
    · cases hws
    · rename_i hne
      split at hws
      · rename_i hle
        rw [List.mem_singleton.1 hws]
        exact ⟨List.length_pos_iff.2 hne, hle⟩
      · exact burstsOf_length hb hws

/-- The words of the argument frames are the arguments (R136). -/
theorem argumentFrames_flatten {c : Config} (hc : configLegal c = true) (args : List Word) :
    (argumentFrames c args).flatten = args := by
  unfold argumentFrames
  cases c.argFraming with
  | perWord =>
    induction args with
    | nil => rfl
    | cons a as ih => simp only [List.map_cons, List.flatten_cons, ih]; rfl
  | multi =>
    simp only
    split
    · rename_i h; rw [h]; rfl
    · split
      · simp
      · exact burstsOf_flatten (burst_legal hc) args

/-- A frame list that was cut short before its end. -/
def CutShort (whole fs : List Frame) : Prop := ∃ f gs, whole = fs ++ f :: gs

theorem CutShort.nil (f : Frame) (fs : List Frame) : CutShort (f :: fs) [] := ⟨f, fs, rfl⟩

theorem CutShort.cons {whole fs : List Frame} (f : Frame) (h : CutShort whole fs) : CutShort (f :: whole) (f :: fs) := by
  obtain ⟨g, gs, rfl⟩ := h
  exact ⟨g, gs, rfl⟩

theorem CutShort.before {whole fs : List Frame} (h : CutShort whole fs) (gs : List Frame) : CutShort (whole ++ gs) fs := by
  obtain ⟨f, rest, rfl⟩ := h
  exact ⟨f, rest ++ gs, by simp⟩

theorem CutShort.after {whole fs : List Frame} (gs : List Frame) (h : CutShort whole fs) : CutShort (gs ++ whole) (gs ++ fs) := by
  obtain ⟨f, rest, rfl⟩ := h
  exact ⟨f, rest, by simp⟩

theorem CutShort.not_prefix {whole fs : List Frame} (h : CutShort whole fs) : ¬ whole <+: fs := by
  obtain ⟨f, rest, rfl⟩ := h
  intro h
  have := h.length_le
  simp at this

theorem txnWrites_sends (gs : List (List Word)) : ∀ {s : State}, s.cs = 1 → configLegal s.cfg = true →
    Fit s.cfg (gs.map (fun ws => .wr ws)) → Sends (txnWrites gs) s (fun _ fs _ => fs = gs.map (fun ws => .wr ws))
      (fun k _ fs _ => k = .hwTimeout ∧ CutShort (gs.map (fun ws => .wr ws)) fs) := by
  induction gs with
  | nil => intro s hcs _ _; exact Sends.silent (t := s) rfl rfl hcs rfl rfl
  | cons ws gs ih =>
    intro s hcs hc hfit
    have h0 : Fit s.cfg [.wr ws] := fun f hf => hfit f (by rw [List.mem_singleton.1 hf]; simp)
    refine (txnWrite_sends ws hcs hc h0).bind (fun _ _ _ _ h => ⟨h.1, h.2 ▸ CutShort.nil _ _⟩) (fun _ fs t h1 h2 h3 => ?_)
    subst h3
    refine (ih h1 (h2 ▸ hc) (h2 ▸ fun f hf => hfit f (List.mem_cons_of_mem _ hf))).weaken
      (fun _ _ _ h => by rw [h]; rfl) (fun _ _ _ _ h => ⟨h.1, h.2.cons _⟩)

/-- `MultiArg(c, args)`: its frames, each within the burst limit, or a timeout and not all of them (R134, R136). -/
theorem multiArg_sends (c : Word) (args : List Word) {s : State} (hcs : s.cs = 1) (hc : configLegal s.cfg = true) :
    Sends (multiArg c args) s (fun _ fs _ => fs = multiArgFrames s.cfg c args)
      (fun k _ fs _ => k = .hwTimeout ∧ CutShort (multiArgFrames s.cfg c args) fs) := by
  refine (txnCommand_sends c hcs hc).bind (fun _ _ _ _ h => ⟨h.1, h.2 ▸ CutShort.nil _ _⟩) (fun _ fs t h1 h2 h3 => ?_)
  subst h3
  rw [← h2]
  refine Sends.look (readCfg_run t) ((txnWrites_sends _ h1 (h2 ▸ hc) ?_).weaken (fun _ _ _ h => by rw [h]; rfl)
    (fun _ _ _ _ h => ⟨h.1, h.2.cons _⟩))
  rw [argGroups_eq]
  exact argumentFrames_fit (h2 ▸ hc) args

theorem CutShort.writes {code : Word} {ws fs : List Frame} (hw : Writes ws) (h : CutShort (.cmd code :: ws) fs) :
    fs = [] ∨ ∃ gs, Writes gs ∧ fs = .cmd code :: gs := by
  obtain ⟨g, gs, he⟩ := h
  cases fs with
  | nil => exact .inl rfl
  | cons f fs =>
    rw [List.cons_append, List.cons.injEq] at he
    exact .inr ⟨fs, fun f hf => hw f (he.2 ▸ List.mem_append_left _ hf), by rw [he.1]⟩

/-- The same, where only the command counts: write frames follow it. -/
theorem multiArg_sends_writes (c : Word) (args : List Word) {s : State} (hcs : s.cs = 1)
    (hc : configLegal s.cfg = true) :
    Sends (multiArg c args) s (fun _ fs _ => ∃ ws, Writes ws ∧ fs = .cmd c :: ws)
      (fun k _ fs _ => k = .hwTimeout ∧ (fs = [] ∨ ∃ ws, Writes ws ∧ fs = .cmd c :: ws)) := by
  have hw : Writes ((argumentFrames s.cfg args).map (fun ws => .wr ws)) :=
    fun _ hf => (List.mem_map.1 hf).imp fun _ h => h.2.symm
  exact (multiArg_sends c args hcs hc).weaken (fun _ _ _ h => ⟨_, hw, h⟩) (fun _ _ _ _ h => ⟨h.1, h.2.writes hw⟩)

/-- `RegRead(a)`: three frames, the last with the value it answers; or less of that (R137). -/
theorem regRead_sends (a : Word) {s : State} (hcs : s.cs = 1) (hc : configLegal s.cfg = true) :
    Sends (regRead a) s (fun v fs _ => ∃ dummy, fs = [.cmd s.cfg.cmdRegRd, .wr [a], .rd dummy [v]])
      (fun k _ fs _ => k = .hwTimeout ∧
        (fs = [] ∨ fs = [.cmd s.cfg.cmdRegRd] ∨ fs = [.cmd s.cfg.cmdRegRd, .wr [a]])) := by
  refine Sends.look (readCfg_run s) ?_
  refine (txnCommand_sends _ hcs hc).bind (fun _ _ _ _ h => ⟨h.1, .inl h.2⟩) (fun _ fs t h1 h2 h3 => ?_)
  subst h3
  refine (txnWrite_sends [a] h1 (h2 ▸ hc) (fit_one (h2 ▸ hc) a)).bind
    (fun _ _ _ _ h => ⟨h.1, .inr (.inl (by rw [h.2]; rfl))⟩) (fun _ fs u h4 h5 h6 => ?_)
  subst h6
  have hcu : configLegal u.cfg = true := h5 ▸ h2 ▸ hc
  refine (txnRead_sends 1 h4 hcu ⟨Nat.le_refl 1, burst_legal hcu⟩).bind
    (fun _ _ _ _ h => ⟨h.1, .inr (.inr (by rw [h.2]; rfl))⟩) (fun vs fs w h7 h8 h9 => ?_)
  obtain ⟨hl, dummy, rfl⟩ := h9
  obtain ⟨v, rfl⟩ : ∃ v, vs = [v] := List.length_eq_one_iff.1 hl
  exact Sends.silent (t := w) rfl rfl h7 rfl ⟨dummy, rfl⟩

/-! ### Whole operations -/

/-- An operation that answers a next state put whole frames on the wire, and then at most a frame it gave up (R100, R130,
R308); its body completed, or was abandoned by an error. -/
theorem Sends.runs {body : Op Unit} {s t : State} {Q : Unit → List Frame → State → Prop}
    {E : ErrKind → Byte → List Frame → State → Prop} (h : Sends body s Q E) (ht : runOp body s = .next t) :
    ∃ fs last, EmittedThen s t fs last ∧ GivenUp s.cfg t last ∧ Fit s.cfg fs ∧
      ((∃ u, Q () fs u ∧ t = successEpilogue u) ∨ ∃ k i u, E k i fs u ∧ t = errorEpilogue k i u) := by
  unfold Sends at h
  cases hb : body s with
  | ok a u =>
    rw [hb] at h
    obtain ⟨fs, ⟨es, he, hw⟩, h2, h3, h4, h5⟩ := h
    rw [runOp_ok hb] at ht
    cases ht
    refine ⟨fs, [], ⟨es, he, hw⟩, ?_, h2, .inl ⟨u, h5, rfl⟩⟩
    rw [GivenUp, if_neg (by simp [successEpilogue, recordOk]), if_neg (by simp [successEpilogue, recordOk])]
  | error e u =>
    cases e with
    | stuck g => rw [runOp_stuck hb] at ht; cases ht
    | raise k i =>
      rw [hb] at h
      obtain ⟨fs, last, ⟨es, he, hw⟩, h2, h3, h4, h5⟩ := h
      rw [runOp_raise hb] at ht
      cases ht
      refine ⟨fs, last ++ (if u.cs = 0 then [.event .rel] else []), ⟨es ++ (if u.cs = 0 then [.rel] else []), ?_, ?_⟩,
        ?_, h2, .inr ⟨k, i, u, h5, rfl⟩⟩
      · rw [errorEpilogue_eq]
        show (if u.cs = 0 then u.trace ++ [.rel] else u.trace) = _
        by_cases h0 : u.cs = 0
        · rw [if_pos h0, if_pos h0, he, List.append_assoc]
        · rw [if_neg h0, if_neg h0, he, List.append_nil]
      · by_cases h0 : u.cs = 0
        · rw [if_pos h0, if_pos h0, collapsed_before _ rfl, hw, List.append_assoc]
          rfl
        · rw [if_neg h0, if_neg h0, List.append_nil, List.append_nil, hw]
      · rw [errorEpilogue_eq]
        unfold CutOff at h3
        have hcode : errCode k = 1 ↔ k = .hwTimeout := by cases k <;> simp [errCode]
        simp only [GivenUp, hcode]
        split at h3
        · rename_i h1
          simp only [h1, and_self, if_true]
          simp [h3.1, h3.2, lateSamples]
        · rename_i h1
          split at h3
          · rename_i h2
            obtain ⟨⟨pre, hp, hl⟩, h0⟩ := h3
            rw [if_neg h1, if_pos h2, if_pos h0]
            exact ⟨pre, hp, by rw [hl]; rfl⟩
          · rename_i h2
            rw [if_neg h1, if_neg h2, if_neg (by rw [h3.2]; decide), h3.1]
            rfl

end Sys2Proof.Machine
end

