-- ==== Sys2Proof/Laws/Memory.lean ====
section
/-! SUPPORT. SRC keeps its canonical form under the host's writes, and reads back what was written. -/

namespace Sys2Proof.Machine

/-- An entry put in front of a canonical list of later addresses. -/
theorem Memory.wfFrom_cons {lo x : Nat} {v : Byte} {m : Memory} (hlo : lo ≤ x)
    (hm : Memory.wfFrom (x + 1) m = true) (hlow : Memory.wfFrom lo m = true) :
    Memory.wfFrom lo (Memory.cons x v m) = true := by
  unfold Memory.cons
  split
  · exact hlow
  · next hv => simp [Memory.wfFrom, hlo, hv, hm]

/-- A canonical list from a later address is canonical from an earlier one. -/
theorem Memory.wfFrom_mono {a b : Nat} {m : Memory} (h : a ≤ b) (hm : Memory.wfFrom b m = true) :
    Memory.wfFrom a m = true := by
  cases m with
  | nil => rfl
  | cons e m =>
    obtain ⟨x, v⟩ := e
    simp only [Memory.wfFrom, Bool.and_eq_true, decide_eq_true_eq] at hm ⊢
    exact ⟨⟨by omega, hm.1.2⟩, hm.2⟩

/-- Writing a byte keeps the canonical form. -/
theorem Memory.wfFrom_write (m : Memory) {lo x : Nat} (v : Byte) (hlo : lo ≤ x)
    (hm : Memory.wfFrom lo m = true) : Memory.wfFrom lo (Memory.write m x v) = true := by
  induction m generalizing lo with
  | nil => exact Memory.wfFrom_cons hlo rfl rfl
  | cons e m ih =>
    obtain ⟨a, b⟩ := e
    simp only [Memory.wfFrom, Bool.and_eq_true, decide_eq_true_eq] at hm
    unfold Memory.write
    split
    · next hx =>
      refine Memory.wfFrom_cons hlo ?_ ?_ <;> simp [Memory.wfFrom, hm.1.2, hm.2] <;> omega
    · next hx =>
      split
      · next he =>
        subst he
        exact Memory.wfFrom_cons hlo hm.2 (Memory.wfFrom_mono (by omega) hm.2)
      · next hne =>
        simp [Memory.wfFrom, hm.1.1, hm.1.2, ih (by omega) hm.2]

/-- Writing a byte keeps the canonical form. -/
theorem Memory.wf_write (m : Memory) (x : Nat) (v : Byte) (hm : m.wf = true) :
    (Memory.write m x v).wf = true := Memory.wfFrom_write m v (Nat.zero_le x) hm

/-- Placing a run of bytes keeps the canonical form. -/
theorem Memory.wf_writeBytes (vs : List Byte) (m : Memory) (x : Nat) (hm : m.wf = true) :
    (Memory.writeBytes m x vs).wf = true := by
  induction vs generalizing m x with
  | nil => exact hm
  | cons v vs ih => exact ih _ _ (Memory.wf_write m x v hm)

/-- A list that starts above an address has no entry for it. -/
theorem Memory.read_below {lo x : Nat} {m : Memory} (hm : Memory.wfFrom lo m = true) (hx : x < lo) :
    Memory.read m x = blankByte := by
  induction m generalizing lo with
  | nil => rfl
  | cons e m ih =>
    obtain ⟨a, b⟩ := e
    simp only [Memory.wfFrom, Bool.and_eq_true, decide_eq_true_eq] at hm
    have ha : a ≠ x := by omega
    simp only [Memory.read, ha, if_false]
    exact ih hm.2 (by omega)

/-- Reading an entry put in front of later addresses. -/
theorem Memory.read_cons {x y : Nat} {v : Byte} {m : Memory} (hm : Memory.wfFrom (x + 1) m = true) :
    Memory.read (Memory.cons x v m) y = if y = x then v else Memory.read m y := by
  unfold Memory.cons
  by_cases hv : v = blankByte
  · by_cases hy : y = x
    · subst hy
      simp [hv, Memory.read_below hm (Nat.lt_succ_self y)]
    · simp [hv, hy]
  · simp only [hv, if_false, Memory.read]
    by_cases hy : y = x
    · simp [hy]
    · simp [hy, Ne.symm hy]

/-- Reading after a write: the byte written there, every other byte as before. -/
theorem Memory.read_write (m : Memory) {lo x : Nat} (y : Nat) (v : Byte) (hm : Memory.wfFrom lo m = true) :
    Memory.read (Memory.write m x v) y = if y = x then v else Memory.read m y := by
  induction m generalizing lo with
  | nil => exact Memory.read_cons rfl
  | cons e m ih =>
    obtain ⟨a, b⟩ := e
    simp only [Memory.wfFrom, Bool.and_eq_true, decide_eq_true_eq] at hm
    unfold Memory.write
    split
    · next hx =>
      refine Memory.read_cons ?_
      simp [Memory.wfFrom, hm.1.2, hm.2]
      omega
    · next hx =>
      split
      · next he =>
        subst he
        rw [Memory.read_cons hm.2]
        by_cases hy : y = x
        · simp [hy]
        · simp [hy, Memory.read, Ne.symm hy]
      · next hne =>
        simp only [Memory.read, ih hm.2]
        by_cases hy : a = y
        · subst hy
          simp [Ne.symm hne]
        · simp [hy]

end Sys2Proof.Machine
end

