-- ==== Sys2Proof/Laws/Renders.lean ====
section
/-! SUPPORT. What the frames of each procedure say of a render under way (44_display.md R280), whether the procedure
completes or is abandoned. -/

namespace Sys2Proof.Machine

open Sys2Proof.Safety

/-! ### Frames -/

theorem renderAfter_append (c : Config) (fs gs : List Frame) : ∀ p,
    renderAfter c p (fs ++ gs) = (renderAfter c p fs).bind (fun q => renderAfter c q gs) := by
  induction fs with
  | nil => intro p; rfl
  | cons f fs ih =>
    intro p
    simp only [List.cons_append, renderAfter]
    cases renderFrame c p f with
    | none => rfl
    | some q => exact ih q

/-- With no render under way a frame does no more than with one. -/
theorem renderFrame_mono {c : Config} {f : Frame} {q q' : Asked} {b' : Bool}
    (h : renderFrame c (true, q) f = some (b', q')) :
    ∃ a, renderFrame c (false, q) f = some (a, q') ∧ (a = true → b' = true) := by
  cases f with
  | cmd code =>
    simp only [renderFrame] at h ⊢
    by_cases hm : mustWait c code = true
    · simp [hm] at h
    · rw [if_neg hm] at h ⊢
      cases h
      exact ⟨false, rfl, fun h => nomatch h⟩
  | _ =>
    simp only [renderFrame, Option.some.injEq, Prod.mk.injEq] at h ⊢
    exact ⟨_, ⟨rfl, h.2⟩, fun h => by simp at h⟩

theorem renderAfter_mono {c : Config} {fs : List Frame} : ∀ {q q' : Asked} {b' : Bool},
    renderAfter c (true, q) fs = some (b', q') →
    ∃ a, renderAfter c (false, q) fs = some (a, q') ∧ (a = true → b' = true) := by
  induction fs with
  | nil => intro q q' b' h; cases h; exact ⟨false, rfl, fun h => nomatch h⟩
  | cons f fs ih =>
    intro q q' b' h
    simp only [renderAfter] at h ⊢
    cases hf : renderFrame c (true, q) f with
    | none => rw [hf] at h; cases h
    | some p =>
      obtain ⟨b1, q1⟩ := p
      rw [hf] at h
      obtain ⟨a, ha, hab⟩ := renderFrame_mono hf
      rw [ha]
      cases b1 with
      | true =>
        cases a with
        | true => exact ⟨b', h, fun h => h⟩
        | false => exact ih h
      | false =>
        have ha : a = false := Bool.eq_false_iff.2 fun h => nomatch hab h
        subst ha
        exact ⟨b', h, fun h => h⟩

/-- Read after anything, with a render under way at most if `b`, the frames leave one under way at most if `b'`. -/
def Renders (c : Config) (b : Bool) (fs : List Frame) (b' : Bool) : Prop :=
  ∀ q, ∃ a q', renderAfter c (b, q) fs = some (a, q') ∧ (a = true → b' = true)

theorem Renders.nil (c : Config) (b : Bool) : Renders c b [] b := fun q => ⟨b, q, rfl, fun h => h⟩

theorem Renders.append {c : Config} {b b' b'' : Bool} {fs gs : List Frame} (h : Renders c b fs b')
    (h' : Renders c b' gs b'') : Renders c b (fs ++ gs) b'' := by
  intro q
  obtain ⟨a, q1, h1, ha⟩ := h q
  obtain ⟨a2, q2, h2, ha2⟩ := h' q1
  rw [renderAfter_append, h1]
  cases a with
  | true => rw [ha rfl] at h2; exact ⟨a2, q2, h2, ha2⟩
  | false =>
    cases b' with
    | false => exact ⟨a2, q2, h2, ha2⟩
    | true =>
      obtain ⟨a3, h3, h4⟩ := renderAfter_mono h2
      exact ⟨a3, q2, h3, fun h => ha2 (h4 h)⟩

theorem Renders.cons {c : Config} {b b' b'' : Bool} {f : Frame} {fs : List Frame} (h : Renders c b [f] b')
    (h' : Renders c b' fs b'') : Renders c b (f :: fs) b'' := h.append h'

theorem Renders.write (c : Config) (b : Bool) (ws : List Word) : Renders c b [.wr ws] b :=
  fun _ => ⟨_, _, rfl, fun h => h⟩

theorem Renders.delay (c : Config) (b : Bool) (ms : Nat) : Renders c b [.delay ms] b := fun _ => ⟨_, _, rfl, fun h => h⟩

theorem Renders.writes {c : Config} {b : Bool} {fs : List Frame} (h : Writes fs) : Renders c b fs b := by
  induction fs with
  | nil => exact Renders.nil c b
  | cons f fs ih =>
    obtain ⟨ws, rfl⟩ := h f List.mem_cons_self
    exact (Renders.write c b ws).cons (ih fun g hg => h g (List.mem_cons_of_mem _ hg))

/-- A command that need not wait. -/
theorem Renders.free {c : Config} {code : Word} (h : mustWait c code = false) (b : Bool) :
    Renders c b [.cmd code] b :=
  fun _ => ⟨b, if code = c.cmdRegRd then .register else .nothing, by simp [renderAfter, renderFrame, h], fun h => h⟩

/-- A command that must wait, while no render is under way. -/
theorem Renders.waited {c : Config} {code : Word} (h : mustWait c code = true) :
    Renders c false [.cmd code] (decide (code = c.cmdDpyArea ∨ code = c.cmdDpyBufArea)) :=
  fun _ => ⟨_, .nothing, by simp [renderAfter, renderFrame, h], fun h => h⟩

/-- A read can only end a render. -/
theorem Renders.read (c : Config) (b : Bool) (dummy : Word) (vs : List Word) : Renders c b [.rd dummy vs] b :=
  fun q => ⟨b && !decide (q = .status ∧ vs.headD 0 &&& c.renderBusyMask = 0), .nothing, rfl,
    fun h => by simp only [Bool.and_eq_true] at h; exact h.1⟩

/-- A reading of the render status that sees the busy bits clear ends it (R266). -/
theorem Renders.idle {c : Config} (h : mustWait c c.cmdRegRd = false) (b : Bool) (dummy : Word) {v : Word}
    (hv : v &&& c.renderBusyMask = 0) :
    Renders c b [.cmd c.cmdRegRd, .wr [c.regRenderStatus], .rd dummy [v]] false :=
  fun _ => ⟨false, .nothing, by simp [renderAfter, renderFrame, h, hv], fun h => h⟩

/-! ### The codes of a legal configuration -/

theorem not_mustWait {c : Config} {code : Word} (h : code ∉ trackedCodes c) : mustWait c code = false := by
  by_contra hm
  apply h
  simp only [Bool.not_eq_false, mustWait, List.contains_iff_mem] at hm
  simp only [trackedCodes, List.mem_cons, List.not_mem_nil, or_false] at hm ⊢
  rcases hm with h | h | h | h | h | h | h <;> simp [h]

/-- The codes that do not start, end or disturb a render. -/
theorem free_codes {c : Config} (hc : configLegal c = true) :
    mustWait c c.cmdRegRd = false ∧ mustWait c c.cmdRegWr = false ∧ mustWait c c.cmdSysRun = false ∧
      mustWait c c.cmdGetDevInfo = false := by
  simp only [configLegal, Bool.and_eq_true] at hc
  have h := hc.1.2
  simp only [commandCodes, allDistinct, Bool.and_eq_true, Bool.not_eq_true', List.contains_eq_mem, decide_eq_false_iff_not,
    List.mem_cons, List.not_mem_nil, or_false, not_or, not_false_eq_true, and_true] at h
  simp only [mustWait, List.contains_eq_mem, decide_eq_false_iff_not, List.mem_cons, List.not_mem_nil, or_false, not_or]
  obtain ⟨h1, h2, h3, h4, h5, h6, h7, h8, h9, h10⟩ := h
  simp only [eq_comm] at *
  tauto

/-- The commands that must wait and that start no render. -/
theorem waiting_codes {c : Config} (hc : configLegal c = true) :
    ∀ code ∈ [c.cmdLdImg, c.cmdLdImgArea, c.cmdLdImgEnd, c.cmdSleep, c.cmdStandby], mustWait c code = true ∧
      ¬ (code = c.cmdDpyArea ∨ code = c.cmdDpyBufArea) := by
  simp only [configLegal, Bool.and_eq_true] at hc
  have h := hc.1.2
  simp only [commandCodes, allDistinct, Bool.and_eq_true, Bool.not_eq_true', List.contains_eq_mem, decide_eq_false_iff_not,
    List.mem_cons, List.not_mem_nil, or_false, not_or, not_false_eq_true, and_true] at h
  obtain ⟨h1, h2, h3, h4, h5, h6, h7, h8, h9, h10⟩ := h
  intro code hm
  simp only [List.mem_cons, List.not_mem_nil, or_false] at hm
  simp only [eq_comm] at *
  rcases hm with rfl | rfl | rfl | rfl | rfl <;> (refine ⟨by simp [mustWait], ?_⟩; tauto)

/-! ### Procedures that leave a render as it is -/

/-- Only the wire has changed, and no frame depends on whether a render is under way. -/
def Calm (s : State) (fs : List Frame) (t : State) : Prop := Wired s t ∧ ∀ b, Renders s.cfg b fs b

theorem Calm.nil (s : State) : Calm s [] s := ⟨wired_chain.refl s, fun b => Renders.nil _ b⟩

theorem Calm.append {s t u : State} {fs gs : List Frame} (h : Calm s fs t) (h' : Calm t gs u) : Calm s (fs ++ gs) u := by
  refine ⟨wired_chain.trans _ _ _ h.1 h'.1, fun b => (h.2 b).append ?_⟩
  have := h'.2 b
  rwa [wired_chain.cfg _ _ h.1] at this

/-- A procedure all of whose frames are calm; it is abandoned by timeouts only. -/
def SendsCalmly {α : Type} (m : Op α) (s : State) : Prop :=
  Sends m s (fun _ fs t => Calm s fs t) (fun k _ fs t => k = .hwTimeout ∧ Calm s fs t)

section

variable {α β : Type} {m : Op α} {f : α → Op β} {s : State}

theorem SendsCalmly.bind (hm : SendsCalmly m s)
    (hf : ∀ a t, t.cs = 1 → t.cfg = s.cfg → SendsCalmly (f a) t) : SendsCalmly (m >>= f) s :=
  Sends.bind hm (fun _ _ _ _ h => h) fun a _ t h1 h2 h3 =>
    (hf a t h1 h2).weaken (fun _ _ _ h => h3.append h) (fun _ _ _ _ h => ⟨h.1, h3.append h.2⟩)

theorem SendsCalmly.look {a : α} (hm : m s = .ok a s) (hf : SendsCalmly (f a) s) : SendsCalmly (m >>= f) s :=
  Sends.look hm hf

theorem SendsCalmly.pure (a : α) (hcs : s.cs = 1) : SendsCalmly (pure a : Op α) s :=
  Sends.silent (t := s) rfl rfl hcs rfl (Calm.nil s)

/-- From the frames a procedure on the wire sends. -/
theorem Sends.calmly {Q : α → List Frame → State → Prop} {E : ErrKind → Byte → List Frame → State → Prop}
    (h : Sends m s Q E) (ha : Acts Wired wireStop m) (hQ : ∀ a fs t, Q a fs t → ∀ b, Renders s.cfg b fs b)
    (hE : ∀ k i fs t, E k i fs t → k = .hwTimeout ∧ ∀ b, Renders s.cfg b fs b) : SendsCalmly m s :=
  h.conclude ha (fun _ _ _ hw h => ⟨hw, hQ _ _ _ h⟩) (fun _ _ _ _ hw _ h => ⟨(hE _ _ _ _ h).1, hw, (hE _ _ _ _ h).2⟩)

end

section

variable {s : State} (hcs : s.cs = 1) (hc : configLegal s.cfg = true)

include hcs hc

theorem txnCommand_calm {c : Word} (h : mustWait s.cfg c = false) : SendsCalmly (txnCommand c) s :=
  (txnCommand_sends c hcs hc).calmly (txnCommand_acts c) (fun _ _ _ h' b => h' ▸ Renders.free h b)
    (fun _ _ _ _ h' => ⟨h'.1, fun b => h'.2 ▸ Renders.nil _ b⟩)

theorem txnWrite_calm {ws : List Word} (hfit : Fit s.cfg [.wr ws]) : SendsCalmly (txnWrite ws) s :=
  (txnWrite_sends ws hcs hc hfit).calmly (txnWrite_acts ws) (fun _ _ _ h' b => h' ▸ Renders.write _ b ws)
    (fun _ _ _ _ h' => ⟨h'.1, fun b => h'.2 ▸ Renders.nil _ b⟩)

theorem txnRead_calm {n : Nat} (hfit : 1 ≤ n ∧ n ≤ s.cfg.bWords) : SendsCalmly (txnRead n) s :=
  (txnRead_sends n hcs hc hfit).calmly (txnRead_acts n)
    (fun vs _ _ h' b => by obtain ⟨-, dummy, rfl⟩ := h'; exact Renders.read _ b dummy vs)
    (fun _ _ _ _ h' => ⟨h'.1, fun b => h'.2 ▸ Renders.nil _ b⟩)

theorem multiArg_calm {c : Word} {args : List Word} (h : mustWait s.cfg c = false) :
    SendsCalmly (multiArg c args) s := by
  have key : ∀ ws, Writes ws → ∀ b, Renders s.cfg b (.cmd c :: ws) b := fun ws hw b =>
    (Renders.free h b).cons (Renders.writes hw)
  refine (multiArg_sends_writes c args hcs hc).calmly (multiArg_acts c args) (fun _ fs _ h' b => ?_)
    (fun _ _ fs _ h' => ⟨h'.1, fun b => ?_⟩)
  · obtain ⟨ws, hw, rfl⟩ := h'
    exact key ws hw b
  · rcases h'.2 with rfl | ⟨ws, hw, rfl⟩
    · exact Renders.nil _ b
    · exact key ws hw b

theorem regWrite_calm (a v : Word) : SendsCalmly (regWrite a v) s :=
  SendsCalmly.look (readCfg_run s) (multiArg_calm hcs hc (free_codes hc).2.1)

theorem regRead_calm (a : Word) : SendsCalmly (regRead a) s :=
  SendsCalmly.look (readCfg_run s) <| (txnCommand_calm hcs hc (free_codes hc).1).bind fun _ _ h1 h2 =>
    (txnWrite_calm h1 (h2 ▸ hc) (fit_one (h2 ▸ hc) a)).bind fun _ _ h3 h4 =>
      (txnRead_calm h3 (h4 ▸ h2 ▸ hc) ⟨Nat.le_refl 1, burst_legal (h4 ▸ h2 ▸ hc)⟩).bind
        fun _ _ h5 _ => SendsCalmly.pure _ h5

theorem setBlend_calm (fg bg : Byte) : SendsCalmly (setBlend fg bg) s :=
  SendsCalmly.look (readCfg_run s) (regWrite_calm hcs hc _ _)

theorem mode1On_calm : SendsCalmly mode1On s :=
  SendsCalmly.look (readCfg_run s) <| (regRead_calm hcs hc _).bind fun _ _ h1 h2 => regWrite_calm h1 (h2 ▸ hc) _ _

theorem mode1Off_calm : SendsCalmly mode1Off s :=
  SendsCalmly.look (readCfg_run s) <| (regRead_calm hcs hc _).bind fun _ _ h1 h2 => regWrite_calm h1 (h2 ▸ hc) _ _

theorem getDeviceInfo_calm : SendsCalmly getDeviceInfo s :=
  SendsCalmly.look (readCfg_run s) <| (txnCommand_calm hcs hc (free_codes hc).2.2.2).bind fun _ t h1 h2 =>
    txnRead_calm h1 (h2 ▸ hc) ⟨by unfold descWords; omega, by
      rw [h2]
      simp only [configLegal, Bool.and_eq_true, decide_eq_true_eq] at hc
      exact hc.2⟩

theorem vcomReconcile_calm (vcom : Word) (hv : VcomApart s.cfg) : SendsCalmly (vcomReconcile vcom) s := by
  have hread : SendsCalmly vcomRead s := by
    refine SendsCalmly.look (readCfg_run s) ?_
    cases h : s.cfg.vcomAccess with
    | register a => exact regRead_calm hcs hc a
    | command code =>
      exact (txnCommand_calm hcs hc (not_mustWait (hv code h))).bind fun _ t h1 h2 =>
        (txnWrite_calm h1 (h2 ▸ hc) (fit_one (h2 ▸ hc) _)).bind fun _ u h3 h4 =>
          (txnRead_calm h3 (h4 ▸ h2 ▸ hc) ⟨Nat.le_refl 1, burst_legal (h4 ▸ h2 ▸ hc)⟩).bind
            fun _ _ h5 _ => SendsCalmly.pure _ h5
  refine hread.bind fun cur t h1 h2 => ?_
  by_cases hne : cur ≠ vcom
  · rw [if_pos hne]
    refine SendsCalmly.look (readCfg_run t) ?_
    have hct : configLegal t.cfg = true := h2 ▸ hc
    cases h : t.cfg.vcomAccess with
    | register a => exact regWrite_calm h1 hct a vcom
    | command code =>
      exact (txnCommand_calm h1 hct (not_mustWait ((h2.symm ▸ hv) code h))).bind fun _ u h3 h4 =>
        (txnWrite_calm h3 (h4 ▸ hct) (fit_one (h4 ▸ hct) _)).bind fun _ v h5 h6 =>
          txnWrite_calm h5 (h6 ▸ h4 ▸ hct) (fit_one (h6 ▸ h4 ▸ hct) _)
  · rw [if_neg hne]
    exact SendsCalmly.pure _ h1

end

/-! ### Loads -/

/-- A procedure that, with no render under way, starts none. -/
def SendsStill {α : Type} (m : Op α) (s : State) : Prop :=
  Sends m s (fun _ fs t => t.renderPending = s.renderPending ∧ Renders s.cfg false fs false)
    (fun _ _ fs _ => Renders s.cfg false fs false)

section

variable {α β : Type} {m : Op α} {f : α → Op β} {s : State}

theorem SendsStill.bind (hm : SendsStill m s)
    (hf : ∀ a t, t.cs = 1 → t.cfg = s.cfg → SendsStill (f a) t) : SendsStill (m >>= f) s :=
  Sends.bind hm (fun _ _ _ _ h => h) fun a _ t h1 h2 h3 =>
    (hf a t h1 h2).weaken (fun _ _ _ h => ⟨h.1.trans h3.1, h3.2.append (h2 ▸ h.2)⟩)
      (fun _ _ _ _ h => h3.2.append (h2 ▸ h))

theorem SendsStill.look {a : α} (hm : m s = .ok a s) (hf : SendsStill (f a) s) : SendsStill (m >>= f) s :=
  Sends.look hm hf

theorem SendsStill.pure (a : α) (hcs : s.cs = 1) : SendsStill (pure a : Op α) s :=
  Sends.silent (t := s) rfl rfl hcs rfl ⟨rfl, Renders.nil _ _⟩

theorem SendsCalmly.still (h : SendsCalmly m s) : SendsStill m s :=
  h.weaken (fun _ _ _ h => ⟨by obtain ⟨⟨es, c, k, -, rfl⟩, -⟩ := h; rfl, h.2 false⟩) (fun _ _ _ _ h => h.2.2 false)

/-- After it the render mirror is as before. -/
theorem SendsStill.keeps (h : SendsStill m s) {a : α} {t : State} (hm : m s = .ok a t) :
    t.renderPending = s.renderPending := by
  unfold SendsStill Sends at h
  rw [hm] at h
  obtain ⟨_, _, _, _, _, h, _⟩ := h
  exact h

/-- A check: it passes and changes nothing, or refuses before anything is sent, or finds no descriptor. -/
def Checks (m : Op α) : Prop := ∀ s, (∃ a, m s = .ok a s) ∨
  (∃ k i, k ≠ .hwTimeout ∧ m s = .error (.raise k i) s) ∨ ∃ g t, m s = .error (.stuck g) t

theorem Checks.bind (hm : Checks m) (hf : ∀ a, Checks (f a)) : Checks (m >>= f) := by
  intro s
  rcases hm s with ⟨a, h⟩ | ⟨k, i, hk, h⟩ | ⟨g, t, h⟩
  · rcases hf a s with ⟨b, h'⟩ | ⟨k, i, hk, h'⟩ | ⟨g, t, h'⟩
    · exact .inl ⟨b, by rw [bind_ok h, h']⟩
    · exact .inr (.inl ⟨k, i, hk, by rw [bind_ok h, h']⟩)
    · exact .inr (.inr ⟨g, t, by rw [bind_ok h, h']⟩)
  · exact .inr (.inl ⟨k, i, hk, by rw [bind_error h]⟩)
  · exact .inr (.inr ⟨g, t, by rw [bind_error h]⟩)

/-- What followed a check that passed. -/
theorem Checks.passed (hm : Checks m) {b : β} {t : State} (h : (m >>= f) s = .ok b t) :
    ∃ a, m s = .ok a s ∧ f a s = .ok b t := by
  rcases hm s with ⟨a, h1⟩ | ⟨k, i, -, h1⟩ | ⟨g, v, h1⟩
  · exact ⟨a, h1, (bind_ok h1).symm.trans h⟩
  · rw [bind_error h1] at h; cases h
  · rw [bind_error h1] at h; cases h

theorem raiseIf_checks (c : Prop) [Decidable c] {k : ErrKind} (hk : k ≠ .hwTimeout) (i : Byte) :
    Checks (raiseIf c k i) := by
  intro s
  by_cases h : c
  · exact .inr (.inl ⟨k, i, hk, by rw [raiseIf_run, if_pos h]⟩)
  · exact .inl ⟨(), by rw [raiseIf_run, if_neg h]⟩

theorem readCfg_checks : Checks readCfg := fun s => .inl ⟨_, readCfg_run s⟩

theorem readState_checks : Checks readState := fun s => .inl ⟨_, readState_run s⟩

/-- What follows a check runs from the same state, knowing that it passed. -/
theorem Sends.check {R : β → List Frame → State → Prop} {E : ErrKind → Byte → List Frame → State → Prop}
    (hm : Checks m) (hcs : s.cs = 1) (hf : ∀ a, m s = .ok a s → Sends (f a) s R E)
    (hE : ∀ k i, k ≠ .hwTimeout → E k i [] s) : Sends (m >>= f) s R E := by
  rcases hm s with ⟨a, h⟩ | ⟨k, i, hk, h⟩ | ⟨g, t, h⟩
  · exact Sends.look h (hf a h)
  · exact Sends.refused (bind_error h) hk hcs (hE k i hk)
  · unfold Sends
    rw [bind_error h]
    trivial

theorem SendsStill.check (hm : Checks m) (hcs : s.cs = 1) (hf : ∀ a, SendsStill (f a) s) :
    SendsStill (m >>= f) s :=
  Sends.check hm hcs (fun a _ => hf a) (fun _ _ _ => Renders.nil _ _)

end

theorem readDesc_checks : Checks readDesc := by
  intro s
  cases h : s.desc with
  | some d => exact .inl ⟨d, by unfold readDesc; rw [h]⟩
  | none => exact .inr (.inr ⟨.noDescriptor, s, by unfold readDesc; rw [h]⟩)

theorem panelCheck_checks (x y w h : Word) : Checks (panelCheck x y w h) :=
  readDesc_checks.bind fun _ => (raiseIf_checks _ (by decide) _).bind fun _ =>
    (raiseIf_checks _ (by decide) _).bind fun _ => raiseIf_checks _ (by decide) _

theorem loadGeom_checks (j : LoadJob) : Checks (loadGeom j) :=
  (panelCheck_checks _ _ _ _).bind fun _ => readCfg_checks.bind fun _ => (raiseIf_checks _ (by decide) _).bind fun _ =>
    (raiseIf_checks _ (by decide) _).bind fun _ => (raiseIf_checks _ (by decide) _).bind fun _ =>
      raiseIf_checks _ (by decide) _

theorem footprint_checks (j : LoadJob) : Checks (footprint j) :=
  readCfg_checks.bind fun _ => raiseIf_checks _ (by decide) _

theorem loadWord_checks (j : LoadJob) (r0 i : Nat) : Checks (loadWord j r0 i) := by
  unfold loadWord
  cases j.fill with
  | some f => exact fun _ => .inl ⟨_, rfl⟩
  | none =>
    refine readCfg_checks.bind fun _ => Checks.bind (fun _ => ?_) (fun _ _ => .inl ⟨_, rfl⟩)
    unfold memRead
    split
    · exact .inl ⟨_, rfl⟩
    · exact .inr (.inl ⟨.srcBounds, 0, by decide, rfl⟩)

theorem loadWords_checks (j : LoadJob) (r0 : Nat) : ∀ count i, Checks (loadWords j r0 count i)
  | 0, _ => fun _ => .inl ⟨_, rfl⟩
  | n + 1, i => (loadWord_checks j r0 i).bind fun _ => (loadWords_checks j r0 n (i + 1)).bind fun _ _ => .inl ⟨_, rfl⟩

theorem loadWords_length (j : LoadJob) (r0 : Nat) : ∀ (count i : Nat) {s t : State} {ws : List Word},
    loadWords j r0 count i s = .ok ws t → ws.length = count := by
  intro count
  induction count with
  | zero => intro i s t ws h; cases h; rfl
  | succ n ih =>
    intro i s t ws h
    unfold loadWords at h
    cases h1 : loadWord j r0 i s with
    | error e u => rw [bind_error h1] at h; cases h
    | ok w u =>
      rw [bind_ok h1] at h
      cases h2 : loadWords j r0 n (i + 1) u with
      | error e v => rw [bind_error h2] at h; cases h
      | ok vs v =>
        rw [bind_ok h2] at h
        cases h
        simp [ih _ h2]

section

variable {s : State} (hcs : s.cs = 1) (hc : configLegal s.cfg = true)

include hcs hc

theorem setTargetAddr_still (a : Addr) : SendsStill (setTargetAddr a) s :=
  SendsStill.look (readCfg_run s) <| (regWrite_calm hcs hc _ _).still.bind fun _ _ h1 h2 =>
    (regWrite_calm h1 (h2 ▸ hc) _ _).still.bind fun _ _ h3 _ =>
      Sends.silent rfl rfl h3 rfl ⟨rfl, Renders.nil _ _⟩

/-- A command that must wait and starts no render, with its arguments, and then a mirror. -/
theorem waitingCommand_still {code : Word} {args : List Word} {g : State → State}
    (hcode : code ∈ [s.cfg.cmdLdImg, s.cfg.cmdLdImgArea, s.cfg.cmdLdImgEnd, s.cfg.cmdSleep, s.cfg.cmdStandby])
    (hg : ∀ t, (g t).trace = t.trace ∧ (g t).cs = t.cs ∧ (g t).cfg = t.cfg ∧ (g t).renderPending = t.renderPending) :
    SendsStill (multiArg code args >>= fun _ => update g) s := by
  have hw := waiting_codes hc code hcode
  have key : ∀ ws, Writes ws → Renders s.cfg false (.cmd code :: ws) false := fun ws hws => by
    have h1 := Renders.waited hw.1
    rw [decide_eq_false hw.2] at h1
    exact h1.cons (Renders.writes hws)
  have hm : SendsStill (multiArg code args) s := by
    refine (multiArg_sends_writes code args hcs hc).conclude (multiArg_acts code args) (fun _ fs t hT h => ?_)
      (fun _ _ fs t _ _ h => ?_)
    · obtain ⟨es, c, k, -, rfl⟩ := hT
      obtain ⟨ws, hws, rfl⟩ := h
      exact ⟨rfl, key ws hws⟩
    · rcases h.2 with rfl | ⟨ws, hws, rfl⟩
      · exact Renders.nil _ _
      · exact key ws hws
  exact hm.bind fun _ t h1 _ =>
    Sends.silent rfl (hg t).1 ((hg t).2.1.trans h1) (hg t).2.2.1 ⟨(hg t).2.2.2, Renders.nil _ _⟩

theorem beginLoadCore_still (e : Endian) (p : ChipFormat) (r : Rotation) (a : Addr) :
    SendsStill (beginLoadCore e p r a) s :=
  (setTargetAddr_still hcs hc a).bind fun _ t h1 h2 => SendsStill.look (readCfg_run t)
    (waitingCommand_still h1 (h2 ▸ hc) (by simp) (fun _ => ⟨rfl, rfl, rfl, rfl⟩))

theorem beginLoadAreaCore_still (e : Endian) (p : ChipFormat) (r : Rotation) (a : Addr) (x y w h : Word) :
    SendsStill (beginLoadAreaCore e p r a x y w h) s :=
  (setTargetAddr_still hcs hc a).bind fun _ t h1 h2 => SendsStill.look (readCfg_run t)
    (waitingCommand_still h1 (h2 ▸ hc) (by simp) (fun _ => ⟨rfl, rfl, rfl, rfl⟩))

/-- A command without arguments that must wait and starts no render, and then a register. -/
theorem waitingCode_still {code : Word} {g : State → State}
    (hcode : code ∈ [s.cfg.cmdLdImg, s.cfg.cmdLdImgArea, s.cfg.cmdLdImgEnd, s.cfg.cmdSleep, s.cfg.cmdStandby])
    (hg : ∀ t, (g t).trace = t.trace ∧ (g t).cs = t.cs ∧ (g t).cfg = t.cfg ∧ (g t).renderPending = t.renderPending) :
    SendsStill (txnCommand code >>= fun _ => update g) s := by
  have hw := waiting_codes hc code hcode
  have h1 := Renders.waited hw.1
  rw [decide_eq_false hw.2] at h1
  have hm : SendsStill (txnCommand code) s := by
    refine (txnCommand_sends code hcs hc).conclude (txnCommand_acts code) (fun _ fs t hT h => ?_)
      (fun _ _ fs t _ _ h => h.2 ▸ Renders.nil _ _)
    obtain ⟨es, c, k, -, rfl⟩ := hT
    exact ⟨rfl, h ▸ h1⟩
  exact hm.bind fun _ t h1 _ =>
    Sends.silent rfl (hg t).1 ((hg t).2.1.trans h1) (hg t).2.2.1 ⟨(hg t).2.2.2, Renders.nil _ _⟩

theorem endLoadCore_still : SendsStill endLoadCore s :=
  SendsStill.look (readCfg_run s) (waitingCode_still hcs hc (by simp) (fun _ => ⟨rfl, rfl, rfl, rfl⟩))

omit hcs in
/-- A burst of a telegram is within the burst limit (R229, R134). -/
theorem burst_fit {n b : Nat} {ws : List Word} (hb : b < ceilDiv n s.cfg.bWords)
    (hl : ws.length = min n ((b + 1) * s.cfg.bWords) - b * s.cfg.bWords) : Fit s.cfg [.wr ws] := by
  have h0 := burst_legal hc
  have hlt : b * s.cfg.bWords < n := by
    unfold ceilDiv at hb
    have h3 := (Nat.le_div_iff_mul_le (by omega)).1 (Nat.succ_le_of_lt hb)
    rw [Nat.succ_mul] at h3
    omega
  intro f hf
  rw [List.mem_singleton.1 hf]
  rw [Nat.succ_mul] at hl
  simp only [WithinBurst]
  omega

theorem loadBurst_still (j : LoadJob) (r0 n b : Nat) (hb : b < ceilDiv n s.cfg.bWords) :
    SendsStill (loadBurst j r0 n b) s := by
  have hd : SendsStill (interBurstDelay b) s := by
    refine SendsStill.look (readCfg_run s) ?_
    by_cases h : b > 0
    · rw [if_pos h]
      refine Sends.ok (fs := [.delay s.cfg.interBurstDelayMs]) rfl ⟨_, rfl, rfl⟩ (fun f hf => ?_) hcs rfl
        ⟨rfl, Renders.delay _ _ _⟩
      rw [List.mem_singleton.1 hf]
      trivial
    · rw [if_neg h]
      exact SendsStill.pure () hcs
  refine hd.bind fun _ t h1 h2 => SendsStill.look (readCfg_run t) ?_
  refine Sends.check (loadWords_checks j r0 _ _) h1 (fun ws hws => ?_) (fun _ _ _ => Renders.nil _ _)
  rw [h2] at hws
  exact (txnWrite_calm h1 (h2 ▸ hc) (h2.symm ▸ burst_fit hc hb (loadWords_length j r0 _ _ hws))).still

end

theorem loadBursts_still (j : LoadJob) (r0 n : Nat) : ∀ (count b : Nat) {s : State}, s.cs = 1 →
    configLegal s.cfg = true → b + count ≤ ceilDiv n s.cfg.bWords → SendsStill (loadBursts j r0 n count b) s := by
  intro count
  induction count with
  | zero => intro b s hcs _ _; exact SendsStill.pure () hcs
  | succ k ih =>
    intro b s hcs hc hb
    exact (loadBurst_still hcs hc j r0 n b (by omega)).bind fun _ t h1 h2 =>
      ih (b + 1) h1 (h2 ▸ hc) (by rw [h2]; omega)

theorem loadTelegrams_still (j : LoadJob) : ∀ (count k : Nat) {s : State}, s.cs = 1 → configLegal s.cfg = true →
    SendsStill (loadTelegrams j count k) s := by
  intro count
  induction count with
  | zero => intro k s hcs _; exact SendsStill.pure () hcs
  | succ n ih =>
    intro k s hcs hc
    have ht : SendsStill (loadTelegram j k) s := by
      refine SendsStill.look (readCfg_run s) ?_
      refine (beginLoadAreaCore_still hcs hc _ _ _ _ _ _ _ _).bind fun _ t h1 h2 => ?_
      exact (loadBursts_still j _ _ _ 0 h1 (h2 ▸ hc) (by rw [h2]; omega)).bind
        fun _ _ h3 h4 => endLoadCore_still h3 (h4 ▸ h2 ▸ hc)
    exact ht.bind fun _ t h1 h2 => ih (k + 1) h1 (h2 ▸ hc)

theorem loadImage_still (j : LoadJob) {s : State} (hcs : s.cs = 1) (hc : configLegal s.cfg = true) :
    SendsStill (loadImage j) s := by
  refine SendsStill.check (loadGeom_checks j) hcs fun _ => SendsStill.check (footprint_checks j) hcs fun _ => ?_
  have ha : SendsStill requireAlloc s := by
    by_cases h : nextAlloc s.chip = false
    · unfold SendsStill Sends
      rw [requireAlloc_run, if_pos h]
      exact ⟨[], [], emittedThen_nothing rfl, Fit.nil _, by simp [CutOff, hcs, afterAllocDraw], rfl, Renders.nil _ _⟩
    · exact Sends.silent (t := afterAllocDraw s) (a := ()) (by rw [requireAlloc_run, if_neg h]) rfl hcs rfl ⟨rfl, Renders.nil _ _⟩
  exact ha.bind fun _ t h1 h2 => SendsStill.look (readCfg_run t) (loadTelegrams_still j _ _ h1 (h2 ▸ hc))

/-! ### Displays, and whole operations -/

/-- A procedure whose frames keep R280: after it a render may be under way only if it is pending in RENDER_PENDING; and so
too after an error other than a timeout. -/
def SendsTracked {α : Type} (m : Op α) (s : State) : Prop :=
  Sends m s (fun _ fs t => Renders s.cfg s.renderPending fs t.renderPending)
    (fun k _ fs t => ∃ b, Renders s.cfg s.renderPending fs b ∧ (k ≠ .hwTimeout → b = true → t.renderPending = true))

section

variable {α β : Type} {m : Op α} {f : α → Op β} {s : State}

theorem SendsTracked.bind (hm : SendsTracked m s)
    (hf : ∀ a t, t.cs = 1 → t.cfg = s.cfg → SendsTracked (f a) t) : SendsTracked (m >>= f) s :=
  Sends.bind hm (fun _ _ _ _ h => h) fun a _ t h1 h2 h3 =>
    (hf a t h1 h2).weaken (fun _ _ _ h => h3.append (h2 ▸ h))
      (fun _ _ _ _ h => by obtain ⟨b, hb, h⟩ := h; exact ⟨b, h3.append (h2 ▸ hb), h⟩)

theorem SendsTracked.look {a : α} (hm : m s = .ok a s) (hf : SendsTracked (f a) s) : SendsTracked (m >>= f) s :=
  Sends.look hm hf

theorem SendsTracked.check (hm : Checks m) (hcs : s.cs = 1) (hf : ∀ a, m s = .ok a s → SendsTracked (f a) s) :
    SendsTracked (m >>= f) s :=
  Sends.check hm hcs hf (fun _ _ _ => ⟨_, Renders.nil _ _, fun _ h => h⟩)

theorem SendsTracked.pure (a : α) (hcs : s.cs = 1) : SendsTracked (pure a : Op α) s :=
  Sends.silent (t := s) rfl rfl hcs rfl (Renders.nil _ _)

theorem SendsCalmly.tracked (h : SendsCalmly m s) : SendsTracked m s :=
  h.weaken (fun _ _ _ h => by obtain ⟨⟨es, c, k, -, rfl⟩, h⟩ := h; exact h _)
    (fun _ _ _ _ h => ⟨_, h.2.2 _, fun hk => absurd h.1 hk⟩)

/-- With no render under way: a part that starts none, and then one that keeps R280. -/
theorem SendsStill.thenTracked (hm : SendsStill m s) (hs : s.renderPending = false)
    (hf : ∀ a t, t.cs = 1 → t.cfg = s.cfg → t.renderPending = false → SendsTracked (f a) t) :
    SendsTracked (m >>= f) s := by
  unfold SendsTracked
  rw [hs]
  refine Sends.bind hm (fun _ _ _ _ h => ⟨false, h, fun _ h => nomatch h⟩) fun a _ t h1 h2 h3 => ?_
  have h := hf a t h1 h2 (h3.1.trans hs)
  unfold SendsTracked at h
  rw [h3.1.trans hs, h2] at h
  exact h.weaken (fun _ _ _ h => h3.2.append h)
    (fun _ _ _ _ h => by obtain ⟨b, hb, h⟩ := h; exact ⟨b, h3.2.append hb, h⟩)

theorem SendsStill.tracked (h : SendsStill m s) (hs : s.renderPending = false) : SendsTracked m s := by
  unfold SendsTracked
  rw [hs]
  exact h.weaken (fun _ _ _ h => by rw [h.1, hs]; exact h.2) (fun _ _ _ _ h => ⟨false, h, fun _ h => nomatch h⟩)

end

section

variable {s : State} (hcs : s.cs = 1) (hc : configLegal s.cfg = true)

include hcs hc

theorem displayCore_tracked (x y w h mode : Word) (adr : Option Addr) (hs : s.renderPending = false) :
    SendsTracked (displayCore x y w h mode adr) s := by
  have hcmd : Sends (displayCommand x y w h mode adr) s (fun _ fs _ => Renders s.cfg false fs true)
      (fun k _ fs _ => k = .hwTimeout ∧ ∃ b, Renders s.cfg false fs b) := by
    have key : ∀ (code : Word) (args : List Word), mustWait s.cfg code = true →
        (code = s.cfg.cmdDpyArea ∨ code = s.cfg.cmdDpyBufArea) →
        Sends (multiArg code args) s (fun _ fs _ => Renders s.cfg false fs true)
          (fun k _ fs _ => k = .hwTimeout ∧ ∃ b, Renders s.cfg false fs b) := by
      intro code args hw hd
      have h1 := Renders.waited hw
      rw [decide_eq_true hd] at h1
      refine (multiArg_sends_writes code args hcs hc).weaken (fun _ fs _ h => ?_) (fun _ _ fs _ h => ⟨h.1, ?_⟩)
      · obtain ⟨ws, hws, rfl⟩ := h
        exact h1.cons (Renders.writes hws)
      · rcases h.2 with rfl | ⟨ws, hws, rfl⟩
        · exact ⟨false, Renders.nil _ _⟩
        · exact ⟨true, h1.cons (Renders.writes hws)⟩
    refine Sends.look (readCfg_run s) ?_
    cases adr with
    | none => exact key _ _ (by simp [mustWait]) (.inl rfl)
    | some a => exact key _ _ (by simp [mustWait]) (.inr rfl)
  unfold SendsTracked
  rw [hs]
  refine hcmd.bind (fun k _ _ _ h => by obtain ⟨h1, b, hb⟩ := h; exact ⟨b, hb, fun hk => absurd h1 hk⟩)
    (fun _ fs t h1 h2 h3 => Sends.silent rfl rfl h1 rfl ?_)
  rw [List.append_nil]
  exact h3

omit hcs hc in
/-- A busy reading is counted, or is the last that the limit allows (R266). -/
theorem countRenderPoll_cases (npoll : Nat) (s : State) :
    countRenderPoll npoll s = .ok () s ∨ countRenderPoll npoll s = .error (.raise .hwTimeout 3) s := by
  unfold countRenderPoll
  rw [bind_ok (readCfg_run s)]
  cases s.cfg.renderPollLimit with
  | none => exact .inl rfl
  | some l =>
    show raiseIf _ _ _ s = _ ∨ raiseIf _ _ _ s = _
    rw [raiseIf_run]
    by_cases hl : npoll ≥ l
    · exact .inr (if_pos hl)
    · exact .inl (if_neg hl)

omit hcs hc in
/-- A render poll, from a state in which a render may be under way: it ends with none under way, or is abandoned. -/
theorem renderPolls_sends (b : Bool) : ∀ (fuel npoll : Nat) {s : State}, s.cs = 1 → configLegal s.cfg = true →
    Sends (renderPolls fuel npoll) s (fun _ fs t => t.renderPending = s.renderPending ∧ Renders s.cfg b fs false)
      (fun k _ fs _ => k = .hwTimeout ∧ Renders s.cfg b fs b) := by
  intro fuel
  induction fuel with
  | zero => intro npoll s hcs hc; unfold Sends; exact trivial
  | succ n ih =>
    intro npoll s hcs hc
    refine Sends.look (readCfg_run s) ?_
    have hread := (regRead_sends s.cfg.regRenderStatus hcs hc).conclude (regRead_acts _)
      (Q' := fun v fs t => t.renderPending = s.renderPending ∧ Renders s.cfg b fs b ∧
        (v &&& s.cfg.renderBusyMask = 0 → Renders s.cfg b fs false))
      (E' := fun k _ fs _ => k = .hwTimeout ∧ Renders s.cfg b fs b)
      (fun v fs t hT h => by
        obtain ⟨es, c, k, -, rfl⟩ := hT
        obtain ⟨dummy, rfl⟩ := h
        exact ⟨rfl, (Renders.free (free_codes hc).1 b).cons ((Renders.write _ _ _).cons (Renders.read _ _ _ _)),
          fun hv => Renders.idle (free_codes hc).1 b dummy hv⟩)
      (fun k i fs t _ _ h => ⟨h.1, by
        rcases h.2 with rfl | rfl | rfl
        · exact Renders.nil _ _
        · exact Renders.free (free_codes hc).1 b
        · exact (Renders.free (free_codes hc).1 b).cons (Renders.write _ _ _)⟩)
    refine hread.bind (fun _ _ _ _ h => h) (fun v fs t h1 h2 h3 => ?_)
    by_cases hv : v &&& s.cfg.renderBusyMask = 0
    · rw [if_pos hv]
      exact Sends.silent (t := t) rfl rfl h1 rfl ⟨h3.1, by rw [List.append_nil]; exact h3.2.2 hv⟩
    · rw [if_neg hv]
      rcases countRenderPoll_cases (npoll + 1) t with hcount | hcount
      · refine Sends.look hcount ((ih (npoll + 1) h1 (h2 ▸ hc)).weaken (fun _ _ _ h => ?_) (fun _ _ _ _ h => ?_))
        · exact ⟨h.1.trans h3.1, h3.2.1.append (h2 ▸ h.2)⟩
        · exact ⟨h.1, h3.2.1.append (h2 ▸ h.2)⟩
      · unfold Sends
        rw [bind_error hcount]
        exact ⟨[], [], emittedThen_nothing rfl, Fit.nil _, by
          rw [CutOff, if_neg (by decide), if_neg (by decide)]; exact ⟨rfl, h1⟩, rfl, rfl,
          by rw [List.append_nil]; exact h3.2.1⟩

theorem waitRender_tracked : SendsTracked waitRender s := by
  have hfuel : ∃ n k, drawRenderFuel s = .ok n { s with chip := k } := by
    unfold drawRenderFuel
    cases s.cfg.renderPollLimit with
    | some l => exact ⟨l + 1, s.chip, rfl⟩
    | none => exact ⟨_, _, rfl⟩
  obtain ⟨n, k, hfuel⟩ := hfuel
  have hdraw : Sends drawRenderFuel s (fun a fs t => fs = [] ∧ t.renderPending = s.renderPending)
      (fun _ _ _ _ => False) := Sends.silent hfuel rfl hcs rfl ⟨rfl, rfl⟩
  refine hdraw.bind (fun _ _ _ _ h => h.elim) (fun fuel fs t h1 h2 h3 => ?_)
  obtain ⟨rfl, h3⟩ := h3
  refine (renderPolls_sends s.renderPending fuel 0 h1 (h2 ▸ hc)).bind (fun _ _ _ _ h => ⟨_, h2 ▸ h.2, fun hk => absurd h.1 hk⟩)
    (fun _ gs u h4 h5 h6 => Sends.silent rfl rfl h4 rfl ?_)
  rw [List.append_nil, List.nil_append]
  exact h2 ▸ h6.2

theorem display1bppSequence_tracked (x y w h mode fgbg : Word) (adr : Option Addr) (hs : s.renderPending = false) :
    SendsTracked (display1bppSequence x y w h mode fgbg adr) s :=
  (mode1On_calm hcs hc).still.thenTracked hs fun _ _ h1 h2 hp =>
    (setBlend_calm h1 (h2 ▸ hc) _ _).still.thenTracked hp fun _ _ h3 h4 hp' =>
      (displayCore_tracked h3 (h4 ▸ h2 ▸ hc) x y w h mode adr hp').bind fun _ _ h5 h6 =>
        (waitRender_tracked h5 (h6 ▸ h4 ▸ h2 ▸ hc)).bind fun _ _ h7 h8 =>
          (mode1Off_calm h7 (h8 ▸ h6 ▸ h4 ▸ h2 ▸ hc)).tracked

end

/-! ### The checks of the operations -/

theorem checkMod_checks (mask m : Mod) : Checks (checkMod mask m) := raiseIf_checks _ (by decide) _

theorem refuseLoadOpen_checks (i : Byte) : Checks (refuseLoadOpen i) :=
  readState_checks.bind fun _ => raiseIf_checks _ (by decide) _

theorem requireReady_checks : Checks requireReady := readState_checks.bind fun _ => raiseIf_checks _ (by decide) _

theorem refuseRenderPending_checks : Checks refuseRenderPending :=
  readState_checks.bind fun _ => raiseIf_checks _ (by decide) _

theorem requireLoadOpen_checks : Checks requireLoadOpen := readState_checks.bind fun _ => raiseIf_checks _ (by decide) _

theorem rawAdmit_checks (m : Mod) : Checks (rawAdmit m) := (checkMod_checks _ _).bind fun _ => refuseLoadOpen_checks 3

theorem refuseTracked_checks (code : Word) : Checks (refuseTracked code) :=
  readCfg_checks.bind fun _ => raiseIf_checks _ (by decide) _

theorem refuseOverBurst_checks (n : Nat) : Checks (refuseOverBurst n) :=
  readCfg_checks.bind fun _ => raiseIf_checks _ (by decide) _

theorem refuseOverBurstMulti_checks (n : Nat) : Checks (refuseOverBurstMulti n) :=
  readCfg_checks.bind fun _ => raiseIf_checks _ (by decide) _

theorem requirePresent_checks (ws : List Word) : Checks (requirePresent ws) :=
  (raiseIf_checks _ (by decide) _).bind fun _ => raiseIf_checks _ (by decide) _

theorem loadAdmitState_checks : Checks loadAdmitState :=
  (refuseLoadOpen_checks 1).bind fun _ => requireReady_checks.bind fun _ => refuseRenderPending_checks

theorem loadAdmit_checks (mask m : Mod) : Checks (loadAdmit mask m) :=
  (checkMod_checks _ _).bind fun _ => loadAdmitState_checks

theorem displayAdmit_checks (mask m : Mod) : Checks (displayAdmit mask m) :=
  (checkMod_checks _ _).bind fun _ => (refuseLoadOpen_checks 3).bind fun _ => requireReady_checks.bind fun _ =>
    refuseRenderPending_checks

theorem readPsel_checks (m : Mod) : Checks (readPsel m) := by
  unfold readPsel
  cases pselFormat (modPsel m) with
  | none => exact fun _ => .inr (.inl ⟨_, _, by decide, rfl⟩)
  | some p => exact fun _ => .inl ⟨_, rfl⟩

theorem loadAdmitPsel_checks (m : Mod) : Checks (loadAdmitPsel m) :=
  (checkMod_checks _ _).bind fun _ => (readPsel_checks m).bind fun _ => loadAdmitState_checks.bind fun _ _ => .inl ⟨_, rfl⟩

theorem readRefreshMap_checks (d : Depth) (m : Mod) : Checks (readRefreshMap d m) := by
  refine readCfg_checks.bind fun c => ?_
  cases c.refreshMap with
  | none => exact fun _ => .inr (.inl ⟨_, _, by decide, rfl⟩)
  | some t => exact fun _ => .inl ⟨_, rfl⟩

/-- A check that passed found its condition false. -/
theorem raiseIf_passed {c : Prop} [Decidable c] {k : ErrKind} {i : Byte} {s t : State} {u : Unit}
    (h : raiseIf c k i s = .ok u t) : ¬ c := by
  intro hc
  rw [raiseIf_run, if_pos hc] at h
  cases h

theorem refuseRenderPending_passed {s t : State} {u : Unit} (h : refuseRenderPending s = .ok u t) :
    s.renderPending = false := by
  unfold refuseRenderPending at h
  rw [bind_ok (readState_run s)] at h
  simpa using raiseIf_passed h

theorem loadAdmitState_passed {s t : State} {u : Unit} (h : loadAdmitState s = .ok u t) : s.renderPending = false := by
  obtain ⟨_, -, h⟩ := (refuseLoadOpen_checks 1).passed h
  obtain ⟨_, -, h⟩ := requireReady_checks.passed h
  exact refuseRenderPending_passed h

theorem loadAdmit_passed {mask m : Mod} {s t : State} {u : Unit} (h : loadAdmit mask m s = .ok u t) :
    s.renderPending = false := by
  obtain ⟨_, -, h⟩ := (checkMod_checks mask m).passed h
  exact loadAdmitState_passed h

theorem displayAdmit_passed {mask m : Mod} {s t : State} {u : Unit} (h : displayAdmit mask m s = .ok u t) :
    s.renderPending = false := by
  obtain ⟨_, -, h⟩ := (checkMod_checks mask m).passed h
  obtain ⟨_, -, h⟩ := (refuseLoadOpen_checks 3).passed h
  obtain ⟨_, -, h⟩ := requireReady_checks.passed h
  exact refuseRenderPending_passed h

theorem refuseOverBurst_passed {n : Nat} {s t : State} {u : Unit} (h : refuseOverBurst n s = .ok u t) :
    n ≤ s.cfg.bWords := by
  unfold refuseOverBurst at h
  rw [bind_ok (readCfg_run s)] at h
  have := raiseIf_passed h
  omega

/-- A part that keeps R280, and then registers that say nothing of a render. -/
theorem SendsTracked.thenSets {α : Type} {m : Op α} {s : State} {g : α → State → State} (h : SendsTracked m s)
    (hg : ∀ a t, (g a t).trace = t.trace ∧ (g a t).cs = t.cs ∧ (g a t).cfg = t.cfg ∧
      (g a t).renderPending = t.renderPending) : SendsTracked (m >>= fun a => update (g a)) s :=
  h.bind fun a t h1 _ => Sends.silent rfl (hg a t).1 ((hg a t).2.1.trans h1) (hg a t).2.2.1
    (by rw [(hg a t).2.2.2]; exact Renders.nil _ _)

end Sys2Proof.Machine
end

