-- ==== Sys2Proof/Laws/Mirrors.lean ====
section
/-! SUPPORT. LOAD_OPEN, RENDER_PENDING and TGT beside the frames of each procedure, whether it completes or is abandoned: the
two mirrors are what the whole frames make of them (10_state.md R30, R31), and the target is written after its own frames
(R29, 42_image_load.md R200). -/

namespace Sys2Proof.Machine

open Sys2Proof.Safety

/-! ### Frames -/

theorem watchFrames_append (c : Config) (w : Watch) (fs gs : List Frame) :
    watchFrames c w (fs ++ gs) = watchFrames c (watchFrames c w fs) gs := by
  simp [watchFrames]

theorem watchFrames_cons (c : Config) (w : Watch) (f : Frame) (fs : List Frame) :
    watchFrames c w (f :: fs) = watchFrames c (watchFrame c w f) fs := rfl

/-- The reader's mirrors are those of the state. -/
def Shows (w : Watch) (s : State) : Prop := w.loadOpen = s.loadOpen ∧ w.renderPending = s.renderPending

/-- The reader waits for nothing that could change a mirror. -/
def Rests (w : Watch) : Prop :=
  w.awaits = .nothing ∨ (w.renderPending = false ∧ (w.awaits = .register ∨ w.awaits = .status))

/-- Frames between two states, after which the reader's mirrors are those of the second. -/
def Mirrors (s : State) (fs : List Frame) (t : State) : Prop :=
  ∀ w, Shows w s → Rests w → Shows (watchFrames s.cfg w fs) t ∧ Rests (watchFrames s.cfg w fs)

/-- The same of frames that may end inside a command's arguments. -/
def MirrorsSoFar (s : State) (fs : List Frame) (t : State) : Prop :=
  ∀ w, Shows w s → Rests w → Shows (watchFrames s.cfg w fs) t

theorem Mirrors.nil (s : State) : Mirrors s [] s := fun _ h h' => ⟨h, h'⟩

theorem Mirrors.soFar {s t : State} {fs : List Frame} (h : Mirrors s fs t) : MirrorsSoFar s fs t :=
  fun w h1 h2 => (h w h1 h2).1

section

variable {s t u : State} {fs gs : List Frame}

theorem Mirrors.append (h : Mirrors s fs t) (hc : t.cfg = s.cfg) (h' : Mirrors t gs u) : Mirrors s (fs ++ gs) u := by
  intro w h1 h2
  obtain ⟨h3, h4⟩ := h w h1 h2
  rw [watchFrames_append, ← hc] at *
  exact h' _ h3 h4

theorem Mirrors.appendSoFar (h : Mirrors s fs t) (hc : t.cfg = s.cfg) (h' : MirrorsSoFar t gs u) :
    MirrorsSoFar s (fs ++ gs) u := by
  intro w h1 h2
  obtain ⟨h3, h4⟩ := h w h1 h2
  rw [watchFrames_append, ← hc] at *
  exact h' _ h3 h4

/-- A change of the state that is none of a mirror. -/
theorem Mirrors.ending (h : Mirrors s fs t) (hl : u.loadOpen = t.loadOpen) (hr : u.renderPending = t.renderPending) :
    Mirrors s fs u := by
  intro w h1 h2
  obtain ⟨⟨h3, h4⟩, h5⟩ := h w h1 h2
  exact ⟨⟨h3.trans hl.symm, h4.trans hr.symm⟩, h5⟩

theorem Mirrors.write (s : State) (ws : List Word) : Mirrors s [.wr ws] s := by
  rintro ⟨l, p, q⟩ h h'
  simp only [Rests] at h'
  rcases h' with rfl | ⟨rfl, rfl | rfl⟩
  · exact ⟨h, .inl rfl⟩
  · exact ⟨h, by
      by_cases hw : ws = [s.cfg.regRenderStatus]
      · exact .inr ⟨rfl, .inr (by simp [watchFrames, watchFrame, hw])⟩
      · exact .inl (by simp [watchFrames, watchFrame, hw])⟩
  · exact ⟨h, .inl rfl⟩

theorem Mirrors.writes {ws : List Frame} (hw : Writes ws) : Mirrors s ws s := by
  induction ws with
  | nil => exact Mirrors.nil s
  | cons f ws ih =>
    obtain ⟨v, rfl⟩ := hw f List.mem_cons_self
    exact (Mirrors.write s v).append rfl (ih fun g hg => hw g (List.mem_cons_of_mem _ hg))

theorem Mirrors.delay (s : State) (ms : Nat) : Mirrors s [.delay ms] s := fun _ h _ => ⟨h, .inl rfl⟩

theorem Mirrors.read (s : State) (dummy : Word) (vs : List Word) : Mirrors s [.rd dummy vs] s := by
  rintro ⟨l, p, q⟩ ⟨h1, h2⟩ h'
  simp only [Rests] at h'
  refine ⟨⟨h1, ?_⟩, .inl rfl⟩
  rw [← h2]
  rcases h' with rfl | ⟨rfl, -⟩ <;> simp [watchFrames, watchFrame]

/-- A command that no mirror follows and that begins no register read. -/
def PlainCode (c : Config) (code : Word) : Prop :=
  code ∉ [c.cmdLdImg, c.cmdLdImgArea, c.cmdLdImgEnd, c.cmdDpyArea, c.cmdDpyBufArea]

theorem Mirrors.plain {code : Word} (h : PlainCode s.cfg code)
    (hr : code = s.cfg.cmdRegRd → s.renderPending = false) : Mirrors s [.cmd code] s := by
  rintro w ⟨h1, h2⟩ -
  simp only [PlainCode, List.mem_cons, List.not_mem_nil, or_false, not_or] at h
  obtain ⟨n1, n2, n3, n4, n5⟩ := h
  refine ⟨⟨?_, h2⟩, ?_⟩
  · simp [watchFrames, watchFrame, n3, h1]
  · by_cases hc : code = s.cfg.cmdRegRd
    · exact .inr ⟨h2.trans (hr hc), .inl (by simp [watchFrames, watchFrame, awaitedAfter, ← hc, n1, n2, n4, n5])⟩
    · exact .inl (by simp [watchFrames, watchFrame, awaitedAfter, n1, n2, n4, n5, hc])

end

/-! ### The arguments of a command that a mirror follows -/

/-- Write frames that bring some, not all, of the words waited for. -/
theorem watchFrames_arguments {c : Config} {k : Nat → Awaited} {set : Watch → Watch}
    (hk : ∀ w n ws, w.awaits = k n → watchFrame c w (.wr ws) =
      if n ≤ ws.length then { set w with awaits := .nothing } else { w with awaits := k (n - ws.length) }) :
    ∀ (gs : List (List Word)) (w : Watch) (n : Nat), w.awaits = k n → gs.flatten.length < n →
      watchFrames c w (gs.map (fun ws => .wr ws)) = { w with awaits := k (n - gs.flatten.length) } := by
  intro gs
  induction gs with
  | nil => intro w n hw _; show w = { w with awaits := k n }; rw [← hw]
  | cons ws gs ih =>
    intro w n hw hn
    rw [List.flatten_cons, List.length_append] at hn
    rw [List.map_cons, watchFrames_cons, hk w n ws hw, if_neg (by omega), ih _ (n - ws.length) rfl (by omega),
      List.flatten_cons, List.length_append, Nat.sub_sub]

/-- Write frames that bring all of them. -/
theorem watchFrames_allArguments {c : Config} {k : Nat → Awaited} {set : Watch → Watch}
    (hk : ∀ w n ws, w.awaits = k n → watchFrame c w (.wr ws) =
      if n ≤ ws.length then { set w with awaits := .nothing } else { w with awaits := k (n - ws.length) })
    (hset : ∀ w q, { set { w with awaits := q } with awaits := .nothing } = { set w with awaits := .nothing }) :
    ∀ (gs : List (List Word)) (w : Watch) (n : Nat), w.awaits = k n → gs.flatten.length = n → 1 ≤ n →
      (∀ g ∈ gs, 1 ≤ g.length) →
      watchFrames c w (gs.map (fun ws => .wr ws)) = { set w with awaits := .nothing } := by
  intro gs w n hw hn h1 hg
  have hne : gs ≠ [] := by rintro rfl; simp at hn; omega
  obtain ⟨hs, g, rfl⟩ : ∃ hs g, gs = hs ++ [g] := ⟨_, _, (List.dropLast_append_getLast hne).symm⟩
  have hl := hg g (by simp)
  simp only [List.flatten_append, List.flatten_cons, List.flatten_nil, List.append_nil, List.length_append] at hn
  rw [List.map_append, watchFrames_append, watchFrames_arguments hk hs w n hw (by omega), List.map_cons, watchFrames_cons,
    hk _ (n - hs.flatten.length) g rfl, if_pos (by omega), hset]
  rfl

/-- The frames of `MultiArg(code, args)` cut short: nothing, or the command with some of its arguments. -/
theorem CutShort.arguments {c : Config} (hc : configLegal c = true) {code : Word} {args : List Word} {fs : List Frame}
    (h : CutShort (multiArgFrames c code args) fs) :
    fs = [] ∨ ∃ gs : List (List Word), gs.flatten.length < args.length ∧ fs = .cmd code :: gs.map (fun ws => .wr ws) := by
  obtain ⟨f, rest, he⟩ := h
  cases fs with
  | nil => exact .inl rfl
  | cons g fs =>
    rw [multiArgFrames, List.cons_append, List.cons.injEq] at he
    obtain ⟨rfl, he⟩ := he
    obtain ⟨l, r, h1, rfl, h2⟩ := List.map_eq_append_iff.1 he
    obtain ⟨a, r, rfl, -, -⟩ := List.map_eq_cons_iff.1 h2
    have ha : 1 ≤ a.length := (argumentFrames_fit hc args (.wr a) (List.mem_map.2 ⟨a, by rw [h1]; simp, rfl⟩)).1
    have hl := congrArg List.length (argumentFrames_flatten hc args)
    rw [h1] at hl
    simp only [List.flatten_append, List.flatten_cons, List.length_append] at hl
    exact .inr ⟨l, by omega, rfl⟩

theorem argumentFrames_nonempty {c : Config} (hc : configLegal c = true) (args : List Word) :
    ∀ g ∈ argumentFrames c args, 1 ≤ g.length :=
  fun g hg => (argumentFrames_fit hc args (.wr g) (List.mem_map.2 ⟨g, hg, rfl⟩)).1

/-! ### The codes of a legal configuration -/

/-- What a reader makes of each command of a legal configuration, whose codes are distinct (R38). -/
theorem watched_codes {c : Config} (hc : configLegal c = true) :
    (∀ code ∈ [c.cmdSysRun, c.cmdStandby, c.cmdSleep, c.cmdRegWr, c.cmdGetDevInfo],
      PlainCode c code ∧ code ≠ c.cmdRegRd) ∧
    PlainCode c c.cmdRegRd ∧ awaitedAfter c c.cmdRegRd = .register ∧
    (awaitedAfter c c.cmdLdImg = .load 1 ∧ c.cmdLdImg ≠ c.cmdLdImgEnd) ∧
    (awaitedAfter c c.cmdLdImgArea = .load 5 ∧ c.cmdLdImgArea ≠ c.cmdLdImgEnd) ∧
    awaitedAfter c c.cmdLdImgEnd = .nothing ∧
    (awaitedAfter c c.cmdDpyArea = .display 5 ∧ c.cmdDpyArea ≠ c.cmdLdImgEnd) ∧
    (awaitedAfter c c.cmdDpyBufArea = .display 7 ∧ c.cmdDpyBufArea ≠ c.cmdLdImgEnd) := by
  simp only [configLegal, Bool.and_eq_true] at hc
  have h := hc.1.2
  simp only [commandCodes, allDistinct, Bool.and_eq_true, Bool.not_eq_true', List.contains_eq_mem, decide_eq_false_iff_not,
    List.mem_cons, List.not_mem_nil, or_false, not_or, not_false_eq_true, and_true] at h
  obtain ⟨h1, h2, h3, h4, h5, h6, h7, h8, h9, h10⟩ := h
  refine ⟨fun code hm => ?_, ?_⟩
  · simp only [List.mem_cons, List.not_mem_nil, or_false] at hm
    simp only [PlainCode, List.mem_cons, List.not_mem_nil, or_false, not_or]
    simp only [ne_eq, eq_comm] at *
    rcases hm with rfl | rfl | rfl | rfl | rfl <;> tauto
  · simp only [PlainCode, awaitedAfter, List.mem_cons, List.not_mem_nil, or_false, not_or]
    simp only [ne_eq, eq_comm] at *
    simp [*]

theorem plain_untracked {c : Config} {code : Word} (h : code ∉ trackedCodes c) : PlainCode c code := by
  simp only [PlainCode, trackedCodes, List.mem_cons, List.not_mem_nil, or_false, not_or] at h ⊢
  tauto

/-! ### Procedures that no mirror follows -/

/-- A procedure that changes only the wire, in frames that no mirror follows. -/
def SendsPlain {α : Type} (m : Op α) (s : State) : Prop :=
  Sends m s (fun _ fs t => Wired s t ∧ Mirrors s fs s) (fun _ _ fs t => Wired s t ∧ MirrorsSoFar s fs s)

section

variable {α β : Type} {m : Op α} {f : α → Op β} {s t u : State}

theorem Mirrors.from {fs : List Frame} (h : Mirrors t fs t) (hw : Wired s t) : Mirrors s fs s := by
  obtain ⟨es, c, k, -, rfl⟩ := hw
  exact h

theorem MirrorsSoFar.from {fs : List Frame} (h : MirrorsSoFar t fs t) (hw : Wired s t) : MirrorsSoFar s fs s := by
  obtain ⟨es, c, k, -, rfl⟩ := hw
  exact h

theorem Wired.renderPending (h : Wired s t) : t.renderPending = s.renderPending := by
  obtain ⟨es, c, k, -, rfl⟩ := h
  rfl

theorem SendsPlain.bind (hm : SendsPlain m s)
    (hf : ∀ a t, t.cs = 1 → t.cfg = s.cfg → t.renderPending = s.renderPending → SendsPlain (f a) t) :
    SendsPlain (m >>= f) s :=
  Sends.bind hm (fun _ _ _ _ h => h) fun a _ t h1 h2 h3 => (hf a t h1 h2 h3.1.renderPending).weaken
    (fun _ _ _ h => ⟨wired_chain.trans _ _ _ h3.1 h.1, h3.2.append rfl (h.2.from h3.1)⟩)
    (fun _ _ _ _ h => ⟨wired_chain.trans _ _ _ h3.1 h.1, h3.2.appendSoFar rfl (h.2.from h3.1)⟩)

theorem SendsPlain.pure (a : α) (hcs : s.cs = 1) : SendsPlain (pure a : Op α) s :=
  Sends.silent (t := s) rfl rfl hcs rfl ⟨wired_chain.refl s, Mirrors.nil s⟩

/-- From the frames a procedure on the wire sends. -/
theorem Sends.plain {Q : α → List Frame → State → Prop} {E : ErrKind → Byte → List Frame → State → Prop}
    (h : Sends m s Q E) (ha : Acts Wired wireStop m) (hQ : ∀ a fs t, Q a fs t → Mirrors s fs s)
    (hE : ∀ k i fs t, E k i fs t → Mirrors s fs s) : SendsPlain m s :=
  h.conclude ha (fun _ _ _ hw h => ⟨hw, hQ _ _ _ h⟩) (fun _ _ _ _ hw _ h => ⟨hw, (hE _ _ _ _ h).soFar⟩)

end

section

variable {s : State} (hcs : s.cs = 1) (hc : configLegal s.cfg = true)

include hcs hc

theorem txnCommand_plain {c : Word} (h : PlainCode s.cfg c) (hr : c = s.cfg.cmdRegRd → s.renderPending = false) :
    SendsPlain (txnCommand c) s :=
  (txnCommand_sends c hcs hc).plain (txnCommand_acts c) (fun _ _ _ h' => h' ▸ Mirrors.plain h hr)
    (fun _ _ _ _ h' => h'.2 ▸ Mirrors.nil s)

theorem txnWrite_plain {ws : List Word} (hfit : Fit s.cfg [.wr ws]) : SendsPlain (txnWrite ws) s :=
  (txnWrite_sends ws hcs hc hfit).plain (txnWrite_acts ws) (fun _ _ _ h' => h' ▸ Mirrors.write s ws)
    (fun _ _ _ _ h' => h'.2 ▸ Mirrors.nil s)

theorem txnRead_plain {n : Nat} (hfit : 1 ≤ n ∧ n ≤ s.cfg.bWords) : SendsPlain (txnRead n) s :=
  (txnRead_sends n hcs hc hfit).plain (txnRead_acts n)
    (fun vs _ _ h' => by obtain ⟨-, dummy, rfl⟩ := h'; exact Mirrors.read s dummy vs)
    (fun _ _ _ _ h' => h'.2 ▸ Mirrors.nil s)

theorem regWrite_plain (a v : Word) : SendsPlain (regWrite a v) s := by
  refine (multiArg_sends_writes s.cfg.cmdRegWr [a, v] hcs hc).plain (multiArg_acts _ _) (fun _ _ _ h => ?_)
    (fun _ _ _ _ h => ?_) <;>
  have hp := (watched_codes hc).1 s.cfg.cmdRegWr (by simp)
  · obtain ⟨ws, hw, rfl⟩ := h
    exact (Mirrors.plain hp.1 fun h => absurd h hp.2).append rfl (Mirrors.writes hw)
  · rcases h.2 with rfl | ⟨ws, hw, rfl⟩
    · exact Mirrors.nil s
    · exact (Mirrors.plain hp.1 fun h => absurd h hp.2).append rfl (Mirrors.writes hw)

theorem setBlend_plain (fg bg : Byte) : SendsPlain (setBlend fg bg) s := Sends.look (readCfg_run s) (regWrite_plain hcs hc _ _)

/-- A register read while no render is pending. -/
theorem regRead_plain (a : Word) (hp : s.renderPending = false) : SendsPlain (regRead a) s :=
  Sends.look (readCfg_run s) <| (txnCommand_plain hcs hc (watched_codes hc).2.1 fun _ => hp).bind fun _ _ h1 h2 _ =>
    (txnWrite_plain h1 (h2 ▸ hc) (fit_one (h2 ▸ hc) a)).bind fun _ _ h3 h4 _ =>
      (txnRead_plain h3 (h4 ▸ h2 ▸ hc) ⟨Nat.le_refl 1, burst_legal (h4 ▸ h2 ▸ hc)⟩).bind
        fun _ _ h5 _ _ => SendsPlain.pure _ h5

theorem mode1On_plain (hp : s.renderPending = false) : SendsPlain mode1On s :=
  Sends.look (readCfg_run s) <| (regRead_plain hcs hc _ hp).bind fun _ _ h1 h2 _ => regWrite_plain h1 (h2 ▸ hc) _ _

theorem mode1Off_plain (hp : s.renderPending = false) : SendsPlain mode1Off s :=
  Sends.look (readCfg_run s) <| (regRead_plain hcs hc _ hp).bind fun _ _ h1 h2 _ => regWrite_plain h1 (h2 ▸ hc) _ _

theorem getDeviceInfo_plain : SendsPlain getDeviceInfo s := by
  have hp := (watched_codes hc).1 s.cfg.cmdGetDevInfo (by simp)
  refine Sends.look (readCfg_run s) <| (txnCommand_plain hcs hc hp.1 fun h => absurd h hp.2).bind fun _ t h1 h2 _ =>
    txnRead_plain h1 (h2 ▸ hc) ⟨by unfold descWords; omega, ?_⟩
  rw [h2]
  simp only [configLegal, Bool.and_eq_true, decide_eq_true_eq] at hc
  exact hc.2

/-- While no render is pending: VCOM may be read by a register of any address. -/
theorem vcomReconcile_plain (vcom : Word) (hv : VcomApart s.cfg) (hp : s.renderPending = false) :
    SendsPlain (vcomReconcile vcom) s := by
  have hread : SendsPlain vcomRead s := by
    refine Sends.look (readCfg_run s) ?_
    cases h : s.cfg.vcomAccess with
    | register a => exact regRead_plain hcs hc a hp
    | command code =>
      exact (txnCommand_plain hcs hc (plain_untracked (hv code h)) fun _ => hp).bind fun _ t h1 h2 _ =>
        (txnWrite_plain h1 (h2 ▸ hc) (fit_one (h2 ▸ hc) _)).bind fun _ u h3 h4 _ =>
          (txnRead_plain h3 (h4 ▸ h2 ▸ hc) ⟨Nat.le_refl 1, burst_legal (h4 ▸ h2 ▸ hc)⟩).bind
            fun _ _ h5 _ _ => SendsPlain.pure _ h5
  refine hread.bind fun cur t h1 h2 hpt => ?_
  by_cases hne : cur ≠ vcom
  · rw [if_pos hne]
    refine Sends.look (readCfg_run t) ?_
    have hct : configLegal t.cfg = true := h2 ▸ hc
    cases h : t.cfg.vcomAccess with
    | register a => exact regWrite_plain h1 hct a vcom
    | command code =>
      exact (txnCommand_plain h1 hct (plain_untracked ((h2.symm ▸ hv) code h)) fun _ => hpt.trans hp).bind
        fun _ u h3 h4 _ => (txnWrite_plain h3 (h4 ▸ hct) (fit_one (h4 ▸ hct) _)).bind fun _ v h5 h6 _ =>
          txnWrite_plain h5 (h6 ▸ h4 ▸ hct) (fit_one (h6 ▸ h4 ▸ hct) _)
  · rw [if_neg hne]
    exact SendsPlain.pure _ h1

end

/-! ### Procedures that a mirror follows -/

/-- The target is as before, or the one named. -/
def KeepsTarget (g : Option Addr) (s t : State) : Prop := t.tgt = s.tgt ∨ (g ≠ none ∧ t.tgt = g)

theorem KeepsTarget.trans {g : Option Addr} {s t u : State} (h : KeepsTarget g s t) (h' : KeepsTarget g t u) :
    KeepsTarget g s u := by
  rcases h' with h' | h'
  · exact h.imp h'.trans fun h => ⟨h.1, h'.trans h.2⟩
  · exact .inr h'

/-- A procedure with the mirrors as its frames make them, and with the target as before or the one named. -/
def SendsMirrored {α : Type} (g : Option Addr) (m : Op α) (s : State) : Prop :=
  Sends m s (fun _ fs t => KeepsTarget g s t ∧ Mirrors s fs t) (fun _ _ fs t => KeepsTarget g s t ∧ MirrorsSoFar s fs t)

section

variable {α β : Type} {m : Op α} {f : α → Op β} {s : State} {g : Option Addr}

theorem SendsMirrored.bind (hm : SendsMirrored g m s)
    (hf : ∀ a t, m s = .ok a t → t.cs = 1 → t.cfg = s.cfg → SendsMirrored g (f a) t) :
    SendsMirrored g (m >>= f) s :=
  Sends.bind (hm.reaches fun _ _ h => h) (fun _ _ _ _ h => h) fun a _ t h1 h2 h3 => (hf a t h3.1 h1 h2).weaken
    (fun _ _ _ h => ⟨h3.2.1.trans h.1, h3.2.2.append h2 h.2⟩)
    (fun _ _ _ _ h => ⟨h3.2.1.trans h.1, h3.2.2.appendSoFar h2 h.2⟩)

theorem SendsMirrored.check (hm : Checks m) (hcs : s.cs = 1) (hf : ∀ a, m s = .ok a s → SendsMirrored g (f a) s) :
    SendsMirrored g (m >>= f) s :=
  Sends.check hm hcs hf (fun _ _ _ => ⟨.inl rfl, (Mirrors.nil s).soFar⟩)

theorem SendsMirrored.pure (a : α) (hcs : s.cs = 1) : SendsMirrored g (pure a : Op α) s :=
  Sends.silent (t := s) rfl rfl hcs rfl ⟨.inl rfl, Mirrors.nil s⟩

theorem SendsPlain.mirrored (h : SendsPlain m s) : SendsMirrored g m s := by
  refine h.weaken (fun _ _ _ h => ?_) (fun _ _ _ _ h => ?_) <;> obtain ⟨⟨es, c, k, -, rfl⟩, h⟩ := h
  · exact ⟨.inl rfl, h⟩
  · exact ⟨.inl rfl, h⟩

/-- A command whose last argument sets a mirror, and the mirror. -/
theorem multiArg_mirrored {code : Word} {args : List Word} {k : Nat → Awaited} {set : Watch → Watch}
    {set' : State → State} (hcs : s.cs = 1) (hc : configLegal s.cfg = true) (hargs : 1 ≤ args.length)
    (hcode : awaitedAfter s.cfg code = k args.length ∧ code ≠ s.cfg.cmdLdImgEnd)
    (hk : ∀ w n ws, w.awaits = k n → watchFrame s.cfg w (.wr ws) =
      if n ≤ ws.length then { set w with awaits := .nothing } else { w with awaits := k (n - ws.length) })
    (hset : ∀ w q, { set { w with awaits := q } with awaits := .nothing } = { set w with awaits := .nothing })
    (hshow : ∀ w t, Shows w t → Shows (set w) (set' t))
    (hg : ∀ t, (set' t).trace = t.trace ∧ (set' t).cs = t.cs ∧ (set' t).cfg = t.cfg ∧ (set' t).tgt = t.tgt) :
    SendsMirrored g (multiArg code args >>= fun _ => update set') s := by
  have hfirst : ∀ w, Shows w s → Shows (watchFrame s.cfg w (.cmd code)) s ∧
      (watchFrame s.cfg w (.cmd code)).awaits = k args.length := fun w h =>
    ⟨⟨by simp [watchFrame, hcode.2, h.1], h.2⟩, hcode.1⟩
  refine Sends.bind ((multiArg_sends code args hcs hc).conclude (multiArg_acts code args)
    (Q' := fun _ fs t => Wired s t ∧ fs = multiArgFrames s.cfg code args)
    (E' := fun _ _ fs t => KeepsTarget g s t ∧ MirrorsSoFar s fs t) (fun _ _ _ h h' => ⟨h, h'⟩) (fun _ _ fs t h _ h' => ?_))
    (fun _ _ _ _ h => h) (fun _ fs t h1 h2 h3 => Sends.silent rfl (hg t).1 ((hg t).2.1.trans h1) (hg t).2.2.1 ?_)
  · obtain ⟨es, c, q, -, rfl⟩ := h
    refine ⟨.inl rfl, fun w h1 _ => ?_⟩
    rcases h'.2.arguments hc with rfl | ⟨gs, hl, rfl⟩
    · exact h1
    · rw [watchFrames_cons, watchFrames_arguments hk gs _ _ (hfirst w h1).2 hl]
      exact (hfirst w h1).1
  · obtain ⟨⟨es, c, q, -, rfl⟩, rfl⟩ := h3
    refine ⟨.inl (hg _).2.2.2, fun w h1 _ => ?_⟩
    rw [List.append_nil, multiArgFrames, watchFrames_cons, watchFrames_allArguments hk hset _ _ _ (hfirst w h1).2
      (by rw [argumentFrames_flatten hc]) hargs (argumentFrames_nonempty hc args)]
    exact ⟨hshow _ _ (hfirst w h1).1, .inl rfl⟩

end

section

variable {s : State} (hcs : s.cs = 1) (hc : configLegal s.cfg = true)

include hcs hc

theorem regWrite_whole (a v : Word) :
    Sends (regWrite a v) s (fun _ fs t => Wired s t ∧ Mirrors s fs s ∧ fs = regWriteFrames s.cfg a v)
      (fun _ _ fs t => Wired s t ∧ MirrorsSoFar s fs s ∧ CutShort (regWriteFrames s.cfg a v) fs) := by
  have hp := (watched_codes hc).1 s.cfg.cmdRegWr (by simp)
  have hm : ∀ ws, Writes ws → Mirrors s (.cmd s.cfg.cmdRegWr :: ws) s := fun ws hw =>
    (Mirrors.plain hp.1 fun h => absurd h hp.2).append rfl (Mirrors.writes hw)
  have hw : Writes ((argumentFrames s.cfg [a, v]).map (fun ws => .wr ws)) :=
    fun _ hf => (List.mem_map.1 hf).imp fun _ h => h.2.symm
  refine (multiArg_sends s.cfg.cmdRegWr [a, v] hcs hc).conclude (multiArg_acts _ _)
    (fun _ fs t h h' => ⟨h, h' ▸ hm _ hw, h'⟩) (fun _ _ fs t h _ h' => ⟨h, Mirrors.soFar ?_, h'.2⟩)
  rcases h'.2.writes hw with rfl | ⟨ws, hws, rfl⟩
  · exact Mirrors.nil s
  · exact hm ws hws

/-- `SetTargetAddr(a)`: its frames and then the target; or not all of them, and the target as before (R200). -/
theorem setTargetAddr_sends (a : Addr) :
    Sends (setTargetAddr a) s
      (fun _ fs t => Mirrors s fs t ∧ fs = targetFrames s.cfg a ∧ t.tgt = some a)
      (fun _ _ fs t => MirrorsSoFar s fs t ∧ CutShort (targetFrames s.cfg a) fs ∧ t.tgt = s.tgt) := by
  refine Sends.look (readCfg_run s) ((regWrite_whole hcs hc _ _).bind (fun _ _ fs t h => ?_) fun _ fs t h1 h2 h3 =>
    (regWrite_whole h1 (h2 ▸ hc) _ _).bind (fun _ _ gs u h => ?_) fun _ gs u h4 h5 h6 =>
      Sends.silent rfl rfl h4 rfl ?_)
  · obtain ⟨⟨es, c, k, -, rfl⟩, h, h'⟩ := h
    exact ⟨h, h'.before _, rfl⟩
  · obtain ⟨⟨es, c, k, -, rfl⟩, hm, rfl⟩ := h3
    obtain ⟨⟨es', c', k', -, rfl⟩, h, h'⟩ := h
    exact ⟨hm.appendSoFar rfl h, h'.after _, rfl⟩
  · obtain ⟨⟨es, c, k, -, rfl⟩, hm, rfl⟩ := h3
    obtain ⟨⟨es', c', k', -, rfl⟩, h, rfl⟩ := h6
    exact ⟨hm.append rfl (by rw [List.append_nil]; exact h), by rw [List.append_nil]; rfl, rfl⟩

theorem setTargetAddr_mirrored (a : Addr) : SendsMirrored (some a) (setTargetAddr a) s :=
  (setTargetAddr_sends hcs hc a).weaken (fun _ _ _ h => ⟨.inr ⟨by simp, h.2.2⟩, h.1⟩)
    (fun _ _ _ _ h => ⟨.inl h.2.2, h.1⟩)

/-- A begin-load command with its arguments, and LOAD_OPEN (R201, R202). -/
theorem beginCommand_mirrored {code : Word} {args : List Word} {g : Option Addr} (hargs : 1 ≤ args.length)
    (hcode : awaitedAfter s.cfg code = .load args.length ∧ code ≠ s.cfg.cmdLdImgEnd) :
    SendsMirrored g (multiArg code args >>= fun _ => setLoadOpen true) s :=
  multiArg_mirrored (k := .load) (set := fun w => { w with loadOpen := true }) hcs hc hargs hcode
    (fun w n ws h => by simp only [watchFrame, h]) (fun _ _ => rfl) (fun _ _ h => ⟨rfl, h.2⟩)
    (fun _ => ⟨rfl, rfl, rfl, rfl⟩)

/-- A display command with its arguments, and RENDER_PENDING (R263). -/
theorem displayCommand_mirrored {code : Word} {args : List Word} {g : Option Addr} (hargs : 1 ≤ args.length)
    (hcode : awaitedAfter s.cfg code = .display args.length ∧ code ≠ s.cfg.cmdLdImgEnd) :
    SendsMirrored g (multiArg code args >>= fun _ => update (fun s => { s with renderPending := true })) s :=
  multiArg_mirrored (k := .display) (set := fun w => { w with renderPending := true }) hcs hc hargs hcode
    (fun w n ws h => by simp only [watchFrame, h]) (fun _ _ => rfl) (fun _ _ h => ⟨h.1, rfl⟩)
    (fun _ => ⟨rfl, rfl, rfl, rfl⟩)

/-- What follows `SetTargetAddr` of a begin-load. -/
theorem beginLoadTail_mirrored (e : Endian) (p : ChipFormat) (r : Rotation) (g : Option Addr) :
    SendsMirrored g (do
      let c ← readCfg
      multiArg c.cmdLdImg [fmtWord c e p r]
      setLoadOpen true) s :=
  Sends.look (readCfg_run s) (beginCommand_mirrored hcs hc (by simp) (watched_codes hc).2.2.2.1)

theorem beginAreaTail_mirrored (e : Endian) (p : ChipFormat) (r : Rotation) (x y w h : Word) (g : Option Addr) :
    SendsMirrored g (do
      let c ← readCfg
      multiArg c.cmdLdImgArea [fmtWord c e p r, x, y, w, h]
      setLoadOpen true) s :=
  Sends.look (readCfg_run s) (beginCommand_mirrored hcs hc (by simp) (watched_codes hc).2.2.2.2.1)

theorem endLoadCore_mirrored (g : Option Addr) : SendsMirrored g endLoadCore s := by
  have hn := (watched_codes hc).2.2.2.2.2.1
  refine Sends.look (readCfg_run s) (((txnCommand_sends s.cfg.cmdLdImgEnd hcs hc).conclude (txnCommand_acts _)
    (Q' := fun _ fs t => Wired s t ∧ fs = [.cmd s.cfg.cmdLdImgEnd])
    (E' := fun _ _ fs t => KeepsTarget g s t ∧ MirrorsSoFar s fs t) (fun _ _ _ h h' => ⟨h, h'⟩)
    (fun _ _ fs t h _ h' => ?_)).bind (fun _ _ _ _ h => h) fun _ fs t h1 h2 h3 => Sends.silent rfl rfl h1 rfl ?_)
  · obtain ⟨es, c, k, -, rfl⟩ := h
    rw [h'.2]
    exact ⟨.inl rfl, (Mirrors.nil s).soFar⟩
  · obtain ⟨⟨es, c, k, -, rfl⟩, rfl⟩ := h3
    exact ⟨.inl rfl, fun w h1 _ => ⟨⟨by simp [watchFrames, watchFrame], h1.2⟩, .inl hn⟩⟩

theorem loadBurst_mirrored (j : LoadJob) (r0 n b : Nat) (hb : b < ceilDiv n s.cfg.bWords) (g : Option Addr) :
    SendsMirrored g (loadBurst j r0 n b) s := by
  have hd : SendsMirrored g (interBurstDelay b) s := by
    refine Sends.look (readCfg_run s) ?_
    by_cases h : b > 0
    · rw [if_pos h]
      refine Sends.ok (fs := [.delay s.cfg.interBurstDelayMs]) rfl ⟨_, rfl, rfl⟩ (fun f hf => ?_) hcs rfl
        ⟨.inl rfl, Mirrors.delay s _⟩
      rw [List.mem_singleton.1 hf]
      trivial
    · rw [if_neg h]
      exact SendsMirrored.pure () hcs
  refine hd.bind fun _ t _ h1 h2 => Sends.look (readCfg_run t) (SendsMirrored.check (loadWords_checks j r0 _ _) h1
    fun ws hws => (txnWrite_plain h1 (h2 ▸ hc) (h2.symm ▸ ?_)).mirrored)
  rw [h2] at hws
  exact burst_fit hc hb (loadWords_length j r0 _ _ hws)

end

section

variable {g : Option Addr}

theorem loadBursts_mirrored (j : LoadJob) (r0 n : Nat) : ∀ (count b : Nat) {s : State}, s.cs = 1 →
    configLegal s.cfg = true → b + count ≤ ceilDiv n s.cfg.bWords → SendsMirrored g (loadBursts j r0 n count b) s := by
  intro count
  induction count with
  | zero => intro b s hcs _ _; exact SendsMirrored.pure () hcs
  | succ k ih =>
    intro b s hcs hc hb
    exact (loadBurst_mirrored hcs hc j r0 n b (by omega) g).bind fun _ t _ h1 h2 =>
      ih (b + 1) h1 (h2 ▸ hc) (by rw [h2]; omega)

/-- What follows `SetTargetAddr` of a telegram. -/
theorem loadTelegramTail_mirrored (j : LoadJob) (r0 n : Nat) (e : Endian) (p : ChipFormat) (r : Rotation) (x y w h : Word)
    {s : State} (hcs : s.cs = 1) (hc : configLegal s.cfg = true) :
    SendsMirrored g (do
      (do
        let c ← readCfg
        multiArg c.cmdLdImgArea [fmtWord c e p r, x, y, w, h]
        setLoadOpen true)
      loadBursts j r0 n (ceilDiv n s.cfg.bWords) 0
      endLoadCore) s :=
  (beginAreaTail_mirrored hcs hc e p r x y w h g).bind fun _ t _ h1 h2 =>
    (loadBursts_mirrored j r0 n _ 0 h1 (h2 ▸ hc) (by rw [h2]; omega)).bind fun _ _ _ h3 h4 =>
      endLoadCore_mirrored h3 (h4 ▸ h2 ▸ hc) g

end

/-! ### Loads to a target -/

/-- A procedure that sets the target `a`: the target is `a` once all the address frames are on the wire, and as before until
then (R29, R200); and the mirrors are as its frames make them. -/
def SendsTo {α : Type} (a : Addr) (m : Op α) (s : State) : Prop :=
  Sends m s (fun _ fs t => Mirrors s fs t ∧ targetFrames s.cfg a <+: fs ∧ t.tgt = some a)
    (fun _ _ fs t => MirrorsSoFar s fs t ∧ t.tgt = if targetFrames s.cfg a <+: fs then some a else s.tgt)

section

variable {α β : Type} {m : Op α} {f : α → Op β} {s : State} {a : Addr}

theorem not_targetFrames_nil (c : Config) (a : Addr) : ¬ targetFrames c a <+: [] := fun h =>
  absurd (List.prefix_nil.1 h) (by simp [targetFrames, regWriteFrames, multiArgFrames])

theorem setTargetAddr_to (hcs : s.cs = 1) (hc : configLegal s.cfg = true) (a : Addr) : SendsTo a (setTargetAddr a) s :=
  (setTargetAddr_sends hcs hc a).weaken (fun _ _ _ h => ⟨h.1, h.2.1 ▸ List.prefix_refl _, h.2.2⟩)
    (fun _ _ _ _ h => ⟨h.1, by rw [if_neg h.2.1.not_prefix]; exact h.2.2⟩)

/-- What follows writes the target no more, or writes it again. -/
theorem SendsTo.bind (hm : SendsTo a m s)
    (hf : ∀ b t, m s = .ok b t → t.cs = 1 → t.cfg = s.cfg → SendsMirrored (some a) (f b) t) : SendsTo a (m >>= f) s := by
  have hkeep : ∀ {t u : State}, t.tgt = some a → KeepsTarget (some a) t u → u.tgt = some a := fun h h' =>
    h'.elim (·.trans h) (·.2)
  exact Sends.bind (hm.reaches fun _ _ h => h) (fun _ _ _ _ h => h) fun b fs t h1 h2 h3 => (hf b t h3.1 h1 h2).weaken
    (fun _ gs _ h => ⟨h3.2.1.append h2 h.2, h3.2.2.1.trans (List.prefix_append _ _), hkeep h3.2.2.2 h.1⟩)
    (fun _ _ gs _ h => ⟨h3.2.1.appendSoFar h2 h.2, by
      rw [if_pos (h3.2.2.1.trans (List.prefix_append _ _))]; exact hkeep h3.2.2.2 h.1⟩)

theorem SendsTo.check (hm : Checks m) (hcs : s.cs = 1) (hf : ∀ b, m s = .ok b s → SendsTo a (f b) s) :
    SendsTo a (m >>= f) s :=
  Sends.check hm hcs hf (fun _ _ _ => ⟨(Mirrors.nil s).soFar, by rw [if_neg (not_targetFrames_nil _ _)]⟩)

theorem SendsTo.mirrored (h : SendsTo a m s) : SendsMirrored (some a) m s := by
  refine h.weaken (fun _ _ _ h => ⟨.inr ⟨by simp, h.2.2⟩, h.1⟩) (fun _ _ fs _ h => ⟨?_, h.1⟩)
  by_cases hp : targetFrames s.cfg a <+: fs
  · exact .inr ⟨by simp, h.2.trans (if_pos hp)⟩
  · exact .inl (h.2.trans (if_neg hp))

end

section

variable {s : State} (hcs : s.cs = 1) (hc : configLegal s.cfg = true)

include hcs hc

theorem beginLoadCore_to (e : Endian) (p : ChipFormat) (r : Rotation) (a : Addr) :
    SendsTo a (beginLoadCore e p r a) s :=
  (setTargetAddr_to hcs hc a).bind fun _ _ _ h1 h2 => beginLoadTail_mirrored h1 (h2 ▸ hc) e p r _

theorem beginLoadAreaCore_to (e : Endian) (p : ChipFormat) (r : Rotation) (a : Addr) (x y w h : Word) :
    SendsTo a (beginLoadAreaCore e p r a x y w h) s :=
  (setTargetAddr_to hcs hc a).bind fun _ _ _ h1 h2 => beginAreaTail_mirrored h1 (h2 ▸ hc) e p r x y w h _

theorem loadTelegram_to (j : LoadJob) (k : Nat) : SendsTo j.tgt (loadTelegram j k) s :=
  Sends.look (readCfg_run s) <| (beginLoadAreaCore_to hcs hc _ _ _ _ _ _ _ _).bind fun _ t _ h1 h2 =>
    (loadBursts_mirrored j _ _ _ 0 h1 (h2 ▸ hc) (by rw [h2]; omega)).bind fun _ _ _ h3 h4 =>
      endLoadCore_mirrored h3 (h4 ▸ h2 ▸ hc) _

end

theorem loadTelegrams_mirrored (j : LoadJob) : ∀ (count k : Nat) {s : State}, s.cs = 1 → configLegal s.cfg = true →
    SendsMirrored (some j.tgt) (loadTelegrams j count k) s := by
  intro count
  induction count with
  | zero => intro k s hcs _; exact SendsMirrored.pure () hcs
  | succ n ih =>
    intro k s hcs hc
    exact (loadTelegram_to hcs hc j k).mirrored.bind fun _ _ _ h1 h2 => ih (k + 1) h1 (h2 ▸ hc)

theorem loadGeom_passed {j : LoadJob} {s t : State} {u : Unit} (h : loadGeom j s = .ok u t) : j.h ≠ 0 := by
  cases hd : s.desc with
  | none =>
    unfold loadGeom panelCheck at h
    rw [bind_error (bind_error (e := .stuck .noDescriptor) (t := s) (by unfold readDesc; rw [hd]))] at h
    cases h
  | some d =>
    rw [loadGeom_run j s hd] at h
    rintro hz
    simp [geometryRefusal, areaRefusal, hz, verdict] at h

/-- `LoadImage` (R230): at least one telegram, so the target is set as a begin-area sets it. -/
theorem loadImage_to (j : LoadJob) {s : State} (hcs : s.cs = 1) (hc : configLegal s.cfg = true) :
    SendsTo j.tgt (loadImage j) s := by
  refine SendsTo.check (loadGeom_checks j) hcs fun _ hg => SendsTo.check (footprint_checks j) hcs fun _ _ => ?_
  have hn : ∃ n, ceilDiv j.h.toNat s.cfg.tRows = n + 1 := by
    have hh : j.h.toNat ≠ 0 := fun h => loadGeom_passed hg (BitVec.eq_of_toNat_eq h)
    have ht : 1 ≤ s.cfg.tRows := by
      simp only [configLegal, Bool.and_eq_true, decide_eq_true_eq] at hc
      exact hc.1.1.1.1.1
    exact ⟨_, (Nat.succ_pred_eq_of_pos (Nat.div_pos (by omega) ht)).symm⟩
  obtain ⟨n, hn⟩ := hn
  by_cases h : nextAlloc s.chip = false
  · unfold SendsTo Sends
    rw [bind_error (by rw [requireAlloc_run, if_pos h])]
    exact ⟨[], [], emittedThen_nothing rfl, Fit.nil _, by simp [CutOff, hcs, afterAllocDraw], rfl, fun _ h _ => h, by
      rw [if_neg (not_targetFrames_nil _ _)]; rfl⟩
  · have hload : SendsTo j.tgt (loadTelegrams j (ceilDiv j.h.toNat s.cfg.tRows) 0) (afterAllocDraw s) := by
      rw [hn]
      exact (loadTelegram_to (s := afterAllocDraw s) hcs hc j 0).bind fun _ _ _ h1 h2 =>
        loadTelegrams_mirrored j n 1 h1 (h2 ▸ hc)
    have ha : Sends requireAlloc s (fun _ fs t => fs = [] ∧ t = afterAllocDraw s) (fun _ _ _ _ => False) :=
      Sends.silent (t := afterAllocDraw s) (a := ()) (by rw [requireAlloc_run, if_neg h]) rfl hcs rfl ⟨rfl, rfl⟩
    refine ha.bind (fun _ _ _ _ h => h.elim) fun _ fs t h1 h2 h3 => ?_
    obtain ⟨rfl, rfl⟩ := h3
    exact Sends.look (readCfg_run _) hload

/-! ### Displays -/

section

variable {s : State} {g : Option Addr} (hcs : s.cs = 1) (hc : configLegal s.cfg = true)

include hcs hc

theorem displayCore_mirrored (x y w h mode : Word) (adr : Option Addr) :
    SendsMirrored g (displayCore x y w h mode adr) s := by
  have hw := (watched_codes hc).2.2.2.2.2.2
  unfold displayCore displayCommand
  rw [bind_assoc]
  refine Sends.look (readCfg_run s) ?_
  cases adr with
  | none => exact displayCommand_mirrored hcs hc (by simp) hw.1
  | some a => exact displayCommand_mirrored hcs hc (by simp) hw.2

/-- A reading of the render status, after which the reader knows whether it was an idle one (R266). -/
theorem renderStatus_mirrored :
    Sends (regRead s.cfg.regRenderStatus) s
      (fun v fs t => t.tgt = s.tgt ∧
        if v &&& s.cfg.renderBusyMask = 0 then Mirrors s fs { t with renderPending := false } else Mirrors s fs t)
      (fun _ _ fs t => KeepsTarget g s t ∧ MirrorsSoFar s fs t) := by
  have hr := (watched_codes hc).2.2.1
  have hcode : s.cfg.cmdRegRd ≠ s.cfg.cmdLdImgEnd := by
    have h := (watched_codes hc).2.1
    simp only [PlainCode, List.mem_cons, List.not_mem_nil, or_false, not_or] at h
    exact h.2.2.1
  refine (regRead_sends s.cfg.regRenderStatus hcs hc).conclude (regRead_acts _) (fun v fs t hT h => ?_)
    (fun _ _ fs t hT _ h => ?_) <;> obtain ⟨es, c, k, -, rfl⟩ := hT
  · obtain ⟨dummy, rfl⟩ := h
    refine ⟨rfl, ?_⟩
    by_cases hv : v &&& s.cfg.renderBusyMask = 0
    · rw [if_pos hv]
      exact fun w h1 _ => ⟨⟨by simp [watchFrames, watchFrame, hcode, hr, h1.1],
        by simp [watchFrames, watchFrame, hr, hv]⟩, .inl rfl⟩
    · rw [if_neg hv]
      refine fun w h1 _ => ⟨⟨by simp [watchFrames, watchFrame, hcode, hr, h1.1], ?_⟩, .inl rfl⟩
      have hv' : ¬ v &&& s.cfg.renderBusyMask = 0#16 := hv
      simp [watchFrames, watchFrame, hr, h1.2, hv']
  · refine ⟨.inl rfl, fun w h1 _ => ?_⟩
    rcases h.2 with rfl | rfl | rfl
    · exact h1
    · exact ⟨by simp [watchFrames, watchFrame, hcode, h1.1], by simp [watchFrames, watchFrame, h1.2]⟩
    · exact ⟨by simp [watchFrames, watchFrame, hcode, hr, h1.1], by simp [watchFrames, watchFrame, hr, h1.2]⟩

omit hcs hc in
/-- A render poll that ends has seen an idle reading. -/
theorem renderPolls_mirrored : ∀ (fuel npoll : Nat) {s : State}, s.cs = 1 → configLegal s.cfg = true →
    Sends (renderPolls fuel npoll) s (fun _ fs t => t.tgt = s.tgt ∧ Mirrors s fs { t with renderPending := false })
      (fun _ _ fs t => KeepsTarget g s t ∧ MirrorsSoFar s fs t) := by
  intro fuel
  induction fuel with
  | zero => intro npoll s hcs hc; unfold Sends; exact trivial
  | succ n ih =>
    intro npoll s hcs hc
    refine Sends.look (readCfg_run s) ((renderStatus_mirrored hcs hc).bind (fun _ _ _ _ h => h) fun v fs t h1 h2 h3 => ?_)
    by_cases hv : v &&& s.cfg.renderBusyMask = 0
    · rw [if_pos hv] at h3 ⊢
      exact Sends.silent (t := t) rfl rfl h1 rfl ⟨h3.1, by rw [List.append_nil]; exact h3.2⟩
    · rw [if_neg hv] at h3 ⊢
      rcases countRenderPoll_cases (npoll + 1) t with hcount | hcount
      · exact Sends.look hcount ((ih (npoll + 1) h1 (h2 ▸ hc)).weaken
          (fun _ _ _ h => ⟨h.1.trans h3.1, h3.2.append h2 h.2⟩)
          (fun _ _ _ _ h => ⟨KeepsTarget.trans (.inl h3.1) h.1, h3.2.appendSoFar h2 h.2⟩))
      · unfold Sends
        rw [bind_error hcount]
        exact ⟨[], [], emittedThen_nothing rfl, Fit.nil _, by
          rw [CutOff, if_neg (by decide), if_neg (by decide)]; exact ⟨rfl, h1⟩, rfl, .inl h3.1,
          by rw [List.append_nil]; exact h3.2.soFar⟩

theorem waitRender_mirrored : SendsMirrored g waitRender s := by
  have hfuel : ∃ n k, drawRenderFuel s = .ok n { s with chip := k } := by
    unfold drawRenderFuel
    cases s.cfg.renderPollLimit with
    | some l => exact ⟨l + 1, s.chip, rfl⟩
    | none => exact ⟨_, _, rfl⟩
  obtain ⟨n, k, hfuel⟩ := hfuel
  have hdraw : SendsMirrored g drawRenderFuel s := Sends.silent hfuel rfl hcs rfl ⟨.inl rfl, fun _ h h' => ⟨h, h'⟩⟩
  refine hdraw.bind fun fuel t _ h1 h2 => (renderPolls_mirrored fuel 0 h1 (h2 ▸ hc)).bind (fun _ _ _ _ h => h)
    fun _ fs u h3 h4 h5 => Sends.silent rfl rfl h3 rfl ⟨.inl h5.1, ?_⟩
  rw [List.append_nil]
  exact h5.2

omit hcs hc in
theorem waitRender_passed {s t : State} {u : Unit} (h : waitRender s = .ok u t) : t.renderPending = false := by
  unfold waitRender at h
  cases h1 : drawRenderFuel s with
  | error e v => rw [bind_error h1] at h; cases h
  | ok n v =>
    rw [bind_ok h1] at h
    cases h2 : renderPolls n 0 v with
    | error e w => rw [bind_error h2] at h; cases h
    | ok _ w => rw [bind_ok h2] at h; cases h; rfl

theorem display1bppSequence_mirrored (x y w h mode fgbg : Word) (adr : Option Addr) (hp : s.renderPending = false) :
    SendsMirrored g (display1bppSequence x y w h mode fgbg adr) s :=
  (mode1On_plain hcs hc hp).mirrored.bind fun _ _ _ h1 h2 =>
    (setBlend_plain h1 (h2 ▸ hc) _ _).mirrored.bind fun _ _ _ h3 h4 =>
      (displayCore_mirrored h3 (h4 ▸ h2 ▸ hc) x y w h mode adr).bind fun _ _ _ h5 h6 =>
        (waitRender_mirrored h5 (h6 ▸ h4 ▸ h2 ▸ hc)).bind fun _ _ ho h7 h8 =>
          (mode1Off_plain h7 (h8 ▸ h6 ▸ h4 ▸ h2 ▸ hc) (waitRender_passed ho)).mirrored

/-- A command that no mirror follows and begins no read, and then a register that is no mirror. -/
theorem powerCommand_mirrored {code : Word} (hcode : code ∈ [s.cfg.cmdSleep, s.cfg.cmdStandby]) :
    SendsMirrored g (txnCommand code >>= fun _ => update (fun s => { s with session := .unready })) s := by
  have hp := (watched_codes hc).1 code (by simp at hcode ⊢; tauto)
  exact (txnCommand_plain hcs hc hp.1 fun h => absurd h hp.2).mirrored.bind fun _ t _ h1 _ =>
    Sends.silent rfl rfl h1 rfl ⟨.inl rfl, fun _ h h' => ⟨h, h'⟩⟩

end

/-! ### INIT -/

/-- The reset pulse and the mirrors it clears (R171, R172). -/
theorem resetPulse_mirrored {s : State} (hcs : s.cs = 1) :
    Sends (do resetPulse; clearSession : Op Unit) s
      (fun _ fs t => t.tgt = s.tgt ∧ t.renderPending = false ∧ Mirrors s fs t) (fun _ _ _ _ => False) := by
  have h : ∃ t, (do resetPulse; clearSession : Op Unit) s = .ok () t ∧ EmittedThen s t resetFrames [] ∧ t.cs = 1 ∧
      t.cfg = s.cfg ∧ t.tgt = s.tgt ∧ t.renderPending = false ∧ t.loadOpen = false :=
    ⟨_, rfl, ⟨[.rst 1, .delay 200, .rst 0, .delay 10, .rst 1, .delay 200], by simp [State.emit], rfl⟩, hcs, rfl, rfl, rfl, rfl⟩
  obtain ⟨t, h1, h2, h3, h4, h5, h6, h7⟩ := h
  refine Sends.ok h1 h2 (fun f hf => ?_) h3 h4 ⟨h5, h6, fun w _ _ => ⟨⟨?_, ?_⟩, .inl rfl⟩⟩
  · simp [resetFrames] at hf
    rcases hf with rfl | rfl | rfl | rfl | rfl | rfl <;> trivial
  · simp [watchFrames, resetFrames, watchFrame, h7]
  · simp [watchFrames, resetFrames, watchFrame, h6]

end Sys2Proof.Machine
end

