-- ==== Sys2Proof/Laws/PerInstr.lean ====
section
/-! SUPPORT. What is proved for each instruction as syntax. Family F: the word list of an operation is its header and as
many words as the table of 30_encoding.md R94 gives it, and the length read off its first three words (R91) is that
length when it is well-formed. -/

namespace Sys2Proof.Laws.F

open Sys2Proof.Machine Sys2Proof.Safety

/-- The header, the length column of R94, and the length that header and counts announce (R90, R91, R94). -/
def Statement (i : Instr) : Prop :=
  (∃ h ws, encode i = h :: ws ∧ headerOp h = i.opcode ∧ headerMod h = i.modByte ∧ ws.length + 1 = tableLength i) ∧
    (WellFormed i →
      requestLength ((encode i).getD 0 0) ((encode i).getD 1 0) ((encode i).getD 2 0) = tableLength i)

/-- The header's two bytes, given the number of the operand words. -/
theorem of_length {i : Instr} (hl : i.operandWords.length + 1 = tableLength i)
    (hr : WellFormed i → requestLength (header i.opcode i.modByte) (i.operandWords.getD 0 0)
      (i.operandWords.getD 1 0) = tableLength i) : Statement i :=
  ⟨⟨_, _, rfl, headerOp_header _ _, headerMod_header _ _, hl⟩, hr⟩

/-- The same for an operation whose length its OP alone gives. -/
theorem of_opcode {i : Instr} {n : Nat} (hn : tableLength i = n) (hl : i.operandWords.length + 1 = n)
    (hr : ∀ h w1 w2 : Word, headerOp h = i.opcode → requestLength h w1 w2 = n) : Statement i :=
  of_length (hl.trans hn.symm) fun _ => (hr _ _ _ (headerOp_header _ _)).trans hn.symm

theorem wrCmd (m : Mod) (code : Word) : Statement (.wrCmd m code) :=
  of_opcode rfl rfl fun h _ _ e => by unfold requestLength; rw [e]; rfl

theorem wrData (m : Mod) (w : Word) : Statement (.wrData m w) :=
  of_opcode rfl rfl fun h _ _ e => by unfold requestLength; rw [e]; rfl

theorem wrMulti (m : Mod) (ws : List Word) : Statement (.wrMulti m ws) := by
  refine of_length (by simp [Instr.operandWords, tableLength]; omega) fun hw => ?_
  have hn : ws.length ≤ 0xFFFF := of_decide_eq_true hw
  simp [requestLength, Instr.operandWords, Instr.opcode, tableLength, toNat_countWord hn]

theorem rdData (m : Mod) : Statement (.rdData m) :=
  of_opcode rfl rfl fun h _ _ e => by unfold requestLength; rw [e]; rfl

theorem rdMulti (m : Mod) (n : Word) : Statement (.rdMulti m n) :=
  of_opcode rfl rfl fun h _ _ e => by unfold requestLength; rw [e]; rfl

theorem wrMultiArg (m : Mod) (code : Word) (args : List Word) : Statement (.wrMultiArg m code args) := by
  refine of_length (by simp [Instr.operandWords, tableLength]; omega) fun hw => ?_
  have hn : args.length ≤ 0xFFFF := of_decide_eq_true hw
  simp [requestLength, Instr.operandWords, Instr.opcode, tableLength, toNat_countWord hn]

theorem rdReg (m : Mod) (addr : Word) : Statement (.rdReg m addr) :=
  of_opcode rfl rfl fun h _ _ e => by unfold requestLength; rw [e]; rfl

theorem wrReg (m : Mod) (addr val : Word) : Statement (.wrReg m addr val) :=
  of_opcode rfl rfl fun h _ _ e => by unfold requestLength; rw [e]; rfl

theorem init (m : Mod) (vcom : Word) : Statement (.init m vcom) :=
  of_opcode rfl rfl fun h _ _ e => by unfold requestLength; rw [e]; rfl

theorem beginLoad (m : Mod) (tgt : Addr) : Statement (.beginLoad m tgt) :=
  of_opcode rfl rfl fun h _ _ e => by unfold requestLength; rw [e]; rfl

theorem beginLoadArea (m : Mod) (tgt : Addr) (x y w h : Word) : Statement (.beginLoadArea m tgt x y w h) :=
  of_opcode rfl rfl fun h _ _ e => by unfold requestLength; rw [e]; rfl

theorem endLoad (m : Mod) : Statement (.endLoad m) :=
  of_opcode rfl rfl fun h _ _ e => by unfold requestLength; rw [e]; rfl

theorem load1bpp (m : Mod) (tgt src : Addr) (stride x y w h : Word) :
    Statement (.load1bpp m tgt src stride x y w h) :=
  of_opcode rfl rfl fun h _ _ e => by unfold requestLength; rw [e]; rfl

theorem load2bpp (m : Mod) (tgt src : Addr) (stride x y w h : Word) :
    Statement (.load2bpp m tgt src stride x y w h) :=
  of_opcode rfl rfl fun h _ _ e => by unfold requestLength; rw [e]; rfl

theorem load4bpp (m : Mod) (tgt src : Addr) (stride x y w h : Word) :
    Statement (.load4bpp m tgt src stride x y w h) :=
  of_opcode rfl rfl fun h _ _ e => by unfold requestLength; rw [e]; rfl

theorem load8bpp (m : Mod) (tgt src : Addr) (stride x y w h : Word) :
    Statement (.load8bpp m tgt src stride x y w h) :=
  of_opcode rfl rfl fun h _ _ e => by unfold requestLength; rw [e]; rfl

theorem displayArea (m : Mod) (x y w h mode : Word) : Statement (.displayArea m x y w h mode) :=
  of_opcode rfl rfl fun h _ _ e => by unfold requestLength; rw [e]; rfl

theorem displayAreaBuf (m : Mod) (x y w h mode : Word) (adr : Addr) :
    Statement (.displayAreaBuf m x y w h mode adr) :=
  of_opcode rfl rfl fun h _ _ e => by unfold requestLength; rw [e]; rfl

theorem display1bpp (m : Mod) (x y w h mode fgbg : Word) (adr : Option Addr) :
    Statement (.display1bpp m x y w h mode fgbg adr) := by
  refine of_length (by cases adr <;> rfl) fun hw => ?_
  have hb : m.getLsbD 0 = adr.isSome := of_decide_eq_true hw
  have hr : ∀ g w1 w2 : Word, headerOp g = 0x42 →
      requestLength g w1 w2 = if (headerMod g).getLsbD 0 then 9 else 7 :=
    fun g _ _ e => by unfold requestLength; rw [e]; rfl
  refine (hr _ _ _ (headerOp_header _ _)).trans ?_
  rw [headerMod_header]
  exact if_congr (by rw [← hb]; rfl) rfl rfl

theorem waitRenderIdle (m : Mod) : Statement (.waitRenderIdle m) :=
  of_opcode rfl rfl fun h _ _ e => by unfold requestLength; rw [e]; rfl

theorem clearAndRefresh (m : Mod) (adr : Addr) (mode : Word) : Statement (.clearAndRefresh m adr mode) :=
  of_opcode rfl rfl fun h _ _ e => by unfold requestLength; rw [e]; rfl

theorem refresh1bpp (m : Mod) (src : Addr) (x y w h : Word) (adr : Addr) :
    Statement (.refresh1bpp m src x y w h adr) :=
  of_opcode rfl rfl fun h _ _ e => by unfold requestLength; rw [e]; rfl

theorem refresh2bpp (m : Mod) (src : Addr) (x y w h : Word) (adr : Addr) :
    Statement (.refresh2bpp m src x y w h adr) :=
  of_opcode rfl rfl fun h _ _ e => by unfold requestLength; rw [e]; rfl

theorem refresh4bpp (m : Mod) (src : Addr) (x y w h : Word) (adr : Addr) :
    Statement (.refresh4bpp m src x y w h adr) :=
  of_opcode rfl rfl fun h _ _ e => by unfold requestLength; rw [e]; rfl

theorem refresh8bpp (m : Mod) (src : Addr) (x y w h : Word) (adr : Addr) :
    Statement (.refresh8bpp m src x y w h adr) :=
  of_opcode rfl rfl fun h _ _ e => by unfold requestLength; rw [e]; rfl

theorem sleep (m : Mod) : Statement (.sleep m) :=
  of_opcode rfl rfl fun h _ _ e => by unfold requestLength; rw [e]; rfl

theorem standby (m : Mod) : Statement (.standby m) :=
  of_opcode rfl rfl fun h _ _ e => by unfold requestLength; rw [e]; rfl

end Sys2Proof.Laws.F
end

