-- ==== Sys2Proof/Laws/Session.lean ====
section
/-! SUPPORT. Transactions to their last event when the queue's answers are known, the render poll that times out, and the
bring-up of a session as frames and registers. -/

namespace Sys2Proof.Machine

open Sys2Proof.Safety

/-! ### Refusals and admission -/

/-- The error epilogue of a refusal, with the select line released. -/
theorem errorEpilogue_refusedBy (e : ErrKind) (i : Byte) (s : State) (hcs : s.cs = 1) (he : e ≠ .hwTimeout) :
    errorEpilogue e i s = refusedBy s (errCode e) i := by
  unfold errorEpilogue recordError refusedBy faultBit
  simp [hcs, he]

theorem and_maskNone (m : Mod) : m &&& maskNone = m := by unfold maskNone; revert m; decide

/-- An admitted load or display finds no load open and no render pending. -/
theorem Admitted.mirrors {s : State} {i : Instr} (ha : admission i = .load ∨ admission i = .display)
    (had : Admitted i s) : s.loadOpen = false ∧ s.renderPending = false := by
  have h2 := had.2
  unfold misuseIn at h2
  rcases ha with ha | ha <;> rw [ha] at h2 <;> cases h : s.loadOpen <;> cases h' : s.renderPending <;>
    simp_all <;> split at h2 <;> cases h2

/-! ### Transactions to the last event -/

/-- The state after a transaction whose events are `es`, with the select line released. -/
def State.transacted (s : State) (es : List Event) (c : Oracle) : State :=
  { s with trace := s.trace ++ es, cs := 1, chip := c }

theorem txnCommand_exact (c : Word) {s : State} {a b : Nat} {rest : List BusyRun}
    (hw : s.chip.waits = .idleAfter a :: .idleAfter b :: rest)
    (ha : EndsWithin s.cfg.pollLimit a) (hb : EndsWithin s.cfg.pollLimit b) :
    txnCommand c s = .ok () (s.transacted
      (transactionEvents s.cfg.busyIdleLevel a b 0x6000 (sentEvents [c])) { s.chip with waits := rest }) := by
  unfold txnCommand
  rw [bind_ok (openFrame_ends preCmd s hw ha hb), bind_ok (txWord_run c _), release_run]
  simp [State.released, State.emit, openEvents, transactionEvents, sentEvents, preCmd, State.transacted]

theorem txnWrite_exact (ws : List Word) {s : State} {a b : Nat} {rest : List BusyRun}
    (hw : s.chip.waits = .idleAfter a :: .idleAfter b :: rest)
    (ha : EndsWithin s.cfg.pollLimit a) (hb : EndsWithin s.cfg.pollLimit b) :
    txnWrite ws s = .ok () (s.transacted
      (transactionEvents s.cfg.busyIdleLevel a b 0x0000 (sentEvents ws)) { s.chip with waits := rest }) := by
  unfold txnWrite
  rw [bind_ok (openFrame_ends preWr s hw ha hb), bind_ok (txWords_run ws _), release_run]
  simp [State.released, State.emit, openEvents, transactionEvents, sentEvents, preWr, State.transacted]

/-- A busy-wait that reaches its limit: exactly that many busy samples (R131). -/
theorem busWaitIdle_late {s : State} {phase : Byte} {l : Nat} {late : BusyRun} {rest : List BusyRun}
    (hp : s.cfg.pollLimit = some l) (h1 : 1 ≤ l)
    (hl : ∀ k, late = .idleAfter k → l ≤ k) (hw : s.chip.waits = late :: rest) :
    busWaitIdle phase s = .error (.raise .hwTimeout phase)
      { s with trace := s.trace ++ List.replicate l (Event.poll (~~~s.cfg.busyIdleLevel)),
               chip := { s.chip with waits := rest } } := by
  have hd : drawWait s.chip = (late, { s.chip with waits := rest }) := by simp [drawWait, hw]
  have hm : max l 1 = l := by omega
  unfold busWaitIdle
  rw [hd, hp]
  cases late with
  | never => simp [State.waited, hd, hm, busyPolls]
  | idleAfter k =>
    have := hl k rfl
    have : ¬ k < l := by omega
    simp [State.waited, hd, hm, busyPolls, this]

/-- A frame whose first busy-wait reaches its limit. -/
theorem openFrame_late1 (pre : Word) {s : State} {l : Nat} {late : BusyRun} {rest : List BusyRun}
    (hp : s.cfg.pollLimit = some l) (h1 : 1 ≤ l) (hl : ∀ k, late = .idleAfter k → l ≤ k)
    (hw : s.chip.waits = late :: rest) :
    openFrame pre s = .error (.raise .hwTimeout 1)
      { s with trace := s.trace ++ List.replicate l (Event.poll (~~~s.cfg.busyIdleLevel)),
               chip := { s.chip with waits := rest } } := by
  unfold openFrame
  rw [bind_error (busWaitIdle_late hp h1 hl hw)]

/-- A frame whose second busy-wait reaches its limit: the select and the preamble went out, and the line is held. -/
theorem openFrame_late2 (pre : Word) {s : State} {l a : Nat} {late : BusyRun} {rest : List BusyRun}
    (hp : s.cfg.pollLimit = some l) (h1 : 1 ≤ l) (ha : a < l) (hl : ∀ k, late = .idleAfter k → l ≤ k)
    (hw : s.chip.waits = .idleAfter a :: late :: rest) :
    openFrame pre s = .error (.raise .hwTimeout 2)
      { s with trace := s.trace ++ (endedPolls s.cfg.busyIdleLevel a ++ [.sel, .tx (hiByte pre), .tx (loByte pre)] ++
                 List.replicate l (Event.poll (~~~s.cfg.busyIdleLevel))),
               cs := 0, chip := { s.chip with waits := rest } } := by
  unfold openFrame
  rw [bind_ok (busWaitIdle_ends 1 s a _ hw (by intro l' h'; rw [hp] at h'; cases h'; exact ha)),
    bind_ok (select_run _), bind_ok (txWord_run _ _)]
  refine (busWaitIdle_late (s := State.emit _ (State.selected { s with trace := _, chip := _ })) hp h1 hl rfl).trans ?_
  simp [State.emit, State.selected, sentEvents]

theorem received_range (c : Oracle) (n : Nat) :
    receivedEvents (rxWordAt c 0 :: rxWordsFrom c 1 n) = (List.range (2 + 2 * n)).map (fun k => .rx (rxAt c k)) := by
  have : rxWordAt c 0 :: rxWordsFrom c 1 n = (List.range (n+1)).map (rxWordAt c) := by
    rw [List.range_succ_eq_map]; simp [rxWordsFrom, Nat.add_comm]
  rw [this]
  have h2 : 2 + 2 * n = 2 * (n + 1) := by omega
  rw [h2]
  generalize n + 1 = m
  induction m with
  | zero => rfl
  | succ m ih =>
    rw [List.range_succ, List.map_append, show 2 * (m + 1) = 2 * m + 1 + 1 by omega, List.range_succ,
      List.range_succ, List.map_append, List.map_append, ← ih]
    simp [receivedEvents, rxWordAt]

theorem txnRead_exact (n : Nat) {s : State} {a b : Nat} {rest : List BusyRun}
    (hw : s.chip.waits = .idleAfter a :: .idleAfter b :: rest)
    (ha : EndsWithin s.cfg.pollLimit a) (hb : EndsWithin s.cfg.pollLimit b) :
    txnRead n s = .ok (rxWordsFrom s.chip 1 n) (s.transacted (transactionEvents s.cfg.busyIdleLevel a b 0x1000
      ((List.range (2 + 2 * n)).map (fun k => .rx (rxAt s.chip k)))) (skipRx (2 + 2 * n) { s.chip with waits := rest })) := by
  obtain ⟨es, he, hc⟩ := txnRead_does n s (by
    refine ⟨by rw [hw]; simp [waitsOf, frameWaits], ?_⟩
    rw [hw]; simp [waitsOf, frameWaits]; exact ⟨ha, hb⟩)
  unfold txnRead at he ⊢
  rw [bind_ok (openFrame_ends preRd s hw ha hb), bind_ok (rxWord_run _), bind_ok (rxWords_run n _),
      bind_ok (release_run _), pure_run] at he ⊢
  rw [← received_range]
  have hsame : ∀ k, rxWordAt ({ s.chip with waits := rest } : Oracle) k = rxWordAt s.chip k := fun _ => rfl
  have hws : rxWordsFrom (skipRx (2 * 1) ({ s.chip with waits := rest } : Oracle)) 0 n = rxWordsFrom s.chip 1 n := by
      simp only [rxWordsFrom, Nat.zero_add, rxWordAt_skipRx, hsame]
  simp only [State.received, List.length_singleton, hws, hsame]
  have hlen : (rxWordsFrom s.chip 1 n).length = n := by simp [rxWordsFrom]
  simp [State.released, openEvents, transactionEvents, sentEvents, receivedEvents, preRd, skipRx_skipRx, hlen,
    State.transacted]

/-! ### The render poll that times out -/

theorem renderPolls_late (l : Nat) : ∀ (npoll fuel : Nat) (s : State), 0 < l → l < fuel →
    (∀ i, i < l → statusBusy s.cfg s.chip 0 i) → s.cfg.renderPollLimit = some (npoll + l) →
    WaitsEnd s (waitsOf (statusFrames s.cfg s.chip 0 l)) →
    ∃ es, renderPolls fuel npoll s = .error (.raise .hwTimeout 3)
        (s.after es (waitsOf (statusFrames s.cfg s.chip 0 l)) (2 * l) s.regs) ∧
      collapsed s.cfg.busyIdleLevel es = (statusFrames s.cfg s.chip 0 l).flatMap frameWires := by
  induction l with
  | zero => intro _ _ _ h; omega
  | succ l ih =>
    intro npoll fuel s _ hf hb hl hw
    obtain ⟨f, rfl⟩ : ∃ f, fuel = f + 1 := ⟨fuel - 1, by omega⟩
    have hbusy : ¬ (rxWordAt s.chip 1 &&& s.cfg.renderBusyMask = 0) := by
      simpa [statusBusy] using hb 0 (by omega)
    let rd := regReadFrames s.cfg s.cfg.regRenderStatus (rxWordAt s.chip 0) (rxWordAt s.chip 1)
    have hframes : statusFrames s.cfg s.chip 0 (l + 1) = rd ++
          (List.range l).flatMap (fun i => regReadFrames s.cfg s.cfg.regRenderStatus
            (rxWordAt s.chip (2 + (0 + 2 * i))) (rxWordAt s.chip (2 + (0 + 2 * i + 1)))) := by
      unfold statusFrames
      rw [List.range_succ_eq_map, List.flatMap_cons, List.flatMap_map]
      simp only [Nat.mul_succ, Nat.zero_add, Nat.mul_zero]
      congr 3
      funext i
      congr 2 <;> omega
    rw [hframes] at hw ⊢
    rw [waitsOf_append] at hw ⊢
    have hsplit := fun es => WaitsEnd.split (t := s.after es (waitsOf rd) 2 s.regs) hw rfl rfl
    obtain ⟨es, he, hc⟩ := regRead_does s.cfg.regRenderStatus s (hsplit []).1
    unfold renderPolls
    rw [bind_ok (readCfg_run s), bind_ok he, if_neg hbusy]
    have hcount : countRenderPoll (npoll + 1) (s.after es (waitsOf rd) 2 s.regs) =
        if npoll + 1 ≥ npoll + (l + 1) then .error (.raise .hwTimeout 3) (s.after es (waitsOf rd) 2 s.regs)
        else .ok () (s.after es (waitsOf rd) 2 s.regs) := by
      unfold countRenderPoll
      rw [bind_ok (readCfg_run _), after_cfg, hl]
      rfl
    by_cases h0 : l = 0
    · subst h0
      refine ⟨es, ?_, ?_⟩
      · rw [bind_error (hcount.trans (if_pos (by omega)))]
        rfl
      · rw [hc]; simp [rd]
    · rw [bind_ok (hcount.trans (if_neg (by omega)))]
      have hword : ∀ k, rxWordAt (s.after es (waitsOf rd) 2 s.regs).chip k = rxWordAt s.chip (2 + k) := fun k => after_word ..
      obtain ⟨es', he', hc'⟩ := ih (npoll + 1) f (s.after es (waitsOf rd) 2 s.regs) (by omega) (by omega)
        (fun i hi' => by
          have := hb (i + 1) (by omega)
          simp only [statusBusy, hword, after_cfg] at this ⊢
          rwa [show 2 + (0 + 2 * i + 1) = 0 + 2 * (i + 1) + 1 by omega])
        (by rw [after_cfg, hl]; congr 1; omega)
        (by simp only [statusFrames, hword, after_cfg]; exact (hsplit es).2)
      refine ⟨es ++ es', ?_, ?_⟩
      · refine he'.trans ?_
        rw [after_after]
        simp only [statusFrames, hword, after_cfg, after_regs]
        congr 2
        omega
      · rw [collapsed_append _ (settled_frames hc), hc]
        simp only [statusFrames, hword, after_cfg] at hc'
        rw [hc', List.flatMap_append]

/-- The procedure puts the frames `fs` on the wire, the last of them the busy reading at which the render poll reaches its
limit, and is abandoned with HwTimeout(3), having read `r` words and left the registers `ρ` (R266). -/
def RendersLate {α : Type} (m : Op α) (s : State) (fs : List Frame) (r : Nat) (ρ : Regs) : Prop :=
  WaitsEnd s (waitsOf fs) → ∃ es, m s = .error (.raise .hwTimeout 3) (s.after es (waitsOf fs) r ρ) ∧
    collapsed s.cfg.busyIdleLevel es = fs.flatMap frameWires

/-- Nothing follows the poll that reached its limit. -/
theorem RendersLate.bind {α β : Type} {m : Op α} {f : α → Op β} {s : State} {fs : List Frame} {r : Nat} {ρ : Regs}
    (h : RendersLate m s fs r ρ) : RendersLate (m >>= f) s fs r ρ := by
  intro hw
  obtain ⟨es, he, hc⟩ := h hw
  exact ⟨es, bind_error he, hc⟩

/-- A poll that reaches its limit after a procedure that completed. -/
theorem Does.thenLate {α β : Type} {m : Op α} {f : α → Op β} {s : State} {fs gs : List Frame} {q r : Nat} {a : α}
    {ρ σ : Regs} (hm : Does m s fs q a ρ) (hf : ∀ es, RendersLate (f a) (s.after es (waitsOf fs) q ρ) gs r σ) :
    RendersLate (m >>= f) s (fs ++ gs) (q + r) σ := by
  intro hw
  rw [waitsOf_append] at hw
  have hs := fun es => WaitsEnd.split (t := s.after es (waitsOf fs) q ρ) hw rfl rfl
  obtain ⟨es, he, hc⟩ := hm (hs []).1
  obtain ⟨es', he', hc'⟩ := hf es (hs es).2
  refine ⟨es ++ es', ?_, ?_⟩
  · rw [bind_ok he, he', after_after, waitsOf_append]
  · rw [collapsed_append _ (settled_frames hc), hc]
    simp only [after_cfg] at hc'
    rw [hc', List.flatMap_append]

theorem RendersLate.look {α β : Type} {m : Op α} {f : α → Op β} {s : State} {fs : List Frame} {r : Nat} {a : α}
    {ρ : Regs} (hm : m s = .ok a s) (hf : RendersLate (f a) s fs r ρ) : RendersLate (m >>= f) s fs r ρ := by
  intro hw
  obtain ⟨es, he, hc⟩ := hf hw
  exact ⟨es, by rw [bind_ok hm, he], hc⟩

/-- The render wait that starts at the chip's word `k` reaches its limit. -/
theorem waitRender_late {s : State} {l k : Nat} (hl : s.cfg.renderPollLimit = some l) (h1 : 1 ≤ l)
    (hb : ∀ i, i < l → statusBusy s.cfg s.chip k i) {es : List Event} {n : Nat} {ρ : Regs} :
    RendersLate waitRender (s.after es n k ρ) (statusFrames s.cfg s.chip k l) (2 * l) ρ := by
  have hf : statusFrames (s.after es n k ρ).cfg (s.after es n k ρ).chip 0 l = statusFrames s.cfg s.chip k l := by
    simp only [statusFrames, after_word, after_cfg, Nat.zero_add, Nat.add_assoc]
  have h : RendersLate (renderPolls (l + 1) 0) (s.after es n k ρ) (statusFrames s.cfg s.chip k l) (2 * l) ρ := by
    rw [← hf]
    refine renderPolls_late l 0 (l + 1) (s.after es n k ρ) h1 (by omega) (fun i hi => ?_) (by simpa using hl)
    have := hb i hi
    simp only [statusBusy, after_word, after_cfg, Nat.zero_add, Nat.add_assoc] at this ⊢
    exact this
  exact RendersLate.look (a := l + 1) (by unfold drawRenderFuel; rw [after_cfg, hl]) h.bind

/-- The 1-bpp display sequence whose render wait reaches its limit: the render is pending and the mode bit is not
cleared (R269). -/
theorem display1bppSequence_late {s : State} {l : Nat} (x y w h mode fgbg : Word) (adr : Option Addr)
    (hl : s.cfg.renderPollLimit = some l) (h1 : 1 ≤ l) (hb : ∀ i, i < l → statusBusy s.cfg s.chip 2 i) :
    RendersLate (display1bppSequence x y w h mode fgbg adr) s
      (display1bppOpening s.cfg s.chip x y w h mode (hiByte fgbg) (loByte fgbg) adr ++ statusFrames s.cfg s.chip 2 l)
      (2 + (0 + (0 + 2 * l))) { s.regs with renderPending := true } := by
  rw [display1bppOpening, List.append_assoc, List.append_assoc]
  refine Does.thenLate (mode1On_does s) (fun es1 => Does.thenLate (setBlend_does _ _ _) (fun es2 =>
    Does.thenLate (displayCore_does x y w h mode adr _) (fun es3 => RendersLate.bind ?_)))
  rw [after_after, after_after]
  exact waitRender_late hl h1 hb

/-- A whole operation whose render poll reaches its limit. -/
theorem RendersLate.completes {body : Op Unit} {s : State} {fs : List Frame} {r : Nat} {ρ : Regs}
    (h : RendersLate body s fs r ρ) (hw : WaitsEnd s (waitsOf fs)) (hd : ρ.desc = s.desc) (hr : ρ.rstl = s.rstl) :
    ∃ t, runOp body s = .next t ∧ Emitted s t fs ∧ RenderTimedOut s t ∧ t.tgt = ρ.tgt ∧ t.loadOpen = ρ.loadOpen ∧
      t.renderPending = ρ.renderPending := by
  obtain ⟨es, he, hc⟩ := h hw
  exact ⟨_, runOp_raise he, ⟨es, rfl, hc⟩, ⟨rfl, rfl, rfl, rfl, rfl, rfl, hd, hr, rfl, rfl, rfl, rfl, fun _ => rfl⟩,
    rfl, rfl, rfl⟩

theorem waitsOf_statusFrames (c : Config) (chip : Oracle) (k n : Nat) : waitsOf (statusFrames c chip k n) = 6 * n := by
  unfold statusFrames
  have : ∀ l : List Nat, waitsOf (l.flatMap (fun i =>
    regReadFrames c c.regRenderStatus (rxWordAt chip (k + 2 * i)) (rxWordAt chip (k + 2 * i + 1)))) = 6 * l.length := by
    intro l
    induction l with
    | nil => rfl
    | cons a l ih =>
      rw [List.flatMap_cons, waitsOf_append, ih]
      simp [regReadFrames, frameWaits]; omega
  have h := this (List.range n)
  rwa [List.length_range] at h

/-! ### Bring-up -/

theorem getD_rxWordsFrom (c : Oracle) (k n i : Nat) (h : i < n) : (rxWordsFrom c k n).getD i 0 = rxWordAt c (k + i) := by
  simp [rxWordsFrom, h]

theorem wordBytes_bytesOfWords (ws : List Word) : wordBytes ws = bytesOfWords ws := by
  induction ws with
  | nil => rfl
  | cons w ws ih => simp [wordBytes, bytesOfWords, ih] 

theorem drop_rxWordsFrom (c : Oracle) (k n i : Nat) : (rxWordsFrom c k n).drop i = rxWordsFrom c (k + i) (n - i) := by
  apply List.ext_getElem
  · simp [rxWordsFrom]
  · intro q h1 h2; simp [rxWordsFrom, Nat.add_assoc]

theorem take_rxWordsFrom (c : Oracle) (k n i : Nat) (h : i ≤ n) : (rxWordsFrom c k n).take i = rxWordsFrom c k i := by
  apply List.ext_getElem
  · simp [rxWordsFrom]; omega
  · intro q h1 h2; simp [rxWordsFrom]

theorem decodeDesc_rxWords (c : Config) (chip : Oracle) :
    decodeDesc c.versionWords (rxWordsFrom chip 1 (4 + 2 * c.versionWords)) = descriptorIn c chip := by
  unfold decodeDesc descriptorIn
  rw [getD_rxWordsFrom _ _ _ _ (by omega), getD_rxWordsFrom _ _ _ _ (by omega),
    getD_rxWordsFrom _ _ _ _ (by omega), getD_rxWordsFrom _ _ _ _ (by omega), drop_rxWordsFrom, drop_rxWordsFrom,
    take_rxWordsFrom _ _ _ _ (by omega), take_rxWordsFrom _ _ _ _ (by omega), wordBytes_bytesOfWords,
    wordBytes_bytesOfWords]
  congr 3; omega

/-- The registers right after INIT's reset pulse (R171). -/
def State.cleared (s : State) : Regs :=
  { s.regs with rstl := 1, loadOpen := false, renderPending := false, session := .unready, desc := none }

/-- INIT up to and with the descriptor read. -/
theorem bringUp_does (s : State) (hcs : s.cs = 1) :
    Does (do resetPulse; clearSession; let c ← readCfg; txnCommand c.cmdSysRun; getDeviceInfo) s
      (bringUpFrames s.cfg s.chip) (1 + (4 + 2 * s.cfg.versionWords))
      (rxWordsFrom s.chip 1 (4 + 2 * s.cfg.versionWords)) s.cleared := by
  have hpulse : Does (do resetPulse; clearSession) s resetFrames 0 () s.cleared :=
    Does.finish (resetPulse_does s hcs) (fun _ => rfl)
  have key : Does ((do resetPulse; clearSession) >>= fun _ => do
        let c ← readCfg; txnCommand c.cmdSysRun; getDeviceInfo) s
      (resetFrames ++ ([.cmd s.cfg.cmdSysRun] ++ ([.cmd s.cfg.cmdGetDevInfo] ++
        [.rd (rxWordAt s.chip 0) (rxWordsFrom s.chip 1 (4 + 2 * s.cfg.versionWords))])))
      (0 + (0 + (0 + (4 + 2 * s.cfg.versionWords + 1)))) (rxWordsFrom s.chip 1 (4 + 2 * s.cfg.versionWords)) s.cleared := by
    refine Does.bind hpulse (fun es => Does.look (readCfg_run _) (Does.bind (ρ := s.cleared) (txnCommand_does _ _)
      (fun es1 => Does.look (readCfg_run _) (Does.bind (ρ := s.cleared) (txnCommand_does _ _) (fun es2 => ?_)))))
    have h := txnRead_does (4 + 2 * s.cfg.versionWords) (((s.after es (waitsOf resetFrames) 0 s.cleared).after es1
      (waitsOf [.cmd s.cfg.cmdSysRun]) 0 s.cleared).after es2 (waitsOf [.cmd s.cfg.cmdGetDevInfo]) 0 s.cleared)
    simp only [after_word, after_words, after_regs, Nat.zero_add, Nat.add_zero] at h
    exact h
  have := key.frames (gs := bringUpFrames s.cfg s.chip) rfl (show _ = 1 + (4 + 2 * s.cfg.versionWords) by omega)
  exact this

/-- The VCOM reconcile of a reading (R178). -/
theorem vcomReconcile_does (s : State) (vcom : Word) :
    Does (vcomReconcile vcom) s
      (vcomReadFrames s.cfg (rxWordAt s.chip 0) (rxWordAt s.chip 1) ++
       (if rxWordAt s.chip 1 = vcom then [] else vcomWriteFrames s.cfg vcom)) (2 + 0) () s.regs := by
  refine Does.bind (vcomRead_does s) (fun es' => ?_)
  by_cases hv : rxWordAt s.chip 1 = vcom
  · simp only [hv, ne_eq, not_true, if_false, if_true]
    exact Does.nothing rfl
  · simp only [hv, ne_eq, not_false_eq_true, if_true, if_false]
    exact vcomWrite_does _ _

end Sys2Proof.Machine
end

