-- ==== Sys2Proof/Tests/Slice0.lean ====
section
/-! SUPPORT. Tests: ill-formed operations refused, words written out from 30_encoding.md R94 decoded, one-step vectors of
95_test_vectors.md, and for every statement with hypotheses a concrete state that meets them. -/

namespace Sys2Proof.Tests

open Sys2Proof.Machine Sys2Proof.Safety

/-! ### Well-formedness (R91, R93) -/

theorem test_wf_wrMulti_too_long : ¬ WellFormed (.wrMulti 0 (List.replicate 0x10000 0)) := by
  show ¬ decide ((List.replicate 0x10000 (0 : Word)).length ≤ 0xFFFF) = true
  rw [List.length_replicate]
  decide

theorem test_wf_wrMultiArg_too_long : ¬ WellFormed (.wrMultiArg 0 0x0039 (List.replicate 0x10000 0)) := by
  show ¬ decide ((List.replicate 0x10000 (0 : Word)).length ≤ 0xFFFF) = true
  rw [List.length_replicate]
  decide

theorem test_wf_display1bpp_address_without_b : ¬ WellFormed (.display1bpp 0 0 0 16 2 2 0x00FF (some 0)) := by decide

theorem test_wf_display1bpp_b_without_address : ¬ WellFormed (.display1bpp 1 0 0 16 2 2 0x00FF none) := by decide

/-! ### Decoding: each operation's words, from the table of R94 (OP in the high byte, MOD in the low; low half first) -/

theorem test_decode_wrCmd : decodeRequest [0x0100, 0x0010] = .ok (.op (.wrCmd 0 0x0010), []) := by decide

theorem test_decode_wrData : decodeRequest [0x0200, 0xABCD] = .ok (.op (.wrData 0 0xABCD), []) := by decide

theorem test_decode_wrMulti : decodeRequest [0x0300, 0x0002, 0x0102, 0x0304] =
    .ok (.op (.wrMulti 0 [0x0102, 0x0304]), []) := by decide

theorem test_decode_rdData : decodeRequest [0x0480, 0x0200] = .ok (.op (.rdData 0x80), [0x0200]) := by decide

theorem test_decode_rdMulti : decodeRequest [0x0500, 0x0002] = .ok (.op (.rdMulti 0 2), []) := by decide

theorem test_decode_wrMultiArg : decodeRequest [0x0600, 0x0039, 0x0002, 0x0001, 0x07DA] =
    .ok (.op (.wrMultiArg 0 0x0039 [0x0001, 0x07DA]), []) := by decide

theorem test_decode_rdReg : decodeRequest [0x0700, 0x1224] = .ok (.op (.rdReg 0 0x1224), []) := by decide

theorem test_decode_wrReg : decodeRequest [0x0800, 0x1250, 0x00FF] = .ok (.op (.wrReg 0 0x1250 0x00FF), []) := by
  decide

theorem test_decode_init : decodeRequest [0x1001, 0x07DA] = .ok (.op (.init 1 2010), []) := by decide

theorem test_decode_beginLoad : decodeRequest [0x2030, 0x36E0, 0x0012] =
    .ok (.op (.beginLoad 0x30 0x001236E0), []) := by decide

theorem test_decode_beginLoadArea : decodeRequest [0x2110, 0x36E0, 0x0012, 1, 2, 16, 4] =
    .ok (.op (.beginLoadArea 0x10 0x001236E0 1 2 16 4), []) := by decide

theorem test_decode_endLoad : decodeRequest [0x2200] = .ok (.op (.endLoad 0), []) := by decide

theorem test_decode_load1bpp : decodeRequest [0x3100, 0x36E0, 0x0012, 0x0001, 0x0000, 2, 3, 4, 16, 5] =
    .ok (.op (.load1bpp 0 0x001236E0 1 2 3 4 16 5), []) := by decide

theorem test_decode_load2bpp : decodeRequest [0x3207, 0x36E0, 0x0012, 0x0000, 0x0001, 2, 3, 4, 16, 5] =
    .ok (.op (.load2bpp 7 0x001236E0 0x00010000 2 3 4 16 5), []) := by decide

theorem test_decode_load4bpp : decodeRequest [0x3406, 0x36E0, 0x0012, 0x0000, 0x0000, 8, 0, 0, 16, 2] =
    .ok (.op (.load4bpp 6 0x001236E0 0 8 0 0 16 2), []) := by decide

theorem test_decode_load8bpp : decodeRequest [0x3808, 0x36E0, 0x0012, 0x0100, 0x0000, 8, 2, 1, 6, 3] =
    .ok (.op (.load8bpp 8 0x001236E0 0x100 8 2 1 6 3), []) := by decide

theorem test_decode_displayArea : decodeRequest [0x4000, 1, 2, 16, 4, 3] =
    .ok (.op (.displayArea 0 1 2 16 4 3), []) := by decide

theorem test_decode_displayAreaBuf : decodeRequest [0x4100, 1, 2, 16, 5, 3, 0x36E0, 0x0012] =
    .ok (.op (.displayAreaBuf 0 1 2 16 5 3 0x001236E0), []) := by decide

/-- The same six words with B = 1 take an address, and with B = 0 leave it. -/
theorem test_decode_display1bpp :
    decodeRequest [0x4201, 0, 1, 16, 2, 3, 0x0AFF, 0x36E0, 0x0012] =
      .ok (.op (.display1bpp 1 0 1 16 2 3 0x0AFF (some 0x001236E0)), []) ∧
    decodeRequest [0x4200, 0, 1, 16, 2, 3, 0x0AFF, 0x36E0, 0x0012] =
      .ok (.op (.display1bpp 0 0 1 16 2 3 0x0AFF none), [0x36E0, 0x0012]) := by decide

theorem test_decode_waitRenderIdle : decodeRequest [0x4300] = .ok (.op (.waitRenderIdle 0), []) := by decide

theorem test_decode_clearAndRefresh : decodeRequest [0x4400, 0x36E0, 0x0012, 0x0002] =
    .ok (.op (.clearAndRefresh 0 0x001236E0 2), []) := by decide

theorem test_decode_refresh1bpp : decodeRequest [0x5101, 0x0004, 0x0003, 1, 2, 16, 4, 0x36E0, 0x0012] =
    .ok (.op (.refresh1bpp 1 0x00030004 1 2 16 4 0x001236E0), []) := by decide

theorem test_decode_refresh2bpp : decodeRequest [0x5202, 0x0004, 0x0003, 1, 2, 16, 4, 0x36E0, 0x0012] =
    .ok (.op (.refresh2bpp 2 0x00030004 1 2 16 4 0x001236E0), []) := by decide

theorem test_decode_refresh4bpp : decodeRequest [0x5400, 0, 0, 0, 0, 16, 4, 0x36E0, 0x0012] =
    .ok (.op (.refresh4bpp 0 0 0 0 16 4 0x001236E0), []) := by decide

theorem test_decode_refresh8bpp : decodeRequest [0x5803, 0x0004, 0x0003, 1, 2, 16, 4, 0x36E0, 0x0012] =
    .ok (.op (.refresh8bpp 3 0x00030004 1 2 16 4 0x001236E0), []) := by decide

theorem test_decode_sleep : decodeRequest [0x6000] = .ok (.op (.sleep 0), []) := by decide

theorem test_decode_standby : decodeRequest [0x6100, 0x6000] = .ok (.op (.standby 0), [0x6000]) := by decide

/-- R96: the ends of the reserved ranges next to operations. -/
theorem test_decode_reserved :
    let hs : List Word := [0x0000, 0x0900, 0x0FFF, 0x1100, 0x1F00, 0x2300, 0x3000, 0x3300, 0x3500, 0x3700, 0x3900,
      0x3F00, 0x4500, 0x5000, 0x5300, 0x5500, 0x5700, 0x5900, 0x5F00, 0x6200, 0xFF00]
    hs.map (fun h => decodeRequest [h, 0x0100]) = hs.map (fun h => .ok (.reserved h, [0x0100])) := by decide

theorem test_decode_cut_short :
    decodeRequest [0x3800, 0x36E0, 0x0012] = .error (.truncated 0) ∧
    decodeProgram [0x0400, 0x0300, 0x0002, 0x0001] = .error (.truncated 1) := by decide

/-- The header of each row of spec/opcode_table.json, its operand words zero, is read as that row's operation. -/
theorem test_table_words :
    let ops : List Nat := [0x01, 0x02, 0x03, 0x04, 0x05, 0x06, 0x07, 0x08, 0x10, 0x20, 0x21, 0x22, 0x31, 0x32, 0x34, 0x38,
      0x40, 0x41, 0x42, 0x43, 0x44, 0x51, 0x52, 0x54, 0x58, 0x60, 0x61]
    ops.map (fun n => (decodeTableWord 16 (n * 256)).map Instr.opcode) = ops.map (fun n => some (BitVec.ofNat 8 n)) := by
  decide +kernel

/-! ### The machines of the vectors -/

/-- REFCFG with numbers for its open parameters (RV, the inter-burst delay), as 95_test_vectors.md writes them
symbolically. -/
def refCfg : Config := { refConfig with vcomAccess := .register 0x7777, interBurstDelayMs := 7 }

/-- A chip with every busy sample idle, the given bytes to read and every allocation granted. -/
def chipOf (rx : List Byte) : Oracle :=
  { waits := List.replicate 100 (.idleAfter 0), rx := rx, alloc := [true], freeWaits := 0, freeRx := 0,
    freeAllocs := 0, freeRenders := 0 }

/-- How many of the chip's 100 answers to busy-waits are left: two go with each frame (R130). -/
def waitsUsed (t : State) : Nat := 100 - t.chip.waits.length

/-- A launched machine that has not run yet. -/
def unready (rx : List Byte) : State := State.launch refCfg [] [] (chipOf rx)

/-- The descriptor of "Ready, 16x4", its version fields blank. -/
def panel : Descriptor :=
  { panelW := 16, panelH := 4, imgAddr := 0x001236E0, fwVer := List.replicate 16 0, lutVer := List.replicate 16 0 }

/-- "Ready, 16x4". -/
def ready (rx : List Byte) : State :=
  { unready rx with session := .ready, desc := some panel, tgt := some 0x001236E0 }

/-- "Ready, 16x4" with SRC_SIZE = 16 and bytes 0x10 to 0x1F there. -/
def readySrc (rx : List Byte) : State :=
  { ready rx with
    cfg := { refCfg with srcSize := 16 }
    src := Memory.writeBytes [] 0
      [0x10, 0x11, 0x12, 0x13, 0x14, 0x15, 0x16, 0x17, 0x18, 0x19, 0x1A, 0x1B, 0x1C, 0x1D, 0x1E, 0x1F] }

/-- An outcome is a next state with the given property. -/
def after (o : Host.Outcome State Fault Refusal) (f : State → Bool) : Bool :=
  match o with
  | .next t => f t
  | .fault _ => false
  | .refused _ => false

/-- A next state with the given result that has emitted the given frames. -/
def sends (o : Host.Outcome State Fault Refusal) (res info : Byte) (fs : List Frame) : Bool :=
  after o (fun t => decide (t.res = res ∧ t.einfo = info ∧ t.cs = 1 ∧
    collapsed t.cfg.busyIdleLevel t.trace = fs.flatMap frameWires))

/-- `ADDR(a)` of the vectors. -/
def addr (lo hi : Word) : List Frame := [.cmd 0x0011, .wr [0x0208], .wr [lo], .cmd 0x0011, .wr [0x020A], .wr [hi]]

/-! ### The collapsed trace (R64, V13) -/

/-- V13's traces: an ended wait of two samples is one WAIT; the samples of a wait given up stay, before the preamble and
after it. -/
theorem test_collapsed :
    collapsed 1 [.poll 0, .poll 1] = [.wait] ∧
    collapsed 1 [.poll 0, .poll 0] = [.event (.poll 0), .event (.poll 0)] ∧
    collapsed 1 [.poll 0, .poll 1, .sel, .tx 0x60, .tx 0x00, .poll 0, .poll 0, .rel] =
      [.wait, .event .sel, .event (.tx 0x60), .event (.tx 0x00), .event (.poll 0), .event (.poll 0), .event .rel] := by
  decide

/-- R280: a display command must not follow another before a status read that sees idle (V11's register and mask). -/
theorem test_renderAfter :
    let idle : List Frame := [.cmd 0x0010, .wr [0x1224], .rd 0 [0x0000]]
    let busy : List Frame := [.cmd 0x0010, .wr [0x1224], .rd 0 [0x0001]]
    renderAfter refCfg (false, .nothing) ([.cmd 0x0034, .wr [0]] ++ busy ++ [.cmd 0x0037]) = none ∧
    renderAfter refCfg (false, .nothing) ([.cmd 0x0034, .wr [0]] ++ busy ++ idle ++ [.cmd 0x0037]) =
      some (true, .nothing) ∧
    renderAfter refCfg (true, .nothing) [.rst 1, .rst 0, .rst 1, .cmd 0x0003] = some (false, .nothing) := by
  decide +kernel

/-! ### Raw operations (V12, V13) -/

theorem test_wrCmd : after (exec (.wrCmd 0 0x0010) (unready []))
    (fun t => decide (t.trace = [.poll 1, .sel, .tx 0x60, .tx 0x00, .poll 1, .tx 0x00, .tx 0x10, .rel] ∧ t.res = 0))
    = true := by decide +kernel

theorem test_wrCmd_tracked : sends (exec (.wrCmd 0 0x0034) (unready [])) 7 3 [] = true := by decide +kernel

theorem test_wrData_in_a_load : sends (exec (.wrData 0 0x1234) { ready [] with loadOpen := true }) 0 0
    [.wr [0x1234]] = true := by decide +kernel

theorem test_wrData_times_out_late : after (exec (.wrData 0 0xBEEF)
      { unready [] with cfg := { refCfg with pollLimit := some 2 },
                        chip := { chipOf [] with waits := [.idleAfter 0, .never] } })
    (fun t => decide (t.trace = [.poll 1, .sel, .tx 0x00, .tx 0x00, .poll 0, .poll 0, .rel] ∧ t.res = 1 ∧
      t.einfo = 2 ∧ t.faults = 2 ∧ t.cs = 1)) = true := by decide +kernel

theorem test_wrMulti : sends (exec (.wrMulti 0 [0x0102, 0x0304]) (unready [])) 0 0 [.wr [0x0102, 0x0304]] = true := by
  decide +kernel

theorem test_wrMulti_over_burst : sends (exec (.wrMulti 0 (List.replicate 8191 0)) (unready [])) 2 6 [] = true := by
  decide +kernel

theorem test_rdData : after (exec (.rdData 0) (unready [0x5A, 0xA5, 0xBE, 0xEF]))
    (fun t => decide (t.rdata = some 0xBEEF ∧ t.trace = [.poll 1, .sel, .tx 0x10, .tx 0x00, .poll 1, .rx 0x5A, .rx 0xA5,
      .rx 0xBE, .rx 0xEF, .rel])) = true := by decide +kernel

theorem test_rdMulti : after (exec (.rdMulti 0 2) (unready [9, 9, 0, 1, 0, 2]))
    (fun t => decide (t.rbuf = [0x0001, 0x0002] ∧ t.rdata = none ∧ t.res = 0)) = true := by decide +kernel

theorem test_rdMulti_none : sends (exec (.rdMulti 0 0) (unready [])) 7 2 [] = true := by decide +kernel

theorem test_wrMultiArg : sends (exec (.wrMultiArg 0 0x0039 [0x0001, 0x07DA]) (unready [])) 0 0
    [.cmd 0x0039, .wr [0x0001], .wr [0x07DA]] = true := by decide +kernel

/-- V23: a tracked code is found before the count, under MULTI framing. -/
theorem test_wrMultiArg_tracked_first : sends (exec (.wrMultiArg 0 0x0034 (List.replicate 9000 0))
    { unready [] with cfg := { refCfg with argFraming := .multi } }) 7 3 [] = true := by decide +kernel

theorem test_rdReg : after (exec (.rdReg 0 0x1250) (unready [0x5A, 0x5A, 0x00, 0xFF]))
    (fun t => decide (t.rdata = some 0x00FF ∧ collapsed 1 t.trace =
      ([.cmd 0x0010, .wr [0x1250], .rd 0x5A5A [0x00FF]] : List Frame).flatMap frameWires)) = true := by decide +kernel

theorem test_rdReg_in_a_load : sends (exec (.rdReg 0 0x1224) { ready [] with loadOpen := true }) 2 3 [] = true := by
  decide +kernel

theorem test_wrReg : sends (exec (.wrReg 0 0x1250 0x00FF) (unready [])) 0 0
    [.cmd 0x0011, .wr [0x1250], .wr [0x00FF]] = true := by decide +kernel

/-- A table word placed at reset is what the next step runs: END_LOAD finds no load open. -/
theorem test_fetch_word : after (step (State.reset.withFetchWord 16 0x2200))
    (fun t => decide (t.res = 2 ∧ t.einfo = 2 ∧ t.pc = 1 ∧ t.trace = [])) = true := by decide +kernel

/-! ### INIT (P3, V10, V14) -/

/-- REFCFG with no version words. -/
def shortCfg : Config := { refCfg with versionWords := 0 }

/-- A machine about to be brought up, whose descriptor read answers 16x4 and whose VCOM read answers `vcom`. -/
def dark (vcom : Word) : State :=
  { unready [0, 0, 0x00, 0x10, 0x00, 0x04, 0x36, 0xE0, 0x00, 0x12, 0, 0, hiByte vcom, loByte vcom] with cfg := shortCfg }

theorem test_init_sets_vcom : sends (exec (.init 0 2010) (dark 2000)) 0 0
    [.rst 1, .delay 200, .rst 0, .delay 10, .rst 1, .delay 200, .cmd 0x0001, .cmd 0x0302,
     .rd 0 [0x0010, 0x0004, 0x36E0, 0x0012], .cmd 0x0011, .wr [0x0004], .wr [0x0001], .cmd 0x0010, .wr [0x7777],
     .rd 0 [0x07D0], .cmd 0x0011, .wr [0x7777], .wr [0x07DA]] = true := by decide +kernel

/-- P3's end state, version fields and all. -/
theorem test_init_descriptor : after (exec (.init 0 2010) (unready
      ([0, 0, 0, 0x10, 0, 0x04, 0x36, 0xE0, 0x00, 0x12, 0x76, 0x31, 0x2E, 0x30, 0, 0, 0, 0, 0, 0, 0, 0, 0, 0, 0, 0,
        0x4D, 0x36, 0x34, 0x31, 0, 0, 0, 0, 0, 0, 0, 0, 0, 0, 0, 0] ++ [0, 0, 0x07, 0xDA])))
    (fun t => decide (t.session = .ready ∧ t.tgt = some 0x001236E0 ∧ t.desc = some
      { panelW := 16, panelH := 4, imgAddr := 0x001236E0,
        fwVer := [0x76, 0x31, 0x2E, 0x30, 0, 0, 0, 0, 0, 0, 0, 0, 0, 0, 0, 0],
        lutVer := [0x4D, 0x36, 0x34, 0x31, 0, 0, 0, 0, 0, 0, 0, 0, 0, 0, 0, 0] })) = true := by decide +kernel

/-! ### The load protocol (V15) -/

theorem test_beginLoad : sends (exec (.beginLoad 0x25 0x00200000) (ready [])) 0 0
    (addr 0x0000 0x0020 ++ [.cmd 0x0020, .wr [0x0121]]) = true := by decide +kernel

theorem test_beginLoad_psel_reserved : sends (exec (.beginLoad 0 0x001236E0) (ready [])) 7 5 [] = true := by
  decide +kernel

theorem test_beginLoadArea : sends (exec (.beginLoadArea 0x10 0x001236E0 0 0 16 4) (ready [])) 0 0
    (addr 0x36E0 0x0012 ++ [.cmd 0x0021, .wr [0], .wr [0], .wr [0], .wr [16], .wr [4]]) = true := by decide +kernel

theorem test_beginLoadArea_too_tall :
    sends (exec (.beginLoadArea 0x10 0x001236E0 0 1 16 4) (ready [])) 4 3 [] = true := by decide +kernel

/-- MULTI framing with `B_WORDS = 4`: the five arguments in frames of at most four words (R134; log 20). -/
theorem test_beginLoadArea_multi : sends (exec (.beginLoadArea 0x20 0x001236E0 0 0 16 4)
    { ready [] with cfg := { refCfg with argFraming := .multi, bWords := 4, versionWords := 0 } }) 0 0
    [.cmd 0x0011, .wr [0x0208, 0x36E0], .cmd 0x0011, .wr [0x020A, 0x0012], .cmd 0x0021, .wr [0x0020, 0, 0, 16], .wr [4]] =
    true := by decide +kernel

theorem test_endLoad : sends (exec (.endLoad 0) { unready [] with loadOpen := true }) 0 0 [.cmd 0x0022] = true := by
  decide +kernel

theorem test_endLoad_without_load : sends (exec (.endLoad 0) (ready [])) 2 2 [] = true := by decide +kernel

/-! ### The loads (V16, V18, V19, V23, P2, P4) -/

/-- P4: x and width in bytes. -/
theorem test_load1bpp : sends (exec (.load1bpp 0 0x001236E0 0 2 0 0 16 2) (readySrc [])) 0 0
    (addr 0x36E0 0x0012 ++ [.cmd 0x0021, .wr [0x0030], .wr [0], .wr [0], .wr [2], .wr [2], .wr [0x1011, 0x1213],
      .cmd 0x0022]) = true := by decide +kernel

theorem test_load1bpp_wide : sends (exec (.load1bpp 0 0x001236E0 0 2 4 0 16 1) (readySrc [])) 4 2 [] = true := by
  decide +kernel

theorem test_load2bpp_first_low : sends (exec (.load2bpp 1 0x001236E0 4 2 8 3 8 1)
    { readySrc [] with cfg := { refCfg with srcSize := 16, pairOrder := .firstLow } }) 0 0
    (addr 0x36E0 0x0012 ++ [.cmd 0x0021, .wr [0x0001], .wr [8], .wr [3], .wr [8], .wr [1], .wr [0x1514],
      .cmd 0x0022]) = true := by decide +kernel

/-- V16: under TRUNCATE a row of 12 pixels keeps its one whole word. -/
theorem test_load2bpp_truncates : sends (exec (.load2bpp 0 0x001236E0 0 3 0 0 12 2)
    { readySrc [] with cfg := { refCfg with srcSize := 16, rowAlign := .truncate } }) 0 0
    (addr 0x36E0 0x0012 ++ [.cmd 0x0021, .wr [0x0000], .wr [0], .wr [0], .wr [12], .wr [2], .wr [0x1011, 0x1314],
      .cmd 0x0022]) = true := by decide +kernel

theorem test_load4bpp : sends (exec (.load4bpp 6 0x001236E0 0 8 0 0 16 2) (readySrc [])) 0 0
    (addr 0x36E0 0x0012 ++ [.cmd 0x0021, .wr [0x0122], .wr [0], .wr [0], .wr [16], .wr [2],
      .wr [0x1011, 0x1213, 0x1415, 0x1617, 0x1819, 0x1A1B, 0x1C1D, 0x1E1F], .cmd 0x0022]) = true := by decide +kernel

theorem test_load4bpp_alloc_fails : sends (exec (.load4bpp 0 0x001236E0 0 8 0 0 16 2)
    { readySrc [] with chip := { chipOf [] with alloc := [false] } }) 3 0 [] = true := by decide +kernel

/-- P2's machine: telegrams of two rows, bursts of four words, six bytes in each row of SRC. -/
def readyRows : State :=
  { ready [] with
    cfg := { refCfg with tRows := 2, bWords := 4, versionWords := 0, srcSize := 0x118 }
    src := ((Memory.writeBytes [] 0x100 [0x10, 0x11, 0x12, 0x13, 0x14, 0x15]).writeBytes 0x108
      [0x20, 0x21, 0x22, 0x23, 0x24, 0x25]).writeBytes 0x110 [0x30, 0x31, 0x32, 0x33, 0x34, 0x35] }

theorem test_load8bpp_splits : after (exec (.load8bpp 0 0x001236E0 0x100 8 2 1 6 3) readyRows)
    (fun t => decide (t.res = 0 ∧ t.loadOpen = false ∧ t.tgt = some 0x001236E0 ∧ waitsUsed t = 2 * 29)) = true := by
  decide +kernel

/-- P2's bursts, the first ending in the middle of a row. -/
theorem test_load8bpp_bursts :
    let j := loadJob .d8 0 0x001236E0 0x100 8 2 1 6 3
    burstsOf 4 (telegramWords readyRows j 0) = [[0x1011, 0x1213, 0x1415, 0x2021], [0x2223, 0x2425]] ∧
    burstsOf 4 (telegramWords readyRows j 1) = [[0x3031, 0x3233, 0x3435]] := by decide +kernel

/-- V19: the last byte of the footprint is 16, one past SRC. -/
theorem test_load8bpp_past_src :
    sends (exec (.load8bpp 0 0x001236E0 1 4 0 0 4 4) (readySrc [])) 6 0 [] = true ∧
    after (exec (.load8bpp 0 0x001236E0 0 4 0 0 4 4) (readySrc [])) (fun t => t.res == 0) = true := by decide +kernel

/-! ### Display, clear, refresh and power (V21, P4) -/

theorem test_displayArea : sends (exec (.displayArea 0 0 0 16 4 2) (ready [])) 0 0
    [.cmd 0x0034, .wr [0], .wr [0], .wr [16], .wr [4], .wr [2]] = true := by decide +kernel

theorem test_displayArea_pending : sends (exec (.displayArea 0 0 0 16 4 2) { ready [] with renderPending := true }) 2 4
    [] = true := by decide +kernel

theorem test_displayAreaBuf : sends (exec (.displayAreaBuf 0 0 0 16 4 2 0x001236E0) (ready [])) 0 0
    [.cmd 0x0037, .wr [0], .wr [0], .wr [16], .wr [4], .wr [2], .wr [0x36E0], .wr [0x0012]] = true := by decide +kernel

theorem test_displayAreaBuf_too_tall :
    sends (exec (.displayAreaBuf 0 0 0 16 5 2 0x001236E0) (ready [])) 4 3 [] = true := by decide +kernel

/-- P4's answers: REG_CTRL_HI 0, status 1 and then 0, REG_CTRL_HI 4. -/
def displayAnswers : List Byte :=
  [0, 0, 0x00, 0x00, 0, 0, 0x00, 0x01, 0, 0, 0x00, 0x00, 0, 0, 0x00, 0x04]

/-- `ready` with a bounded render poll. -/
def readyPoll (rx : List Byte) : State := { ready rx with cfg := { refCfg with renderPollLimit := some 3 } }

theorem test_display1bpp : after (exec (.display1bpp 1 0 0 16 2 2 0x00FF (some 0x001236E0)) (readyPoll displayAnswers))
    (fun t => decide (t.res = 0 ∧ t.renderPending = false ∧ waitsUsed t = 2 * 29 ∧ t.chip.rx = [])) = true := by
  decide +kernel

/-- P4's frames: the mode bit goes on before the display and off after render-idle (V11). -/
theorem test_display1bppFrames :
    display1bppFrames refCfg (chipOf displayAnswers) 0 0 16 2 2 0x00 0xFF (some 0x001236E0) 1 =
    [.cmd 0x0010, .wr [0x113A], .rd 0 [0x0000], .cmd 0x0011, .wr [0x113A], .wr [0x0004],
     .cmd 0x0011, .wr [0x1250], .wr [0x00FF],
     .cmd 0x0037, .wr [0], .wr [0], .wr [16], .wr [2], .wr [2], .wr [0x36E0], .wr [0x0012],
     .cmd 0x0010, .wr [0x1224], .rd 0 [0x0001], .cmd 0x0010, .wr [0x1224], .rd 0 [0x0000],
     .cmd 0x0010, .wr [0x113A], .rd 0 [0x0004], .cmd 0x0011, .wr [0x113A], .wr [0x0000]] := by decide +kernel

theorem test_waitRenderIdle : sends (exec (.waitRenderIdle 0)
      { readyPoll [0, 0, 0, 2, 0, 0, 0, 2, 0, 0, 0, 0] with renderPending := true }) 0 0
    [.cmd 0x0010, .wr [0x1224], .rd 0 [0x0002], .cmd 0x0010, .wr [0x1224], .rd 0 [0x0002],
     .cmd 0x0010, .wr [0x1224], .rd 0 [0x0000]] = true := by decide +kernel

theorem test_waitRenderIdle_times_out : after (exec (.waitRenderIdle 0)
      { ready [0, 0, 0, 1] with renderPending := true, cfg := { refCfg with renderPollLimit := some 1 } })
    (fun t => decide (t.res = 1 ∧ t.einfo = 3 ∧ t.session = .unready ∧ t.renderPending = true)) = true := by
  decide +kernel

theorem test_clearAndRefresh : after (exec (.clearAndRefresh 0 0x001236E0 2) (ready []))
    (fun t => decide (t.res = 0 ∧ t.loadOpen = false ∧ t.renderPending = true ∧ t.tgt = some 0x001236E0 ∧
      waitsUsed t = 2 * 22)) = true := by decide +kernel

theorem test_clear_frames : loadFrames (ready []) (clearJob refCfg panel 0x001236E0) =
    addr 0x36E0 0x0012 ++ [.cmd 0x0021, .wr [0x0020], .wr [0], .wr [0], .wr [16], .wr [4],
      .wr (List.replicate 16 0xFFFF), .cmd 0x0022] := by decide +kernel

/-- The map's answers differ by depth in the waveform mode, and wait exactly when HOLD is 1. -/
def refreshRow (mode : Word) : Vector (Vector RefreshChoice 2) 2 :=
  #v[#v[⟨mode, 0x12FF, false⟩, ⟨mode, 0x12FF, false⟩], #v[⟨mode, 0x12FF, true⟩, ⟨mode, 0x12FF, true⟩]]

/-- `readySrc` with a `REFRESH_MAP`. -/
def readyMap (rx : List Byte) : State :=
  { readySrc rx with
    cfg := { refCfg with
      srcSize := 16
      renderPollLimit := some 3
      refreshMap := some #v[refreshRow 1, refreshRow 2, refreshRow 4, refreshRow 8] } }

/-- R272, R273: the 1-bpp sequence, whatever the map's wait says: 14 frames of load, 29 of display. -/
theorem test_refresh1bpp : after (exec (.refresh1bpp 0 0 0 0 16 2 0x001236E0) (readyMap displayAnswers))
    (fun t => decide (t.res = 0 ∧ t.renderPending = false ∧ waitsUsed t = 2 * (14 + 29) ∧ t.chip.rx = [])) = true := by
  decide +kernel

/-- HOLD = 0: no render wait. -/
theorem test_refresh2bpp : after (exec (.refresh2bpp 0 0 0 0 16 2 0x001236E0) (readyMap []))
    (fun t => decide (t.res = 0 ∧ t.renderPending = true ∧ waitsUsed t = 2 * (14 + 8))) = true := by decide +kernel

theorem test_refresh4bpp_without_map : sends (exec (.refresh4bpp 0 0 0 0 16 4 0x001236E0) (ready [])) 7 4 [] = true := by
  decide +kernel

/-- HOLD = 1: the map asks for the render wait. -/
theorem test_refresh4bpp_waits : after (exec (.refresh4bpp 1 0 0 0 16 2 0x001236E0) (readyMap [0, 0, 0, 0]))
    (fun t => decide (t.res = 0 ∧ t.renderPending = false ∧ waitsUsed t = 2 * (14 + 8 + 3) ∧ t.chip.rx = [])) = true := by
  decide +kernel

theorem test_refresh8bpp : after (exec (.refresh8bpp 2 0 0 0 16 1 0x001236E0) (readyMap []))
    (fun t => decide (t.res = 0 ∧ t.renderPending = true ∧ t.tgt = some 0x001236E0)) = true := by decide +kernel

/-- V23: an open render is found before the missing map. -/
theorem test_refresh8bpp_pending :
    sends (exec (.refresh8bpp 0 0 0 0 16 4 0x001236E0) { ready [] with renderPending := true }) 2 4 [] = true := by
  decide +kernel

theorem test_sleep : after (exec (.sleep 0) (ready []))
    (fun t => decide (t.session = .unready ∧ t.desc = some panel ∧
      collapsed 1 t.trace = ([.cmd 0x0003] : List Frame).flatMap frameWires)) = true := by decide +kernel

theorem test_standby : sends (exec (.standby 0) (ready [])) 0 0 [.cmd 0x0002] = true := by decide +kernel

theorem test_standby_in_a_load : sends (exec (.standby 0) { ready [] with loadOpen := true }) 2 3 [] = true := by
  decide +kernel

/-! ### Witnesses: concrete states and operands that meet the hypotheses of the statements -/

theorem after_next {o : Host.Outcome State Fault Refusal} {f : State → Bool} (h : after o f = true) :
    ∃ t, o = .next t ∧ f t = true := by
  cases o with
  | next t => exact ⟨t, rfl, h⟩
  | fault _ => cases h
  | refused _ => cases h

/-- A queue of busy-waits that are idle at once. -/
theorem waitsEnd_idle {s : State} {n m : Nat} (hw : s.chip.waits = List.replicate m (.idleAfter 0))
    (hl : EndsWithin s.cfg.pollLimit 0) (hn : n ≤ m) : WaitsEnd s n := by
  refine ⟨by rw [hw, List.length_replicate]; exact hn, fun r hr => ⟨0, ?_, hl⟩⟩
  rw [hw] at hr
  exact List.eq_of_mem_replicate (List.mem_of_mem_take hr)

/-- The same from a check. -/
theorem waitsEnd_of {s : State} (n : Nat) (h : decide (s.chip.waits = List.replicate 100 (.idleAfter 0) ∧
    s.cfg.pollLimit = none ∧ n ≤ 100) = true) : WaitsEnd s n := by
  obtain ⟨h1, h2, h3⟩ := of_decide_eq_true h
  exact waitsEnd_idle h1 (fun l hl => by rw [h2] at hl; cases hl) h3

/-- A state between operations, in the middle of a run. -/
theorem ready_inv (ws : List Word) : Inv { ready [] with prog := ws } := by
  refine ⟨rfl, rfl, fun _ => by simp [ready], fun d hd => ?_, by simp [ready, unready, State.launch, State.reset],
    ⟨fun _ => rfl, Nat.zero_le 7, fun h => absurd rfl h, ?_⟩, rfl⟩
  · cases hd
    exact ⟨⟨by decide, by decide, rfl, rfl⟩, by simp [ready]⟩
  · show (0 : Byte).getLsbD 0 = false
    decide

/-! #### Encoding -/

/-- DecodeOfEncode, CutShortRequestIsRefused: the shortest and a variable-length operation, both address forms. -/
theorem witness_wellFormed :
    WellFormed (.endLoad 0) ∧ WellFormed (.wrMulti 0 []) ∧ WellFormed (.wrMultiArg 0 0x0039 [1, 2]) ∧
    WellFormed (.display1bpp 1 0 0 16 2 2 0x00FF (some 0)) ∧ WellFormed (.display1bpp 0 0 0 16 2 2 0x00FF none) ∧
    0 < (encode (.endLoad 0)).length ∧ 4 < (encode (.wrMultiArg 0 0x0039 [1, 2])).length := by decide

/-- DecodedWordsAreTheEncoding. -/
theorem witness_decodes : decodeRequest [0x0600, 0x0039, 0x0001, 0xFFFF, 0x6000] =
    .ok (.op (.wrMultiArg 0 0x0039 [0xFFFF]), [0x6000]) := by decide

/-- ReservedRequests: a list with a reserved OP at each end of the table. -/
theorem witness_reservedOp :
    ReservedOp ((0x0000 : Word).extractLsb' 8 8).toNat ∧ ReservedOp ((0x0905 : Word).extractLsb' 8 8).toNat ∧
    ReservedOp ((0x62FF : Word).extractLsb' 8 8).toNat ∧ ReservedOp ((0xFF00 : Word).extractLsb' 8 8).toNat := by
  refine ⟨?_, ?_, ?_, ?_⟩ <;> (unfold ReservedOp; decide)

/-- ProgramsDecode. -/
theorem witness_requestOk : ∀ r ∈ [Request.op (.wrCmd 0 0x0010), .reserved 0x0900, .op (.display1bpp 0 0 0 1 1 2 3 none)],
    RequestOk r := by
  intro r hr
  simp only [List.mem_cons, List.not_mem_nil, or_false] at hr
  rcases hr with rfl | rfl | rfl
  · exact rfl
  · show ReservedOp _
    unfold ReservedOp
    decide
  · exact rfl

/-- ReservedRequests and StepRunsTheRequest: the second request of a program. -/
theorem witness_step :
    configLegal (unready []).cfg = true ∧
    decodeProgram [0x6100, 0x0900, 0x2200] = .ok [.op (.standby 0), .reserved 0x0900, .op (.endLoad 0)] ∧
    (unready []).cs = 1 ∧
    [Request.op (.standby 0), .reserved 0x0900, .op (.endLoad 0)][1]? = some (.reserved 0x0900) ∧
    [Request.op (.standby 0), .reserved 0x0900, .op (.endLoad 0)][2]? = some (.op (.endLoad 0)) := by decide +kernel

/-- StepRefusesOutsideARun: each of its three cases. -/
theorem witness_refused :
    (configLegal { refCfg with bWords := 19 } = false ∧ configLegal { refCfg with bWords := 20 } = true) ∧
    decodeProgram [0x2200, 0x0100] = .error (.truncated 1) ∧
    (decodeProgram [0x2200] = .ok [.op (.endLoad 0)] ∧ [Request.op (.endLoad 0)].length ≤ 1) := by decide +kernel

/-! #### Invariants and whole-machine rules -/

/-- StepKeepsInvariant, PcAdvancesByOne, ResultCodes, InputsAreNeverWritten, TraceOnlyGrows, FaultsAreSticky
(success). -/
theorem witness_keeps_invariant : Inv { ready [] with prog := [0x2030, 0x36E0, 0x0012] } ∧
    ∃ t, step { ready [] with prog := [0x2030, 0x36E0, 0x0012] } = .next t ∧
      decide (t.res = 0 ∧ t.loadOpen = true ∧ t.pc = 1) = true :=
  ⟨ready_inv _, after_next (f := fun t => decide (t.res = 0 ∧ t.loadOpen = true ∧ t.pc = 1)) (by decide +kernel)⟩

/-- SuccessEpilogueEffect: a body that ends, and an operation that succeeds. -/
theorem witness_success : (delay 7) (ready []) = .ok () (State.emit [.delay 7] (ready [])) ∧ (ready []).cs = 1 ∧
    ∃ t, exec (.wrCmd 0 0x0010) (ready []) = .next t ∧ decide (t.res = 0) = true :=
  ⟨rfl, rfl, after_next (f := fun t => decide (t.res = 0)) (by decide +kernel)⟩

/-- FaultsAreSticky: an error. -/
theorem witness_error : ∃ t, step { ready [] with prog := [0x2200], faults := 0x80 } = .next t ∧
    decide (t.res = 2 ∧ t.faults = 0x84) = true :=
  after_next (f := fun t => decide (t.res = 2 ∧ t.faults = 0x84)) (by decide +kernel)

/-- A machine whose trace holds one begin-load command, with the load still open. -/
def inLoad : State :=
  { ready [] with
    loadOpen := true
    prog := [0x2200]
    trace := [.poll 1, .sel, .tx 0x60, .tx 0x00, .poll 1, .tx 0x00, .tx 0x20, .rel] }

/-- StepKeepsBusDiscipline, StepKeepsLoadsPaired: closing that load. -/
theorem witness_paired : VcomApart inLoad.cfg ∧ BusDisciplined inLoad ∧ LoadsPaired inLoad ∧
    ∃ t, step inLoad = .next t ∧ decide (t.loadOpen = false ∧ t.res = 0) = true := by
  refine ⟨fun code h => (by cases h), ⟨rfl, by decide⟩, ⟨true, by decide +kernel, .inl rfl⟩,
    after_next (f := fun t => decide (t.loadOpen = false ∧ t.res = 0)) (by decide +kernel)⟩

/-- ReadRegistersAreWrittenByReads: each register written, and RDATA unread and read. -/
theorem witness_reads :
    (∃ t, exec (.rdData 0) (unready [0, 0, 0xBE, 0xEF]) = .next t ∧ decide (t.rdata = some 0xBEEF) = true) ∧
    (∃ t, exec (.rdMulti 0 1) (unready [0, 0, 0, 1]) = .next t ∧ decide (t.rbuf = [1]) = true) ∧
    (unready []).rdata = none ∧ hostReadRdata (unready []) = .error .rdataUnread ∧
    hostReadRdata { unready [] with rdata := some 7 } = .ok 7 :=
  ⟨after_next (f := fun t => decide (t.rdata = some 0xBEEF)) (by decide +kernel),
    after_next (f := fun t => decide (t.rbuf = [1])) (by decide +kernel), rfl, rfl, rfl⟩

/-- OnlyInitOpensASession: an operation that is not INIT, and an INIT that makes the session ready. -/
theorem witness_opens :
    (∃ t, exec (.sleep 0) (ready []) = .next t ∧ decide (t.res = 0 ∧ t.trace.length = 8) = true) ∧
    (∃ t, exec (.init 0 2010) (dark 2010) = .next t ∧ decide (t.res = 0 ∧ t.session = .ready) = true) ∧
    (dark 2010).session = .unready :=
  ⟨after_next (f := fun t => decide (t.res = 0 ∧ t.trace.length = 8)) (by decide +kernel),
    after_next (f := fun t => decide (t.res = 0 ∧ t.session = .ready)) (by decide +kernel), rfl⟩

/-- A ready machine under POLL_LIMIT = 1 whose `n + 1`-th busy-wait never ends. -/
def lateAfter (n : Nat) : State :=
  { readySrc [] with
    cfg := { refCfg with srcSize := 16, pollLimit := some 1 }
    chip := { chipOf [] with waits := List.replicate n (.idleAfter 0) ++ [.never] } }

/-- LoadMirrorChanges: opened by a begin, left open by a load whose first burst times out, closed by an end and by INIT;
TimeoutsNeedALimit: the busy-wait's timeout; RefusalsEmitNothing's other case. -/
theorem witness_load_mirror :
    (∃ t, exec (.beginLoad 0x30 0) (ready []) = .next t ∧ decide (t.loadOpen = true ∧ t.res = 0) = true) ∧
    (∃ t, exec (.load4bpp 0 0 0 8 0 0 16 2) (lateAfter 24) = .next t ∧
      decide (t.loadOpen = true ∧ t.res = 1 ∧ t.einfo = 1 ∧ t.session = .unready) = true) ∧
    (∃ t, exec (.endLoad 0) inLoad = .next t ∧ decide (t.loadOpen = false ∧ t.res = 0) = true) ∧
    (∃ t, exec (.init 0 2010) { dark 2010 with loadOpen := true } = .next t ∧ decide (t.loadOpen = false) = true) :=
  ⟨after_next (f := fun t => decide (t.loadOpen = true ∧ t.res = 0)) (by decide +kernel),
    after_next (f := fun t => decide (t.loadOpen = true ∧ t.res = 1 ∧ t.einfo = 1 ∧ t.session = .unready))
      (by decide +kernel),
    after_next (f := fun t => decide (t.loadOpen = false ∧ t.res = 0)) (by decide +kernel),
    after_next (f := fun t => decide (t.loadOpen = false)) (by decide +kernel)⟩

/-- The answers of `lateAfter 30`, with a register that reads 0. -/
def lateReads : Oracle := { (lateAfter 30).chip with rx := [0, 0, 0, 0] }

/-- RenderMirrorChanges: set by a display, a clear and a refresh that complete, left set by a 1-bpp display whose first
status reading times out, and cleared by a wait and by INIT. -/
theorem witness_render_mirror :
    let set := fun (res : Byte) (t : State) => decide (t.renderPending = true ∧ t.res = res)
    (∃ t, exec (.displayArea 0 0 0 16 4 2) (ready []) = .next t ∧ set 0 t = true) ∧
    (∃ t, exec (.clearAndRefresh 0 0 2) (ready []) = .next t ∧ set 0 t = true) ∧
    (∃ t, exec (.refresh8bpp 0 0 0 0 16 1 0) (readyMap []) = .next t ∧ set 0 t = true) ∧
    (∃ t, exec (.display1bpp 0 0 0 16 4 2 0 none) { lateAfter 30 with chip := lateReads } = .next t ∧ set 1 t = true) ∧
    (∃ t, exec (.waitRenderIdle 0) { readyPoll [0, 0, 0, 0] with renderPending := true } = .next t ∧
      decide (t.renderPending = false ∧ t.res = 0) = true) ∧
    (∃ t, exec (.init 0 2010) { dark 2010 with renderPending := true } = .next t ∧
      decide (t.renderPending = false) = true) :=
  ⟨after_next (by decide +kernel), after_next (by decide +kernel), after_next (by decide +kernel),
    after_next (by decide +kernel),
    after_next (f := fun t => decide (t.renderPending = false ∧ t.res = 0)) (by decide +kernel),
    after_next (f := fun t => decide (t.renderPending = false)) (by decide +kernel)⟩

/-- `readySrc` whose next allocation fails. -/
def noAlloc : State := { readySrc [] with chip := { chipOf [] with alloc := [false] } }

/-- RefusalsEmitNothing: AllocFail, which takes its draw, and another refusal. -/
theorem witness_refusals :
    noAlloc.cs = 1 ∧
    (∃ t, exec (.load4bpp 0 0 0 8 0 0 16 2) noAlloc = .next t ∧ decide (t.res = 3) = true) ∧
    (∃ t, exec (.endLoad 0) noAlloc = .next t ∧ decide (t.res = 2) = true) :=
  ⟨rfl, after_next (f := fun t => decide (t.res = 3)) (by decide +kernel),
    after_next (f := fun t => decide (t.res = 2)) (by decide +kernel)⟩

/-- TimeoutsNeedALimit: the render poll's timeout, and an absent device. -/
theorem witness_timeouts :
    (∃ t, exec (.waitRenderIdle 0) { readyPoll [0, 0, 0, 1] with cfg := { refCfg with renderPollLimit := some 1 } } =
      .next t ∧ decide (t.res = 1 ∧ t.einfo = 3) = true) ∧
    (∃ t, exec (.init 0 2010) { unready [0, 0, 0, 0, 0, 4, 0, 0, 0, 0] with cfg := shortCfg } = .next t ∧
      decide (t.res = 5 ∧ t.einfo = 1) = true) :=
  ⟨after_next (f := fun t => decide (t.res = 1 ∧ t.einfo = 3)) (by decide +kernel),
    after_next (f := fun t => decide (t.res = 5 ∧ t.einfo = 1)) (by decide +kernel)⟩

/-- OnlyHangsStop: a busy-wait that never ends under no limit, and the state the invariant excludes. -/
theorem witness_stops :
    exec (.wrData 0 1) { unready [] with chip := { chipOf [] with waits := [.never] } } = .fault .busyHang ∧
    (unready []).cfg.pollLimit = none ∧
    exec (.displayArea 0 0 0 16 4 2) { ready [] with desc := none } = .fault .noDescriptor := ⟨rfl, rfl, rfl⟩

/-- BoundedPollsComplete, BoundedRunsEnd: both polls bounded, and a program of two requests. -/
theorem witness_bounded :
    let c : Config := { refCfg with pollLimit := some 1, renderPollLimit := some 1 }
    c.pollLimit ≠ none ∧ c.renderPollLimit ≠ none ∧ configLegal c = true ∧
    ((ready []).session = .ready → (ready []).desc ≠ none) ∧
    decodeProgram [0x0400, 0xFF00] = .ok [.op (.rdData 0), .reserved 0xFF00] ∧ Memory.wf (readySrc []).src = true := by
  decide +kernel

/-! #### Refusals -/

/-- ReservedModifiers: the lowest reserved bit of each kind of MOD, and a zero PSEL. -/
theorem witness_reserved_modifiers :
    (unready []).cs = 1 ∧ ¬ ModOk (.wrCmd 0x01 0) ∧ ¬ ModOk (.beginLoad 0x18 0) ∧ ¬ ModOk (.beginLoad 0x40 0) ∧
    ¬ ModOk (.beginLoadArea 0x07 0 0 0 1 1) ∧ ¬ ModOk (.load1bpp 0x08 0 0 0 0 0 0 0) ∧
    ¬ ModOk (.display1bpp 0x02 0 0 0 0 0 0 none) ∧ ¬ ModOk (.refresh8bpp 0x04 0 0 0 0 0 0) := by
  unfold ModOk
  decide

/-- AdmissionTable: each entry of its state columns, and the three counts one above `B_WORDS`. -/
theorem witness_admission :
    ModOk (.rdData 0) ∧ misuseIn { ready [] with loadOpen := true } (admission (.rdData 0)) = some 3 ∧
    ModOk (.beginLoad 0x30 0) ∧ misuseIn { ready [] with loadOpen := true } (admission (.beginLoad 0x30 0)) = some 1 ∧
    misuseIn (unready []) (admission (.beginLoad 0x30 0)) = some 5 ∧
    misuseIn { ready [] with renderPending := true } (admission (.beginLoad 0x30 0)) = some 4 ∧
    ModOk (.endLoad 0) ∧ misuseIn (ready []) (admission (.endLoad 0)) = some 2 ∧
    ModOk (.displayArea 0 0 0 1 1 0) ∧
    misuseIn { ready [] with loadOpen := true } (admission (.displayArea 0 0 0 1 1 0)) = some 3 ∧
    misuseIn (unready []) (admission (.displayArea 0 0 0 1 1 0)) = some 5 ∧
    misuseIn { ready [] with renderPending := true } (admission (.displayArea 0 0 0 1 1 0)) = some 4 ∧
    ModOk (.sleep 0) ∧ misuseIn { ready [] with loadOpen := true } (admission (.sleep 0)) = some 3 ∧
    misuseIn { ready [] with renderPending := true } (admission (.sleep 0)) = some 4 ∧
    ((List.replicate 8191 (0 : Word)).length > (ready []).cfg.bWords ∧ (8191 : Word).toNat > (ready []).cfg.bWords) ∧
    (0x0039 : Word) ∉ trackedCodes (ready []).cfg := by
  unfold ModOk
  decide +kernel

/-- OperandChecks: a tracked code, and an admitted refresh with no map. -/
theorem witness_operand_checks :
    (ready []).cs = 1 ∧ (ready []).loadOpen = false ∧ (0x0037 : Word) ∈ trackedCodes (ready []).cfg ∧
    Admitted (refreshInstr .d4 3 0 0 0 16 4 0) (ready []) ∧ (ready []).cfg.refreshMap = none := by
  unfold Admitted ModOk
  decide +kernel

/-- AreaChecks: each detail, at the first value past the panel, for each operation that checks an area. -/
theorem witness_area_checks :
    areaRefusal 0 0 0 4 16 4 = some 1 ∧ areaRefusal 0 0 16 0 16 4 = some 1 ∧ areaRefusal 1 0 16 4 16 4 = some 2 ∧
    areaRefusal 0 1 16 4 16 4 = some 3 ∧ areaRefusal 0xFFFF 0 1 1 16 4 = some 2 ∧
    (ready []).desc = some panel ∧ Admitted (.beginLoadArea 0x10 0 1 0 16 4) (ready []) ∧
    Admitted (.displayArea 0 1 0 16 4 2) (ready []) ∧ Admitted (.displayAreaBuf 0 1 0 16 4 2 0) (ready []) ∧
    Admitted (.display1bpp 1 1 0 16 4 2 0 (some 0)) (ready []) ∧
    Admitted (.display1bpp 0 1 0 16 4 2 0 none) (ready []) := by
  unfold Admitted ModOk
  decide +kernel

/-- LoadChecks: V19's refusals and V20's, on a load, a clear and a refresh. -/
theorem witness_load_checks :
    let wide : Descriptor := { panel with panelW := 1448, panelH := 1072 }
    Admitted (loadInstr .d8 0 0 1 4 0 0 4 4) (readySrc []) ∧
    loadRefusal (readySrc []) panel (loadJob .d8 0 0 1 4 0 0 4 4) = some (6, 0) ∧
    loadRefusal (readySrc []) panel (loadJob .d8 0 0 0 3 0 0 4 4) = some (4, 6) ∧
    loadRefusal (readySrc []) panel (loadJob .d1 0 0 0 2 4 0 16 1) = some (4, 2) ∧
    loadRefusal (readySrc []) panel (loadJob .d1 0 0 0 1 0 0 8 1) = some (4, 4) ∧
    loadRefusal (readySrc []) wide (loadJob .d1 0 0 0 2 4 0 16 1) = some (4, 5) ∧
    loadRefusal noAlloc panel (loadJob .d4 0 0 0 8 0 0 16 2) = some (3, 0) ∧
    Admitted (.clearAndRefresh 0 0 2) noAlloc ∧ loadRefusal noAlloc panel (clearJob refCfg panel 0) = some (3, 0) ∧
    Admitted (refreshInstr .d2 0 0 0 0 16 5 0) (readyMap []) ∧ (readyMap []).cfg.refreshMap ≠ none ∧
    loadRefusal (readyMap []) panel (refreshJob .d2 0 0 0 16 5 0) = some (4, 3) := by
  unfold Admitted ModOk
  decide +kernel

/-! #### Completion -/

/-- A machine under POLL_LIMIT = 4 with the given answers to its busy-waits. -/
def slow (waits : List BusyRun) : State :=
  { unready [] with cfg := { refCfg with pollLimit := some 4 }, chip := { chipOf [] with waits := waits } }

/-- WriteFrames, ReadFrames: the last sample the limit allows, and the largest count. -/
theorem witness_frames :
    let s := slow [.idleAfter 3, .idleAfter 0]
    s.chip.waits = .idleAfter 3 :: .idleAfter 0 :: [] ∧ EndsWithin s.cfg.pollLimit 3 ∧ EndsWithin s.cfg.pollLimit 0 ∧
    s.loadOpen = false ∧ (0x0010 : Word) ∉ trackedCodes s.cfg ∧ 1 ≤ [(0 : Word)].length ∧
    [(0 : Word)].length ≤ s.cfg.bWords ∧ (8190 : Word) ≠ 0 ∧ (8190 : Word).toNat ≤ s.cfg.bWords := by
  refine ⟨rfl, fun l h => ?_, fun l h => ?_, rfl, by decide, by decide, by decide, by decide, by decide⟩ <;>
    (cases h; decide)

/-- WriteTimeouts: one busy sample more than that in phase 1, and a line that never reads idle in phase 2; a command code
and a word that may be sent. -/
theorem witness_write_timeouts :
    (slow [.idleAfter 4]).loadOpen = false ∧ (0x0010 : Word) ∉ trackedCodes (slow []).cfg ∧
    1 ≤ [(0 : Word)].length ∧ [(0 : Word)].length ≤ (slow []).cfg.bWords ∧ (slow [.idleAfter 4]).cs = 1 ∧
    (slow [.idleAfter 4]).cfg.pollLimit = some 4 ∧
    (slow [.idleAfter 4]).chip.waits = .idleAfter 4 :: [] ∧ (∀ k, BusyRun.idleAfter 4 = .idleAfter k → 4 ≤ k) ∧
    (slow [.idleAfter 3, .never]).chip.waits = .idleAfter 3 :: .never :: [] ∧ 3 < 4 ∧
    (∀ k, BusyRun.never = .idleAfter k → 4 ≤ k) :=
  ⟨rfl, by decide, by decide, by decide, rfl, rfl, rfl, fun k h => (by cases h; decide), rfl, by decide,
    fun k h => (by cases h)⟩

/-- OperationsSendWholeFrames: MULTI framing with the smallest `B_WORDS`, and an operation that completes, one that times
out before its preamble and one that times out after it. -/
theorem witness_whole_frames :
    configLegal { refCfg with argFraming := .multi, bWords := 4, versionWords := 0 } = true ∧
    configLegal (slow []).cfg = true ∧ (slow []).cs = 1 ∧
    (∃ t, exec (.wrData 0 1) (slow [.idleAfter 3, .idleAfter 0]) = .next t ∧ decide (t.res = 0) = true) ∧
    (∃ t, exec (.wrData 0 1) (slow [.never]) = .next t ∧ decide (t.res = 1 ∧ t.einfo = 1) = true) ∧
    (∃ t, exec (.wrData 0 1) (slow [.idleAfter 3, .never]) = .next t ∧ decide (t.res = 1 ∧ t.einfo = 2) = true) :=
  ⟨by decide +kernel, by decide +kernel, rfl, after_next (f := fun t => decide (t.res = 0)) (by decide +kernel),
    after_next (f := fun t => decide (t.res = 1 ∧ t.einfo = 1)) (by decide +kernel),
    after_next (f := fun t => decide (t.res = 1 ∧ t.einfo = 2)) (by decide +kernel)⟩

/-- A ready machine whose render is pending and whose render status reads idle. -/
def rendering : State := { readyPoll [0, 0, 0, 0] with renderPending := true }

/-- RendersAreWaitedFor: a display from a state with no render, and a wait from one with a render under way. -/
theorem witness_renders :
    Inv (ready []) ∧ Inv rendering ∧ configLegal (ready []).cfg = true ∧ configLegal rendering.cfg = true ∧
    VcomApart refCfg ∧ rendering.cfg.vcomAccess = refCfg.vcomAccess ∧ rendering.renderPending = true ∧
    (∃ t, exec (.displayArea 0 0 0 16 4 2) (ready []) = .next t ∧
      decide (t.res = 0 ∧ t.renderPending = true) = true) ∧
    (∃ t, exec (.waitRenderIdle 0) rendering = .next t ∧ decide (t.res = 0 ∧ t.renderPending = false) = true) := by
  refine ⟨ready_inv _, ?_, by decide +kernel, by decide +kernel, fun code h => (by cases h), rfl, rfl,
    after_next (f := fun t => decide (t.res = 0 ∧ t.renderPending = true)) (by decide +kernel),
    after_next (f := fun t => decide (t.res = 0 ∧ t.renderPending = false)) (by decide +kernel)⟩
  obtain ⟨h1, h2, h3, h4, -, h6, h7⟩ := ready_inv []
  exact ⟨h1, h2, h3, h4, fun h => (by cases h.1), h6, h7⟩

/-- ArgumentFrames, RegisterRead, EndLoad, PowerCommands: enough answered waits. -/
theorem witness_waits :
    (unready []).loadOpen = false ∧ (unready []).renderPending = false ∧ (0x0039 : Word) ∉ trackedCodes refCfg ∧
    WaitsEnd (unready []) (waitsOf (multiArgFrames refCfg 0x0039 [1, 2])) ∧ WaitsEnd (unready []) 6 ∧
    inLoad.loadOpen = true ∧ WaitsEnd inLoad 2 :=
  ⟨rfl, rfl, by decide, waitsEnd_of _ (by decide +kernel), waitsEnd_of _ (by decide +kernel), rfl,
    waitsEnd_of _ (by decide +kernel)⟩

/-- InitCompletes, with the VCOM set and without; AbsentDevice for each detail; FailedInitClosesTheSession. -/
theorem witness_init :
    (dark 2000).cs = 1 ∧ rxWordAt (dark 2000).chip 1 ≠ 0 ∧ rxWordAt (dark 2000).chip 2 ≠ 0 ∧
    WaitsEnd (dark 2000) (waitsOf (bringUpFrames shortCfg (dark 2000).chip ++
      reconcileFrames shortCfg (dark 2000).chip 2010)) ∧
    WaitsEnd (dark 2010) (waitsOf (bringUpFrames shortCfg (dark 2010).chip ++
      reconcileFrames shortCfg (dark 2010).chip 2010)) ∧
    rxWordAt (chipOf [0, 0, 0, 0, 0, 4]) 1 = 0 ∧ rxWordAt (chipOf [0, 0, 0, 16, 0, 0]) 2 = 0 ∧
    rxWordAt (chipOf [0, 0, 0, 16, 0, 0]) 1 ≠ 0 :=
  ⟨rfl, by decide +kernel, by decide +kernel, waitsEnd_of _ (by decide +kernel), waitsEnd_of _ (by decide +kernel),
    by decide +kernel, by decide +kernel, by decide +kernel⟩

/-- BeginLoads: an admitted begin in each form, with the whole panel as its area. -/
theorem witness_begin :
    Admitted (.beginLoad 0x25 0x00200000) (ready []) ∧ Admitted (.beginLoadArea 0x25 0x00200000 0 0 16 4) (ready []) ∧
    areaRefusal 0 0 16 4 panel.panelW panel.panelH = none ∧
    WaitsEnd (ready []) (waitsOf (beginLoadFrames refCfg .big .p4 1 0x00200000)) ∧
    WaitsEnd (ready []) (waitsOf (beginAreaFrames refCfg .big .p4 1 0x00200000 0 0 16 4)) :=
  ⟨by unfold Admitted ModOk; decide +kernel, by unfold Admitted ModOk; decide +kernel, by decide,
    waitsEnd_of _ (by decide +kernel), waitsEnd_of _ (by decide +kernel)⟩

/-- A load of each depth that no check refuses, in the test machine. -/
def sampleWidth : Depth → Word
  | .d1 => 16
  | .d2 => 8
  | .d4 => 16
  | .d8 => 4

/-- LoadsComplete, LoadCounting, LoadRoundTrip, TelegramFrameCount: each depth; and two telegrams, the first in two
bursts. -/
theorem witness_loads :
    configLegal (readySrc []).cfg = true ∧ (readySrc []).cs = 1 ∧ (readySrc []).cfg.rowAlign = .reject ∧
    (readySrc []).cfg.argFraming = .perWord ∧
    (∀ d ∈ [Depth.d1, .d2, .d4, .d8], Admitted (loadInstr d 6 0x001236E0 0 8 0 0 (sampleWidth d) 2) (readySrc []) ∧
      loadRefusal (readySrc []) panel (loadJob d 6 0x001236E0 0 8 0 0 (sampleWidth d) 2) = none ∧
      WaitsEnd (readySrc []) (waitsOf (loadFrames (readySrc []) (loadJob d 6 0x001236E0 0 8 0 0 (sampleWidth d) 2)))) ∧
    configLegal readyRows.cfg = true ∧
    Admitted (loadInstr .d8 0 0x001236E0 0x100 8 2 1 6 3) readyRows ∧
    loadRefusal readyRows panel (loadJob .d8 0 0x001236E0 0x100 8 2 1 6 3) = none ∧
    WaitsEnd readyRows (waitsOf (loadFrames readyRows (loadJob .d8 0 0x001236E0 0x100 8 2 1 6 3))) := by
  refine ⟨by decide +kernel, rfl, rfl, rfl, ?_, by decide +kernel, by unfold Admitted ModOk; decide +kernel,
    by decide +kernel, waitsEnd_of _ (by decide +kernel)⟩
  intro d _
  cases d <;> exact ⟨by unfold Admitted ModOk; decide +kernel, by decide +kernel, waitsEnd_of _ (by decide +kernel)⟩

/-- DisplaysComplete. -/
theorem witness_displays :
    Admitted (.displayArea 0 0 0 16 4 2) (ready []) ∧ Admitted (.displayAreaBuf 0 0 0 16 4 2 0x001236E0) (ready []) ∧
    areaRefusal 0 0 16 4 panel.panelW panel.panelH = none ∧
    WaitsEnd (ready []) (waitsOf (multiArgFrames refCfg refCfg.cmdDpyBufArea [0, 0, 16, 4, 2, 0x36E0, 0x0012])) :=
  ⟨by unfold Admitted ModOk; decide +kernel, by unfold Admitted ModOk; decide +kernel, by decide,
    waitsEnd_of _ (by decide +kernel)⟩

/-- A render poll with one busy reading, of the chip's words 2 and 3, and then an idle one. -/
theorem renderEnds_sample {s : State} (h : decide (rxWordAt s.chip 3 &&& s.cfg.renderBusyMask ≠ 0 ∧
    rxWordAt s.chip 5 &&& s.cfg.renderBusyMask = 0 ∧ s.cfg.renderPollLimit = some 3 ∧ 12 ≤ s.chip.rx.length) = true) :
    RenderEnds s 2 1 := by
  obtain ⟨h1, h2, h3, h4⟩ := of_decide_eq_true h
  refine ⟨fun i hi => ?_, fun hb => hb h2, fun l hl => ?_, h4⟩
  · obtain rfl : i = 0 := by omega
    exact h1
  · rw [h3] at hl
    cases hl
    decide

/-- Display1bppCompletes, with an address and without. -/
theorem witness_display1bpp :
    Admitted (.display1bpp 1 0 0 16 2 2 0x00FF (some 0x001236E0)) (readyPoll displayAnswers) ∧
    Admitted (.display1bpp 0 0 0 16 2 2 0x00FF none) (readyPoll displayAnswers) ∧
    RenderEnds (readyPoll displayAnswers) 2 1 ∧
    WaitsEnd (readyPoll displayAnswers) (waitsOf (display1bppFrames (readyPoll displayAnswers).cfg
      (readyPoll displayAnswers).chip 0 0 16 2 2 0x00 0xFF (some 0x001236E0) 1)) :=
  ⟨by unfold Admitted ModOk; decide +kernel, by unfold Admitted ModOk; decide +kernel,
    renderEnds_sample (by decide +kernel), waitsEnd_of _ (by decide +kernel)⟩

/-- A render poll that is idle at its first reading. -/
theorem renderEnds_at_once : RenderEnds (readyMap [0, 0, 0, 0]) 0 0 :=
  ⟨fun i hi => absurd hi (by omega), by unfold statusBusy; decide +kernel, fun l hl => by cases hl; decide, by decide⟩

/-- A machine under RENDER_POLL_LIMIT = 1 whose render status reads busy. -/
def busyOnce : State := { ready [0, 0, 0, 1] with cfg := { refCfg with renderPollLimit := some 1 } }

/-- RenderWaitCompletes, RenderWaitTimesOut: idle at once, and one busy reading under a limit of one. -/
theorem witness_render_wait :
    (readyMap [0, 0, 0, 0]).loadOpen = false ∧ RenderEnds (readyMap [0, 0, 0, 0]) 0 0 ∧
    WaitsEnd (readyMap [0, 0, 0, 0]) 6 ∧ busyOnce.loadOpen = false ∧ busyOnce.cfg.renderPollLimit = some 1 ∧
    (∀ i, i < 1 → statusBusy busyOnce.cfg busyOnce.chip 0 i) ∧ WaitsEnd busyOnce 6 := by
  refine ⟨rfl, renderEnds_at_once, waitsEnd_of _ (by decide +kernel), rfl, rfl, fun i hi => ?_,
    waitsEnd_of _ (by decide +kernel)⟩
  obtain rfl : i = 0 := by omega
  unfold statusBusy
  decide +kernel

/-- ClearCompletes. -/
theorem witness_clear :
    Admitted (.clearAndRefresh 0 0x001236E0 2) (ready []) ∧ configLegal (ready []).cfg = true ∧
    loadRefusal (ready []) panel (clearJob refCfg panel 0x001236E0) = none ∧
    WaitsEnd (ready []) (waitsOf (loadFrames (ready []) (clearJob refCfg panel 0x001236E0) ++
      displayFrames refCfg 0 0 16 4 2 (some 0x001236E0))) :=
  ⟨by unfold Admitted ModOk; decide +kernel, by decide +kernel, by decide +kernel, waitsEnd_of _ (by decide +kernel)⟩

/-- RefreshesComplete: its three cases. -/
theorem witness_refresh :
    (∀ d ∈ [Depth.d1, .d2, .d4, .d8], Admitted (refreshInstr d 1 0 0 0 (sampleWidth d) 2 0x001236E0) (readyMap []) ∧
      loadRefusal (readyMap []) panel (refreshJob d 0 0 0 (sampleWidth d) 2 0x001236E0) = none) ∧
    RenderEnds (readyMap displayAnswers) 2 1 ∧ RenderEnds (readyMap [0, 0, 0, 0]) 0 0 ∧
    (∀ d ∈ [Depth.d2, .d4, .d8], (refreshChoice #v[refreshRow 1, refreshRow 2, refreshRow 4, refreshRow 8] d true
      false).wait = true ∧ (refreshChoice #v[refreshRow 1, refreshRow 2, refreshRow 4, refreshRow 8] d false
      false).wait = false) ∧
    WaitsEnd (readyMap displayAnswers) (waitsOf (loadFrames (readyMap []) (refreshJob .d1 0 0 0 16 2 0x001236E0) ++
      display1bppFrames (readyMap []).cfg (readyMap displayAnswers).chip 0 0 16 2 1 0x12 0xFF (some 0x001236E0) 1)) ∧
    WaitsEnd (readyMap [0, 0, 0, 0]) (waitsOf (loadFrames (readyMap []) (refreshJob .d4 0 0 0 16 2 0x001236E0) ++
      displayFrames refCfg 0 0 16 2 4 (some 0x001236E0) ++
      statusFrames refCfg (readyMap [0, 0, 0, 0]).chip 0 1)) := by
  refine ⟨?_, renderEnds_sample (by decide +kernel), renderEnds_at_once, by decide +kernel,
    waitsEnd_of _ (by decide +kernel), waitsEnd_of _ (by decide +kernel)⟩
  intro d _
  cases d <;> exact ⟨by unfold Admitted ModOk; decide +kernel, by decide +kernel⟩

/-- Three readings of the render status, all busy. -/
def busyAnswers : List Byte := [0, 0, 0, 1, 0, 0, 0, 1, 0, 0, 0, 1]

/-- Three busy readings from the chip's word `k` on. -/
theorem busy_sample {s : State} {k : Nat} (h : decide (rxWordAt s.chip (k + 1) &&& s.cfg.renderBusyMask ≠ 0 ∧
    rxWordAt s.chip (k + 3) &&& s.cfg.renderBusyMask ≠ 0 ∧ rxWordAt s.chip (k + 5) &&& s.cfg.renderBusyMask ≠ 0) = true) :
    ∀ i, i < 3 → statusBusy s.cfg s.chip k i := by
  obtain ⟨h0, h1, h2⟩ := of_decide_eq_true h
  intro i hi
  have : i = 0 ∨ i = 1 ∨ i = 2 := by omega
  rcases this with rfl | rfl | rfl
  · exact h0
  · exact h1
  · exact h2

/-- DisplayWaitsTimeOut: three busy readings under a limit of three, of DISPLAY_1BPP and of a refresh of each kind. -/
theorem witness_display_times_out :
    let shown := readyPoll ([0, 0, 0, 0] ++ busyAnswers)
    let sequence := readyMap ([0, 0, 0, 0] ++ busyAnswers)
    let plain := readyMap busyAnswers
    shown.desc = some panel ∧ Admitted (.display1bpp 1 0 0 16 2 2 0x00FF (some 0x001236E0)) shown ∧
    areaRefusal 0 0 16 2 panel.panelW panel.panelH = none ∧
    shown.cfg.renderPollLimit = some 3 ∧ (∀ i, i < 3 → statusBusy shown.cfg shown.chip 2 i) ∧
    WaitsEnd shown (waitsOf (display1bppOpening shown.cfg shown.chip 0 0 16 2 2 0x00 0xFF (some 0x001236E0) ++
      statusFrames shown.cfg shown.chip 2 3)) ∧
    sequence.desc = some panel ∧ sequence.cs = 1 ∧ configLegal sequence.cfg = true ∧
    Admitted (refreshInstr .d1 1 0 0 0 16 2 0x001236E0) sequence ∧
    loadRefusal sequence panel (refreshJob .d1 0 0 0 16 2 0x001236E0) = none ∧
    sequence.cfg.renderPollLimit = some 3 ∧ (∀ i, i < 3 → statusBusy sequence.cfg sequence.chip 2 i) ∧
    WaitsEnd sequence (waitsOf (loadFrames sequence (refreshJob .d1 0 0 0 16 2 0x001236E0) ++
      display1bppOpening sequence.cfg sequence.chip 0 0 16 2 1 0x12 0xFF (some 0x001236E0) ++
      statusFrames sequence.cfg sequence.chip 2 3)) ∧
    Admitted (refreshInstr .d4 1 0 0 0 16 2 0x001236E0) plain ∧
    loadRefusal plain panel (refreshJob .d4 0 0 0 16 2 0x001236E0) = none ∧
    (refreshChoice #v[refreshRow 1, refreshRow 2, refreshRow 4, refreshRow 8] .d4 true false).wait = true ∧
    (∀ i, i < 3 → statusBusy plain.cfg plain.chip 0 i) ∧
    WaitsEnd plain (waitsOf (loadFrames plain (refreshJob .d4 0 0 0 16 2 0x001236E0) ++
      displayFrames plain.cfg 0 0 16 2 4 (some 0x001236E0) ++ statusFrames plain.cfg plain.chip 0 3)) :=
  ⟨rfl, by unfold Admitted ModOk; decide +kernel, by decide, rfl, busy_sample (by decide +kernel),
    waitsEnd_of _ (by decide +kernel), rfl, rfl, by decide +kernel, by unfold Admitted ModOk; decide +kernel,
    by decide +kernel, rfl, busy_sample (by decide +kernel), waitsEnd_of _ (by decide +kernel),
    by unfold Admitted ModOk; decide +kernel, by decide +kernel, by decide, busy_sample (by decide +kernel),
    waitsEnd_of _ (by decide +kernel)⟩

/-- MirrorsFollowTheWire: a BEGIN_LOAD that times out before its last argument, and one that does so inside its address
writes; an END_LOAD, a display and a render wait that time out; an INIT that completes and one that does not; a raw
operation. -/
theorem witness_mirrors :
    let ends := fun (o : Host.Outcome State Fault Refusal) (res : Byte) (tgt : Option Addr) (load render : Bool) =>
      after o (fun t => decide (t.res = res ∧ t.tgt = tgt ∧ t.loadOpen = load ∧ t.renderPending = render))
    configLegal (lateAfter 0).cfg = true ∧ configLegal (dark 2010).cfg = true ∧ VcomApart refCfg ∧
    (lateAfter 0).cfg.vcomAccess = refCfg.vcomAccess ∧ (lateAfter 0).cs = 1 ∧ (lateAfter 0).tgt ≠ some 0x77 ∧
    ends (exec (.beginLoad 0x30 0x77) (lateAfter 14)) 1 (some 0x77) false false = true ∧
    ends (exec (.beginLoad 0x30 0x77) (lateAfter 11)) 1 (lateAfter 0).tgt false false = true ∧
    ends (exec (.endLoad 0) { lateAfter 0 with loadOpen := true }) 1 (lateAfter 0).tgt true false = true ∧
    ends (exec (.displayArea 0 0 0 16 4 2) (lateAfter 11)) 1 (lateAfter 0).tgt false false = true ∧
    ends (exec (.waitRenderIdle 0) { lateAfter 4 with renderPending := true }) 1 (lateAfter 0).tgt false true = true ∧
    ends (exec (.init 0 2010) (dark 2010)) 0 (some panel.imgAddr) false false = true ∧
    ends (exec (.init 0 2010) (lateAfter 0)) 1 (lateAfter 0).tgt false false = true ∧
    ends (exec (.wrReg 0 0x0208 0x77) (ready [])) 0 (ready []).tgt false false = true := by
  refine ⟨by decide +kernel, by decide +kernel, fun code h => (by cases h), rfl, rfl, by decide +kernel, by decide +kernel,
    by decide +kernel, by decide +kernel, by decide +kernel, by decide +kernel, by decide +kernel, by decide +kernel,
    by decide +kernel⟩

end Sys2Proof.Tests
end

/-! PROOFS. Scope: a step is the operation decoded at `pc`, and what every step leaves unchanged (00_scope.md R12, R18;
10_state.md R23, R38). The body of each operation is composed from the `Acts` lemmas of its parts, and `runOp_ends` adds the
epilogue. -/

namespace Sys2Proof.Machine

open Sys2Proof.Safety

/-! ### The request at `pc` -/

theorem fetch_of_decode {s : State} {rs : List Request} {r : Request} (hc : configLegal s.cfg = true)
    (hd : decodeProgram s.prog = .ok rs) (hr : rs[s.pc]? = some r) : fetch s = .ok r := by
  simp [fetch, hc, hd, hr]

theorem step_of_fetch_op {s : State} {i : Instr} (h : fetch s = .ok (.op i)) : step s = exec i s := by
  simp [step, h]

/-- A next state comes from running an operation or a reserved request. -/
theorem step_next {s t : State} (h : step s = .next t) :
    (∃ i, exec i s = .next t) ∨ ∃ w, execReserved w s = .next t := by
  unfold step at h
  split at h
  · cases h
  · exact .inr ⟨_, h⟩
  · exact .inl ⟨_, h⟩

/-! ### What any part of any operation may change -/

/-- A part of an operation, INIT included, adds events to the trace and leaves `pc`, the result registers and the inputs as
they are: only an epilogue writes the former (R310, R311), and nothing writes the latter (R12, R38). -/
structure WithinOperation (s t : State) : Prop where
  pc : t.pc = s.pc
  res : t.res = s.res
  einfo : t.einfo = s.einfo
  faults : t.faults = s.faults
  cfg : t.cfg = s.cfg
  prog : t.prog = s.prog
  src : t.src = s.src
  trace : ∃ es, t.trace = s.trace ++ es

theorem withinOperation_chain : Chain WithinOperation where
  refl s := ⟨rfl, rfl, rfl, rfl, rfl, rfl, rfl, [], by simp⟩
  trans := by
    rintro s t u ⟨h1, h2, h3, h4, h5, h6, h7, es, h8⟩ ⟨k1, k2, k3, k4, k5, k6, k7, fs, k8⟩
    exact ⟨k1.trans h1, k2.trans h2, k3.trans h3, k4.trans h4, k5.trans h5, k6.trans h6, k7.trans h7, es ++ fs,
      by rw [k8, h8, List.append_assoc]⟩
  cfg _ _ h := h.cfg

theorem Loaded.withinOperation {s t : State} (h : Loaded s t) : WithinOperation s t := by
  obtain ⟨es, c, k, g, l, p, -, rfl⟩ := h
  exact ⟨rfl, rfl, rfl, rfl, rfl, rfl, rfl, es, rfl⟩

/-- An operation is abandoned for good, or with a result code and detail of R300. -/
def pairedStop (_ : Config) : Stop → Prop
  | .raise e i => (errCode e, i) ∈ resultPairs
  | .stuck _ => True

theorem raise_pairedStop {e : ErrKind} {i : Byte} (h : (errCode e, i) ∈ resultPairs) (c : Config) :
    pairedStop c (.raise e i) := h

theorem opStop_pairedStop (c : Config) (e : Stop) (h : opStop c e) : pairedStop c e := by
  cases e with
  | stuck f => trivial
  | raise e i =>
    refine raise_pairedStop ?_ c
    rcases h with (⟨rfl, rfl | rfl, -⟩ | ⟨rfl, rfl, -⟩) | ⟨-, -, h⟩
    · decide
    · decide
    · decide
    · exact h

theorem Acts.within {α : Type} {m : Op α} (h : Acts Loaded opStop m) : Acts WithinOperation pairedStop m :=
  h.weaken (fun _ _ h => h.withinOperation) opStop_pairedStop

/-- A procedure whose parts may change what INIT and the reads change, begun by one that may not. -/
theorem Acts.thenWithin {α β : Type} {m : Op α} {f : α → Op β} (hm : Acts Loaded opStop m)
    (hf : ∀ a, Acts WithinOperation pairedStop (f a)) : Acts WithinOperation pairedStop (m >>= f) :=
  hm.within.bind withinOperation_chain hf

/-- A change of no more than the session, the mirrors and the read registers. -/
theorem registers_acts {f : State → State}
    (h : ∀ s, f s = { s with session := (f s).session, desc := (f s).desc, tgt := (f s).tgt, loadOpen := (f s).loadOpen,
                             renderPending := (f s).renderPending, rdata := (f s).rdata, rbuf := (f s).rbuf }) :
    Acts WithinOperation pairedStop (update f) :=
  Acts.update fun s => by
    rw [h s]
    exact ⟨rfl, rfl, rfl, rfl, rfl, rfl, rfl, [], by simp⟩

/-! ### The bodies that more than one operation has -/

theorem loadBody_acts (d : Depth) (m : Mod) (tgt src : Addr) (stride x y w h : Word) :
    Acts Loaded opStop (loadBody d m tgt src stride x y w h) :=
  (loadAdmit_acts _ m).bind loaded_chain fun _ => loadImage_acts _

theorem refreshBody_acts (d : Depth) (m : Mod) (src : Addr) (x y w h : Word) (adr : Addr) :
    Acts Loaded opStop (refreshBody d m src x y w h adr) := by
  refine (loadAdmit_acts _ m).bind loaded_chain fun _ => (readRefreshMap_acts d m).bind loaded_chain fun f =>
    (loadImage_acts _).bind loaded_chain fun _ => ?_
  have hdisplay : Acts Loaded opStop (do
      displayCore x y w h f.mode (some adr)
      if f.wait then waitRender else pure ()) :=
    (displayCore_acts _ _ _ _ _ _).bind loaded_chain fun _ =>
      Acts.ite _ waitRender_acts (Acts.pure loaded_chain ())
  cases d with
  | d1 => exact display1bppSequence_acts _ _ _ _ _ _ _
  | d2 => exact hdisplay
  | d4 => exact hdisplay
  | d8 => exact hdisplay

theorem displayBody_acts (mask m : Mod) (x y w h : Word) {display : Op Unit} (hd : Acts Loaded opStop display) :
    Acts Loaded opStop (do displayAdmit mask m; panelCheck x y w h; display) :=
  (displayAdmit_acts mask m).bind loaded_chain fun _ => (panelCheck_acts x y w h).bind loaded_chain fun _ => hd

theorem powerBody_acts (m : Mod) (code : Config → Word) : Acts WithinOperation pairedStop (powerBody m code) :=
  (checkMod_acts _ m).thenWithin fun _ => (refuseLoadOpen_acts (.inr rfl)).thenWithin fun _ =>
    refuseRenderPending_acts.thenWithin fun _ => (Acts.readCfg loaded_chain).thenWithin fun _ =>
      (txnCommand_acts _).wire.thenWithin fun _ =>
        registers_acts fun _ => rfl

/-! ### INIT -/

theorem resetLine_acts (l : BitVec 1) : Acts WithinOperation pairedStop (resetLine l) :=
  Acts.update fun _ => ⟨rfl, rfl, rfl, rfl, rfl, rfl, rfl, [.rst l], rfl⟩

theorem resetPulse_acts : Acts WithinOperation pairedStop resetPulse :=
  (resetLine_acts 1).bind withinOperation_chain fun _ => (delay_acts 200).wire.thenWithin fun _ =>
    (resetLine_acts 0).bind withinOperation_chain fun _ => (delay_acts 10).wire.thenWithin fun _ =>
      (resetLine_acts 1).bind withinOperation_chain fun _ => (delay_acts 200).wire.within

theorem clearSession_acts : Acts WithinOperation pairedStop clearSession :=
  registers_acts fun _ => rfl

theorem requirePresent_acts (ws : List Word) : Acts WithinOperation pairedStop (requirePresent ws) :=
  (Acts.raiseIf withinOperation_chain (raise_pairedStop (by decide))).bind withinOperation_chain fun _ =>
    Acts.raiseIf withinOperation_chain (raise_pairedStop (by decide))

theorem commitSession_acts (ws : List Word) : Acts WithinOperation pairedStop (commitSession ws) :=
  registers_acts fun _ => rfl

/-! ### Whole operations -/

/-- How the operation ends, if it does: a part of it has run, and then the epilogue of its success or of an error with a code
and detail of R300. -/
def Ends (op : State → Host.Outcome State Fault Refusal) : Prop :=
  ∀ s t, op s = .next t → ∃ u, WithinOperation s u ∧
    (t = successEpilogue u ∨ ∃ e i, (errCode e, i) ∈ resultPairs ∧ t = errorEpilogue e i u)

theorem runOp_ends {body : Op Unit} (hb : Acts WithinOperation pairedStop body) : Ends (runOp body) := by
  intro s t h
  rcases runOp_next h with ⟨u, hu, rfl⟩ | ⟨e, i, u, hu, rfl⟩
  · exact ⟨u, hb.ok hu, .inl rfl⟩
  · obtain ⟨hw, hp⟩ := hb.error hu
    exact ⟨u, hw, .inr ⟨e, i, hp, rfl⟩⟩

/-- The same for a body that is none of INIT, a read or a power sequence. -/
theorem runOp_ends_of_loaded {body : Op Unit} (hb : Acts Loaded opStop body) : Ends (runOp body) := runOp_ends hb.within

theorem execInit_ends (m : Mod) (vcom : Word) : Ends (execInit m vcom) :=
  runOp_ends <| (checkMod_acts _ m).thenWithin fun _ => resetPulse_acts.bind withinOperation_chain fun _ =>
    clearSession_acts.bind withinOperation_chain fun _ => (Acts.readCfg loaded_chain).thenWithin fun _ =>
      (txnCommand_acts _).wire.thenWithin fun _ => getDeviceInfo_acts.wire.thenWithin fun ws =>
        (requirePresent_acts ws).bind withinOperation_chain fun _ => (regWrite_acts _ _).wire.thenWithin fun _ =>
          (vcomReconcile_acts vcom).wire.thenWithin fun _ => commitSession_acts ws

theorem execRdData_ends (m : Mod) : Ends (execRdData m) :=
  runOp_ends <| (rawAdmit_acts m).thenWithin fun _ => (txnRead_acts 1).wire.thenWithin fun _ =>
    registers_acts fun _ => rfl

theorem execRdMulti_ends (m : Mod) (n : Word) : Ends (execRdMulti m n) :=
  runOp_ends <| (rawAdmit_acts m).thenWithin fun _ =>
    (Acts.raiseIf loaded_chain (refusal_opStop (by decide))).thenWithin fun _ =>
      (refuseOverBurst_acts _).thenWithin fun _ => (txnRead_acts _).wire.thenWithin fun _ =>
        registers_acts fun _ => rfl

theorem execRdReg_ends (m : Mod) (addr : Word) : Ends (execRdReg m addr) :=
  runOp_ends <| (rawAdmit_acts m).thenWithin fun _ => (regRead_acts addr).wire.thenWithin fun _ =>
    registers_acts fun _ => rfl

theorem execWrMulti_ends (m : Mod) (ws : List Word) : Ends (execWrMulti m ws) :=
  runOp_ends_of_loaded <| (checkMod_acts _ m).bind loaded_chain fun _ =>
    (Acts.raiseIf loaded_chain (refusal_opStop (by decide))).bind loaded_chain fun _ =>
      (refuseOverBurst_acts _).bind loaded_chain fun _ => (txnWrite_acts ws).wire

theorem execWrMultiArg_ends (m : Mod) (code : Word) (args : List Word) : Ends (execWrMultiArg m code args) :=
  runOp_ends_of_loaded <| (rawAdmit_acts m).bind loaded_chain fun _ =>
    (refuseTracked_acts code).bind loaded_chain fun _ => (refuseOverBurstMulti_acts _).bind loaded_chain fun _ =>
      (multiArg_acts code args).wire

theorem execClearAndRefresh_ends (m : Mod) (adr : Addr) (mode : Word) : Ends (execClearAndRefresh m adr mode) :=
  runOp_ends_of_loaded <| (loadAdmit_acts _ m).bind loaded_chain fun _ => readDesc_acts.bind loaded_chain fun _ =>
    (Acts.readCfg loaded_chain).bind loaded_chain fun _ => (loadImage_acts _).bind loaded_chain fun _ =>
      displayCore_acts _ _ _ _ _ _

theorem exec_ends (i : Instr) : Ends (exec i) := by
  cases i with
  | wrCmd m code =>
    exact runOp_ends_of_loaded <| (rawAdmit_acts m).bind loaded_chain fun _ =>
      (refuseTracked_acts code).bind loaded_chain fun _ => (txnCommand_acts code).wire
  | wrData m w =>
    exact runOp_ends_of_loaded <| (checkMod_acts _ m).bind loaded_chain fun _ => (txnWrite_acts [w]).wire
  | wrMulti m ws => exact execWrMulti_ends m ws
  | rdData m => exact execRdData_ends m
  | rdMulti m n => exact execRdMulti_ends m n
  | wrMultiArg m code args => exact execWrMultiArg_ends m code args
  | rdReg m addr => exact execRdReg_ends m addr
  | wrReg m addr val =>
    exact runOp_ends_of_loaded <| (rawAdmit_acts m).bind loaded_chain fun _ => (regWrite_acts addr val).wire
  | init m vcom => exact execInit_ends m vcom
  | beginLoad m tgt =>
    exact runOp_ends_of_loaded <| (loadAdmitPsel_acts m).bind loaded_chain fun _ => beginLoadCore_acts _ _ _ tgt
  | beginLoadArea m tgt x y w h =>
    exact runOp_ends_of_loaded <| (loadAdmitPsel_acts m).bind loaded_chain fun _ =>
      (panelCheck_acts x y w h).bind loaded_chain fun _ => beginLoadAreaCore_acts _ _ _ tgt x y w h
  | endLoad m =>
    exact runOp_ends_of_loaded <| (checkMod_acts _ m).bind loaded_chain fun _ =>
      requireLoadOpen_acts.bind loaded_chain fun _ => endLoadCore_acts
  | load1bpp m tgt src stride x y w h => exact runOp_ends_of_loaded (loadBody_acts .d1 m tgt src stride x y w h)
  | load2bpp m tgt src stride x y w h => exact runOp_ends_of_loaded (loadBody_acts .d2 m tgt src stride x y w h)
  | load4bpp m tgt src stride x y w h => exact runOp_ends_of_loaded (loadBody_acts .d4 m tgt src stride x y w h)
  | load8bpp m tgt src stride x y w h => exact runOp_ends_of_loaded (loadBody_acts .d8 m tgt src stride x y w h)
  | displayArea m x y w h mode =>
    exact runOp_ends_of_loaded (displayBody_acts _ m x y w h (displayCore_acts x y w h mode none))
  | displayAreaBuf m x y w h mode adr =>
    exact runOp_ends_of_loaded (displayBody_acts _ m x y w h (displayCore_acts x y w h mode (some adr)))
  | display1bpp m x y w h mode fgbg adr =>
    exact runOp_ends_of_loaded (displayBody_acts _ m x y w h (display1bppSequence_acts x y w h mode fgbg adr))
  | waitRenderIdle m =>
    exact runOp_ends_of_loaded <| (checkMod_acts _ m).bind loaded_chain fun _ =>
      (refuseLoadOpen_acts (.inr rfl)).bind loaded_chain fun _ => waitRender_acts
  | clearAndRefresh m adr mode => exact execClearAndRefresh_ends m adr mode
  | refresh1bpp m src x y w h adr => exact runOp_ends_of_loaded (refreshBody_acts .d1 m src x y w h adr)
  | refresh2bpp m src x y w h adr => exact runOp_ends_of_loaded (refreshBody_acts .d2 m src x y w h adr)
  | refresh4bpp m src x y w h adr => exact runOp_ends_of_loaded (refreshBody_acts .d4 m src x y w h adr)
  | refresh8bpp m src x y w h adr => exact runOp_ends_of_loaded (refreshBody_acts .d8 m src x y w h adr)
  | sleep m => exact runOp_ends (powerBody_acts m _)
  | standby m => exact runOp_ends (powerBody_acts m _)

theorem execReserved_ends (w : Word) : Ends (execReserved w) :=
  runOp_ends (Acts.raise withinOperation_chain (raise_pairedStop (by decide)))

/-- Every step that answers is a part of an operation and then an epilogue. -/
theorem step_ends : Ends step := by
  intro s t h
  rcases step_next h with ⟨i, hi⟩ | ⟨w, hw⟩
  · exact exec_ends i s t hi
  · exact execReserved_ends w s t hw

/-- Neither epilogue writes an input. -/
theorem sameInputs_of_ends {op : State → Host.Outcome State Fault Refusal} (ho : Ends op) {s t : State}
    (h : op s = .next t) : SameInputs s t := by
  obtain ⟨u, hu, rfl | ⟨e, i, -, rfl⟩⟩ := ho s t h <;> simp [SameInputs, hu.cfg, hu.prog, hu.src]

/-! ### The obligations -/

/-- Settles O17: every operation is composed of parts that leave the inputs as they are, and so does the epilogue. -/
theorem inputsAreNeverWritten : Obligations.InputsAreNeverWritten := by
  unfold Obligations.InputsAreNeverWritten
  intro s t h
  exact sameInputs_of_ends step_ends h

/-- Settles O7: under a legal launch the fetch yields the operation decoded at `pc`, which the step runs. -/
theorem stepRunsTheRequest : Obligations.StepRunsTheRequest := by
  unfold Obligations.StepRunsTheRequest
  intro s rs i hc hd hr
  exact step_of_fetch_op (fetch_of_decode hc hd hr)

end Sys2Proof.Machine

/-! PROOFS. Scope: what every step does to `pc`, the result registers and the trace (10_state.md R23, R34, R36), and the steps
that have no run (R38, R110, R347). Each is read off `step_ends`: a part of an operation, and then an epilogue. -/

namespace Sys2Proof.Machine

open Sys2Proof.Safety

theorem step_of_fetch_error {s : State} {r : Refusal} (h : fetch s = .error r) : step s = .refused r := by
  simp [step, h]

theorem fetch_illegal {s : State} (hc : configLegal s.cfg = false) : fetch s = .error .illegalConfiguration := by
  simp [fetch, hc]

theorem fetch_truncated {s : State} {p : Nat} (hc : configLegal s.cfg = true)
    (hd : decodeProgram s.prog = .error (.truncated p)) : fetch s = .error (.truncated p) := by
  simp [fetch, hc, hd]

theorem fetch_past_end {s : State} {rs : List Request} (hc : configLegal s.cfg = true)
    (hd : decodeProgram s.prog = .ok rs) (hp : rs.length ≤ s.pc) : fetch s = .error .endOfRun := by
  simp [fetch, hc, hd, List.getElem?_eq_none hp]

/-- Settles O8: `fetch` refuses each of the three launches, and `step` passes its refusal on. -/
theorem stepRefusesOutsideARun : Obligations.StepRefusesOutsideARun :=
  ⟨fun _ hc => step_of_fetch_error (fetch_illegal hc), fun _ _ hc hd => step_of_fetch_error (fetch_truncated hc hd),
    fun _ _ hc hd hp => step_of_fetch_error (fetch_past_end hc hd hp)⟩

/-- Settles O14: no part of an operation writes `pc`, and either epilogue adds 1 to it. -/
theorem pcAdvancesByOne : Obligations.PcAdvancesByOne := by
  unfold Obligations.PcAdvancesByOne
  intro s t h
  obtain ⟨u, hu, rfl | ⟨e, i, -, rfl⟩⟩ := step_ends s t h <;> simp [hu.pc]

/-- Settles O16: no part of an operation writes FAULTS; the success epilogue leaves it, and the error epilogue sets the bit
of its code. -/
theorem faultsAreSticky : Obligations.FaultsAreSticky := by
  unfold Obligations.FaultsAreSticky
  intro s t h
  obtain ⟨u, hu, rfl | ⟨e, i, -, rfl⟩⟩ := step_ends s t h
  · exact ⟨fun _ => hu.faults, fun hne => absurd rfl hne⟩
  · refine ⟨fun hz => absurd ((errorEpilogue_res e i u).symm.trans hz) (errCode_ne_zero e), fun _ => ?_⟩
    rw [errorEpilogue_faults, errorEpilogue_res, hu.faults]
    rfl

/-- The error epilogue appends at most the release of the select line. -/
theorem errorEpilogue_trace_grows (e : ErrKind) (i : Byte) (s : State) :
    ∃ es, (errorEpilogue e i s).trace = s.trace ++ es ∧ ∀ l, Event.rst l ∉ es := by
  rw [errorEpilogue_trace]
  split
  · exact ⟨[.rel], rfl, by simp⟩
  · exact ⟨[], by simp, by simp⟩

/-- Settles O18: a part of an operation appends events, and so does the error epilogue. -/
theorem traceOnlyGrows : Obligations.TraceOnlyGrows := by
  unfold Obligations.TraceOnlyGrows
  intro s t h
  obtain ⟨u, hu, rfl | ⟨e, i, -, rfl⟩⟩ := step_ends s t h <;> obtain ⟨es, hes⟩ := hu.trace
  · exact ⟨es, hes⟩
  · obtain ⟨fs, hfs, -⟩ := errorEpilogue_trace_grows e i u
    exact ⟨es ++ fs, by rw [hfs, hes, List.append_assoc]⟩

end Sys2Proof.Machine

/-! PROOFS. Scope: everything an operation that answers a next state can have done to the registers of 10_state.md R20, said
once for INIT (`execInit_cases`) and once for every other operation (`exec_cases`). -/

namespace Sys2Proof.Machine

open Sys2Proof.Safety

/-! ### Procedures that end with the select line released -/

/-- If it completes, a procedure begun with the select line released ends with it released (R24, R130). -/
def Releases {α : Type} (m : Op α) : Prop := Triple (fun s => s.cs = 1) m (fun _ t => t.cs = 1) (fun _ _ => True)

theorem Releases.bind {α β : Type} {m : Op α} {f : α → Op β} (hm : Releases m) (hf : ∀ a, Releases (f a)) :
    Releases (m >>= f) := Triple.bind hm hf

theorem Releases.pure {α : Type} (a : α) : Releases (pure a : Op α) := fun _ hs => hs

theorem Releases.readCfg : Releases readCfg := fun _ hs => hs

theorem Checks.releases {α : Type} {m : Op α} (h : Checks m) : Releases m := by
  intro s hs
  rcases h s with ⟨a, h⟩ | ⟨k, i, -, h⟩ | ⟨g, t, h⟩ <;> rw [h]
  · exact hs
  · trivial
  · trivial

/-- A transaction that completes has released the line (R130). -/
theorem TxnOutcome.cs_of_ok {α : Type} {pre : Word} {pl : α → List Event} {s t : State} {a : α}
    {r : EStateM.Result Stop State α} (h : TxnOutcome pre pl s r) (hr : r = .ok a t) : t.cs = 1 := by
  cases h with
  | complete => cases hr; rfl
  | timeoutBefore => cases hr
  | timeoutAfter => cases hr
  | hung => cases hr

theorem releases_of_outcome {α : Type} {m : Op α} {pre : Word} (h : ∀ s, ∃ pl, TxnOutcome pre pl s (m s)) :
    Releases m := by
  intro s _
  obtain ⟨pl, h⟩ := h s
  cases hr : m s with
  | ok a t => exact h.cs_of_ok hr
  | error e t => trivial

theorem txnCommand_releases (c : Word) : Releases (txnCommand c) :=
  releases_of_outcome fun s => ⟨_, txnCommand_outcome c s⟩

theorem txnWrite_releases (ws : List Word) : Releases (txnWrite ws) :=
  releases_of_outcome fun s => ⟨_, txnWrite_outcome ws s⟩

theorem txnRead_releases (n : Nat) : Releases (txnRead n) :=
  releases_of_outcome fun s => (txnRead_outcome n s).elim fun _ h => ⟨_, h⟩

theorem txnWrites_releases (gs : List (List Word)) : Releases (txnWrites gs) := by
  induction gs with
  | nil => exact Releases.pure ()
  | cons ws gs ih => exact (txnWrite_releases ws).bind fun _ => ih

theorem multiArg_releases (c : Word) (args : List Word) : Releases (multiArg c args) :=
  (txnCommand_releases c).bind fun _ => Releases.readCfg.bind fun _ => txnWrites_releases _

theorem regWrite_releases (a v : Word) : Releases (regWrite a v) :=
  Releases.readCfg.bind fun _ => multiArg_releases _ _

theorem regRead_releases (a : Word) : Releases (regRead a) :=
  Releases.readCfg.bind fun _ => (txnCommand_releases _).bind fun _ => (txnWrite_releases _).bind fun _ =>
    (txnRead_releases 1).bind fun _ => Releases.pure _

theorem vcomRead_releases : Releases vcomRead := by
  refine Releases.readCfg.bind fun c => ?_
  cases c.vcomAccess with
  | register a => exact regRead_releases a
  | command code =>
    exact (txnCommand_releases _).bind fun _ => (txnWrite_releases _).bind fun _ =>
      (txnRead_releases 1).bind fun _ => Releases.pure _

theorem vcomWrite_releases (v : Word) : Releases (vcomWrite v) := by
  refine Releases.readCfg.bind fun c => ?_
  cases c.vcomAccess with
  | register a => exact regWrite_releases a v
  | command code =>
    exact (txnCommand_releases _).bind fun _ => (txnWrite_releases _).bind fun _ => txnWrite_releases _

theorem Releases.ite {α : Type} (c : Prop) [Decidable c] {m n : Op α} (hm : Releases m) (hn : Releases n) :
    Releases (if c then m else n) := by
  split
  · exact hm
  · exact hn

theorem vcomReconcile_releases (vcom : Word) : Releases (vcomReconcile vcom) :=
  vcomRead_releases.bind fun _ => Releases.ite _ (vcomWrite_releases vcom) (Releases.pure ())

theorem getDeviceInfo_releases : Releases getDeviceInfo :=
  Releases.readCfg.bind fun _ => (txnCommand_releases _).bind fun _ => txnRead_releases _

theorem displayCommand_releases (x y w h mode : Word) (adr : Option Addr) :
    Releases (displayCommand x y w h mode adr) := by
  refine Releases.readCfg.bind fun c => ?_
  cases adr with
  | none => exact multiArg_releases _ _
  | some a => exact multiArg_releases _ _

theorem mode1On_releases : Releases mode1On :=
  Releases.readCfg.bind fun _ => (regRead_releases _).bind fun _ => regWrite_releases _ _

theorem mode1Off_releases : Releases mode1Off :=
  Releases.readCfg.bind fun _ => (regRead_releases _).bind fun _ => regWrite_releases _ _

theorem setBlend_releases (fg bg : Byte) : Releases (setBlend fg bg) :=
  Releases.readCfg.bind fun _ => regWrite_releases _ _

theorem countRenderPoll_releases (npoll : Nat) : Releases (countRenderPoll npoll) := by
  intro s hs
  rcases countRenderPoll_cases npoll s with h | h <;> rw [h]
  · exact hs
  · trivial

theorem renderPolls_releases : ∀ fuel npoll, Releases (renderPolls fuel npoll) := by
  intro fuel
  induction fuel with
  | zero => exact fun _ _ _ => trivial
  | succ n ih =>
    exact fun npoll => Releases.readCfg.bind fun _ => (regRead_releases _).bind fun _ =>
      Releases.ite _ (Releases.pure ()) ((countRenderPoll_releases _).bind fun _ => ih _)

theorem drawRenderFuel_releases : Releases drawRenderFuel := by
  intro s hs
  unfold drawRenderFuel
  cases s.cfg.renderPollLimit <;> exact hs

/-! ### INIT -/

/-- The state after INIT's reset pulse, with the mirrors cleared and the session closed (R171, R172). -/
def State.pulsed (s : State) : State :=
  { s.emit [.rst 1, .delay 200, .rst 0, .delay 10, .rst 1, .delay 200] with
    rstl := 1, loadOpen := false, renderPending := false, session := .unready, desc := none }

/-- The state after INIT's commit of the descriptor words (R177). -/
def State.committed (ws : List Word) (s : State) : State :=
  { s with desc := some (decodeDesc s.cfg.versionWords ws),
           tgt := some (decodeDesc s.cfg.versionWords ws).imgAddr, session := .ready }

/-- INIT between its pulse and its commit: it answers the words of the descriptor (R171). -/
def bringUp (vcom : Word) : Op (List Word) := do
  let c ← readCfg
  txnCommand c.cmdSysRun
  let ws ← getDeviceInfo
  requirePresent ws
  regWrite c.regPackedCtrl c.packedEnableValue
  vcomReconcile vcom
  pure ws

/-- INIT cut into its check, its pulse, its transactions and its commit. -/
theorem execInit_eq (m : Mod) (vcom : Word) : execInit m vcom = runOp (do
    checkMod maskNone m
    (do resetPulse; clearSession)
    let ws ← bringUp vcom
    commitSession ws) := by
  funext s
  simp only [execInit, bringUp, bind_assoc, pure_bind]

theorem pulse_run (s : State) : (do resetPulse; clearSession : Op Unit) s = .ok () s.pulsed := by
  refine (rfl : _ = EStateM.Result.ok () _).trans ?_
  simp [State.pulsed, State.emit]

theorem bringUp_acts (vcom : Word) : Acts Wired (fun _ _ => True) (bringUp vcom) := by
  have wire : ∀ {α : Type} {m : Op α}, Acts Wired wireStop m → Acts Wired (fun _ _ => True) m :=
    fun h => h.weaken (fun _ _ h => h) (fun _ _ _ => trivial)
  have present : ∀ ws, Acts Wired (fun _ _ => True) (requirePresent ws) := fun ws =>
    (Acts.raiseIf wired_chain fun _ => trivial).bind wired_chain fun _ => Acts.raiseIf wired_chain fun _ => trivial
  exact (Acts.readCfg wired_chain).bind wired_chain fun _ => (wire (txnCommand_acts _)).bind wired_chain fun _ =>
    (wire getDeviceInfo_acts).bind wired_chain fun ws => (present ws).bind wired_chain fun _ =>
      (wire (regWrite_acts _ _)).bind wired_chain fun _ => (wire (vcomReconcile_acts vcom)).bind wired_chain fun _ =>
        Acts.pure wired_chain ws

theorem bringUp_releases (vcom : Word) : Releases (bringUp vcom) :=
  Releases.readCfg.bind fun _ => (txnCommand_releases _).bind fun _ => getDeviceInfo_releases.bind fun ws =>
    (requirePresent_checks ws).releases.bind fun _ => (regWrite_releases _ _).bind fun _ =>
      (vcomReconcile_releases vcom).bind fun _ => Releases.pure ws

/-- The words of the descriptor, of a panel that is present (R104, R175). -/
def PresentWords (c : Config) (ws : List Word) : Prop :=
  ws.length = descWords c ∧ ws.getD 0 0 ≠ 0 ∧ ws.getD 1 0 ≠ 0

theorem getDeviceInfo_length {s t : State} {ws : List Word} (h : getDeviceInfo s = .ok ws t) :
    ws.length = descWords s.cfg := by
  unfold getDeviceInfo at h
  rw [bind_ok (readCfg_run s)] at h
  obtain ⟨_, u, -, h⟩ := bind_eq_ok.1 h
  exact txnRead_length h

theorem requirePresent_passed {ws : List Word} {s t : State} {u : Unit} (h : requirePresent ws s = .ok u t) :
    ws.getD 0 0 ≠ 0 ∧ ws.getD 1 0 ≠ 0 := by
  obtain ⟨_, h0, h1⟩ := (raiseIf_checks _ (by decide) _).passed h
  exact ⟨raiseIf_passed h0, raiseIf_passed h1⟩

theorem bringUp_answers {vcom : Word} {s t : State} {ws : List Word} (h : bringUp vcom s = .ok ws t) :
    PresentWords s.cfg ws := by
  unfold bringUp at h
  rw [bind_ok (readCfg_run s)] at h
  obtain ⟨_, u, hrun, h⟩ := bind_eq_ok.1 h
  obtain ⟨vs, v, hinfo, h⟩ := bind_eq_ok.1 h
  obtain ⟨_, w, hpresent, h⟩ := bind_eq_ok.1 h
  obtain ⟨_, _, -, h⟩ := bind_eq_ok.1 h
  obtain ⟨_, _, -, h⟩ := bind_eq_ok.1 h
  cases h
  have hlen := getDeviceInfo_length hinfo
  rw [wired_chain.cfg _ _ ((txnCommand_acts _).ok hrun)] at hlen
  exact ⟨hlen, requirePresent_passed hpresent⟩

/-- An operation whose first part completes is run on from there. -/
theorem runOp_bind_ok {α : Type} {m : Op α} {f : α → Op Unit} {s t : State} {a : α} (h : m s = .ok a t) :
    runOp (m >>= f) s = runOp (f a) t := by
  simp only [runOp, bind_ok h]

theorem execInit_refused {m : Mod} (hm : m ≠ 0) (vcom : Word) (s : State) :
    execInit m vcom s = .next (errorEpilogue .unsupported 5 s) := by
  rw [execInit_eq]
  exact runOp_raise (bind_error (by rw [checkMod_run, and_maskNone, if_neg hm]))

theorem execInit_admitted (vcom : Word) (s : State) :
    execInit 0 vcom s = runOp (bringUp vcom >>= commitSession) s.pulsed := by
  rw [execInit_eq, runOp_bind_ok (a := ()) (t := s) (by rw [checkMod_run, if_pos (by decide)]), runOp_bind_ok (pulse_run s)]

/-- Everything INIT can do: its MOD is refused; or its pulse is followed by transactions, and then by an error or by the
commit of a present panel's descriptor (R171, R310, R311). -/
theorem execInit_cases {m : Mod} {vcom : Word} {s t : State} (h : execInit m vcom s = .next t) :
    (m ≠ 0 ∧ t = errorEpilogue .unsupported 5 s) ∨
    ∃ u, Wired s.pulsed u ∧ ((∃ k i, t = errorEpilogue k i u) ∨
      ∃ ws, PresentWords s.cfg ws ∧ (s.cs = 1 → u.cs = 1) ∧ t = successEpilogue (u.committed ws)) := by
  by_cases hm : m = 0
  · subst hm
    rw [execInit_admitted] at h
    refine .inr ?_
    rcases runOp_next h with ⟨v, hv, rfl⟩ | ⟨k, i, v, hv, rfl⟩
    · obtain ⟨ws, u, hu, hcommit⟩ := bind_eq_ok.1 hv
      cases hcommit
      exact ⟨u, (bringUp_acts vcom).ok hu, .inr ⟨ws, bringUp_answers (s := s.pulsed) hu,
        fun hcs => (bringUp_releases vcom).ok (s := s.pulsed) hcs hu, rfl⟩⟩
    · rcases bind_eq_error.1 hv with hu | ⟨_, _, -, hcommit⟩
      · exact ⟨v, ((bringUp_acts vcom).error hu).1, .inl ⟨k, i, rfl⟩⟩
      · cases hcommit
  · rw [execInit_refused hm] at h
    cases h
    exact .inl ⟨hm, rfl⟩

end Sys2Proof.Machine

/-! PROOFS. Scope: what each operation can do to LOAD_OPEN and RENDER_PENDING (`MirrorStep`: 10_state.md R30, R31), and everything
an operation other than INIT can do (`exec_cases`). A body is composed from its parts by `Moves.bind` and `Finishes.check`. -/

namespace Sys2Proof.Machine

open Sys2Proof.Safety

/-! ### The two mirrors -/

/-- LOAD_OPEN and RENDER_PENDING (R30, R31). -/
def State.mirrors (s : State) : Bool × Bool := (s.loadOpen, s.renderPending)

/-- The operation may end with the result code `res` and the mirrors `b` where it began with the mirrors `a`. -/
inductive MirrorStep : Instr → (res : Byte) → (a b : Bool × Bool) → Prop where
  | same (i : Instr) (res : Byte) (a : Bool × Bool) : MirrorStep i res a a
  | init (m : Mod) (vcom : Word) (res : Byte) (a : Bool × Bool) : MirrorStep (.init m vcom) res a (false, false)
  | beginLoad (m : Mod) (tgt : Addr) : MirrorStep (.beginLoad m tgt) 0 (false, false) (true, false)
  | beginLoadArea (m : Mod) (tgt : Addr) (x y w h : Word) :
    MirrorStep (.beginLoadArea m tgt x y w h) 0 (false, false) (true, false)
  | endLoad (m : Mod) (p : Bool) : MirrorStep (.endLoad m) 0 (true, p) (false, p)
  | loadTimedOut (d : Depth) (m : Mod) (tgt src : Addr) (stride x y w h : Word) :
    MirrorStep (loadInstr d m tgt src stride x y w h) 1 (false, false) (true, false)
  | display (m : Mod) (x y w h mode : Word) :
    MirrorStep (.displayArea m x y w h mode) 0 (false, false) (false, true)
  | displayBuf (m : Mod) (x y w h mode : Word) (adr : Addr) :
    MirrorStep (.displayAreaBuf m x y w h mode adr) 0 (false, false) (false, true)
  | display1bppTimedOut (m : Mod) (x y w h mode fgbg : Word) (adr : Option Addr) :
    MirrorStep (.display1bpp m x y w h mode fgbg adr) 1 (false, false) (false, true)
  | renderIdle (m : Mod) (p : Bool) : MirrorStep (.waitRenderIdle m) 0 (false, p) (false, false)
  | clear (m : Mod) (adr : Addr) (mode : Word) :
    MirrorStep (.clearAndRefresh m adr mode) 0 (false, false) (false, true)
  | clearTimedOut (m : Mod) (adr : Addr) (mode : Word) :
    MirrorStep (.clearAndRefresh m adr mode) 1 (false, false) (true, false)
  | refresh (d : Depth) (hd : d ≠ .d1) (m : Mod) (src : Addr) (x y w h : Word) (adr : Addr) :
    MirrorStep (refreshInstr d m src x y w h adr) 0 (false, false) (false, true)
  | refreshLoadTimedOut (d : Depth) (m : Mod) (src : Addr) (x y w h : Word) (adr : Addr) :
    MirrorStep (refreshInstr d m src x y w h adr) 1 (false, false) (true, false)
  | refreshDisplayTimedOut (d : Depth) (m : Mod) (src : Addr) (x y w h : Word) (adr : Addr) :
    MirrorStep (refreshInstr d m src x y w h adr) 1 (false, false) (false, true)

/-! ### The parts of an operation -/

/-- A part of an operation other than INIT: what `Loaded` allows, and a target once set stays set (R29). -/
def Works (s t : State) : Prop := Loaded s t ∧ (s.tgt ≠ none → t.tgt ≠ none)

theorem Works.refl (s : State) : Works s s := ⟨loaded_chain.refl s, id⟩

theorem Works.trans {s t u : State} (h : Works s t) (h' : Works t u) : Works s u :=
  ⟨loaded_chain.trans _ _ _ h.1 h'.1, h'.2 ∘ h.2⟩

theorem Works.cfg {s t : State} (h : Works s t) : t.cfg = s.cfg := loaded_chain.cfg _ _ h.1

theorem Wired.works {s t : State} (h : Wired s t) : Works s t := by
  refine ⟨h.loaded, ?_⟩
  obtain ⟨es, c, k, -, rfl⟩ := h
  exact id

theorem Wired.mirrors {s t : State} (h : Wired s t) : t.mirrors = s.mirrors := by
  obtain ⟨es, c, k, -, rfl⟩ := h
  rfl

/-- A part of an operation that leaves the mirrors `b` when it completes, with the select line released if it was; an error
`k` leaves mirrors that meet `E k`. -/
def Moves {α : Type} (m : Op α) (s : State) (b : Bool × Bool) (E : ErrKind → Bool × Bool → Prop) : Prop :=
  match m s with
  | .ok _ t => Works s t ∧ t.mirrors = b ∧ (s.cs = 1 → t.cs = 1)
  | .error (.raise k _) t => Works s t ∧ E k t.mirrors
  | .error (.stuck _) _ => True

section

variable {α β : Type} {m : Op α} {f : α → Op β} {s : State} {b c : Bool × Bool} {E : ErrKind → Bool × Bool → Prop}

theorem Moves.ok {a : α} {t : State} (hm : m s = .ok a t) (hw : Works s t) (hb : t.mirrors = b)
    (hcs : s.cs = 1 → t.cs = 1) : Moves m s b E := by
  unfold Moves
  rw [hm]
  exact ⟨hw, hb, hcs⟩

theorem Moves.pure (a : α) : Moves (pure a : Op α) s s.mirrors E := Moves.ok rfl (Works.refl s) rfl id

/-- A last change of the mirrors alone. -/
theorem Moves.update {g : State → State} (hw : Works s (g s)) (hcs : (g s).cs = s.cs) :
    Moves (update g) s (g s).mirrors E := Moves.ok rfl hw rfl hcs.trans

theorem Moves.bind (hm : Moves m s b E)
    (hf : ∀ a t, m s = .ok a t → Works s t → t.mirrors = b → Moves (f a) t c E) : Moves (m >>= f) s c E := by
  unfold Moves at hm
  cases hr : m s with
  | error e t =>
    rw [hr] at hm
    unfold Moves
    rw [bind_error hr]
    cases e <;> exact hm
  | ok a t =>
    rw [hr] at hm
    obtain ⟨hw, hb, hcs⟩ := hm
    have h := hf a t hr hw hb
    unfold Moves at h ⊢
    rw [bind_ok hr]
    cases hq : f a t with
    | ok d u =>
      rw [hq] at h
      exact ⟨hw.trans h.1, h.2.1, h.2.2 ∘ hcs⟩
    | error e u =>
      rw [hq] at h
      cases e with
      | stuck g => trivial
      | raise k i => exact ⟨hw.trans h.1, h.2⟩

/-- What follows a part that only looks at the state. -/
theorem Moves.look {a : α} (hm : m s = .ok a s) (hf : Moves (f a) s c E) : Moves (m >>= f) s c E := by
  unfold Moves at hf ⊢
  rw [bind_ok hm]
  exact hf

/-- What follows a check runs from the same state. -/
theorem Moves.check (hm : Checks m) (hE : ∀ k, E k s.mirrors) (hf : ∀ a, m s = .ok a s → Moves (f a) s c E) :
    Moves (m >>= f) s c E := by
  rcases hm s with ⟨a, h⟩ | ⟨k, i, -, h⟩ | ⟨g, t, h⟩
  · exact Moves.look h (hf a h)
  · unfold Moves
    rw [bind_error h]
    exact ⟨Works.refl s, hE k⟩
  · unfold Moves
    rw [bind_error h]
    trivial

end

/-! ### Procedures on the wire -/

/-- A procedure that changes only the wire, is abandoned by a timeout or a hang only, and releases the line. -/
structure OnWire {α : Type} (m : Op α) : Prop where
  acts : Acts Wired renderStop m
  releases : Releases m

theorem Acts.with {α : Type} {m : Op α} (h : Acts Wired wireStop m) (h' : Releases m) : OnWire m := ⟨h.onWire, h'⟩

theorem renderStop_raise {c : Config} {k : ErrKind} {i : Byte} (h : renderStop c (.raise k i)) : k = .hwTimeout := by
  rcases h with ⟨h, -⟩ | ⟨h, -⟩ <;> exact h

section

variable {s : State} {E : ErrKind → Bool × Bool → Prop}

theorem OnWire.moves {α : Type} {m : Op α} (h : OnWire m) (hE : E .hwTimeout s.mirrors) : Moves m s s.mirrors E := by
  unfold Moves
  cases hr : m s with
  | ok a t =>
    have hw := h.acts.ok hr
    exact ⟨hw.works, hw.mirrors, fun hcs => h.releases.ok hcs hr⟩
  | error e t =>
    cases e with
    | stuck f => trivial
    | raise k i =>
      obtain ⟨hw, hk⟩ := h.acts.error hr
      rw [renderStop_raise hk]
      exact ⟨hw.works, hw.mirrors.symm ▸ hE⟩

theorem txnCommand_onWire (c : Word) : OnWire (txnCommand c) := (txnCommand_acts c).with (txnCommand_releases c)

theorem txnWrite_onWire (ws : List Word) : OnWire (txnWrite ws) := (txnWrite_acts ws).with (txnWrite_releases ws)

theorem txnRead_onWire (n : Nat) : OnWire (txnRead n) := (txnRead_acts n).with (txnRead_releases n)

theorem multiArg_onWire (c : Word) (args : List Word) : OnWire (multiArg c args) :=
  (multiArg_acts c args).with (multiArg_releases c args)

theorem regWrite_onWire (a v : Word) : OnWire (regWrite a v) := (regWrite_acts a v).with (regWrite_releases a v)

theorem regRead_onWire (a : Word) : OnWire (regRead a) := (regRead_acts a).with (regRead_releases a)

theorem renderReadings_onWire : OnWire (drawRenderFuel >>= fun fuel => renderPolls fuel 0) :=
  ⟨renderReadings_acts, drawRenderFuel_releases.bind fun fuel => renderPolls_releases fuel 0⟩

/-! ### The load protocol -/

theorem setLoadOpen_moves (b : Bool) : Moves (setLoadOpen b) s (b, s.renderPending) E :=
  Moves.update ⟨⟨[], s.cs, s.chip, s.tgt, b, s.renderPending, NoReset.nil, by simp⟩, id⟩ rfl

theorem setTargetAddr_moves (a : Addr) (hE : E .hwTimeout s.mirrors) : Moves (setTargetAddr a) s s.mirrors E := by
  refine Moves.look (readCfg_run s) (((regWrite_onWire _ _).moves hE).bind fun _ t _ _ ht => ?_)
  rw [← ht] at hE ⊢
  refine ((regWrite_onWire _ _).moves hE).bind fun _ u _ _ hu => ?_
  rw [← hu]
  exact Moves.update (g := fun s => { s with tgt := some a })
    ⟨⟨[], u.cs, u.chip, some a, u.loadOpen, u.renderPending, NoReset.nil, by simp⟩, by simp⟩ rfl

/-- A procedure on the wire, and then LOAD_OPEN. -/
theorem OnWire.thenSetLoadOpen {m : Op Unit} (h : OnWire m) (b : Bool) (hE : E .hwTimeout s.mirrors) :
    Moves (m >>= fun _ => setLoadOpen b) s (b, s.renderPending) E := by
  refine (h.moves hE).bind fun _ t _ _ ht => ?_
  rw [← (Prod.mk.inj ht).2]
  exact setLoadOpen_moves b

theorem beginLoadCore_moves (e : Endian) (p : ChipFormat) (r : Rotation) (a : Addr) (hE : E .hwTimeout s.mirrors) :
    Moves (beginLoadCore e p r a) s (true, s.renderPending) E := by
  refine (setTargetAddr_moves a hE).bind fun _ t _ _ ht => Moves.look (readCfg_run t) ?_
  rw [← (Prod.mk.inj ht).2]
  exact (multiArg_onWire _ _).thenSetLoadOpen true (ht ▸ hE)

theorem beginLoadAreaCore_moves (e : Endian) (p : ChipFormat) (r : Rotation) (a : Addr) (x y w h : Word)
    (hE : E .hwTimeout s.mirrors) : Moves (beginLoadAreaCore e p r a x y w h) s (true, s.renderPending) E := by
  refine (setTargetAddr_moves a hE).bind fun _ t _ _ ht => Moves.look (readCfg_run t) ?_
  rw [← (Prod.mk.inj ht).2]
  exact (multiArg_onWire _ _).thenSetLoadOpen true (ht ▸ hE)

theorem endLoadCore_moves (hE : E .hwTimeout s.mirrors) : Moves endLoadCore s (false, s.renderPending) E :=
  Moves.look (readCfg_run s) ((txnCommand_onWire _).thenSetLoadOpen false hE)

/-! ### Loads -/

/-- A load whose footprint passed reads no byte outside SRC (R226). -/
theorem footprint_passed {j : LoadJob} {s t : State} {u : Unit} (h : footprint j s = .ok u t) : SourceFits s j := by
  rw [footprint_run] at h
  intro r k hr hk hfill
  have hlast : footprintLast j < s.cfg.srcSize.toNat := by
    by_contra hge
    rw [if_pos ⟨hfill, Nat.le_of_not_lt hge⟩] at h
    cases h
  unfold footprintLast at hlast
  have := Nat.mul_le_mul_right j.stride (show r ≤ j.h.toNat - 1 by omega)
  omega

/-- The words `0 .. n - 1` of the telegram that starts at row `r0` are in SRC, or come from a fill. -/
def TelegramFits (s : State) (j : LoadJob) (r0 n : Nat) : Prop :=
  ∀ q, q < n → j.fill = none → j.src.toNat + (r0 + q / wordsPerRow j.d j.w.toNat) * j.stride +
    2 * (q % wordsPerRow j.d j.w.toNat) + 2 ≤ s.cfg.srcSize.toNat

/-- So are those of every telegram of a load that reads no byte outside SRC: its rows are rows of the load (R228). -/
theorem SourceFits.telegram {s : State} {j : LoadJob} (h : SourceFits s j) (tRows t : Nat) :
    TelegramFits s j (t * tRows) (wordsPerRow j.d j.w.toNat * telegramRows tRows j.h.toNat t) := by
  intro q hq hfill
  unfold telegramRows at hq
  have hpos : 0 < wordsPerRow j.d j.w.toNat := Nat.pos_of_ne_zero fun h0 => by simp [h0] at hq
  have hdiv := (Nat.div_lt_iff_lt_mul hpos).2 (Nat.mul_comm _ _ ▸ hq)
  have hrow : ∀ i, i < min tRows (j.h.toNat - t * tRows) → t * tRows + i < j.h.toNat := fun i hi => by omega
  exact h _ _ (hrow _ hdiv) (Nat.mod_lt _ hpos) hfill

/-- A burst of words that are in SRC is a transaction and nothing more. -/
theorem loadBurst_moves {j : LoadJob} {r0 n : Nat} (b : Nat) (hfit : TelegramFits s j r0 n)
    (hE : E .hwTimeout s.mirrors) : Moves (loadBurst j r0 n b) s s.mirrors E := by
  have hdelay : Moves (interBurstDelay b) s s.mirrors E := by
    refine Moves.look (readCfg_run s) ?_
    by_cases hb : b > 0
    · rw [if_pos hb]
      exact Moves.ok rfl (Wired.works ⟨[.delay s.cfg.interBurstDelayMs], s.cs, s.chip, fun _ h => by simp at h, rfl⟩) rfl id
    · rw [if_neg hb]
      exact Moves.pure ()
  refine hdelay.bind fun _ t _ hw ht => Moves.look (readCfg_run t) ?_
  refine Moves.look (loadWords_run j r0 _ _ t fun q hq hfill => ?_) (ht ▸ (txnWrite_onWire _).moves (ht ▸ hE))
  rw [hw.cfg] at hq ⊢
  exact hfit _ (by omega) hfill

theorem loadBursts_moves {j : LoadJob} {r0 n : Nat} : ∀ (count b : Nat) {s : State}, TelegramFits s j r0 n →
    E .hwTimeout s.mirrors → Moves (loadBursts j r0 n count b) s s.mirrors E := by
  intro count
  induction count with
  | zero => exact fun _ _ _ _ => Moves.pure ()
  | succ k ih =>
    intro b s hfit hE
    refine (loadBurst_moves b hfit hE).bind fun _ t _ hw ht => ?_
    have hfit' : TelegramFits t j r0 n := by unfold TelegramFits; rwa [hw.cfg]
    exact ht ▸ ih (b + 1) hfit' (ht ▸ hE)

/-- A load may be abandoned between a begin-area and its end, but only by a timeout. -/
theorem loadTelegram_moves {j : LoadJob} (k : Nat) (hfit : SourceFits s j) (hE : ∀ l, E .hwTimeout (l, s.renderPending)) :
    Moves (loadTelegram j k) s (false, s.renderPending) E := by
  refine Moves.look (readCfg_run s) ((beginLoadAreaCore_moves _ _ _ _ _ _ _ _ (hE s.loadOpen)).bind
    fun _ t _ hw ht => (loadBursts_moves _ 0 ?_ (ht ▸ hE true)).bind fun _ u _ _ hu => ?_)
  · unfold TelegramFits
    rw [hw.cfg]
    exact hfit.telegram _ _
  · rw [ht] at hu
    rw [← (Prod.mk.inj hu).2]
    exact endLoadCore_moves (hu ▸ hE true)

theorem loadTelegrams_moves {j : LoadJob} : ∀ (count k : Nat) {s : State}, SourceFits s j → s.loadOpen = false →
    (∀ l, E .hwTimeout (l, s.renderPending)) → Moves (loadTelegrams j count k) s s.mirrors E := by
  intro count
  induction count with
  | zero => exact fun _ _ _ _ _ => Moves.pure ()
  | succ n ih =>
    intro k s hfit hl hE
    refine (loadTelegram_moves k hfit hE).bind fun _ t _ hw ht => ?_
    obtain ⟨hopen, hpending⟩ := Prod.mk.inj ht
    have hfit' : SourceFits t j := by unfold SourceFits; rwa [hw.cfg]
    have hsame : t.mirrors = s.mirrors := ht.trans (by rw [State.mirrors, hl])
    exact hsame ▸ ih (k + 1) hfit' hopen (hpending ▸ hE)

/-- `LoadImage` leaves the mirrors as it found them, with no load open; a timeout may leave the load open. -/
theorem loadImage_moves (j : LoadJob) (hl : s.loadOpen = false) (hsame : ∀ k, E k s.mirrors)
    (hE : ∀ l, E .hwTimeout (l, s.renderPending)) : Moves (loadImage j) s s.mirrors E := by
  refine Moves.check (loadGeom_checks j) hsame fun _ _ => Moves.check (footprint_checks j) hsame fun _ hfoot => ?_
  have hw : Works s (afterAllocDraw s) := Wired.works ⟨[], s.cs, _, NoReset.nil, by rw [List.append_nil]; rfl⟩
  have halloc : Moves requireAlloc s s.mirrors E := by
    unfold Moves
    rw [requireAlloc_run]
    by_cases ha : nextAlloc s.chip = false
    · rw [if_pos ha]
      exact ⟨hw, hsame .allocFail⟩
    · rw [if_neg ha]
      exact ⟨hw, rfl, id⟩
  refine halloc.bind fun _ t _ hw ht => Moves.look (readCfg_run t) ?_
  obtain ⟨hopen, hpending⟩ := Prod.mk.inj ht
  have hfit : SourceFits t j := by unfold SourceFits; rw [hw.cfg]; exact footprint_passed hfoot
  exact ht ▸ loadTelegrams_moves _ 0 hfit (hopen.trans hl) (hpending ▸ hE)

/-! ### Displays -/

theorem displayCore_moves (x y w h mode : Word) (adr : Option Addr) (hE : E .hwTimeout s.mirrors) :
    Moves (displayCore x y w h mode adr) s (s.loadOpen, true) E := by
  refine (((displayCommand_acts x y w h mode adr).with (displayCommand_releases x y w h mode adr)).moves hE).bind
    fun _ t _ _ ht => ?_
  rw [← (Prod.mk.inj ht).1]
  exact Moves.update (g := fun s => { s with renderPending := true })
    ⟨⟨[], t.cs, t.chip, t.tgt, t.loadOpen, true, NoReset.nil, by simp⟩, id⟩ rfl

theorem waitRender_moves (hE : E .hwTimeout s.mirrors) : Moves waitRender s (s.loadOpen, false) E := by
  have h : waitRender = (drawRenderFuel >>= fun fuel => renderPolls fuel 0) >>= fun _ =>
      update (fun s => { s with renderPending := false }) := by
    unfold waitRender
    rw [bind_assoc]
  rw [h]
  refine (renderReadings_onWire.moves hE).bind fun _ t _ _ ht => ?_
  rw [← (Prod.mk.inj ht).1]
  exact Moves.update (g := fun s => { s with renderPending := false })
    ⟨⟨[], t.cs, t.chip, t.tgt, t.loadOpen, false, NoReset.nil, by simp⟩, id⟩ rfl

/-- The 1-bpp sequence ends with no render pending; a timeout may leave it pending (R269). -/
theorem display1bppSequence_moves (x y w h mode fgbg : Word) (adr : Option Addr)
    (hE : ∀ p, E .hwTimeout (s.loadOpen, p)) :
    Moves (display1bppSequence x y w h mode fgbg adr) s (s.loadOpen, false) E := by
  refine ((mode1On_acts.with mode1On_releases).moves (hE _)).bind fun _ t _ _ ht => ?_
  rw [← (Prod.mk.inj ht).1] at hE ⊢
  refine (((setBlend_acts _ _).with (setBlend_releases _ _)).moves (hE _)).bind fun _ u _ _ hu => ?_
  rw [← (Prod.mk.inj hu).1] at hE ⊢
  refine (displayCore_moves x y w h mode adr (hE _)).bind fun _ v _ _ hv => ?_
  rw [← (Prod.mk.inj hv).1] at hE ⊢
  refine (waitRender_moves (hE _)).bind fun _ z _ _ hz => ?_
  rw [← hz]
  exact (mode1Off_acts.with mode1Off_releases).moves (hz ▸ hE false)

end

end Sys2Proof.Machine

/-! PROOFS. Scope: every operation other than INIT, composed from the parts above, and what it can do as a whole
(`exec_cases`, `exec_mirrorStep`). -/

namespace Sys2Proof.Machine

open Sys2Proof.Safety

/-! ### How an operation finishes -/

/-- What an operation that completes does last: nothing; or it writes a read register (R35) or ends the session (R277). -/
inductive Finished : Instr → State → State → Prop where
  | nothing (i : Instr) (u : State) : Finished i u u
  | rdData (m : Mod) (v : Word) (u : State) : Finished (.rdData m) u { u with rdata := some v }
  | rdReg (m : Mod) (addr v : Word) (u : State) : Finished (.rdReg m addr) u { u with rdata := some v }
  | rdMulti (m : Mod) (n : Word) (ws : List Word) (u : State) : Finished (.rdMulti m n) u { u with rbuf := ws }
  | sleep (m : Mod) (u : State) : Finished (.sleep m) u { u with session := .unready }
  | standby (m : Mod) (u : State) : Finished (.standby m) u { u with session := .unready }

theorem Finished.mirrors {i : Instr} {u v : State} (h : Finished i u v) : v.mirrors = u.mirrors := by
  cases h <;> rfl

theorem Finished.cs {i : Instr} {u v : State} (h : Finished i u v) : v.cs = u.cs := by
  cases h <;> rfl

/-- The body of `i`, run from `s`, works and then finishes; or it is abandoned on the way. Either way the mirrors step as
those of `i` may. -/
def Finishes (i : Instr) (body : Op Unit) (s : State) : Prop :=
  match body s with
  | .ok _ v => ∃ u, Works s u ∧ Finished i u v ∧ MirrorStep i 0 s.mirrors v.mirrors ∧ (s.cs = 1 → v.cs = 1)
  | .error (.raise k _) u => Works s u ∧ MirrorStep i (errCode k) s.mirrors u.mirrors
  | .error (.stuck _) _ => True

/-- The mirrors that an error `k` of `i` may leave. -/
def AbandonedMirrors (i : Instr) (s : State) (k : ErrKind) (b : Bool × Bool) : Prop :=
  MirrorStep i (errCode k) s.mirrors b

section

variable {α : Type} {i : Instr} {s : State} {m : Op α} {b : Bool × Bool}

theorem AbandonedMirrors.same (i : Instr) (s : State) (k : ErrKind) : AbandonedMirrors i s k s.mirrors :=
  MirrorStep.same i _ _

theorem Moves.finishes {body : Op Unit} (h : Moves body s b (AbandonedMirrors i s)) (hb : MirrorStep i 0 s.mirrors b) :
    Finishes i body s := by
  unfold Moves at h
  unfold Finishes
  cases hr : body s with
  | ok a u =>
    rw [hr] at h
    exact ⟨u, h.1, .nothing i u, h.2.1.symm ▸ hb, h.2.2⟩
  | error e u =>
    rw [hr] at h
    cases e <;> exact h

theorem Finishes.look {f : α → Op Unit} {a : α} (hm : m s = .ok a s) (hf : Finishes i (f a) s) :
    Finishes i (m >>= f) s := by
  unfold Finishes at hf ⊢
  rw [bind_ok hm]
  exact hf

theorem Finishes.check {f : α → Op Unit} (hm : Checks m) (hf : ∀ a, m s = .ok a s → Finishes i (f a) s) :
    Finishes i (m >>= f) s := by
  rcases hm s with ⟨a, h⟩ | ⟨k, e, -, h⟩ | ⟨g, t, h⟩
  · exact Finishes.look h (hf a h)
  · unfold Finishes
    rw [bind_error h]
    exact ⟨Works.refl s, .same i _ _⟩
  · unfold Finishes
    rw [bind_error h]
    trivial

/-- A raw operation: a procedure on the wire. -/
theorem OnWire.finishes {body : Op Unit} (h : OnWire body) : Finishes i body s :=
  (h.moves (AbandonedMirrors.same i s _)).finishes (.same i _ _)

/-- A procedure on the wire, and then a register. -/
theorem OnWire.finishesWith (h : OnWire m) {g : α → State → State} (hg : ∀ a u, Finished i u (g a u)) :
    Finishes i (m >>= fun a => update (g a)) s := by
  have hmoves := h.moves (E := AbandonedMirrors i s) (AbandonedMirrors.same i s _)
  unfold Moves at hmoves
  unfold Finishes
  cases hr : m s with
  | ok a u =>
    rw [hr] at hmoves
    rw [bind_ok hr]
    have hf := hg a u
    exact ⟨u, hmoves.1, hf, (hf.mirrors.trans hmoves.2.1).symm ▸ .same i _ _, fun hcs => hf.cs.trans (hmoves.2.2 hcs)⟩
  | error e u =>
    rw [hr] at hmoves
    rw [bind_error hr]
    cases e <;> exact hmoves

end

/-! ### Admission -/

section

variable {s t : State} {m mask : Mod}

theorem refuseLoadOpen_passed {i : Byte} {u : Unit} (h : refuseLoadOpen i s = .ok u t) : s.loadOpen = false := by
  unfold refuseLoadOpen at h
  rw [bind_ok (readState_run s)] at h
  simpa using raiseIf_passed h

theorem requireLoadOpen_passed {u : Unit} (h : requireLoadOpen s = .ok u t) : s.loadOpen = true := by
  unfold requireLoadOpen at h
  rw [bind_ok (readState_run s)] at h
  simpa using raiseIf_passed h

/-- A load is admitted with no load open and no render pending (R204). -/
theorem loadAdmitState_mirrors {u : Unit} (h : loadAdmitState s = .ok u t) : s.mirrors = (false, false) := by
  obtain ⟨_, hopen, -⟩ := (refuseLoadOpen_checks 1).passed h
  rw [State.mirrors, refuseLoadOpen_passed hopen, loadAdmitState_passed h]

theorem loadAdmit_mirrors {u : Unit} (h : loadAdmit mask m s = .ok u t) : s.mirrors = (false, false) := by
  obtain ⟨_, -, h⟩ := (checkMod_checks mask m).passed h
  exact loadAdmitState_mirrors h

theorem loadAdmitPsel_mirrors {p : ChipFormat} (h : loadAdmitPsel m s = .ok p t) : s.mirrors = (false, false) := by
  obtain ⟨_, -, h⟩ := (checkMod_checks maskBegin m).passed h
  obtain ⟨_, -, h⟩ := (readPsel_checks m).passed h
  obtain ⟨_, h, -⟩ := loadAdmitState_checks.passed h
  exact loadAdmitState_mirrors h

/-- And so is a display (R261). -/
theorem displayAdmit_mirrors {u : Unit} (h : displayAdmit mask m s = .ok u t) : s.mirrors = (false, false) := by
  obtain ⟨_, -, hrest⟩ := (checkMod_checks mask m).passed h
  obtain ⟨_, hopen, -⟩ := (refuseLoadOpen_checks 3).passed hrest
  rw [State.mirrors, refuseLoadOpen_passed hopen, displayAdmit_passed h]

end

/-! ### The operations -/

section

variable {s : State}

/-- The mirrors a timeout leaves, from those of an admitted operation. -/
theorem abandoned_of_mirrors {i : Instr} {k : ErrKind} {b : Bool × Bool} (hs : s.mirrors = (false, false))
    (h : MirrorStep i (errCode k) (false, false) b) : AbandonedMirrors i s k b := by
  unfold AbandonedMirrors
  rwa [hs]

/-- `LoadImage` in an admitted operation, whose timeout may leave the load open. -/
theorem loadImage_admitted {i : Instr} (j : LoadJob) (hs : s.mirrors = (false, false))
    (hlate : MirrorStep i 1 (false, false) (true, false)) :
    Moves (loadImage j) s s.mirrors (AbandonedMirrors i s) := by
  obtain ⟨hopen, hpending⟩ := Prod.mk.inj hs
  refine loadImage_moves j hopen (AbandonedMirrors.same i s) fun l => abandoned_of_mirrors hs ?_
  rw [hpending]
  cases l with
  | false => exact .same i _ _
  | true => exact hlate

theorem loadBody_finishes (d : Depth) (m : Mod) (tgt src : Addr) (stride x y w h : Word) :
    Finishes (loadInstr d m tgt src stride x y w h) (loadBody d m tgt src stride x y w h) s :=
  Finishes.check (loadAdmit_checks _ m) fun _ ha =>
    (loadImage_admitted _ (loadAdmit_mirrors ha) (.loadTimedOut d m tgt src stride x y w h)).finishes (.same _ _ _)

theorem beginLoad_finishes (m : Mod) (tgt : Addr) : Finishes (.beginLoad m tgt) (do
    let p ← loadAdmitPsel m
    beginLoadCore (modEndian m) p (modRot m) tgt) s := by
  refine Finishes.check (loadAdmitPsel_checks m) fun p ha => ?_
  have hs := loadAdmitPsel_mirrors ha
  refine (beginLoadCore_moves _ p _ tgt (AbandonedMirrors.same _ s _)).finishes ?_
  rw [hs, (Prod.mk.inj hs).2]
  exact .beginLoad m tgt

theorem beginLoadArea_finishes (m : Mod) (tgt : Addr) (x y w h : Word) : Finishes (.beginLoadArea m tgt x y w h) (do
    let p ← loadAdmitPsel m
    panelCheck x y w h
    beginLoadAreaCore (modEndian m) p (modRot m) tgt x y w h) s := by
  refine Finishes.check (loadAdmitPsel_checks m) fun p ha => Finishes.check (panelCheck_checks x y w h) fun _ _ => ?_
  have hs := loadAdmitPsel_mirrors ha
  refine (beginLoadAreaCore_moves _ p _ tgt x y w h (AbandonedMirrors.same _ s _)).finishes ?_
  rw [hs, (Prod.mk.inj hs).2]
  exact .beginLoadArea m tgt x y w h

theorem endLoad_finishes (m : Mod) : Finishes (.endLoad m) (do
    checkMod maskNone m
    requireLoadOpen
    endLoadCore) s := by
  refine Finishes.check (checkMod_checks _ m) fun _ _ => Finishes.check requireLoadOpen_checks fun _ hopen => ?_
  refine (endLoadCore_moves (AbandonedMirrors.same _ s _)).finishes ?_
  rw [State.mirrors, requireLoadOpen_passed hopen]
  exact .endLoad m s.renderPending

/-- An operation that admits a display, checks its rectangle and displays. -/
theorem display_finishes {i : Instr} {mask m : Mod} {x y w h : Word} {display : Op Unit} {b : Bool × Bool}
    (hd : s.mirrors = (false, false) → Moves display s b (AbandonedMirrors i s))
    (hb : MirrorStep i 0 (false, false) b) : Finishes i (do displayAdmit mask m; panelCheck x y w h; display) s :=
  Finishes.check (displayAdmit_checks mask m) fun _ ha => Finishes.check (panelCheck_checks x y w h) fun _ _ =>
    (hd (displayAdmit_mirrors ha)).finishes ((displayAdmit_mirrors ha).symm ▸ hb)

/-- `DisplayCore` where no load is open. -/
theorem displayCore_admitted {E : ErrKind → Bool × Bool → Prop} (x y w h mode : Word) (adr : Option Addr)
    (hs : s.mirrors = (false, false)) (hE : E .hwTimeout s.mirrors) :
    Moves (displayCore x y w h mode adr) s (false, true) E :=
  (Prod.mk.inj hs).1 ▸ displayCore_moves x y w h mode adr hE

/-- The 1-bpp sequence where no load is open and no render pending. -/
theorem display1bppSequence_admitted {E : ErrKind → Bool × Bool → Prop} (x y w h mode fgbg : Word) (adr : Option Addr)
    (hs : s.mirrors = (false, false)) (hE : ∀ p, E .hwTimeout (false, p)) :
    Moves (display1bppSequence x y w h mode fgbg adr) s (false, false) E := by
  have hopen := (Prod.mk.inj hs).1
  have h := display1bppSequence_moves (s := s) (E := E) x y w h mode fgbg adr
  rw [hopen] at h
  exact h hE

theorem waitRenderIdle_finishes (m : Mod) : Finishes (.waitRenderIdle m) (do
    checkMod maskNone m
    refuseLoadOpen 3
    waitRender) s := by
  refine Finishes.check (checkMod_checks _ m) fun _ _ => Finishes.check (refuseLoadOpen_checks 3) fun _ hopen => ?_
  refine (waitRender_moves (AbandonedMirrors.same _ s _)).finishes ?_
  rw [State.mirrors, refuseLoadOpen_passed hopen]
  exact .renderIdle m s.renderPending

theorem clearAndRefresh_finishes (m : Mod) (adr : Addr) (mode : Word) : Finishes (.clearAndRefresh m adr mode) (do
    loadAdmit maskNone m
    let d ← readDesc
    let c ← readCfg
    loadImage { d := .d4, e := .little, r := 0, tgt := adr, src := 0, stride := d.panelW.toNat * 4 / 8,
                x := 0, y := 0, w := d.panelW, h := d.panelH, fill := some c.clearFill }
    displayCore 0 0 d.panelW d.panelH mode (some adr)) s := by
  refine Finishes.check (loadAdmit_checks _ m) fun _ ha => Finishes.check readDesc_checks fun d _ =>
    Finishes.look (readCfg_run s) ?_
  have hs := loadAdmit_mirrors ha
  refine Moves.finishes (b := (false, true)) ?_ (hs ▸ .clear m adr mode)
  exact (loadImage_admitted _ hs (.clearTimedOut m adr mode)).bind fun _ t _ _ ht =>
    displayCore_admitted _ _ _ _ _ _ (ht.trans hs) (ht ▸ AbandonedMirrors.same _ s _)

/-- REFRESH_dBPP: of 1 bpp it waits for the render, of another depth only if the map says so (R272). -/
theorem refreshBody_finishes (d : Depth) (m : Mod) (src : Addr) (x y w h : Word) (adr : Addr) :
    Finishes (refreshInstr d m src x y w h adr) (refreshBody d m src x y w h adr) s := by
  refine Finishes.check (loadAdmit_checks _ m) fun _ ha => Finishes.check (readRefreshMap_checks d m) fun f _ => ?_
  have hs := loadAdmit_mirrors ha
  have hload : ∀ j, Moves (loadImage j) s s.mirrors (AbandonedMirrors (refreshInstr d m src x y w h adr) s) := fun j =>
    loadImage_admitted j hs (.refreshLoadTimedOut d m src x y w h adr)
  have hlate : ∀ p, AbandonedMirrors (refreshInstr d m src x y w h adr) s .hwTimeout (false, p) := fun p =>
    abandoned_of_mirrors hs (match p with
      | false => .same _ _ _
      | true => .refreshDisplayTimedOut d m src x y w h adr)
  have hdisplay : d ≠ .d1 → Finishes (refreshInstr d m src x y w h adr) (do
      loadImage { d := d, e := .little, r := 0, tgt := adr, src := src, stride := bytesPerRow d w.toNat,
                  x := x, y := y, w := w, h := h, fill := none }
      displayCore x y w h f.mode (some adr)
      if f.wait then waitRender else pure ()) s := by
    intro hd
    refine Moves.finishes (b := (false, !f.wait)) ((hload _).bind fun _ t _ _ ht =>
      (displayCore_admitted x y w h f.mode (some adr) (ht.trans hs) (ht ▸ AbandonedMirrors.same _ s _)).bind
        fun _ u _ _ hu => ?_) ?_
    · cases f.wait with
      | true => exact (Prod.mk.inj hu).1 ▸ waitRender_moves (hu ▸ hlate true)
      | false => exact hu ▸ Moves.pure ()
    · rw [hs]
      cases f.wait with
      | true => exact .same _ _ _
      | false => exact .refresh d hd m src x y w h adr
  cases d with
  | d1 =>
    exact Moves.finishes ((hload _).bind fun _ t _ _ ht =>
      display1bppSequence_admitted x y w h f.mode f.fgbg (some adr) (ht.trans hs) hlate) (hs ▸ .same _ _ _)
  | d2 => exact hdisplay (by decide)
  | d4 => exact hdisplay (by decide)
  | d8 => exact hdisplay (by decide)

theorem powerBody_finishes {i : Instr} (m : Mod) (code : Config → Word)
    (hi : ∀ u : State, Finished i u { u with session := .unready }) : Finishes i (powerBody m code) s :=
  Finishes.check (checkMod_checks _ m) fun _ _ => Finishes.check (refuseLoadOpen_checks 3) fun _ _ =>
    Finishes.check refuseRenderPending_checks fun _ _ => Finishes.look (readCfg_run s) <|
      (txnCommand_onWire _).finishesWith fun _ u => hi u

/-- Every operation other than INIT finishes as its constructor of `Finished` says. -/
theorem exec_finishes {i : Instr} (hi : ∀ m v, i ≠ .init m v) (s : State) :
    ∃ body, exec i s = runOp body s ∧ Finishes i body s := by
  cases i with
  | wrCmd m code =>
    exact ⟨_, rfl, Finishes.check (rawAdmit_checks m) fun _ _ => Finishes.check (refuseTracked_checks code) fun _ _ =>
      (txnCommand_onWire code).finishes⟩
  | wrData m w => exact ⟨_, rfl, Finishes.check (checkMod_checks _ m) fun _ _ => (txnWrite_onWire [w]).finishes⟩
  | wrMulti m ws =>
    exact ⟨_, rfl, Finishes.check (checkMod_checks _ m) fun _ _ => Finishes.check (raiseIf_checks _ (by decide) _)
      fun _ _ => Finishes.check (refuseOverBurst_checks _) fun _ _ => (txnWrite_onWire ws).finishes⟩
  | rdData m =>
    exact ⟨_, rfl, Finishes.check (rawAdmit_checks m) fun _ _ => (txnRead_onWire 1).finishesWith fun _ u => .rdData m _ u⟩
  | rdMulti m n =>
    exact ⟨_, rfl, Finishes.check (rawAdmit_checks m) fun _ _ => Finishes.check (raiseIf_checks _ (by decide) _)
      fun _ _ => Finishes.check (refuseOverBurst_checks _) fun _ _ =>
        (txnRead_onWire _).finishesWith fun ws u => .rdMulti m n ws u⟩
  | wrMultiArg m code args =>
    exact ⟨_, rfl, Finishes.check (rawAdmit_checks m) fun _ _ => Finishes.check (refuseTracked_checks code) fun _ _ =>
      Finishes.check (refuseOverBurstMulti_checks _) fun _ _ => (multiArg_onWire code args).finishes⟩
  | rdReg m addr =>
    exact ⟨_, rfl, Finishes.check (rawAdmit_checks m) fun _ _ =>
      (regRead_onWire addr).finishesWith fun _ u => .rdReg m addr _ u⟩
  | wrReg m addr val =>
    exact ⟨_, rfl, Finishes.check (rawAdmit_checks m) fun _ _ => (regWrite_onWire addr val).finishes⟩
  | init m vcom => exact absurd rfl (hi m vcom)
  | beginLoad m tgt => exact ⟨_, rfl, beginLoad_finishes m tgt⟩
  | beginLoadArea m tgt x y w h => exact ⟨_, rfl, beginLoadArea_finishes m tgt x y w h⟩
  | endLoad m => exact ⟨_, rfl, endLoad_finishes m⟩
  | load1bpp m tgt src stride x y w h => exact ⟨_, rfl, loadBody_finishes .d1 m tgt src stride x y w h⟩
  | load2bpp m tgt src stride x y w h => exact ⟨_, rfl, loadBody_finishes .d2 m tgt src stride x y w h⟩
  | load4bpp m tgt src stride x y w h => exact ⟨_, rfl, loadBody_finishes .d4 m tgt src stride x y w h⟩
  | load8bpp m tgt src stride x y w h => exact ⟨_, rfl, loadBody_finishes .d8 m tgt src stride x y w h⟩
  | displayArea m x y w h mode =>
    exact ⟨_, rfl, display_finishes (fun hs => displayCore_admitted x y w h mode none hs (AbandonedMirrors.same _ s _))
      (.display m x y w h mode)⟩
  | displayAreaBuf m x y w h mode adr =>
    exact ⟨_, rfl, display_finishes
      (fun hs => displayCore_admitted x y w h mode (some adr) hs (AbandonedMirrors.same _ s _))
      (.displayBuf m x y w h mode adr)⟩
  | display1bpp m x y w h mode fgbg adr =>
    refine ⟨_, rfl, display_finishes (fun hs => display1bppSequence_admitted x y w h mode fgbg adr hs fun p =>
      abandoned_of_mirrors hs ?_) (.same _ _ _)⟩
    cases p with
    | false => exact .same _ _ _
    | true => exact .display1bppTimedOut m x y w h mode fgbg adr
  | waitRenderIdle m => exact ⟨_, rfl, waitRenderIdle_finishes m⟩
  | clearAndRefresh m adr mode => exact ⟨_, rfl, clearAndRefresh_finishes m adr mode⟩
  | refresh1bpp m src x y w h adr => exact ⟨_, rfl, refreshBody_finishes .d1 m src x y w h adr⟩
  | refresh2bpp m src x y w h adr => exact ⟨_, rfl, refreshBody_finishes .d2 m src x y w h adr⟩
  | refresh4bpp m src x y w h adr => exact ⟨_, rfl, refreshBody_finishes .d4 m src x y w h adr⟩
  | refresh8bpp m src x y w h adr => exact ⟨_, rfl, refreshBody_finishes .d8 m src x y w h adr⟩
  | sleep m => exact ⟨_, rfl, powerBody_finishes m _ fun u => .sleep m u⟩
  | standby m => exact ⟨_, rfl, powerBody_finishes m _ fun u => .standby m u⟩

end

/-! ### Whole operations -/

/-- Everything an operation other than INIT can do: it works, and finishes; or it works, and is abandoned by an error. -/
theorem exec_cases {i : Instr} (hi : ∀ m v, i ≠ .init m v) {s t : State} (h : exec i s = .next t) :
    ∃ u, Works s u ∧
      ((∃ v, Finished i u v ∧ MirrorStep i 0 s.mirrors v.mirrors ∧ (s.cs = 1 → v.cs = 1) ∧ t = successEpilogue v) ∨
        ∃ k e, MirrorStep i (errCode k) s.mirrors u.mirrors ∧ t = errorEpilogue k e u) := by
  obtain ⟨body, hbody, hf⟩ := exec_finishes hi s
  rw [hbody] at h
  unfold Finishes at hf
  rcases runOp_next h with ⟨v, hv, rfl⟩ | ⟨k, e, u, hu, rfl⟩
  · rw [hv] at hf
    obtain ⟨u, hw, hfin, hmir, hcs⟩ := hf
    exact ⟨u, hw, .inl ⟨v, hfin, hmir, hcs, rfl⟩⟩
  · rw [hu] at hf
    exact ⟨u, hf.1, .inr ⟨k, e, hf.2, rfl⟩⟩

theorem successEpilogue_mirrors (s : State) : (successEpilogue s).mirrors = s.mirrors := rfl

theorem committed_mirrors (ws : List Word) (s : State) : (s.committed ws).mirrors = s.mirrors := rfl

theorem errorEpilogue_mirrors (k : ErrKind) (i : Byte) (s : State) : (errorEpilogue k i s).mirrors = s.mirrors := by
  rw [errorEpilogue_eq]
  rfl

/-- The mirrors of every operation, INIT included, step as its constructor of `MirrorStep` says. -/
theorem exec_mirrorStep {i : Instr} {s t : State} (h : exec i s = .next t) : MirrorStep i t.res s.mirrors t.mirrors := by
  by_cases hi : ∃ m v, i = .init m v
  · obtain ⟨m, v, rfl⟩ := hi
    rcases execInit_cases h with ⟨-, rfl⟩ | ⟨u, hu, ⟨k, e, rfl⟩ | ⟨ws, -, -, rfl⟩⟩
    · rw [errorEpilogue_mirrors]
      exact .same _ _ _
    · rw [errorEpilogue_mirrors, hu.mirrors]
      exact .init m v _ _
    · rw [successEpilogue_mirrors, committed_mirrors, hu.mirrors]
      exact .init m v _ _
  · obtain ⟨u, -, ⟨v, -, hmir, -, rfl⟩ | ⟨k, e, hmir, rfl⟩⟩ := exec_cases (fun m v he => hi ⟨m, v, he⟩) h
    · rw [successEpilogue_mirrors]
      exact hmir
    · rw [errorEpilogue_mirrors, errorEpilogue_res]
      exact hmir

end Sys2Proof.Machine

/-! PROOFS. Scope: the read registers, the session, the mirrors and the invariant of the states between operations (10_state.md
R24 to R35), each read off `exec_cases`, `execInit_cases` and `exec_mirrorStep`. -/

namespace Sys2Proof.Machine

open Sys2Proof.Safety

/-! ### The read registers -/

theorem Finished.rdata {i : Instr} {u v : State} (h : Finished i u v) :
    v.rdata = u.rdata ∨ (∃ m, i = .rdData m) ∨ ∃ m a, i = .rdReg m a := by
  cases h with
  | nothing => exact .inl rfl
  | rdData m => exact .inr (.inl ⟨m, rfl⟩)
  | rdReg m a => exact .inr (.inr ⟨m, a, rfl⟩)
  | rdMulti => exact .inl rfl
  | sleep => exact .inl rfl
  | standby => exact .inl rfl

theorem Finished.rbuf {i : Instr} {u v : State} (h : Finished i u v) : v.rbuf = u.rbuf ∨ ∃ m n, i = .rdMulti m n := by
  cases h with
  | nothing => exact .inl rfl
  | rdData => exact .inl rfl
  | rdReg => exact .inl rfl
  | rdMulti m n => exact .inr ⟨m, n, rfl⟩
  | sleep => exact .inl rfl
  | standby => exact .inl rfl

theorem Works.sameReads {s t : State} (h : Works s t) : SameReads s t := by
  obtain ⟨⟨es, c, k, g, l, p, -, rfl⟩, -⟩ := h
  exact ⟨rfl, rfl⟩

theorem Wired.sameReads_of_pulsed {s t : State} (h : Wired s.pulsed t) : SameReads s t := h.works.sameReads

theorem sameReads_errorEpilogue {s u : State} (h : SameReads s u) (k : ErrKind) (e : Byte) :
    SameReads s (errorEpilogue k e u) := by
  obtain ⟨hd, hb⟩ := h
  exact ⟨(errorEpilogue_rdata k e u).trans hd, (errorEpilogue_rbuf k e u).trans hb⟩

/-- INIT is no read. -/
theorem execInit_sameReads {m : Mod} {vcom : Word} {s t : State} (h : execInit m vcom s = .next t) : SameReads s t := by
  rcases execInit_cases h with ⟨-, rfl⟩ | ⟨u, hu, ⟨k, e, rfl⟩ | ⟨ws, -, -, rfl⟩⟩
  · exact sameReads_errorEpilogue ⟨rfl, rfl⟩ _ _
  · exact sameReads_errorEpilogue hu.sameReads_of_pulsed k e
  · exact hu.sameReads_of_pulsed

/-- Settles O19: an operation works without touching the read registers, and only a completed read finishes by writing
one. -/
theorem readRegistersAreWrittenByReads : Obligations.ReadRegistersAreWrittenByReads := by
  unfold Obligations.ReadRegistersAreWrittenByReads
  refine ⟨fun i s t h => ?_, fun s hs => by simp [hostReadRdata, hs], fun s v hs => by simp [hostReadRdata, hs]⟩
  have hsame : SameReads s t →
      (t.rdata ≠ s.rdata → t.res = 0 ∧ ((∃ m, i = .rdData m) ∨ ∃ m a, i = .rdReg m a)) ∧
      (t.rbuf ≠ s.rbuf → t.res = 0 ∧ ∃ m n, i = .rdMulti m n) :=
    fun hs => ⟨fun hne => absurd hs.1 hne, fun hne => absurd hs.2 hne⟩
  by_cases hi : ∃ m v, i = .init m v
  · obtain ⟨m, v, rfl⟩ := hi
    exact hsame (execInit_sameReads h)
  · obtain ⟨u, hw, ⟨v, hfin, -, -, rfl⟩ | ⟨k, e, -, rfl⟩⟩ := exec_cases (fun m v he => hi ⟨m, v, he⟩) h
    · obtain ⟨hd, hb⟩ := hw.sameReads
      exact ⟨fun hne => ⟨rfl, hfin.rdata.resolve_left fun he => hne (he.trans hd)⟩,
        fun hne => ⟨rfl, hfin.rbuf.resolve_left fun he => hne (he.trans hb)⟩⟩
    · exact hsame (sameReads_errorEpilogue hw.sameReads k e)

/-! ### The session -/

/-- What an operation other than INIT keeps of the session: the reset line, the descriptor, and an unready session; the trace
gains no reset-line event (R25 to R27). -/
def KeepsSession (s t : State) : Prop :=
  t.rstl = s.rstl ∧ t.desc = s.desc ∧ (∃ es, t.trace = s.trace ++ es ∧ NoReset es) ∧
    (s.session = .unready → t.session = .unready)

theorem KeepsSession.trans {s t u : State} (h : KeepsSession s t) (h' : KeepsSession t u) : KeepsSession s u := by
  obtain ⟨hr, hd, ⟨es, he, hn⟩, hs⟩ := h
  obtain ⟨hr', hd', ⟨fs, hf, hn'⟩, hs'⟩ := h'
  exact ⟨hr'.trans hr, hd'.trans hd, ⟨es ++ fs, by rw [hf, he, List.append_assoc], hn.append hn'⟩, hs' ∘ hs⟩

theorem keepsSession_of_session {s t : State} (hr : t.rstl = s.rstl) (hd : t.desc = s.desc) (ht : t.trace = s.trace)
    (hs : s.session = .unready → t.session = .unready) : KeepsSession s t :=
  ⟨hr, hd, ⟨[], by rw [ht, List.append_nil], NoReset.nil⟩, hs⟩

theorem Works.keepsSession {s t : State} (h : Works s t) : KeepsSession s t := by
  obtain ⟨⟨es, c, k, g, l, p, hn, rfl⟩, -⟩ := h
  exact ⟨rfl, rfl, ⟨es, rfl, hn⟩, id⟩

theorem Finished.keepsSession {i : Instr} {u v : State} (h : Finished i u v) : KeepsSession u v := by
  cases h with
  | nothing => exact keepsSession_of_session rfl rfl rfl id
  | rdData => exact keepsSession_of_session rfl rfl rfl id
  | rdReg => exact keepsSession_of_session rfl rfl rfl id
  | rdMulti => exact keepsSession_of_session rfl rfl rfl id
  | sleep => exact keepsSession_of_session rfl rfl rfl fun _ => rfl
  | standby => exact keepsSession_of_session rfl rfl rfl fun _ => rfl

theorem errorEpilogue_keepsSession (k : ErrKind) (e : Byte) (s : State) : KeepsSession s (errorEpilogue k e s) := by
  refine ⟨errorEpilogue_rstl k e s, errorEpilogue_desc k e s, errorEpilogue_trace_grows k e s, fun hs => ?_⟩
  rw [errorEpilogue_session, hs, ite_self]

theorem successEpilogue_keepsSession (s : State) : KeepsSession s (successEpilogue s) :=
  keepsSession_of_session rfl rfl rfl id

/-- Operations other than INIT keep the session. -/
theorem exec_keepsSession {i : Instr} (hi : ∀ m v, i ≠ .init m v) {s t : State} (h : exec i s = .next t) :
    KeepsSession s t := by
  obtain ⟨u, hw, ⟨v, hfin, -, -, rfl⟩ | ⟨k, e, -, rfl⟩⟩ := exec_cases hi h
  · exact (hw.keepsSession.trans hfin.keepsSession).trans (successEpilogue_keepsSession v)
  · exact hw.keepsSession.trans (errorEpilogue_keepsSession k e u)

theorem Wired.session_of_pulsed {s u : State} (h : Wired s.pulsed u) :
    u.session = .unready ∧ u.desc = none ∧ u.rstl = 1 ∧ u.loadOpen = false ∧ u.renderPending = false ∧ u.tgt = s.tgt := by
  obtain ⟨es, c, k, -, rfl⟩ := h
  exact ⟨rfl, rfl, rfl, rfl, rfl, rfl⟩

/-- An INIT that raises an error makes no session ready. -/
theorem execInit_ready {m : Mod} {vcom : Word} {s t : State} (h : execInit m vcom s = .next t)
    (hs : s.session = .unready) (ht : t.session = .ready) : t.res = 0 := by
  have herror : ∀ {u : State} {k : ErrKind} {e : Byte}, u.session = .unready → (errorEpilogue k e u).session ≠ .ready := by
    intro u k e hu
    rw [(errorEpilogue_keepsSession k e u).2.2.2 hu]
    decide
  rcases execInit_cases h with ⟨-, rfl⟩ | ⟨u, hu, ⟨k, e, rfl⟩ | ⟨ws, -, -, rfl⟩⟩
  · exact absurd ht (herror hs)
  · exact absurd ht (herror hu.session_of_pulsed.1)
  · rfl

/-- Settles O20: operations other than INIT keep the session, and an INIT that raises an error leaves it unready. -/
theorem onlyInitOpensASession : Obligations.OnlyInitOpensASession := by
  unfold Obligations.OnlyInitOpensASession
  intro i s t h
  by_cases hi : ∃ m v, i = .init m v
  · refine ⟨fun hno => absurd hi hno, fun hs ht => ?_⟩
    obtain ⟨m, v, rfl⟩ := hi
    exact ⟨execInit_ready h hs ht, m, v, rfl⟩
  · obtain ⟨hr, hd, htrace, hses⟩ := exec_keepsSession (fun m v he => hi ⟨m, v, he⟩) h
    refine ⟨fun _ => ⟨hr, hd, htrace⟩, fun hs ht => ?_⟩
    rw [hses hs] at ht
    cases ht

/-- Settles O42: an INIT that fails with its MOD admitted has pulsed, its transactions change only the wire, and the error
epilogue leaves the registers that the pulse cleared. -/
theorem failedInitClosesTheSession : Obligations.FailedInitClosesTheSession := by
  unfold Obligations.FailedInitClosesTheSession
  intro s t vcom h hres
  rcases execInit_cases h with ⟨hm, -⟩ | ⟨u, hu, ⟨k, e, rfl⟩ | ⟨ws, -, -, rfl⟩⟩
  · exact absurd rfl hm
  · obtain ⟨hses, hdesc, -, hopen, hpending, htgt⟩ := hu.session_of_pulsed
    exact ⟨(errorEpilogue_keepsSession k e u).2.2.2 hses, by simpa using hdesc, by simpa using hopen,
      by simpa using hpending, by simpa using htgt, sameReads_errorEpilogue hu.sameReads_of_pulsed k e⟩
  · exact absurd rfl hres

/-! ### The mirrors -/

/-- Settles O21: the steps of the mirrors in which LOAD_OPEN changes. -/
theorem loadMirrorChanges : Obligations.LoadMirrorChanges := by
  unfold Obligations.LoadMirrorChanges
  intro i s t hrun
  have hstep := exec_mirrorStep hrun
  unfold State.mirrors at hstep
  refine ⟨fun hs ht => ?_, fun hs ht => ?_⟩ <;> rw [hs, ht] at hstep <;>
    generalize t.res = r, s.renderPending = p, t.renderPending = q at hstep ⊢
  · cases hstep with
    | beginLoad m tgt => exact .inl ⟨rfl, .inl ⟨m, tgt, rfl⟩⟩
    | beginLoadArea m tgt x y w h => exact .inl ⟨rfl, .inr ⟨m, tgt, x, y, w, h, rfl⟩⟩
    | loadTimedOut d m tgt src stride x y w h => exact .inr ⟨rfl, .inl ⟨d, m, tgt, src, stride, x, y, w, h, rfl⟩⟩
    | clearTimedOut m adr mode => exact .inr ⟨rfl, .inr (.inl ⟨m, adr, mode, rfl⟩)⟩
    | refreshLoadTimedOut d m src x y w h adr => exact .inr ⟨rfl, .inr (.inr ⟨d, m, src, adr, x, y, w, h, rfl⟩)⟩
  · cases hstep with
    | init m v => exact .inr ⟨m, v, rfl⟩
    | endLoad m => exact .inl ⟨rfl, m, rfl⟩

/-- Settles O22: the steps of the mirrors in which RENDER_PENDING changes. -/
theorem renderMirrorChanges : Obligations.RenderMirrorChanges := by
  unfold Obligations.RenderMirrorChanges
  intro i s t hrun
  have hstep := exec_mirrorStep hrun
  unfold State.mirrors at hstep
  refine ⟨fun hs ht => ?_, fun hs ht => ?_⟩ <;> rw [hs, ht] at hstep <;>
    generalize t.res = r, s.loadOpen = l, t.loadOpen = q at hstep ⊢
  · cases hstep with
    | display m x y w h mode => exact .inl ⟨rfl, .inl ⟨m, x, y, w, h, mode, rfl⟩⟩
    | displayBuf m x y w h mode adr => exact .inl ⟨rfl, .inr (.inl ⟨m, x, y, w, h, mode, adr, rfl⟩)⟩
    | display1bppTimedOut m x y w h mode fgbg adr => exact .inr ⟨rfl, .inl ⟨m, x, y, w, h, mode, fgbg, adr, rfl⟩⟩
    | clear m adr mode => exact .inl ⟨rfl, .inr (.inr (.inl ⟨m, adr, mode, rfl⟩))⟩
    | refresh d hd m src x y w h adr => exact .inl ⟨rfl, .inr (.inr (.inr ⟨d, m, src, adr, x, y, w, h, hd, rfl⟩))⟩
    | refreshDisplayTimedOut d m src x y w h adr => exact .inr ⟨rfl, .inr ⟨d, m, src, adr, x, y, w, h, rfl⟩⟩
  · cases hstep with
    | init m v => exact .inr ⟨m, v, rfl⟩
    | renderIdle m => exact .inl ⟨rfl, m, rfl⟩

/-- No operation opens a load while a render is pending, or starts a render while a load is open (R302). -/
theorem MirrorStep.exclusive {i : Instr} {r : Byte} {a b : Bool × Bool} (h : MirrorStep i r a b)
    (ha : ¬ (a.1 = true ∧ a.2 = true)) : ¬ (b.1 = true ∧ b.2 = true) := by
  cases h <;> simp_all

/-! ### The invariant -/

/-- The clauses of the invariant that an operation may break only at its end: the reset line is released, a ready session has
a descriptor, and a descriptor is a present panel's and has set a target (R25 to R29). -/
def SessionOk (s : State) : Prop :=
  s.rstl = 1 ∧ (s.session = .ready → s.desc ≠ none) ∧ ∀ d, s.desc = some d → DescriptorOk s.cfg d ∧ s.tgt ≠ none

/-- They need only what an operation other than INIT keeps. -/
theorem SessionOk.keep {s t : State} (h : SessionOk s) (hc : t.cfg = s.cfg) (hr : t.rstl = s.rstl) (hd : t.desc = s.desc)
    (hs : t.session = .ready → s.session = .ready) (ht : s.tgt ≠ none → t.tgt ≠ none) : SessionOk t := by
  obtain ⟨h1, h2, h3⟩ := h
  refine ⟨hr.trans h1, fun hready => hd.symm ▸ h2 (hs hready), fun d hsome => ?_⟩
  obtain ⟨hok, htgt⟩ := h3 d (hd.symm.trans hsome)
  exact ⟨hc.symm ▸ hok, ht htgt⟩

theorem SessionOk.works {s t : State} (h : SessionOk s) (hw : Works s t) : SessionOk t := by
  obtain ⟨⟨es, c, k, g, l, p, -, rfl⟩, htgt⟩ := hw
  exact h.keep rfl rfl rfl id htgt

theorem SessionOk.finished {i : Instr} {u v : State} (h : SessionOk u) (hf : Finished i u v) : SessionOk v := by
  cases hf with
  | nothing => exact h
  | rdData => exact h
  | rdReg => exact h
  | rdMulti => exact h
  | sleep => exact h.keep rfl rfl rfl (fun he => by cases he) id
  | standby => exact h.keep rfl rfl rfl (fun he => by cases he) id

theorem SessionOk.errorEpilogue {s : State} (h : SessionOk s) (k : ErrKind) (e : Byte) :
    SessionOk (errorEpilogue k e s) := by
  refine h.keep (errorEpilogue_cfg k e s) (errorEpilogue_rstl k e s) (errorEpilogue_desc k e s) (fun hready => ?_) ?_
  · rw [errorEpilogue_session] at hready
    split at hready
    · cases hready
    · exact hready
  · rw [errorEpilogue_tgt]
    exact id

theorem pulsed_sessionOk (s : State) : SessionOk s.pulsed := ⟨rfl, by simp [State.pulsed], by simp [State.pulsed]⟩

theorem wordBytes_length (ws : List Word) : (wordBytes ws).length = 2 * ws.length := by
  induction ws with
  | nil => rfl
  | cons w ws ih => rw [wordBytes, List.length_cons, List.length_cons, ih, List.length_cons]; omega

/-- The words of a present panel decode to a descriptor of one (R174, R175). -/
theorem PresentWords.descriptorOk {c : Config} {ws : List Word} (h : PresentWords c ws) :
    DescriptorOk c (decodeDesc c.versionWords ws) := by
  obtain ⟨hlen, hw, hh⟩ := h
  unfold descWords at hlen
  refine ⟨hw, hh, ?_, ?_⟩ <;> simp only [decodeDesc, wordBytes_length, List.length_take, List.length_drop] <;> omega

theorem committed_sessionOk {u : State} {ws : List Word} (hr : u.rstl = 1) (h : PresentWords u.cfg ws) :
    SessionOk (u.committed ws) := by
  refine ⟨hr, fun _ => nofun, fun d hd => ?_⟩
  cases hd
  exact ⟨h.descriptorOk, nofun⟩

/-- Every operation keeps them, and ends with the select line released if it began so. -/
theorem exec_sessionOk {i : Instr} {s t : State} (h : exec i s = .next t) (hs : SessionOk s) (hcs : s.cs = 1) :
    SessionOk t ∧ t.cs = 1 := by
  have herror : ∀ {u : State} (k : ErrKind) (e : Byte), SessionOk u →
      SessionOk (errorEpilogue k e u) ∧ (errorEpilogue k e u).cs = 1 := fun k e hu =>
    ⟨hu.errorEpilogue k e, errorEpilogue_cs k e _⟩
  by_cases hi : ∃ m v, i = .init m v
  · obtain ⟨m, v, rfl⟩ := hi
    rcases execInit_cases h with ⟨-, rfl⟩ | ⟨u, hu, ⟨k, e, rfl⟩ | ⟨ws, hws, hrel, rfl⟩⟩
    · exact herror _ _ hs
    · exact herror k e ((pulsed_sessionOk s).works hu.works)
    · have hc : u.cfg = s.cfg := wired_chain.cfg s.pulsed u hu
      exact ⟨committed_sessionOk hu.session_of_pulsed.2.2.1 (hc.symm ▸ hws), hrel hcs⟩
  · obtain ⟨u, hw, ⟨v, hfin, -, hrel, rfl⟩ | ⟨k, e, -, rfl⟩⟩ := exec_cases (fun m v he => hi ⟨m, v, he⟩) h
    · have hv : SessionOk v := (hs.works hw).finished hfin
      exact ⟨hv, hrel hcs⟩
    · exact herror k e (hs.works hw)

theorem errCode_le (e : ErrKind) : (errCode e).toNat ≤ 7 := by cases e <;> decide

/-- The result registers agree after either epilogue (R32 to R34, R310, R311). -/
theorem resultsOk_of_ends {op : State → Host.Outcome State Fault Refusal} (ho : Ends op) {s t : State}
    (h : op s = .next t) (hs : ResultsOk s) : ResultsOk t := by
  obtain ⟨-, -, -, hok⟩ := hs
  obtain ⟨u, hu, rfl | ⟨e, i, -, rfl⟩⟩ := ho s t h
  · exact ⟨fun _ => rfl, Nat.zero_le 7, fun hne => absurd rfl hne, hu.faults.symm ▸ hok⟩
  · unfold ResultsOk
    rw [errorEpilogue_res, errorEpilogue_faults, hu.faults, BitVec.getLsbD_or, BitVec.getLsbD_or, faultBit_getLsbD,
      faultBit_ok, hok]
    exact ⟨fun hz => absurd hz (errCode_ne_zero e), errCode_le e, fun _ => Bool.or_true _, rfl⟩

/-- A reserved request changes four registers, none of which is of the session or a mirror. -/
theorem execReserved_next {w : Word} {s t : State} (h : execReserved w s = .next t) :
    t = errorEpilogue .unsupported 1 s := by
  cases h
  rfl

/-- Settles O11: the session's clauses by `exec_sessionOk`, the mirrors' by `exec_mirrorStep`, the result registers' and SRC's
by `step_ends`. -/
theorem stepKeepsInvariant : Obligations.StepKeepsInvariant := by
  unfold Obligations.StepKeepsInvariant
  rintro s t ⟨hcs, hrstl, hready, hdesc, hmirrors, hresults, hsrc⟩ h
  have hsession : SessionOk t ∧ t.cs = 1 ∧ ¬ (t.loadOpen = true ∧ t.renderPending = true) := by
    have hs : SessionOk s := ⟨hrstl, hready, hdesc⟩
    rcases step_next h with ⟨i, hi⟩ | ⟨w, hw⟩
    · obtain ⟨hok, hrel⟩ := exec_sessionOk hi hs hcs
      exact ⟨hok, hrel, (exec_mirrorStep hi).exclusive hmirrors⟩
    · rw [execReserved_next hw]
      exact ⟨hs.errorEpilogue _ _, errorEpilogue_cs _ _ s, by simpa using hmirrors⟩
  obtain ⟨⟨hrstl', hready', hdesc'⟩, hcs', hmirrors'⟩ := hsession
  refine ⟨hcs', hrstl', hready', hdesc', hmirrors', resultsOk_of_ends step_ends h hresults, ?_⟩
  obtain ⟨u, hu, rfl | ⟨e, i, -, rfl⟩⟩ := step_ends s t h
  · exact hu.src.symm ▸ hsrc
  · rw [errorEpilogue_src, hu.src]
    exact hsrc

end Sys2Proof.Machine

/-! PROOFS. Scope: LOAD_OPEN, RENDER_PENDING and TGT beside the whole frames of every operation (10_state.md R29 to R31; O60).
The raw operations send frames that no mirror follows; the others are composed from the `SendsMirrored` and `SendsTo` lemmas of
their parts. -/

namespace Sys2Proof.Machine

open Sys2Proof.Safety

/-! ### What is to be shown of an operation -/

/-- Between `s` and `t`, the states around the operation `i`, the mirrors and the target are as the whole frames make them. -/
def FollowsWire (i : Instr) (s t : State) : Prop :=
  ∃ fs last, EmittedThen s t fs last ∧ GivenUp s.cfg t last ∧
    (isRaw i = true → t.loadOpen = s.loadOpen ∧ t.renderPending = s.renderPending) ∧
    (isRaw i = false → ∃ awaits, watchFrames s.cfg ⟨s.loadOpen, s.renderPending, .nothing⟩ fs =
      ⟨t.loadOpen, t.renderPending, awaits⟩) ∧
    (∀ a, targetOf i = some a → t.tgt = if targetFrames s.cfg a <+: fs then some a else s.tgt) ∧
    (targetOf i = none → (∀ m v, i = .init m v → t.res ≠ 0) → t.tgt = s.tgt) ∧
    (∀ m v, i = .init m v → t.res = 0 → t.tgt = t.desc.map (·.imgAddr))

/-- A procedure that sends whole frames and changes no mirror and no target (R139, R148). -/
def SendsRaw {α : Type} (m : Op α) (s : State) : Prop :=
  Sends m s (fun _ _ u => SameMirrors s u) (fun _ _ _ u => SameMirrors s u)

section

variable {i : Instr} {body : Op Unit} {s t u : State} {fs : List Frame}

/-- A reader that waits for nothing ends with the mirrors of the state. -/
theorem MirrorsSoFar.watch (h : MirrorsSoFar s fs t) : ∃ awaits,
    watchFrames s.cfg ⟨s.loadOpen, s.renderPending, .nothing⟩ fs = ⟨t.loadOpen, t.renderPending, awaits⟩ := by
  obtain ⟨hl, hp⟩ := h ⟨s.loadOpen, s.renderPending, .nothing⟩ ⟨rfl, rfl⟩ (.inl rfl)
  exact ⟨(watchFrames s.cfg ⟨s.loadOpen, s.renderPending, .nothing⟩ fs).awaits, by rw [← hl, ← hp]⟩

/-- Neither epilogue writes a mirror. -/
theorem MirrorsSoFar.errorEpilogue (h : MirrorsSoFar s fs u) (k : ErrKind) (e : Byte) :
    MirrorsSoFar s fs (errorEpilogue k e u) := fun w h1 h2 => by
  obtain ⟨hl, hp⟩ := h w h1 h2
  exact ⟨hl.trans (errorEpilogue_loadOpen k e u).symm, hp.trans (errorEpilogue_renderPending k e u).symm⟩

theorem targetOf_of_isRaw (h : isRaw i = true) : targetOf i = none := by
  cases i <;> simp_all [isRaw, targetOf]

/-- A raw operation. -/
theorem followsWire_of_raw (hraw : isRaw i = true) (h : SendsRaw body s) (ht : runOp body s = .next t) :
    FollowsWire i s t := by
  obtain ⟨fs, last, he, hg, -, hend⟩ := Sends.runs h ht
  have hsame : SameMirrors s t := by
    rcases hend with ⟨u, hu, rfl⟩ | ⟨k, e, u, hu, rfl⟩
    · exact hu
    · simpa [SameMirrors] using hu
  obtain ⟨htgt, hopen, hpending⟩ := hsame
  have hno : ∀ m v, i ≠ .init m v := by rintro m v rfl; cases hraw
  refine ⟨fs, last, he, hg, fun _ => ⟨hopen, hpending⟩, fun hn => ?_, fun a ha => ?_, fun _ _ => htgt,
    fun m v hi => absurd hi (hno m v)⟩
  · rw [hraw] at hn
    cases hn
  · rw [targetOf_of_isRaw hraw] at ha
    cases ha

/-- An operation other than INIT that sets no target. -/
theorem followsWire_of_mirrored (hraw : isRaw i = false) (hno : ∀ m v, i ≠ .init m v) (hnone : targetOf i = none)
    (h : SendsMirrored none body s) (ht : runOp body s = .next t) : FollowsWire i s t := by
  obtain ⟨fs, last, he, hg, -, hend⟩ := Sends.runs h ht
  have hkeep : ∀ {u : State}, KeepsTarget none s u → u.tgt = s.tgt := fun h => h.resolve_right fun h => h.1 rfl
  have hall : MirrorsSoFar s fs t ∧ t.tgt = s.tgt := by
    rcases hend with ⟨u, ⟨hk, hm⟩, rfl⟩ | ⟨k, e, u, ⟨hk, hm⟩, rfl⟩
    · exact ⟨hm.soFar, hkeep hk⟩
    · exact ⟨hm.errorEpilogue k e, (errorEpilogue_tgt k e u).trans (hkeep hk)⟩
  refine ⟨fs, last, he, hg, fun hr => ?_, fun _ => hall.1.watch, fun a ha => ?_, fun _ _ => hall.2,
    fun m v hi => absurd hi (hno m v)⟩
  · rw [hraw] at hr
    cases hr
  · rw [hnone] at ha
    cases ha

/-- An operation that sets the target `a`. -/
theorem followsWire_of_target {a : Addr} (hraw : isRaw i = false) (hno : ∀ m v, i ≠ .init m v)
    (hsome : targetOf i = some a) (h : SendsTo a body s) (ht : runOp body s = .next t) : FollowsWire i s t := by
  obtain ⟨fs, last, he, hg, -, hend⟩ := Sends.runs h ht
  have hall : MirrorsSoFar s fs t ∧ t.tgt = if targetFrames s.cfg a <+: fs then some a else s.tgt := by
    rcases hend with ⟨u, ⟨hm, hp, htgt⟩, rfl⟩ | ⟨k, e, u, ⟨hm, htgt⟩, rfl⟩
    · exact ⟨hm.soFar, htgt.trans (if_pos hp).symm⟩
    · exact ⟨hm.errorEpilogue k e, (errorEpilogue_tgt k e u).trans htgt⟩
  refine ⟨fs, last, he, hg, fun hr => ?_, fun _ => hall.1.watch, fun b hb => ?_, fun hn => ?_,
    fun m v hi => absurd hi (hno m v)⟩
  · rw [hraw] at hr
    cases hr
  · rw [hsome] at hb
    cases hb
    exact hall.2
  · rw [hsome] at hn
    cases hn

end

/-! ### The raw operations -/

section

variable {α : Type} {m : Op α} {s : State}

theorem Wired.sameMirrors {s t : State} (h : Wired s t) : SameMirrors s t := by
  obtain ⟨es, c, k, -, rfl⟩ := h
  exact ⟨rfl, rfl, rfl⟩

theorem Sends.raw {Q : α → List Frame → State → Prop} {E : ErrKind → Byte → List Frame → State → Prop}
    (h : Sends m s Q E) (ha : Acts Wired wireStop m) : SendsRaw m s :=
  h.conclude ha (fun _ _ _ hw _ => hw.sameMirrors) (fun _ _ _ _ hw _ _ => hw.sameMirrors)

theorem SendsRaw.check {β : Type} {f : α → Op β} (hm : Checks m) (hcs : s.cs = 1)
    (hf : ∀ a, m s = .ok a s → SendsRaw (f a) s) : SendsRaw (m >>= f) s :=
  Sends.check hm hcs hf fun _ _ _ => ⟨rfl, rfl, rfl⟩

/-- A raw read, and then its register. -/
theorem SendsRaw.thenSets {g : α → State → State} (h : SendsRaw m s)
    (hg : ∀ a u, (g a u).trace = u.trace ∧ (g a u).cs = u.cs ∧ (g a u).cfg = u.cfg ∧ SameMirrors u (g a u)) :
    SendsRaw (m >>= fun a => update (g a)) s :=
  Sends.bind h (fun _ _ _ _ h => h) fun a _ u hcs _ hu => by
    obtain ⟨htr, hc, hcfg, h1, h2, h3⟩ := hg a u
    exact Sends.silent rfl htr (hc.trans hcs) hcfg ⟨h1.trans hu.1, h2.trans hu.2.1, h3.trans hu.2.2⟩

end

/-! ### INIT -/

theorem SendsPlain.check {α β : Type} {m : Op α} {f : α → Op β} {s : State} (hm : Checks m) (hcs : s.cs = 1)
    (hf : ∀ a, SendsPlain (f a) s) : SendsPlain (m >>= f) s :=
  Sends.check hm hcs (fun a _ => hf a) fun _ _ _ => ⟨wired_chain.refl s, (Mirrors.nil s).soFar⟩

section

variable {s : State} (hcs : s.cs = 1) (hc : configLegal s.cfg = true)

include hcs hc

/-- After the pulse no mirror follows INIT's frames, as VCOM is not accessed by a tracked command. -/
theorem bringUp_plain (vcom : Word) (hv : VcomApart s.cfg) (hp : s.renderPending = false) :
    SendsPlain (bringUp vcom) s := by
  have hrun := (watched_codes hc).1 s.cfg.cmdSysRun (by simp)
  refine Sends.look (readCfg_run s) <| (txnCommand_plain hcs hc hrun.1 fun h => absurd h hrun.2).bind
    fun _ t ht hct hpt => (getDeviceInfo_plain ht (hct ▸ hc)).bind fun ws u hu hcu hpu => ?_
  have hc' : configLegal u.cfg = true := hcu ▸ hct ▸ hc
  refine SendsPlain.check (requirePresent_checks ws) hu fun _ => (regWrite_plain hu hc' _ _).bind fun _ v hcv hcfg hpv =>
    (vcomReconcile_plain hcv (hcfg ▸ hc') vcom ?_ (hpv.trans (hpu.trans (hpt.trans hp)))).bind fun _ _ hcw _ _ =>
      SendsPlain.pure ws hcw
  rw [hcfg, hcu, hct]
  exact hv

/-- INIT: the pulse clears the mirrors, and the commit sets the target to the descriptor's address (R171, R177). -/
theorem initBody_sends (m : Mod) (vcom : Word) (hv : VcomApart s.cfg) :
    Sends (do
      checkMod maskNone m
      (do resetPulse; clearSession)
      let ws ← bringUp vcom
      commitSession ws : Op Unit) s
      (fun _ fs t => MirrorsSoFar s fs t ∧ t.tgt = t.desc.map (·.imgAddr))
      (fun _ _ fs t => MirrorsSoFar s fs t ∧ t.tgt = s.tgt) := by
  refine Sends.check (checkMod_checks _ m) hcs (fun _ _ => ?_) fun _ _ _ => ⟨(Mirrors.nil s).soFar, rfl⟩
  refine (resetPulse_mirrored hcs).bind (fun _ _ _ _ h => h.elim) fun _ fs t ht hct hpulse => ?_
  obtain ⟨htgt, hp, hm⟩ := hpulse
  refine Sends.bind (bringUp_plain ht (hct ▸ hc) vcom (hct.symm ▸ hv) hp) (fun _ _ gs u h => ?_)
    fun ws gs u hu _ h => Sends.silent (t := u.committed ws) rfl rfl hu rfl ?_
  · obtain ⟨⟨es, c, k, -, rfl⟩, hm'⟩ := h
    exact ⟨hm.appendSoFar hct hm', htgt⟩
  · obtain ⟨⟨es, c, k, -, rfl⟩, hm'⟩ := h
    rw [List.append_nil]
    exact ⟨(hm.append hct hm').soFar, rfl⟩

end

theorem execInit_followsWire {m : Mod} {vcom : Word} {s t : State} (hc : configLegal s.cfg = true)
    (hv : VcomApart s.cfg) (hcs : s.cs = 1) (h : execInit m vcom s = .next t) : FollowsWire (.init m vcom) s t := by
  rw [execInit_eq] at h
  obtain ⟨fs, last, he, hg, -, hend⟩ := (initBody_sends hcs hc m vcom hv).runs h
  refine ⟨fs, last, he, hg, nofun, fun _ => ?_, nofun, fun _ hres => ?_, fun _ _ _ hres => ?_⟩ <;>
    rcases hend with ⟨u, ⟨hm, htgt⟩, rfl⟩ | ⟨k, e, u, ⟨hm, htgt⟩, rfl⟩
  · exact hm.watch
  · exact (hm.errorEpilogue k e).watch
  · exact absurd rfl (hres m vcom rfl)
  · exact (errorEpilogue_tgt k e u).trans htgt
  · exact htgt
  · exact absurd ((errorEpilogue_res k e u).symm.trans hres) (errCode_ne_zero k)

/-! ### The operations that set no target -/

section

variable {s : State} (hcs : s.cs = 1) (hc : configLegal s.cfg = true)

include hcs hc

theorem endLoad_mirrored (m : Mod) : SendsMirrored none (do
    checkMod maskNone m
    requireLoadOpen
    endLoadCore) s :=
  SendsMirrored.check (checkMod_checks _ m) hcs fun _ _ => SendsMirrored.check requireLoadOpen_checks hcs fun _ _ =>
    endLoadCore_mirrored hcs hc none

omit hc in
/-- An operation that admits a display, checks its rectangle and displays. -/
theorem display_mirrored {mask m : Mod} {x y w h : Word} {display : Op Unit}
    (hd : s.renderPending = false → SendsMirrored none display s) :
    SendsMirrored none (do displayAdmit mask m; panelCheck x y w h; display) s :=
  SendsMirrored.check (displayAdmit_checks mask m) hcs fun _ ha =>
    SendsMirrored.check (panelCheck_checks x y w h) hcs fun _ _ => hd (displayAdmit_passed ha)

theorem waitRenderIdle_mirrored (m : Mod) : SendsMirrored none (do
    checkMod maskNone m
    refuseLoadOpen 3
    waitRender) s :=
  SendsMirrored.check (checkMod_checks _ m) hcs fun _ _ => SendsMirrored.check (refuseLoadOpen_checks 3) hcs fun _ _ =>
    waitRender_mirrored hcs hc

theorem powerBody_mirrored (m : Mod) {code : Config → Word} (hcode : code s.cfg ∈ [s.cfg.cmdSleep, s.cfg.cmdStandby]) :
    SendsMirrored none (powerBody m code) s :=
  SendsMirrored.check (checkMod_checks _ m) hcs fun _ _ => SendsMirrored.check (refuseLoadOpen_checks 3) hcs fun _ _ =>
    SendsMirrored.check refuseRenderPending_checks hcs fun _ _ => Sends.look (readCfg_run s)
      (powerCommand_mirrored hcs hc hcode)

/-! ### The operations that set a target -/

theorem beginLoad_to (m : Mod) (tgt : Addr) : SendsTo tgt (do
    let p ← loadAdmitPsel m
    beginLoadCore (modEndian m) p (modRot m) tgt) s :=
  SendsTo.check (loadAdmitPsel_checks m) hcs fun p _ => beginLoadCore_to hcs hc _ p _ tgt

theorem beginLoadArea_to (m : Mod) (tgt : Addr) (x y w h : Word) : SendsTo tgt (do
    let p ← loadAdmitPsel m
    panelCheck x y w h
    beginLoadAreaCore (modEndian m) p (modRot m) tgt x y w h) s :=
  SendsTo.check (loadAdmitPsel_checks m) hcs fun p _ => SendsTo.check (panelCheck_checks x y w h) hcs fun _ _ =>
    beginLoadAreaCore_to hcs hc _ p _ tgt x y w h

theorem loadBody_to (d : Depth) (m : Mod) (tgt src : Addr) (stride x y w h : Word) :
    SendsTo tgt (loadBody d m tgt src stride x y w h) s :=
  SendsTo.check (loadAdmit_checks _ m) hcs fun _ _ => loadImage_to _ hcs hc

theorem clearAndRefresh_to (m : Mod) (adr : Addr) (mode : Word) : SendsTo adr (do
    loadAdmit maskNone m
    let d ← readDesc
    let c ← readCfg
    loadImage { d := .d4, e := .little, r := 0, tgt := adr, src := 0, stride := d.panelW.toNat * 4 / 8,
                x := 0, y := 0, w := d.panelW, h := d.panelH, fill := some c.clearFill }
    displayCore 0 0 d.panelW d.panelH mode (some adr)) s :=
  SendsTo.check (loadAdmit_checks _ m) hcs fun _ _ => SendsTo.check readDesc_checks hcs fun _ _ =>
    Sends.look (readCfg_run s) <| (loadImage_to _ hcs hc).bind fun _ _ _ ht hct =>
      displayCore_mirrored ht (hct ▸ hc) _ _ _ _ _ _

theorem refreshBody_to (d : Depth) (m : Mod) (src : Addr) (x y w h : Word) (adr : Addr) :
    SendsTo adr (refreshBody d m src x y w h adr) s := by
  refine SendsTo.check (loadAdmit_checks _ m) hcs fun _ ha => SendsTo.check (readRefreshMap_checks d m) hcs fun f _ =>
    (loadImage_to _ hcs hc).bind fun _ t hload ht hct => ?_
  have hct' : configLegal t.cfg = true := hct ▸ hc
  have hdisplay : SendsMirrored (some adr) (do
      displayCore x y w h f.mode (some adr)
      if f.wait then waitRender else pure ()) t := by
    refine (displayCore_mirrored ht hct' x y w h f.mode (some adr)).bind fun _ u _ hu hcu => ?_
    cases f.wait with
    | true => exact waitRender_mirrored hu (hcu ▸ hct')
    | false => exact SendsMirrored.pure () hu
  cases d with
  | d1 =>
    have hp : t.renderPending = false := ((loadImage_still _ hcs hc).keeps hload).trans (loadAdmit_passed ha)
    exact display1bppSequence_mirrored ht hct' x y w h f.mode f.fgbg (some adr) hp
  | d2 => exact hdisplay
  | d4 => exact hdisplay
  | d8 => exact hdisplay

/-! ### The raw operations -/

theorem wrMulti_raw (m : Mod) (ws : List Word) : SendsRaw (do
    rawAdmitStream m
    raiseIf (ws.length = 0) .unsupported 2
    refuseOverBurst ws.length
    txnWrite ws) s := by
  refine SendsRaw.check (checkMod_checks _ m) hcs fun _ _ => SendsRaw.check (raiseIf_checks _ (by decide) _) hcs
    fun _ hne => SendsRaw.check (refuseOverBurst_checks _) hcs fun _ hle =>
      (txnWrite_sends ws hcs hc fun f hf => ?_).raw (txnWrite_acts ws)
  rw [List.mem_singleton.1 hf]
  exact ⟨Nat.one_le_iff_ne_zero.2 (raiseIf_passed hne), refuseOverBurst_passed hle⟩

theorem rdMulti_raw (m : Mod) (n : Word) : SendsRaw (do
    rawAdmit m
    raiseIf (n = 0) .unsupported 2
    refuseOverBurst n.toNat
    let ws ← txnRead n.toNat
    update (fun t => { t with rbuf := ws })) s := by
  refine SendsRaw.check (rawAdmit_checks m) hcs fun _ _ => SendsRaw.check (raiseIf_checks _ (by decide) _) hcs
    fun _ hne => SendsRaw.check (refuseOverBurst_checks _) hcs fun _ hle =>
      ((txnRead_sends _ hcs hc ⟨?_, refuseOverBurst_passed hle⟩).raw (txnRead_acts _)).thenSets
        fun _ _ => ⟨rfl, rfl, rfl, rfl, rfl, rfl⟩
  exact Nat.one_le_iff_ne_zero.2 fun h0 => raiseIf_passed hne (BitVec.eq_of_toNat_eq h0)

theorem rdData_raw (m : Mod) : SendsRaw (do
    rawAdmit m
    let ws ← txnRead 1
    update (fun t => { t with rdata := some (ws.headD 0) })) s :=
  SendsRaw.check (rawAdmit_checks m) hcs fun _ _ =>
    ((txnRead_sends 1 hcs hc ⟨Nat.le_refl 1, burst_legal hc⟩).raw (txnRead_acts 1)).thenSets
      fun _ _ => ⟨rfl, rfl, rfl, rfl, rfl, rfl⟩

theorem rdReg_raw (m : Mod) (addr : Word) : SendsRaw (do
    rawAdmit m
    let v ← regRead addr
    update (fun t => { t with rdata := some v })) s :=
  SendsRaw.check (rawAdmit_checks m) hcs fun _ _ => ((regRead_sends addr hcs hc).raw (regRead_acts addr)).thenSets
    fun _ _ => ⟨rfl, rfl, rfl, rfl, rfl, rfl⟩

theorem wrMultiArg_raw (m : Mod) (code : Word) (args : List Word) : SendsRaw (do
    rawAdmit m
    refuseTracked code
    refuseOverBurstMulti args.length
    multiArg code args) s :=
  SendsRaw.check (rawAdmit_checks m) hcs fun _ _ => SendsRaw.check (refuseTracked_checks code) hcs fun _ _ =>
    SendsRaw.check (refuseOverBurstMulti_checks _) hcs fun _ _ =>
      (multiArg_sends code args hcs hc).raw (multiArg_acts code args)

theorem wrReg_raw (m : Mod) (addr val : Word) : SendsRaw (do
    rawAdmit m
    regWrite addr val) s :=
  SendsRaw.check (rawAdmit_checks m) hcs fun _ _ =>
    (regWrite_whole hcs hc addr val).raw (regWrite_acts addr val)

theorem wrData_raw (m : Mod) (w : Word) : SendsRaw (do
    rawAdmitStream m
    txnWrite [w]) s :=
  SendsRaw.check (checkMod_checks _ m) hcs fun _ _ =>
    (txnWrite_sends [w] hcs hc (fit_one hc w)).raw (txnWrite_acts [w])

theorem wrCmd_raw (m : Mod) (code : Word) : SendsRaw (do
    rawAdmit m
    refuseTracked code
    txnCommand code) s :=
  SendsRaw.check (rawAdmit_checks m) hcs fun _ _ => SendsRaw.check (refuseTracked_checks code) hcs fun _ _ =>
    (txnCommand_sends code hcs hc).raw (txnCommand_acts code)

end

/-! ### Every operation -/

theorem exec_followsWire {i : Instr} {s t : State} (hc : configLegal s.cfg = true) (hv : VcomApart s.cfg) (hcs : s.cs = 1)
    (h : exec i s = .next t) : FollowsWire i s t := by
  cases i with
  | wrCmd m code => exact followsWire_of_raw rfl (wrCmd_raw hcs hc m code) h
  | wrData m w => exact followsWire_of_raw rfl (wrData_raw hcs hc m w) h
  | wrMulti m ws => exact followsWire_of_raw rfl (wrMulti_raw hcs hc m ws) h
  | rdData m => exact followsWire_of_raw rfl (rdData_raw hcs hc m) h
  | rdMulti m n => exact followsWire_of_raw rfl (rdMulti_raw hcs hc m n) h
  | wrMultiArg m code args => exact followsWire_of_raw rfl (wrMultiArg_raw hcs hc m code args) h
  | rdReg m addr => exact followsWire_of_raw rfl (rdReg_raw hcs hc m addr) h
  | wrReg m addr val => exact followsWire_of_raw rfl (wrReg_raw hcs hc m addr val) h
  | init m vcom => exact execInit_followsWire hc hv hcs h
  | beginLoad m tgt => exact followsWire_of_target rfl nofun rfl (beginLoad_to hcs hc m tgt) h
  | beginLoadArea m tgt x y w h' => exact followsWire_of_target rfl nofun rfl (beginLoadArea_to hcs hc m tgt x y w h') h
  | endLoad m => exact followsWire_of_mirrored rfl nofun rfl (endLoad_mirrored hcs hc m) h
  | load1bpp m tgt src stride x y w h' =>
    exact followsWire_of_target rfl nofun rfl (loadBody_to hcs hc .d1 m tgt src stride x y w h') h
  | load2bpp m tgt src stride x y w h' =>
    exact followsWire_of_target rfl nofun rfl (loadBody_to hcs hc .d2 m tgt src stride x y w h') h
  | load4bpp m tgt src stride x y w h' =>
    exact followsWire_of_target rfl nofun rfl (loadBody_to hcs hc .d4 m tgt src stride x y w h') h
  | load8bpp m tgt src stride x y w h' =>
    exact followsWire_of_target rfl nofun rfl (loadBody_to hcs hc .d8 m tgt src stride x y w h') h
  | displayArea m x y w h' mode =>
    exact followsWire_of_mirrored rfl nofun rfl
      (display_mirrored hcs fun _ => displayCore_mirrored hcs hc x y w h' mode none) h
  | displayAreaBuf m x y w h' mode adr =>
    exact followsWire_of_mirrored rfl nofun rfl
      (display_mirrored hcs fun _ => displayCore_mirrored hcs hc x y w h' mode (some adr)) h
  | display1bpp m x y w h' mode fgbg adr =>
    exact followsWire_of_mirrored rfl nofun rfl
      (display_mirrored hcs fun hp => display1bppSequence_mirrored hcs hc x y w h' mode fgbg adr hp) h
  | waitRenderIdle m => exact followsWire_of_mirrored rfl nofun rfl (waitRenderIdle_mirrored hcs hc m) h
  | clearAndRefresh m adr mode => exact followsWire_of_target rfl nofun rfl (clearAndRefresh_to hcs hc m adr mode) h
  | refresh1bpp m src x y w h' adr =>
    exact followsWire_of_target rfl nofun rfl (refreshBody_to hcs hc .d1 m src x y w h' adr) h
  | refresh2bpp m src x y w h' adr =>
    exact followsWire_of_target rfl nofun rfl (refreshBody_to hcs hc .d2 m src x y w h' adr) h
  | refresh4bpp m src x y w h' adr =>
    exact followsWire_of_target rfl nofun rfl (refreshBody_to hcs hc .d4 m src x y w h' adr) h
  | refresh8bpp m src x y w h' adr =>
    exact followsWire_of_target rfl nofun rfl (refreshBody_to hcs hc .d8 m src x y w h' adr) h
  | sleep m => exact followsWire_of_mirrored rfl nofun rfl (powerBody_mirrored hcs hc m (by simp)) h
  | standby m => exact followsWire_of_mirrored rfl nofun rfl (powerBody_mirrored hcs hc m (by simp)) h

/-- Settles O60: the operations that set a target by `SendsTo`, those that set none by `SendsMirrored`, the raw ones by
`SendsRaw`, and INIT by its pulse and its commit. -/
theorem mirrorsFollowTheWire : Obligations.MirrorsFollowTheWire := by
  unfold Obligations.MirrorsFollowTheWire
  intro i s t hc hv hcs h
  exact exec_followsWire hc hv hcs h

end Sys2Proof.Machine

/-! PROOFS. Scope: the bus discipline of every step (20_memory.md R78, 40_frame_preambler.md R130, 60_exceptions.md R310; O12).
Every operation sends whole frames and at most the start of one that it gave up (`exec_emits`); the bus level reads the same
from the collapsed events as from the events themselves, and each frame takes the released line back to released. -/

namespace Sys2Proof.Machine

open Sys2Proof.Safety

/-! ### The bus level of frames -/

theorem busLevel_append (l : BitVec 1) (es fs : List Event) :
    busLevel l (es ++ fs) = (busLevel l es).bind (busLevel · fs) := by
  induction es generalizing l with
  | nil => rfl
  | cons e es ih => cases e <;> simp only [List.cons_append, busLevel, ih] <;> split <;> rfl

/-- Events of parts that each leave the line at its level leave it there. -/
theorem busLevel_flatMap {α : Type} {l : BitVec 1} (f : α → List Event) (xs : List α)
    (h : ∀ x, busLevel l (f x) = some l) : busLevel l (xs.flatMap f) = some l := by
  induction xs with
  | nil => rfl
  | cons x xs ih => rw [List.flatMap_cons, busLevel_append, h, Option.bind_some, ih]

/-- The events a collapsed event shows: itself, or none where it stands for a busy-wait that ended. -/
def wireEvents : Wire → List Event
  | .wait => []
  | .event e => [e]

/-- The events shown by a list of collapsed events. -/
def shownEvents (ws : List Wire) : List Event := ws.flatMap wireEvents

theorem shownEvents_append (ws vs : List Wire) : shownEvents (ws ++ vs) = shownEvents ws ++ shownEvents vs :=
  List.flatMap_append

/-- Collapsing busy-waits takes away poll samples only, which no level depends on (R64, R78). -/
theorem busLevel_collapsed (idle l : BitVec 1) (es : List Event) :
    busLevel l (shownEvents (collapsed idle es)) = busLevel l es := by
  induction es generalizing l with
  | nil => rfl
  | cons e es ih =>
    have hkeep : ∀ f, busLevel l (shownEvents (.event f :: collapsed idle es)) = busLevel l (f :: es) := fun f => by
      cases f <;> simp only [← ih, busLevel] <;> rfl
    cases e with
    | poll v =>
      rw [collapsed]
      split
      · exact ih l
      · split
        · exact ih l
        · exact hkeep _
    | sel => exact hkeep _
    | rel => exact hkeep _
    | tx b => exact hkeep _
    | rx b => exact hkeep _
    | delay ms => exact hkeep _
    | rst v => exact hkeep _

theorem busLevel_words {word : Word → List Wire} (hword : ∀ w, busLevel 0 (shownEvents (word w)) = some 0)
    (ws : List Word) : busLevel 0 (shownEvents (ws.flatMap word)) = some 0 := by
  rw [shownEvents, List.flatMap_assoc]
  exact busLevel_flatMap _ ws hword

theorem busLevel_sentWord (w : Word) : busLevel 0 (shownEvents (sentWord w)) = some 0 := rfl

theorem busLevel_receivedWord (w : Word) : busLevel 0 (shownEvents (receivedWord w)) = some 0 := rfl

/-- A transaction whose payload is bytes is one select-to-release span (R78, R130). -/
theorem busLevel_transaction (a b : Byte) {payload : List Wire} (h : busLevel 0 (shownEvents payload) = some 0) :
    busLevel 1 (shownEvents (transaction a b payload)) = some 1 := by
  rw [transaction, shownEvents_append, shownEvents_append, List.append_assoc, busLevel_append]
  show (busLevel 0 (shownEvents payload ++ [.rel])) = some 1
  rw [busLevel_append, h]
  rfl

theorem busLevel_frame (f : Frame) : busLevel 1 (shownEvents (frameWires f)) = some 1 := by
  cases f with
  | cmd c => exact busLevel_transaction _ _ (busLevel_sentWord c)
  | wr ws => exact busLevel_transaction _ _ (busLevel_words busLevel_sentWord ws)
  | rd dummy vs =>
    refine busLevel_transaction _ _ ?_
    rw [shownEvents_append, busLevel_append, busLevel_receivedWord]
    exact busLevel_words busLevel_receivedWord vs
  | rst l => rfl
  | delay ms => rfl

theorem busLevel_frames (fs : List Frame) : busLevel 1 (shownEvents (fs.flatMap frameWires)) = some 1 := by
  rw [shownEvents, List.flatMap_assoc]
  exact busLevel_flatMap _ fs busLevel_frame

theorem busLevel_samples (l v : BitVec 1) (n : Nat) :
    busLevel l (shownEvents (List.replicate n (.event (.poll v)))) = some l := by
  induction n with
  | zero => rfl
  | succ n ih => exact ih

/-- What is left of a frame given up is samples of a released line, or one span with no payload, which the epilogue closed
(R310). -/
theorem busLevel_givenUp {c : Config} {t : State} {last : List Wire} (h : GivenUp c t last) :
    busLevel 1 (shownEvents last) = some 1 := by
  unfold GivenUp at h
  split at h
  · rw [h]
    exact busLevel_samples _ _ _
  · split at h
    · obtain ⟨pre, -, rfl⟩ := h
      exact busLevel_transaction (hiByte pre) (loByte pre) (busLevel_samples _ _ _)
    · rw [h]
      rfl

/-- Whole frames, and what is left of one given up, extend a disciplined trace to a disciplined one. -/
theorem busLevel_emittedThen {s t : State} {fs : List Frame} {last : List Wire} (he : EmittedThen s t fs last)
    (hg : GivenUp s.cfg t last) (hs : busLevel 1 s.trace = some 1) : busLevel 1 t.trace = some 1 := by
  obtain ⟨es, htrace, hes⟩ := he
  have hnew : busLevel 1 es = some 1 := by
    rw [← busLevel_collapsed s.cfg.busyIdleLevel, hes, shownEvents_append, busLevel_append, busLevel_frames]
    exact busLevel_givenUp hg
  rw [htrace, busLevel_append, hs]
  exact hnew

/-! ### Every operation sends whole frames -/

/-- A procedure that sends whole frames and at most the start of one whose busy-wait reached its limit. -/
def SendsFrames {α : Type} (m : Op α) (s : State) : Prop := Sends m s (fun _ _ _ => True) (fun _ _ _ _ => True)

section

variable {α β : Type} {m : Op α} {f : α → Op β} {s t : State}

theorem Sends.frames {Q : α → List Frame → State → Prop} {E : ErrKind → Byte → List Frame → State → Prop}
    (h : Sends m s Q E) : SendsFrames m s := h.weaken (fun _ _ _ _ => trivial) (fun _ _ _ _ _ => trivial)

/-- A sequence, whose second part starts with the line released under a configuration that is legal still. -/
theorem SendsFrames.bind (hm : SendsFrames m s) (hc : configLegal s.cfg = true)
    (hf : ∀ a t, t.cs = 1 → configLegal t.cfg = true → SendsFrames (f a) t) : SendsFrames (m >>= f) s :=
  Sends.bind hm (fun _ _ _ _ h => h) fun a _ t hcs hcfg _ => hf a t hcs (hcfg ▸ hc)

theorem SendsFrames.check (hm : Checks m) (hcs : s.cs = 1) (hf : ∀ a, SendsFrames (f a) s) :
    SendsFrames (m >>= f) s := Sends.check hm hcs (fun a _ => hf a) fun _ _ _ => trivial

/-- The line is released after an operation that answers a next state: the body released it, or the error epilogue (R310). -/
theorem SendsFrames.releases {body : Op Unit} (h : SendsFrames body s) (ht : runOp body s = .next t) : t.cs = 1 := by
  rcases runOp_next ht with ⟨u, hu, rfl⟩ | ⟨k, i, u, -, rfl⟩
  · unfold SendsFrames Sends at h
    rw [hu] at h
    obtain ⟨_, -, -, hcs, -⟩ := h
    exact hcs
  · exact errorEpilogue_cs k i u

theorem SendsFrames.pure (a : α) (hcs : s.cs = 1) : SendsFrames (pure a : Op α) s :=
  Sends.silent (t := s) rfl rfl hcs rfl trivial

end

section

variable {s : State} (hcs : s.cs = 1) (hc : configLegal s.cfg = true)

include hcs hc

/-- Also where VCOM is read by a tracked command, which the mirrors would follow. -/
theorem vcomRead_frames : SendsFrames vcomRead s := by
  refine Sends.look (readCfg_run s) ?_
  cases s.cfg.vcomAccess with
  | register a => exact (regRead_sends a hcs hc).frames
  | command code =>
    exact (txnCommand_sends code hcs hc).frames.bind hc fun _ t ht hct =>
      (txnWrite_sends _ ht hct (fit_one hct _)).frames.bind hct fun _ u hu hcu =>
        (txnRead_sends 1 hu hcu ⟨Nat.le_refl 1, burst_legal hcu⟩).frames.bind hcu fun _ _ hv _ =>
          SendsFrames.pure _ hv

theorem vcomWrite_frames (v : Word) : SendsFrames (vcomWrite v) s := by
  refine Sends.look (readCfg_run s) ?_
  cases s.cfg.vcomAccess with
  | register a => exact (regWrite_whole hcs hc a v).frames
  | command code =>
    exact (txnCommand_sends code hcs hc).frames.bind hc fun _ t ht hct =>
      (txnWrite_sends _ ht hct (fit_one hct _)).frames.bind hct fun _ u hu hcu =>
        (txnWrite_sends _ hu hcu (fit_one hcu _)).frames

theorem vcomReconcile_frames (vcom : Word) : SendsFrames (vcomReconcile vcom) s := by
  refine (vcomRead_frames hcs hc).bind hc fun cur t ht hct => ?_
  split
  · exact vcomWrite_frames ht hct vcom
  · exact SendsFrames.pure () ht

theorem bringUp_frames (vcom : Word) : SendsFrames (bringUp vcom) s :=
  Sends.look (readCfg_run s) <| (txnCommand_sends _ hcs hc).frames.bind hc fun _ _ ht hct =>
    (getDeviceInfo_plain ht hct).frames.bind hct fun ws _ hu hcu =>
      SendsFrames.check (requirePresent_checks ws) hu fun _ => (regWrite_whole hu hcu _ _).frames.bind hcu
        fun _ _ hv hcv => (vcomReconcile_frames hv hcv vcom).bind hcv fun _ _ hw _ => SendsFrames.pure ws hw

theorem initBody_frames (m : Mod) (vcom : Word) : SendsFrames (do
    checkMod maskNone m
    (do resetPulse; clearSession)
    let ws ← bringUp vcom
    commitSession ws : Op Unit) s :=
  SendsFrames.check (checkMod_checks _ m) hcs fun _ => (resetPulse_mirrored hcs).frames.bind hc fun _ _ ht hct =>
    (bringUp_frames ht hct vcom).bind hct fun ws u hu _ =>
      Sends.silent (t := u.committed ws) rfl rfl hu rfl trivial

/-- The body of every operation, INIT's whatever command reads VCOM. -/
theorem exec_sendsFrames (i : Instr) : ∃ body, exec i s = runOp body s ∧ SendsFrames body s := by
  cases i with
  | wrCmd m code => exact ⟨_, rfl, (wrCmd_raw hcs hc m code).frames⟩
  | wrData m w => exact ⟨_, rfl, (wrData_raw hcs hc m w).frames⟩
  | wrMulti m ws => exact ⟨_, rfl, (wrMulti_raw hcs hc m ws).frames⟩
  | rdData m => exact ⟨_, rfl, (rdData_raw hcs hc m).frames⟩
  | rdMulti m n => exact ⟨_, rfl, (rdMulti_raw hcs hc m n).frames⟩
  | wrMultiArg m code args => exact ⟨_, rfl, (wrMultiArg_raw hcs hc m code args).frames⟩
  | rdReg m addr => exact ⟨_, rfl, (rdReg_raw hcs hc m addr).frames⟩
  | wrReg m addr val => exact ⟨_, rfl, (wrReg_raw hcs hc m addr val).frames⟩
  | init m vcom => exact ⟨_, congrFun (execInit_eq m vcom) s, initBody_frames hcs hc m vcom⟩
  | beginLoad m tgt => exact ⟨_, rfl, (beginLoad_to hcs hc m tgt).frames⟩
  | beginLoadArea m tgt x y w h => exact ⟨_, rfl, (beginLoadArea_to hcs hc m tgt x y w h).frames⟩
  | endLoad m => exact ⟨_, rfl, (endLoad_mirrored hcs hc m).frames⟩
  | load1bpp m tgt src stride x y w h => exact ⟨_, rfl, (loadBody_to hcs hc .d1 m tgt src stride x y w h).frames⟩
  | load2bpp m tgt src stride x y w h => exact ⟨_, rfl, (loadBody_to hcs hc .d2 m tgt src stride x y w h).frames⟩
  | load4bpp m tgt src stride x y w h => exact ⟨_, rfl, (loadBody_to hcs hc .d4 m tgt src stride x y w h).frames⟩
  | load8bpp m tgt src stride x y w h => exact ⟨_, rfl, (loadBody_to hcs hc .d8 m tgt src stride x y w h).frames⟩
  | displayArea m x y w h mode =>
    exact ⟨_, rfl, (display_mirrored hcs fun _ => displayCore_mirrored hcs hc x y w h mode none).frames⟩
  | displayAreaBuf m x y w h mode adr =>
    exact ⟨_, rfl, (display_mirrored hcs fun _ => displayCore_mirrored hcs hc x y w h mode (some adr)).frames⟩
  | display1bpp m x y w h mode fgbg adr =>
    exact ⟨_, rfl, (display_mirrored hcs fun hp => display1bppSequence_mirrored hcs hc x y w h mode fgbg adr hp).frames⟩
  | waitRenderIdle m => exact ⟨_, rfl, (waitRenderIdle_mirrored hcs hc m).frames⟩
  | clearAndRefresh m adr mode => exact ⟨_, rfl, (clearAndRefresh_to hcs hc m adr mode).frames⟩
  | refresh1bpp m src x y w h adr => exact ⟨_, rfl, (refreshBody_to hcs hc .d1 m src x y w h adr).frames⟩
  | refresh2bpp m src x y w h adr => exact ⟨_, rfl, (refreshBody_to hcs hc .d2 m src x y w h adr).frames⟩
  | refresh4bpp m src x y w h adr => exact ⟨_, rfl, (refreshBody_to hcs hc .d4 m src x y w h adr).frames⟩
  | refresh8bpp m src x y w h adr => exact ⟨_, rfl, (refreshBody_to hcs hc .d8 m src x y w h adr).frames⟩
  | sleep m => exact ⟨_, rfl, (powerBody_mirrored hcs hc m (by simp)).frames⟩
  | standby m => exact ⟨_, rfl, (powerBody_mirrored hcs hc m (by simp)).frames⟩

/-- Every operation, completed or abandoned, puts whole frames on the wire, their data within the burst limit, and at most
what is left of one given up (R100, R130, R134, R308); and it ends with the line released (R24). -/
theorem exec_emits {i : Instr} {t : State} (h : exec i s = .next t) :
    ∃ fs last, EmittedThen s t fs last ∧ GivenUp s.cfg t last ∧ Fit s.cfg fs ∧ t.cs = 1 := by
  obtain ⟨body, hbody, hsends⟩ := exec_sendsFrames hcs hc i
  have hrun := hbody.symm.trans h
  obtain ⟨fs, last, he, hg, hfit, -⟩ := Sends.runs hsends hrun
  exact ⟨fs, last, he, hg, hfit, hsends.releases hrun⟩

end

/-! ### The obligation -/

/-- A step that answers runs under a legal configuration (R38). -/
theorem step_next_legal {s t : State} (h : step s = .next t) : configLegal s.cfg = true := by
  by_contra hc
  rw [step_of_fetch_error (fetch_illegal (Bool.eq_false_of_not_eq_true hc))] at h
  cases h

/-- Settles O12: an operation by its frames (`exec_emits`) and its released line; a reserved request sends nothing. -/
theorem stepKeepsBusDiscipline : Obligations.StepKeepsBusDiscipline := by
  unfold Obligations.StepKeepsBusDiscipline
  rintro s t ⟨hcs, hlevel⟩ h
  rcases step_next h with ⟨i, hi⟩ | ⟨w, hw⟩
  · obtain ⟨fs, last, he, hg, -, hcs'⟩ := exec_emits hcs (step_next_legal h) hi
    exact ⟨hcs', busLevel_emittedThen he hg hlevel⟩
  · rw [execReserved_next hw]
    exact ⟨errorEpilogue_cs _ _ s, by rw [errorEpilogue_trace, hcs]; exact hlevel⟩

end Sys2Proof.Machine

/-! PROOFS. Scope: the encoding of requests and programs (30_encoding.md R90 to R96, R105, R110; O1 to O5). The operand words
of an operation decode to it, and what each decoder accepts is such words. Together they say which word lists decode
(`decodeRequest_eq_ok_iff`), from which the rest follows. -/

namespace Sys2Proof

open Sys2Proof.Machine Sys2Proof.Safety

/-! ### Encoding, then decoding -/

theorem encode_length (i : Instr) : (encode i).length = tableLength i := by
  cases i with
  | wrMulti m ws => simp [encode, Instr.operandWords, tableLength]; omega
  | wrMultiArg m code args => simp [encode, Instr.operandWords, tableLength]; omega
  | display1bpp m x y w h mode fgbg adr => cases adr <;> rfl
  | _ => rfl

theorem decodeRequest_cons (h : Word) (ws : List Word) :
    decodeRequest (h :: ws) = decodeBody (headerOp h) (headerMod h) h ws := rfl

theorem decodeLoad_operandWords (mk : Addr → Addr → Word → Word → Word → Word → Word → Instr) (tgt src : Addr)
    (stride x y w h : Word) (rest : List Word) :
    decodeLoad mk (loadOperandWords tgt src stride x y w h ++ rest) = .ok (.op (mk tgt src stride x y w h), rest) := by
  simp [decodeLoad, loadOperandWords, addrWords]

theorem decodeRefresh_operandWords (mk : Addr → Word → Word → Word → Word → Addr → Instr) (src : Addr)
    (x y w h : Word) (adr : Addr) (rest : List Word) :
    decodeRefresh mk (refreshOperandWords src x y w h adr ++ rest) = .ok (.op (mk src x y w h adr), rest) := by
  simp [decodeRefresh, refreshOperandWords, addrWords]

theorem decodeBody_operandWords {i : Instr} (hw : WellFormed i) (h : Word) (rest : List Word) :
    decodeBody i.opcode i.modByte h (i.operandWords ++ rest) = .ok (.op i, rest) := by
  cases i with
  | wrCmd m code => rfl
  | wrData m w => rfl
  | wrMulti m ws =>
    have hn : ws.length ≤ 0xFFFF := of_decide_eq_true hw
    show decodeWrMulti m (countWord ws.length :: (ws ++ rest)) = _
    simp only [decodeWrMulti, toNat_countWord hn, takeWords_append]
  | rdData m => rfl
  | rdMulti m n => rfl
  | wrMultiArg m code args =>
    have hn : args.length ≤ 0xFFFF := of_decide_eq_true hw
    show decodeWrMultiArg m (code :: countWord args.length :: (args ++ rest)) = _
    simp only [decodeWrMultiArg, toNat_countWord hn, takeWords_append]
  | rdReg m addr => rfl
  | wrReg m addr val => rfl
  | init m vcom => rfl
  | beginLoad m tgt =>
    show decode2 (fun tl th => .beginLoad m (joinHalves tl th)) (addrWords tgt ++ rest) = _
    simp [decode2, addrWords]
  | beginLoadArea m tgt x y w h =>
    show decodeBeginLoadArea m (addrWords tgt ++ [x, y, w, h] ++ rest) = _
    simp [decodeBeginLoadArea, addrWords]
  | endLoad m => rfl
  | load1bpp m tgt src stride x y w h => exact decodeLoad_operandWords (.load1bpp m) tgt src stride x y w h rest
  | load2bpp m tgt src stride x y w h => exact decodeLoad_operandWords (.load2bpp m) tgt src stride x y w h rest
  | load4bpp m tgt src stride x y w h => exact decodeLoad_operandWords (.load4bpp m) tgt src stride x y w h rest
  | load8bpp m tgt src stride x y w h => exact decodeLoad_operandWords (.load8bpp m) tgt src stride x y w h rest
  | displayArea m x y w h mode => rfl
  | displayAreaBuf m x y w h mode adr =>
    show decodeDisplayAreaBuf m ([x, y, w, h, mode] ++ addrWords adr ++ rest) = _
    simp [decodeDisplayAreaBuf, addrWords]
  | display1bpp m x y w h mode fgbg adr =>
    have hb : m.getLsbD 0 = adr.isSome := of_decide_eq_true hw
    show decodeDisplay1bpp m ((Instr.display1bpp m x y w h mode fgbg adr).operandWords ++ rest) = _
    cases adr with
    | none => exact if_neg (c := m.getLsbD 0 = true) (by rw [hb]; decide)
    | some a =>
      refine (if_pos (c := m.getLsbD 0 = true) hb).trans ?_
      simp
  | waitRenderIdle m => rfl
  | clearAndRefresh m adr mode =>
    show decodeClear m (addrWords adr ++ [mode] ++ rest) = _
    simp [decodeClear, addrWords]
  | refresh1bpp m src x y w h adr => exact decodeRefresh_operandWords (.refresh1bpp m) src x y w h adr rest
  | refresh2bpp m src x y w h adr => exact decodeRefresh_operandWords (.refresh2bpp m) src x y w h adr rest
  | refresh4bpp m src x y w h adr => exact decodeRefresh_operandWords (.refresh4bpp m) src x y w h adr rest
  | refresh8bpp m src x y w h adr => exact decodeRefresh_operandWords (.refresh8bpp m) src x y w h adr rest
  | sleep m => rfl
  | standby m => rfl

theorem decodeRequest_encode {i : Instr} (hw : WellFormed i) (rest : List Word) :
    decodeRequest (encode i ++ rest) = .ok (.op i, rest) := by
  rw [encode, List.cons_append, decodeRequest_cons, headerOp_header, headerMod_header, decodeBody_operandWords hw]

/-- Settles O1: the header gives back OP and MOD, and with them the operand words decode to the operation. -/
theorem decodeOfEncode : Obligations.DecodeOfEncode := by
  unfold Obligations.DecodeOfEncode
  exact fun i rest hw => decodeRequest_encode hw rest

/-! ### What each decoder of operand words answers -/

/-- Words taken by a count word are as many as a count word can say, and their number is that count (R91). -/
theorem takeWords_counted {n : Word} {ws got rest : List Word} (h : takeWords n.toNat ws = some (got, rest)) :
    got.length ≤ 0xFFFF ∧ n = countWord got.length ∧ ws = got ++ rest := by
  obtain ⟨hlen, hws⟩ := takeWords_eq_some h
  exact ⟨by have := n.isLt; omega, by rw [hlen, countWord_toNat], hws⟩

/-- What a decoder of the operand words `ws` of OP `op` and MOD `m` may answer: an operation of that OP and MOD, its operand
words in front of what it leaves; or that they are cut short. -/
inductive Reads (op : Byte) (m : Mod) (ws : List Word) : Except DecodeError (Request × List Word) → Prop where
  | operation {i : Instr} {rest : List Word} (hw : WellFormed i) (hop : i.opcode = op) (hm : i.modByte = m)
    (hws : ws = i.operandWords ++ rest) : Reads op m ws (.ok (.op i, rest))
  | cutShort : Reads op m ws cutShort

section

variable {op : Byte} {m : Mod}

theorem decode1_reads (mk : Word → Instr)
    (hmk : ∀ a rest, Reads op m (a :: rest) (.ok (.op (mk a), rest))) (ws : List Word) :
    Reads op m ws (decode1 mk ws) := by
  cases ws with
  | nil => exact .cutShort
  | cons a rest => exact hmk a rest

theorem decode2_reads (mk : Word → Word → Instr)
    (hmk : ∀ a b rest, Reads op m (a :: b :: rest) (.ok (.op (mk a b), rest))) (ws : List Word) :
    Reads op m ws (decode2 mk ws) := by
  unfold decode2
  split
  · exact hmk _ _ _
  · exact .cutShort

theorem decodeLoad_reads (mk : Addr → Addr → Word → Word → Word → Word → Word → Instr)
    (hmk : ∀ tgt src stride x y w h rest, Reads op m (loadOperandWords tgt src stride x y w h ++ rest)
      (.ok (.op (mk tgt src stride x y w h), rest))) (ws : List Word) : Reads op m ws (decodeLoad mk ws) := by
  unfold decodeLoad
  split
  · simpa [loadOperandWords, addrWords] using hmk (joinHalves _ _) (joinHalves _ _) _ _ _ _ _ _
  · exact .cutShort

theorem decodeRefresh_reads (mk : Addr → Word → Word → Word → Word → Addr → Instr)
    (hmk : ∀ src x y w h adr rest, Reads op m (refreshOperandWords src x y w h adr ++ rest)
      (.ok (.op (mk src x y w h adr), rest))) (ws : List Word) : Reads op m ws (decodeRefresh mk ws) := by
  unfold decodeRefresh
  split
  · simpa [refreshOperandWords, addrWords] using hmk (joinHalves _ _) _ _ _ _ (joinHalves _ _) _
  · exact .cutShort

theorem decodeWrMulti_reads (ws : List Word) : Reads 0x03 m ws (decodeWrMulti m ws) := by
  unfold decodeWrMulti
  split
  · rename_i n rest
    split
    · rename_i got rest' ht
      obtain ⟨hle, rfl, rfl⟩ := takeWords_counted ht
      exact .operation (decide_eq_true hle) rfl rfl rfl
    · exact .cutShort
  · exact .cutShort

theorem decodeWrMultiArg_reads (ws : List Word) : Reads 0x06 m ws (decodeWrMultiArg m ws) := by
  unfold decodeWrMultiArg
  split
  · rename_i code n rest
    split
    · rename_i got rest' ht
      obtain ⟨hle, rfl, rfl⟩ := takeWords_counted ht
      exact .operation (decide_eq_true hle) rfl rfl rfl
    · exact .cutShort
  · exact .cutShort

theorem decodeDisplay1bpp_reads (ws : List Word) : Reads 0x42 m ws (decodeDisplay1bpp m ws) := by
  unfold decodeDisplay1bpp
  split
  · split
    · rename_i hb
      split
      · exact .operation (decide_eq_true hb) rfl rfl (by simp [Instr.operandWords, addrWords])
      · exact .cutShort
    · rename_i hb
      exact .operation (decide_eq_true (Bool.eq_false_of_not_eq_true hb)) rfl rfl rfl
  · exact .cutShort

theorem decodeBeginLoadArea_reads (ws : List Word) : Reads 0x21 m ws (decodeBeginLoadArea m ws) := by
  unfold decodeBeginLoadArea
  split
  · exact .operation rfl rfl rfl (by simp [Instr.operandWords, addrWords])
  · exact .cutShort

theorem decodeDisplayArea_reads (ws : List Word) : Reads 0x40 m ws (decodeDisplayArea m ws) := by
  unfold decodeDisplayArea
  split
  · exact .operation rfl rfl rfl rfl
  · exact .cutShort

theorem decodeDisplayAreaBuf_reads (ws : List Word) : Reads 0x41 m ws (decodeDisplayAreaBuf m ws) := by
  unfold decodeDisplayAreaBuf
  split
  · exact .operation rfl rfl rfl (by simp [Instr.operandWords, addrWords])
  · exact .cutShort

theorem decodeClear_reads (ws : List Word) : Reads 0x44 m ws (decodeClear m ws) := by
  unfold decodeClear
  split
  · exact .operation rfl rfl rfl (by simp [Instr.operandWords, addrWords])
  · exact .cutShort

end

/-! ### What the decoder accepts -/

/-- The assigned OPs (R94). -/
def assignedOps : List Byte :=
  [0x01, 0x02, 0x03, 0x04, 0x05, 0x06, 0x07, 0x08, 0x10, 0x20, 0x21, 0x22, 0x31, 0x32, 0x34, 0x38, 0x40, 0x41, 0x42, 0x43,
   0x44, 0x51, 0x52, 0x54, 0x58, 0x60, 0x61]

theorem reservedOp_iff (op : Byte) : ReservedOp op.toNat ↔ op ∉ assignedOps := by
  unfold ReservedOp
  revert op
  decide

/-- A reserved OP is its header word alone (R96). -/
theorem decodeBody_reserved {op : Byte} (hop : ReservedOp op.toNat) (m : Mod) (h : Word) (ws : List Word) :
    decodeBody op m h ws = .ok (.reserved h, ws) := by
  rw [reservedOp_iff] at hop
  simp only [assignedOps, List.mem_cons, List.not_mem_nil, or_false, not_or] at hop
  simp only [decodeBody, hop, if_false]

/-- Any other OP is read as an operation of that OP, or cut short (R94, R105). -/
theorem decodeBody_reads {op : Byte} (hop : ¬ ReservedOp op.toNat) (m : Mod) (h : Word) (ws : List Word) :
    Reads op m ws (decodeBody op m h ws) := by
  rw [reservedOp_iff, not_not] at hop
  simp only [assignedOps, List.mem_cons, List.not_mem_nil, or_false] at hop
  rcases hop with rfl | rfl | rfl | rfl | rfl | rfl | rfl | rfl | rfl | rfl | rfl | rfl | rfl | rfl | rfl | rfl | rfl | rfl |
    rfl | rfl | rfl | rfl | rfl | rfl | rfl | rfl | rfl
  · exact decode1_reads (.wrCmd m) (fun _ _ => .operation rfl rfl rfl rfl) ws
  · exact decode1_reads (.wrData m) (fun _ _ => .operation rfl rfl rfl rfl) ws
  · exact decodeWrMulti_reads ws
  · exact .operation (i := .rdData m) rfl rfl rfl rfl
  · exact decode1_reads (.rdMulti m) (fun _ _ => .operation rfl rfl rfl rfl) ws
  · exact decodeWrMultiArg_reads ws
  · exact decode1_reads (.rdReg m) (fun _ _ => .operation rfl rfl rfl rfl) ws
  · exact decode2_reads (.wrReg m) (fun _ _ _ => .operation rfl rfl rfl rfl) ws
  · exact decode1_reads (.init m) (fun _ _ => .operation rfl rfl rfl rfl) ws
  · exact decode2_reads (fun tl th => .beginLoad m (joinHalves tl th)) (fun _ _ _ => .operation rfl rfl rfl
      (by simp [Instr.operandWords, addrWords])) ws
  · exact decodeBeginLoadArea_reads ws
  · exact .operation (i := .endLoad m) rfl rfl rfl rfl
  · exact decodeLoad_reads (.load1bpp m) (fun _ _ _ _ _ _ _ _ => .operation rfl rfl rfl rfl) ws
  · exact decodeLoad_reads (.load2bpp m) (fun _ _ _ _ _ _ _ _ => .operation rfl rfl rfl rfl) ws
  · exact decodeLoad_reads (.load4bpp m) (fun _ _ _ _ _ _ _ _ => .operation rfl rfl rfl rfl) ws
  · exact decodeLoad_reads (.load8bpp m) (fun _ _ _ _ _ _ _ _ => .operation rfl rfl rfl rfl) ws
  · exact decodeDisplayArea_reads ws
  · exact decodeDisplayAreaBuf_reads ws
  · exact decodeDisplay1bpp_reads ws
  · exact .operation (i := .waitRenderIdle m) rfl rfl rfl rfl
  · exact decodeClear_reads ws
  · exact decodeRefresh_reads (.refresh1bpp m) (fun _ _ _ _ _ _ _ => .operation rfl rfl rfl rfl) ws
  · exact decodeRefresh_reads (.refresh2bpp m) (fun _ _ _ _ _ _ _ => .operation rfl rfl rfl rfl) ws
  · exact decodeRefresh_reads (.refresh4bpp m) (fun _ _ _ _ _ _ _ => .operation rfl rfl rfl rfl) ws
  · exact decodeRefresh_reads (.refresh8bpp m) (fun _ _ _ _ _ _ _ => .operation rfl rfl rfl rfl) ws
  · exact .operation (i := .sleep m) rfl rfl rfl rfl
  · exact .operation (i := .standby m) rfl rfl rfl rfl

theorem decodeRequest_requestWords {r : Request} (hr : RequestOk r) (rest : List Word) :
    decodeRequest (requestWords r ++ rest) = .ok (r, rest) := by
  cases r with
  | op i => exact decodeRequest_encode hr rest
  | reserved h => exact decodeBody_reserved hr _ h rest

/-- The decoder answers a request whose words stand in front of what it leaves, or that the request is cut short (R105). -/
theorem decodeRequest_cases (ws : List Word) :
    (∃ r rest, decodeRequest ws = .ok (r, rest) ∧ RequestOk r ∧ ws = requestWords r ++ rest) ∨
      decodeRequest ws = .error (.truncated 0) := by
  cases ws with
  | nil => exact .inr rfl
  | cons h ws =>
    rw [decodeRequest_cons]
    by_cases hop : ReservedOp (headerOp h).toNat
    · exact .inl ⟨.reserved h, ws, decodeBody_reserved hop _ h ws, hop, rfl⟩
    · have hread := decodeBody_reads hop (headerMod h) h ws
      generalize decodeBody (headerOp h) (headerMod h) h ws = answer at hread ⊢
      cases hread with
      | @operation i rest hw hopcode hm hws =>
        refine .inl ⟨.op i, rest, rfl, hw, ?_⟩
        rw [requestWords, encode, hopcode, hm, header_op_mod, hws, List.cons_append]
      | cutShort => exact .inr rfl

theorem decodeRequest_eq_ok_iff {ws rest : List Word} {r : Request} :
    decodeRequest ws = .ok (r, rest) ↔ RequestOk r ∧ ws = requestWords r ++ rest := by
  refine ⟨fun h => ?_, ?_⟩
  · rcases decodeRequest_cases ws with ⟨r', rest', hok, hr, hws⟩ | herr
    · rw [hok] at h
      cases h
      exact ⟨hr, hws⟩
    · rw [herr] at h
      cases h
  · rintro ⟨hr, rfl⟩
    exact decodeRequest_requestWords hr rest

/-- Settles O2: of a request that is an operation, `decodeRequest_eq_ok_iff`. -/
theorem decodedWordsAreTheEncoding : Obligations.DecodedWordsAreTheEncoding := by
  unfold Obligations.DecodedWordsAreTheEncoding
  exact fun _ _ _ h => decodeRequest_eq_ok_iff.1 h

/-! ### Requests cut short -/

/-- Words behind a whole request do not change how it decodes: they are left over. -/
theorem decodeRequest_append {ws rest : List Word} {r : Request} (h : decodeRequest ws = .ok (r, rest))
    (more : List Word) : decodeRequest (ws ++ more) = .ok (r, rest ++ more) := by
  obtain ⟨hr, rfl⟩ := decodeRequest_eq_ok_iff.1 h
  rw [List.append_assoc]
  exact decodeRequest_requestWords hr _

/-- Were the first words of an encoding a whole request, its missing words would be left over from the whole encoding, which
leaves none. -/
theorem decodeRequest_take_encode {i : Instr} (hw : WellFormed i) {n : Nat} (hn : n < (encode i).length) :
    decodeRequest ((encode i).take n) = .error (.truncated 0) := by
  rcases decodeRequest_cases ((encode i).take n) with ⟨r, rest, h, -, -⟩ | h
  · have hall := decodeRequest_append h ((encode i).drop n)
    have hwhole : decodeRequest (encode i) = .ok (.op i, []) := by simpa using decodeRequest_encode hw []
    rw [List.take_append_drop, hwhole, Except.ok.injEq, Prod.mk.injEq] at hall
    obtain ⟨-, hnone⟩ := hall
    have hdrop : (encode i).drop n = [] := (List.append_eq_nil_iff.1 hnone.symm).2
    exact absurd (List.drop_eq_nil_iff.1 hdrop) (Nat.not_le_of_lt hn)
  · exact h

/-- Settles O4: `decodeRequest_take_encode`. -/
theorem cutShortRequestIsRefused : Obligations.CutShortRequestIsRefused := by
  unfold Obligations.CutShortRequestIsRefused
  exact fun _ _ hw hn => decodeRequest_take_encode hw hn

/-! ### Programs -/

theorem requestWords_eq_cons (r : Request) : ∃ h ws, requestWords r = h :: ws := by
  cases r with
  | op i => exact ⟨_, _, rfl⟩
  | reserved h => exact ⟨h, [], rfl⟩

theorem length_le_flatMap_requestWords (rs : List Request) : rs.length ≤ (rs.flatMap requestWords).length := by
  induction rs with
  | nil => exact Nat.le_refl 0
  | cons r rs ih =>
    obtain ⟨h, ws, hr⟩ := requestWords_eq_cons r
    rw [List.flatMap_cons, hr]
    simp only [List.length_cons, List.length_append]
    omega

theorem decodeFrom_nil (fuel pos : Nat) : decodeFrom fuel pos [] = .ok [] := by
  cases fuel <;> rfl

/-- A request cut short is refused at its position, whatever fuel is left (R105, R110). -/
theorem decodeFrom_error {ws : List Word} {e : DecodeError} (hne : ws ≠ []) (h : decodeRequest ws = .error e)
    (fuel pos : Nat) : decodeFrom fuel pos ws = .error (.truncated pos) := by
  cases ws with
  | nil => exact absurd rfl hne
  | cons w ws =>
    cases fuel with
    | zero => rfl
    | succ fuel => rw [decodeFrom, h]

/-- Whole requests in front of a word list take one unit of fuel and one position each. -/
theorem decodeFrom_requests {rs : List Request} (hrs : ∀ r ∈ rs, RequestOk r) (fuel pos : Nat) (tail : List Word) :
    decodeFrom (rs.length + fuel) pos (rs.flatMap requestWords ++ tail) =
      (decodeFrom fuel (pos + rs.length) tail).map (rs ++ ·) := by
  induction rs generalizing pos with
  | nil =>
    rw [List.length_nil, Nat.zero_add]
    show decodeFrom fuel pos tail = (decodeFrom fuel pos tail).map ([] ++ ·)
    cases decodeFrom fuel pos tail <;> rfl
  | cons r rs ih =>
    have hr := decodeRequest_requestWords (hrs r List.mem_cons_self) (rs.flatMap requestWords ++ tail)
    obtain ⟨h, ws, hcons⟩ := requestWords_eq_cons r
    have hfuel : (r :: rs).length + fuel = (rs.length + fuel) + 1 := by simp only [List.length_cons]; omega
    have hpos : pos + (r :: rs).length = (pos + 1) + rs.length := by simp only [List.length_cons]; omega
    rw [hcons, List.cons_append] at hr
    rw [List.flatMap_cons, List.append_assoc, hcons, List.cons_append, hfuel, hpos, decodeFrom, hr]
    simp only [ih fun r hr => hrs r (List.mem_cons_of_mem _ hr)]
    cases decodeFrom fuel (pos + 1 + rs.length) tail <;> rfl

/-- A program is its whole requests, and what the words behind them decode to at the next position. -/
theorem decodeProgram_requests {rs : List Request} (hrs : ∀ r ∈ rs, RequestOk r) (tail : List Word) :
    ∃ fuel, decodeProgram (rs.flatMap requestWords ++ tail) = (decodeFrom fuel rs.length tail).map (rs ++ ·) := by
  obtain ⟨fuel, hfuel⟩ := Nat.exists_eq_add_of_le (length_le_flatMap_requestWords rs)
  refine ⟨fuel + tail.length, ?_⟩
  rw [decodeProgram, List.length_append, hfuel, Nat.add_assoc, decodeFrom_requests hrs, Nat.zero_add]

/-- Settles O5: behind the whole requests nothing is left, or a request cut short. -/
theorem programsDecode : Obligations.ProgramsDecode := by
  unfold Obligations.ProgramsDecode
  refine fun rs hrs => ⟨?_, fun i n hw hpos hn => ?_⟩
  · obtain ⟨fuel, h⟩ := decodeProgram_requests hrs []
    rw [decodeFrom_nil, List.append_nil] at h
    rw [h, Except.map, List.append_nil]
  · obtain ⟨fuel, h⟩ := decodeProgram_requests hrs ((encode i).take n)
    have hne : (encode i).take n ≠ [] := List.ne_nil_of_length_pos (by rw [List.length_take]; omega)
    rw [decodeFrom_error hne (decodeRequest_take_encode hw hn)] at h
    rw [h]
    rfl

/-- Settles O3: each word list is evaluated. -/
theorem specWordsDecode : Obligations.SpecWordsDecode := by
  unfold Obligations.SpecWordsDecode
  decide

end Sys2Proof

/-! PROOFS. Scope: reserved OPs and reserved modifiers, which decode and which execution refuses before it emits anything
(30_encoding.md R96, R97; O6, O30), and the whole frames of every operation (R100, R134; O57). -/

namespace Sys2Proof.Machine

open Sys2Proof.Safety

/-! ### Refusals that emit nothing -/

theorem step_of_fetch_reserved {s : State} {h : Word} (hf : fetch s = .ok (.reserved h)) : step s = execReserved h s := by
  simp [step, hf]

/-- A body that refuses before it changes anything. -/
theorem runOp_refusedBy {body : Op Unit} {s : State} {e : ErrKind} {i : Byte} (h : body s = .error (.raise e i) s)
    (hcs : s.cs = 1) (he : e ≠ .hwTimeout) : runOp body s = .next (refusedBy s (errCode e) i) := by
  rw [runOp_raise h, errorEpilogue_refusedBy e i s hcs he]

/-- Settles O6: `decodeRequest_eq_ok_iff` of a reserved request, which `execReserved` refuses. -/
theorem reservedRequests : Obligations.ReservedRequests := by
  unfold Obligations.ReservedRequests
  refine ⟨fun h rest hop => decodeRequest_eq_ok_iff.2 ⟨hop, rfl⟩, fun h g rest rest' hd => ?_,
    fun s rs h hc hd hr hcs => ?_⟩
  · obtain ⟨hop, hws⟩ := decodeRequest_eq_ok_iff.1 hd
    cases hws
    exact hop
  · rw [step_of_fetch_reserved (fetch_of_decode hc hd hr)]
    exact runOp_refusedBy (raise_run .unsupported 1 s) hcs (by decide)

/-! ### Reserved modifiers -/

section

variable {s : State} {m mask : Mod}

theorem checkMod_reserved (h : m &&& mask ≠ 0) : checkMod mask m s = .error (.raise .unsupported 5) s := by
  rw [checkMod_run, if_neg h]

theorem rawAdmit_reserved (h : m &&& maskNone ≠ 0) : rawAdmit m s = .error (.raise .unsupported 5) s :=
  bind_error (checkMod_reserved h)

theorem loadAdmit_reserved (h : m &&& mask ≠ 0) : loadAdmit mask m s = .error (.raise .unsupported 5) s :=
  bind_error (checkMod_reserved h)

theorem displayAdmit_reserved (h : m &&& mask ≠ 0) : displayAdmit mask m s = .error (.raise .unsupported 5) s :=
  bind_error (checkMod_reserved h)

/-- A set reserved bit is found first, and then the reserved PSEL (R97). -/
theorem loadAdmitPsel_reserved (h : ¬ (m &&& maskBegin = 0 ∧ modPsel m ≠ 0)) :
    loadAdmitPsel m s = .error (.raise .unsupported 5) s := by
  by_cases hm : m &&& maskBegin = 0
  · have hp : modPsel m = 0 := by
      by_contra hp
      exact h ⟨hm, hp⟩
    unfold loadAdmitPsel readPsel
    rw [bind_ok (a := ()) (t := s) (by rw [checkMod_run, if_pos hm]), hp]
    rfl
  · exact bind_error (checkMod_reserved hm)

end

/-- Without a PSEL, MOD is reserved by a set reserved bit only. -/
theorem reservedBit_of_not_modOk {i : Instr} (h : ¬ ModOk i) (hp : hasPsel i = false) :
    i.modByte &&& reservedMask i ≠ 0 :=
  fun h0 => h ⟨h0, fun hp' => by rw [hp] at hp'; cases hp'⟩

/-- The body of every operation refuses a reserved MOD before anything else (R97, R305). -/
theorem exec_reservedMod {i : Instr} (hmod : ¬ ModOk i) (s : State) :
    ∃ body, exec i s = runOp body s ∧ body s = .error (.raise .unsupported 5) s := by
  have hbit := reservedBit_of_not_modOk hmod
  cases i with
  | wrCmd m code => exact ⟨_, rfl, bind_error (rawAdmit_reserved (hbit rfl))⟩
  | wrData m w => exact ⟨_, rfl, bind_error (checkMod_reserved (hbit rfl))⟩
  | wrMulti m ws => exact ⟨_, rfl, bind_error (checkMod_reserved (hbit rfl))⟩
  | rdData m => exact ⟨_, rfl, bind_error (rawAdmit_reserved (hbit rfl))⟩
  | rdMulti m n => exact ⟨_, rfl, bind_error (rawAdmit_reserved (hbit rfl))⟩
  | wrMultiArg m code args => exact ⟨_, rfl, bind_error (rawAdmit_reserved (hbit rfl))⟩
  | rdReg m addr => exact ⟨_, rfl, bind_error (rawAdmit_reserved (hbit rfl))⟩
  | wrReg m addr val => exact ⟨_, rfl, bind_error (rawAdmit_reserved (hbit rfl))⟩
  | init m vcom => exact ⟨_, rfl, bind_error (checkMod_reserved (hbit rfl))⟩
  | beginLoad m tgt => exact ⟨_, rfl, bind_error (loadAdmitPsel_reserved fun hm => hmod ⟨hm.1, fun _ => hm.2⟩)⟩
  | beginLoadArea m tgt x y w h =>
    exact ⟨_, rfl, bind_error (loadAdmitPsel_reserved fun hm => hmod ⟨hm.1, fun _ => hm.2⟩)⟩
  | endLoad m => exact ⟨_, rfl, bind_error (checkMod_reserved (hbit rfl))⟩
  | load1bpp m tgt src stride x y w h => exact ⟨_, rfl, bind_error (loadAdmit_reserved (hbit rfl))⟩
  | load2bpp m tgt src stride x y w h => exact ⟨_, rfl, bind_error (loadAdmit_reserved (hbit rfl))⟩
  | load4bpp m tgt src stride x y w h => exact ⟨_, rfl, bind_error (loadAdmit_reserved (hbit rfl))⟩
  | load8bpp m tgt src stride x y w h => exact ⟨_, rfl, bind_error (loadAdmit_reserved (hbit rfl))⟩
  | displayArea m x y w h mode => exact ⟨_, rfl, bind_error (displayAdmit_reserved (hbit rfl))⟩
  | displayAreaBuf m x y w h mode adr => exact ⟨_, rfl, bind_error (displayAdmit_reserved (hbit rfl))⟩
  | display1bpp m x y w h mode fgbg adr => exact ⟨_, rfl, bind_error (displayAdmit_reserved (hbit rfl))⟩
  | waitRenderIdle m => exact ⟨_, rfl, bind_error (checkMod_reserved (hbit rfl))⟩
  | clearAndRefresh m adr mode => exact ⟨_, rfl, bind_error (loadAdmit_reserved (hbit rfl))⟩
  | refresh1bpp m src x y w h adr => exact ⟨_, rfl, bind_error (loadAdmit_reserved (hbit rfl))⟩
  | refresh2bpp m src x y w h adr => exact ⟨_, rfl, bind_error (loadAdmit_reserved (hbit rfl))⟩
  | refresh4bpp m src x y w h adr => exact ⟨_, rfl, bind_error (loadAdmit_reserved (hbit rfl))⟩
  | refresh8bpp m src x y w h adr => exact ⟨_, rfl, bind_error (loadAdmit_reserved (hbit rfl))⟩
  | sleep m => exact ⟨_, rfl, bind_error (checkMod_reserved (hbit rfl))⟩
  | standby m => exact ⟨_, rfl, bind_error (checkMod_reserved (hbit rfl))⟩

/-- Settles O30: the encoding keeps the whole MOD byte, and every body refuses a reserved one first. -/
theorem reservedModifiers : Obligations.ReservedModifiers := by
  unfold Obligations.ReservedModifiers
  refine fun i hmod => ⟨fun rest hw => ⟨decodeRequest_encode hw rest, encode_length i⟩, fun s hcs => ?_⟩
  obtain ⟨body, hbody, herror⟩ := exec_reservedMod hmod s
  rw [hbody]
  exact runOp_refusedBy herror hcs (by decide)

/-! ### Whole frames -/

/-- Settles O57: `exec_emits`, without the line it leaves released. -/
theorem operationsSendWholeFrames : Obligations.OperationsSendWholeFrames := by
  unfold Obligations.OperationsSendWholeFrames
  intro i s t hc hcs h
  obtain ⟨fs, last, he, hg, hfit, -⟩ := exec_emits hcs hc h
  exact ⟨fs, last, he, hg, hfit⟩

end Sys2Proof.Machine

/-! PROOFS. Scope: the raw operations, to the last event or as whole frames (40_frame_preambler.md R130 to R148; O35 to O39),
and the refusals of an operation's operands (R139, R143, R145, R272; O32). The checks of an admitted raw operation leave the
state as it is, so that the operation is its transactions alone. -/

namespace Sys2Proof.Machine

open Sys2Proof.Safety

/-! ### Checks, run -/

theorem checkMod_zero (mask : Mod) (s : State) : checkMod mask 0 s = .ok () s :=
  (checkMod_run mask 0 s).trans (if_pos BitVec.zero_and)

theorem rawAdmitStream_zero (s : State) : rawAdmitStream 0 s = .ok () s := checkMod_zero _ s

theorem rawAdmit_outsideLoad {s : State} (hload : s.loadOpen = false) : rawAdmit 0 s = .ok () s := by
  rw [rawAdmit_run, if_pos rfl]
  simp [misuseIn, hload]

theorem refuseTracked_run (code : Word) (s : State) : refuseTracked code s =
    if code ∈ trackedCodes s.cfg then .error (.raise .unsupported 3) s else .ok () s := rfl

theorem refuseOverBurst_run (n : Nat) (s : State) : refuseOverBurst n s =
    if n > s.cfg.bWords then .error (.raise .protocolMisuse 6) s else .ok () s := rfl

theorem refuseOverBurstMulti_run (n : Nat) (s : State) : refuseOverBurstMulti n s =
    if s.cfg.argFraming = .multi ∧ n > s.cfg.bWords then .error (.raise .protocolMisuse 6) s else .ok () s := rfl

/-- MOD and state admit a load, a clear or a refresh (R204). -/
theorem loadAdmit_admitted {mask m : Mod} {s : State} (hm : m &&& mask = 0) (hs : misuseIn s .load = none) :
    loadAdmit mask m s = .ok () s := by
  rw [loadAdmit_run, if_pos hm, hs, verdict_none]

theorem readRefreshMap_none {s : State} (hmap : s.cfg.refreshMap = none) (d : Depth) (m : Mod) :
    readRefreshMap d m s = .error (.raise .unsupported 4) s := by
  unfold readRefreshMap
  rw [bind_ok (readCfg_run s), hmap]
  rfl

/-! ### REFRESH_dBPP, whatever its depth -/

section

variable (d : Depth) (m : Mod) (src : Addr) (x y w h : Word) (adr : Addr)

theorem exec_refreshInstr (s : State) :
    exec (refreshInstr d m src x y w h adr) s = runOp (refreshBody d m src x y w h adr) s := by cases d <;> rfl

theorem refreshInstr_modByte : (refreshInstr d m src x y w h adr).modByte = m := by cases d <;> rfl

theorem refreshInstr_reservedMask : reservedMask (refreshInstr d m src x y w h adr) = maskRefresh := by cases d <;> rfl

theorem refreshInstr_admission : admission (refreshInstr d m src x y w h adr) = .load := by cases d <;> rfl

variable {d m src x y w h adr}

theorem loadAdmit_refresh {s : State} (had : Admitted (refreshInstr d m src x y w h adr) s) :
    loadAdmit maskRefresh m s = .ok () s := by
  obtain ⟨⟨hmod, -⟩, hstate⟩ := had
  rw [refreshInstr_modByte, refreshInstr_reservedMask] at hmod
  rw [refreshInstr_admission] at hstate
  exact loadAdmit_admitted hmod hstate

end

/-! ### Admitted raw operations are their transactions -/

theorem runOp_congr {body body' : Op Unit} {s t : State} (h : body s = body' t) : runOp body s = runOp body' t := by
  unfold runOp
  rw [h]

section

variable {s : State}

theorem exec_wrCmd_admitted {code : Word} (hload : s.loadOpen = false) (hcode : code ∉ trackedCodes s.cfg) :
    exec (.wrCmd 0 code) s = runOp (txnCommand code) s :=
  runOp_congr <| (bind_ok (rawAdmit_outsideLoad hload)).trans <|
    bind_ok ((refuseTracked_run code s).trans (if_neg hcode))

theorem exec_wrData_admitted (w : Word) : exec (.wrData 0 w) s = runOp (txnWrite [w]) s :=
  runOp_congr (bind_ok (rawAdmitStream_zero s))

/-- WR_MULTI is admitted in every state, so that its checks are those of its count. -/
theorem exec_wrMulti_stream (ws : List Word) : exec (.wrMulti 0 ws) s = runOp (do
    raiseIf (ws.length = 0) .unsupported 2
    refuseOverBurst ws.length
    txnWrite ws) s :=
  runOp_congr (bind_ok (rawAdmitStream_zero s))

theorem exec_wrMulti_admitted {ws : List Word} (hpos : 1 ≤ ws.length) (hle : ws.length ≤ s.cfg.bWords) :
    exec (.wrMulti 0 ws) s = runOp (txnWrite ws) s :=
  (exec_wrMulti_stream ws).trans <| runOp_congr <| (bind_ok (if_neg (Nat.ne_of_gt hpos))).trans <|
    bind_ok ((refuseOverBurst_run _ s).trans (if_neg (Nat.not_lt.2 hle)))

theorem exec_rdData_admitted (hload : s.loadOpen = false) :
    exec (.rdData 0) s = runOp (do
      let ws ← txnRead 1
      update (fun t => { t with rdata := some (ws.headD 0) })) s :=
  runOp_congr (bind_ok (rawAdmit_outsideLoad hload))

theorem exec_rdMulti_admitted {n : Word} (hload : s.loadOpen = false) (hn : n ≠ 0) (hle : n.toNat ≤ s.cfg.bWords) :
    exec (.rdMulti 0 n) s = runOp (do
      let ws ← txnRead n.toNat
      update (fun t => { t with rbuf := ws })) s :=
  runOp_congr <| (bind_ok (rawAdmit_outsideLoad hload)).trans <| (bind_ok (if_neg hn)).trans <|
    bind_ok ((refuseOverBurst_run _ s).trans (if_neg (Nat.not_lt.2 hle)))

theorem exec_wrMultiArg_admitted {code : Word} {args : List Word} (hload : s.loadOpen = false)
    (hcode : code ∉ trackedCodes s.cfg) (hle : s.cfg.argFraming = .multi → args.length ≤ s.cfg.bWords) :
    exec (.wrMultiArg 0 code args) s = runOp (multiArg code args) s :=
  runOp_congr <| (bind_ok (rawAdmit_outsideLoad hload)).trans <|
    (bind_ok ((refuseTracked_run code s).trans (if_neg hcode))).trans <|
      bind_ok ((refuseOverBurstMulti_run _ s).trans (if_neg fun ⟨hmulti, hlt⟩ => Nat.not_lt.2 (hle hmulti) hlt))

theorem exec_rdReg_admitted (addr : Word) (hload : s.loadOpen = false) :
    exec (.rdReg 0 addr) s = runOp (do
      let v ← regRead addr
      update (fun t => { t with rdata := some v })) s :=
  runOp_congr (bind_ok (rawAdmit_outsideLoad hload))

theorem exec_wrReg_admitted (addr val : Word) (hload : s.loadOpen = false) :
    exec (.wrReg 0 addr val) s = runOp (regWrite addr val) s :=
  runOp_congr (bind_ok (rawAdmit_outsideLoad hload))

end

/-! ### Operands refused -/

/-- An operation whose body raises Unsupported before it changes anything. -/
theorem exec_unsupported {i : Instr} {body : Op Unit} {s : State} {info : Byte} (hbody : exec i s = runOp body s)
    (h : body s = .error (.raise .unsupported info) s) (hcs : s.cs = 1) : exec i s = .next (refusedBy s 7 info) :=
  hbody.trans (runOp_refusedBy h hcs (by decide))

/-- Settles O32: each body passes its admission and stops at the check of its operand. -/
theorem operandChecks : Obligations.OperandChecks := by
  unfold Obligations.OperandChecks
  refine ⟨fun s hcs => ?_, fun s hcs hload => ?_, fun s code args hcs hload htracked => ⟨?_, ?_⟩,
    fun s d m src adr x y w h hcs had hmap => ?_⟩
  · exact exec_unsupported (exec_wrMulti_stream []) (bind_error (if_pos rfl)) hcs
  · exact exec_unsupported rfl ((bind_ok (rawAdmit_outsideLoad hload)).trans (bind_error (if_pos rfl))) hcs
  · exact exec_unsupported rfl ((bind_ok (rawAdmit_outsideLoad hload)).trans (bind_error (if_pos htracked))) hcs
  · exact exec_unsupported rfl ((bind_ok (rawAdmit_outsideLoad hload)).trans (bind_error (if_pos htracked))) hcs
  · exact exec_unsupported (exec_refreshInstr d m src x y w h adr s)
      ((bind_ok (loadAdmit_refresh had)).trans (bind_error (readRefreshMap_none hmap d m))) hcs

/-! ### Writes that complete -/

/-- Settles O35: an admitted write is its one transaction, `txnCommand_exact` or `txnWrite_exact`, and the success epilogue. -/
theorem writeFrames : Obligations.WriteFrames := by
  unfold Obligations.WriteFrames
  intro s a b rest hw ha hb
  exact ⟨fun code hload hcode => (exec_wrCmd_admitted hload hcode).trans (runOp_ok (txnCommand_exact code hw ha hb)),
    fun w => (exec_wrData_admitted w).trans (runOp_ok (txnWrite_exact [w] hw ha hb)),
    fun ws hpos hle => (exec_wrMulti_admitted hpos hle).trans (runOp_ok (txnWrite_exact ws hw ha hb))⟩

/-! ### Writes that time out -/

/-- The state after an operation whose only transaction timed out in phase `info`, with the events `es` on the wire (R310). -/
def State.timedOut (s : State) (info : Byte) (es : List Event) (rest : List BusyRun) : State :=
  { s with trace := s.trace ++ es, res := 1, einfo := info, faults := s.faults ||| 0x02, session := .unready,
           pc := s.pc + 1, chip := { s.chip with waits := rest } }

/-- An operation that opens a frame first, when the busy-wait of either phase reaches the limit: in phase 1 the line is not
held yet, in phase 2 the epilogue's release ends the events. -/
theorem exec_timesOut {s : State} {i : Instr} {pre : Word} {payload : Unit → Op Unit} {l a : Nat} {late : BusyRun}
    {rest : List BusyRun} (hi : exec i s = runOp (openFrame pre >>= payload) s) (hcs : s.cs = 1)
    (hp : s.cfg.pollLimit = some l) (h1 : 1 ≤ l) (ha : a < l) (hlate : ∀ k, late = .idleAfter k → l ≤ k) :
    (s.chip.waits = late :: rest →
      exec i s = .next (s.timedOut 1 (List.replicate l (Event.poll (~~~s.cfg.busyIdleLevel))) rest)) ∧
    (s.chip.waits = .idleAfter a :: late :: rest →
      exec i s = .next (s.timedOut 2 (endedPolls s.cfg.busyIdleLevel a ++ [.sel, .tx (hiByte pre), .tx (loByte pre)] ++
        List.replicate l (Event.poll (~~~s.cfg.busyIdleLevel)) ++ [.rel]) rest)) := by
  refine ⟨fun hw => ?_, fun hw => ?_⟩
  · rw [hi, runOp_raise (bind_error (openFrame_late1 pre hp h1 hlate hw)), errorEpilogue_eq]
    simp [State.timedOut, hcs, errCode, faultBit]
  · rw [hi, runOp_raise (bind_error (openFrame_late2 pre hp h1 ha hlate hw)), errorEpilogue_eq]
    simp [State.timedOut, hcs, errCode, faultBit]

/-- Settles O36: an admitted write begins by opening its frame, so that `exec_timesOut` says how it ends. -/
theorem writeTimeouts : Obligations.WriteTimeouts := by
  unfold Obligations.WriteTimeouts
  intro s l a late rest hcs hp h1 ha hlate
  exact ⟨fun code hload hcode => exec_timesOut (exec_wrCmd_admitted hload hcode) hcs hp h1 ha hlate,
    fun w => exec_timesOut (exec_wrData_admitted w) hcs hp h1 ha hlate,
    fun ws hpos hle => exec_timesOut (exec_wrMulti_admitted hpos hle) hcs hp h1 ha hlate⟩

/-! ### Reads -/

/-- The words of a read after its dummy word, byte by byte (R135). -/
theorem rxWordsFrom_one (c : Oracle) (n : Nat) : rxWordsFrom c 1 n =
    (List.range n).map (fun k => joinBytes (rxAt c (2 + 2 * k)) (rxAt c (3 + 2 * k))) := by
  refine List.map_congr_left fun k _ => ?_
  have hhi : 2 * (1 + k) = 2 + 2 * k := by omega
  have hlo : 2 * (1 + k) + 1 = 3 + 2 * k := by omega
  rw [rxWordAt, hlo, hhi]

theorem runOp_read_exact {n : Nat} {write : List Word → State → State} {s : State} {a b : Nat} {rest : List BusyRun}
    (hw : s.chip.waits = .idleAfter a :: .idleAfter b :: rest)
    (ha : EndsWithin s.cfg.pollLimit a) (hb : EndsWithin s.cfg.pollLimit b) :
    runOp (do
      let ws ← txnRead n
      update (write ws)) s = .next (successEpilogue (write (rxWordsFrom s.chip 1 n) (s.transacted
        (transactionEvents s.cfg.busyIdleLevel a b 0x1000
          ((List.range (2 + 2 * n)).map (fun k => .rx (rxAt s.chip k))))
        (skipRx (2 + 2 * n) { s.chip with waits := rest })))) :=
  runOp_ok ((bind_ok (txnRead_exact n hw ha hb)).trans (update_run _ _))

/-- Settles O37: an admitted read is its one transaction, whose words are written to their register. -/
theorem readFrames : Obligations.ReadFrames := by
  unfold Obligations.ReadFrames
  intro s a b rest hload hw ha hb
  refine ⟨⟨skipRx 4 { s.chip with waits := rest }, rfl, rfl, ?_⟩, fun n hn hle =>
    ⟨skipRx (2 + 2 * n.toNat) { s.chip with waits := rest }, rfl, rfl, ?_⟩⟩
  · exact (exec_rdData_admitted hload).trans (runOp_read_exact hw ha hb)
  · rw [← rxWordsFrom_one]
    exact (exec_rdMulti_admitted hload hn hle).trans (runOp_read_exact hw ha hb)

/-! ### Commands with arguments, and registers -/

/-- An operation whose body sends frames and leaves every register as it was. -/
theorem Does.completes_sameRegs {body : Op Unit} {s : State} {fs : List Frame} (h : Does body s fs 0 () s.regs)
    (hw : WaitsEnd s (waitsOf fs)) :
    ∃ t, runOp body s = .next t ∧ Emitted s t fs ∧ Succeeded s t ∧ SameReads s t ∧ SameSession s t ∧ SameMirrors s t := by
  obtain ⟨t, hrun, hemit, hok, hreads, hrstl, hsession, hdesc, htgt, hopen, hpending⟩ := h.completes hw
  exact ⟨t, hrun, hemit, hok, hreads, ⟨hsession, hdesc, hrstl⟩, htgt, hopen, hpending⟩

/-- Settles O38: `multiArg_does` and `regWrite_does`, which leave every register as it was. -/
theorem argumentFrames : Obligations.ArgumentFrames := by
  unfold Obligations.ArgumentFrames
  refine fun s hload => ⟨fun code args hcode hle hw => ?_, fun addr val hw => ?_⟩
  · rw [exec_wrMultiArg_admitted hload hcode hle]
    exact (multiArg_does code args s).completes_sameRegs hw
  · rw [exec_wrReg_admitted addr val hload]
    exact (regWrite_does addr val s).completes_sameRegs hw

/-- Settles O39: `regRead_does`, and the word it answers written to RDATA. -/
theorem registerRead : Obligations.RegisterRead := by
  unfold Obligations.RegisterRead
  intro s addr hload hw
  obtain ⟨es, hread, hframes⟩ := regRead_does addr s hw
  refine ⟨_, (exec_rdReg_admitted addr hload).trans (runOp_ok (bind_ok hread)), ⟨es, rfl, hframes⟩, rfl, rfl, ?_,
    ⟨rfl, rfl, rfl⟩, rfl, rfl, rfl⟩
  exact ⟨rfl, rfl, rfl, rfl, rfl, rfl, rfl, fun _ => rfl⟩

end Sys2Proof.Machine

/-! PROOFS. Scope: INIT as its descriptor read and what follows it (41_device_session.md R170 to R179; O40, O41): on a present
panel the session is brought up and made ready, on an absent one the check of the descriptor ends the operation. -/

namespace Sys2Proof.Machine

open Sys2Proof.Safety

/-! ### INIT, cut after its descriptor read -/

/-- INIT up to and with the descriptor read, whose words it answers (R171 to R174). -/
def readDescriptor : Op (List Word) := do
  resetPulse
  clearSession
  let c ← readCfg
  txnCommand c.cmdSysRun
  getDeviceInfo

/-- INIT after the read of the descriptor words `ws`, under the configuration `c` it read before (R175 to R178). -/
def enterSession (c : Config) (vcom : Word) (ws : List Word) : Op Unit := do
  requirePresent ws
  regWrite c.regPackedCtrl c.packedEnableValue
  vcomReconcile vcom
  commitSession ws

theorem exec_init_admitted (vcom : Word) (s : State) :
    exec (.init 0 vcom) s = runOp (readDescriptor >>= enterSession s.cfg vcom) s := by
  have hpulse : readDescriptor >>= enterSession s.cfg vcom = (do resetPulse; clearSession) >>= fun _ =>
      (do let c ← readCfg; txnCommand c.cmdSysRun; getDeviceInfo) >>= enterSession s.cfg vcom := by
    simp only [readDescriptor, bind_assoc]
  have hcfg : (bringUp vcom >>= commitSession) s.pulsed =
      ((do let c ← readCfg; txnCommand c.cmdSysRun; getDeviceInfo) >>= enterSession s.cfg vcom) s.pulsed := by
    simp only [bringUp, bind_assoc, pure_bind]
    rw [bind_ok (readCfg_run _), bind_ok (readCfg_run _)]
    rfl
  rw [hpulse, runOp_bind_ok (pulse_run s)]
  exact (execInit_admitted vcom s).trans (runOp_congr hcfg)

theorem readDescriptor_does (s : State) (hcs : s.cs = 1) :
    Does readDescriptor s (bringUpFrames s.cfg s.chip) (5 + 2 * s.cfg.versionWords)
      (rxWordsFrom s.chip 1 (4 + 2 * s.cfg.versionWords)) s.cleared :=
  (bringUp_does s hcs).frames rfl (by omega)

/-! ### The check of the descriptor -/

theorem descriptorWords_width (c : Oracle) (v : Nat) : (rxWordsFrom c 1 (4 + 2 * v)).getD 0 0 = rxWordAt c 1 :=
  getD_rxWordsFrom c 1 _ 0 (by omega)

theorem descriptorWords_height (c : Oracle) (v : Nat) : (rxWordsFrom c 1 (4 + 2 * v)).getD 1 0 = rxWordAt c 2 :=
  getD_rxWordsFrom c 1 _ 1 (by omega)

theorem requirePresent_present {ws : List Word} (hwidth : ws.getD 0 0 ≠ 0) (hheight : ws.getD 1 0 ≠ 0) (s : State) :
    requirePresent ws s = .ok () s :=
  (bind_ok (if_neg hwidth)).trans (if_neg hheight)

theorem requirePresent_absent {ws : List Word} (h : ws.getD 0 0 = 0 ∨ ws.getD 1 0 = 0) (s : State) :
    requirePresent ws s = .error (.raise .deviceAbsent (if ws.getD 0 0 = 0 then 1 else 2)) s := by
  by_cases hwidth : ws.getD 0 0 = 0
  · rw [if_pos hwidth]
    exact bind_error (if_pos hwidth)
  · rw [if_neg hwidth]
    exact (bind_ok (if_neg hwidth)).trans (if_pos (h.resolve_left hwidth))

/-! ### A present panel -/

/-- The registers after INIT's commit of the descriptor `d` (R177). -/
def Regs.readied (ρ : Regs) (d : Descriptor) : Regs :=
  { ρ with session := .ready, desc := some d, tgt := some d.imgAddr }

/-- The rest of INIT, from the state after its descriptor read: the packed-write enable, the VCOM reconcile, whose reading
is the second word the chip answers, and the commit (R176 to R178). -/
theorem enterSession_does {ws : List Word} (hwidth : ws.getD 0 0 ≠ 0) (hheight : ws.getD 1 0 ≠ 0) (vcom : Word)
    (s : State) :
    Does (enterSession s.cfg vcom ws) s
      (regWriteFrames s.cfg s.cfg.regPackedCtrl s.cfg.packedEnableValue ++
        (vcomReadFrames s.cfg (rxWordAt s.chip 0) (rxWordAt s.chip 1) ++
          (if rxWordAt s.chip 1 = vcom then [] else vcomWriteFrames s.cfg vcom))) 2 ()
      (s.regs.readied (decodeDesc s.cfg.versionWords ws)) := by
  refine Does.look (requirePresent_present hwidth hheight s)
    (Does.bind (q := 0) (r := 2) (regWrite_does _ _ s) fun es => ?_)
  have hreconcile := vcomReconcile_does
    (s.after es (waitsOf (regWriteFrames s.cfg s.cfg.regPackedCtrl s.cfg.packedEnableValue)) 0 s.regs) vcom
  simp only [after_word, after_cfg, after_regs, Nat.zero_add] at hreconcile
  exact hreconcile.finish fun _ => rfl

/-- INIT with a present panel: all its frames, and the registers of a ready session with the descriptor read. -/
theorem init_does {s : State} (vcom : Word) (hcs : s.cs = 1) (hwidth : rxWordAt s.chip 1 ≠ 0)
    (hheight : rxWordAt s.chip 2 ≠ 0) :
    Does (readDescriptor >>= enterSession s.cfg vcom) s
      (bringUpFrames s.cfg s.chip ++ reconcileFrames s.cfg s.chip vcom) (5 + 2 * s.cfg.versionWords + 2) ()
      (s.cleared.readied (descriptorIn s.cfg s.chip)) := by
  refine (readDescriptor_does s hcs).bind fun es => ?_
  have henter := enterSession_does (ws := rxWordsFrom s.chip 1 (4 + 2 * s.cfg.versionWords))
    (by rwa [descriptorWords_width]) (by rwa [descriptorWords_height]) vcom
    (s.after es (waitsOf (bringUpFrames s.cfg s.chip)) (5 + 2 * s.cfg.versionWords) s.cleared)
  have hnext : 5 + 2 * s.cfg.versionWords + 1 = 6 + 2 * s.cfg.versionWords := by omega
  simp only [after_word, after_cfg, after_regs, Nat.add_zero, decodeDesc_rxWords, hnext] at henter
  exact henter.frames (List.append_assoc ..).symm rfl

/-- Settles O40: `init_does`, and the success epilogue. -/
theorem initCompletes : Obligations.InitCompletes := by
  unfold Obligations.InitCompletes
  intro s vcom hcs hwidth hheight hw
  rw [exec_init_admitted]
  obtain ⟨t, hrun, hemit, hok, hreads, hrstl, hsession, hdesc, htgt, hopen, hpending⟩ :=
    (init_does vcom hcs hwidth hheight).completes hw
  exact ⟨t, hrun, hemit, hok, hreads, hsession, hdesc, htgt, hopen, hpending, hrstl⟩

/-! ### An absent panel -/

/-- Settles O41: after `readDescriptor_does` the check of the descriptor raises, and the epilogue keeps what was sent. -/
theorem absentDevice : Obligations.AbsentDevice := by
  unfold Obligations.AbsentDevice
  intro s vcom hcs habsent hw
  obtain ⟨es, hread, hframes⟩ := readDescriptor_does s hcs hw
  have hcheck := requirePresent_absent (ws := rxWordsFrom s.chip 1 (4 + 2 * s.cfg.versionWords))
    (by rwa [descriptorWords_width, descriptorWords_height])
  rw [descriptorWords_width] at hcheck
  refine ⟨_, (exec_init_admitted vcom s).trans ((runOp_bind_ok hread).trans (runOp_raise (bind_error (hcheck _)))),
    ⟨es, ?_, hframes⟩, ?_⟩
  · rw [errorEpilogue_trace]
    rfl
  · rw [errorEpilogue_eq]
    exact ⟨rfl, rfl, rfl, rfl, rfl, rfl, rfl, rfl, rfl, rfl, rfl, ⟨rfl, rfl⟩, rfl, rfl, fun _ => rfl⟩

end Sys2Proof.Machine

/-! PROOFS. Scope: the load protocol (42_image_load.md R200 to R208): the rectangles its checks and the displays' refuse, and its
three operations when every busy-wait ends (O33, O43, O44). -/

namespace Sys2Proof.Machine

open Sys2Proof.Safety

/-! ### Admission -/

section

variable {s : State} {mask m : Mod} {p : ChipFormat}

theorem displayAdmit_admitted (hm : m &&& mask = 0) (hs : misuseIn s .display = none) :
    displayAdmit mask m s = .ok () s := by
  rw [displayAdmit_run, if_pos hm, hs, verdict_none]

theorem requireLoadOpen_open (hopen : s.loadOpen = true) : requireLoadOpen s = .ok () s := by
  unfold requireLoadOpen
  rw [bind_ok (readState_run s), raiseIf_run, if_neg (by simp [hopen])]

/-- PSEL selects a format unless it has its reserved value (R93). -/
theorem pselFormat_isSome : ∀ p : BitVec 2, p ≠ 0 → (pselFormat p).isSome = true := by decide

theorem readPsel_selects (hp : pselFormat (modPsel m) = some p) : readPsel m s = .ok p s := by
  unfold readPsel
  rw [hp]
  rfl

/-- MOD and state enter a begin-load, whose pixel format PSEL selects (R204). -/
theorem loadAdmitPsel_admitted (hm : m &&& maskBegin = 0) (hp : pselFormat (modPsel m) = some p)
    (hs : misuseIn s .load = none) : loadAdmitPsel m s = .ok p s :=
  (bind_ok ((checkMod_run maskBegin m s).trans (if_pos hm))).trans <| (bind_ok (readPsel_selects hp)).trans <|
    (bind_ok ((loadAdmitState_run s).trans (by rw [hs]; rfl))).trans (pure_run p s)

end

/-! ### Rectangles refused -/

section

variable {s : State} {des : Descriptor} {x y w h : Word} {info : Byte}

/-- An admitted operation that checks its rectangle next, and finds it outside the panel (R205). -/
theorem runOp_areaRefused {α : Type} {enter : Op α} {a : α} {rest : α → Op Unit} (henter : enter s = .ok a s)
    (hcs : s.cs = 1) (hd : s.desc = some des) (harea : areaRefusal x y w h des.panelW des.panelH = some info) :
    runOp (do
      let a ← enter
      panelCheck x y w h
      rest a) s = .next (refusedBy s 4 info) := by
  have hcheck : panelCheck x y w h s = .error (.raise .invalidGeometry info) s := by
    rw [panelCheck_run x y w h s hd, harea, verdict_some]
  exact runOp_refusedBy (e := .invalidGeometry) ((bind_ok henter).trans (bind_error hcheck)) hcs (by decide)

end

/-- Settles O33: each of the four operations passes its admission and then checks its rectangle. -/
theorem areaChecks : Obligations.AreaChecks := by
  unfold Obligations.AreaChecks
  intro s des x y w h info hcs hd harea
  refine ⟨fun m tgt ⟨⟨hm, hpsel⟩, hs⟩ => ?_, fun m mode ⟨⟨hm, _⟩, hs⟩ => ?_, fun m mode adr ⟨⟨hm, _⟩, hs⟩ => ?_,
    fun m mode fgbg adr ⟨⟨hm, _⟩, hs⟩ => ?_⟩
  · obtain ⟨p, hp⟩ := Option.isSome_iff_exists.1 (pselFormat_isSome (modPsel m) (hpsel rfl))
    exact runOp_areaRefused (loadAdmitPsel_admitted hm hp hs) hcs hd harea
  · exact runOp_areaRefused (displayAdmit_admitted hm hs) hcs hd harea
  · exact runOp_areaRefused (displayAdmit_admitted hm hs) hcs hd harea
  · exact runOp_areaRefused (displayAdmit_admitted hm hs) hcs hd harea

/-! ### The load protocol, when every busy-wait ends -/

section

variable {s : State} {m : Mod} {tgt : Addr} {p : ChipFormat}

theorem exec_beginLoad_admitted (had : Admitted (.beginLoad m tgt) s) (hp : pselFormat (modPsel m) = some p) :
    exec (.beginLoad m tgt) s = runOp (beginLoadCore (modEndian m) p (modRot m) tgt) s :=
  runOp_congr (bind_ok (loadAdmitPsel_admitted had.1.1 hp had.2))

theorem exec_beginLoadArea_admitted {des : Descriptor} {x y w h : Word} (had : Admitted (.beginLoadArea m tgt x y w h) s)
    (hp : pselFormat (modPsel m) = some p) (hd : s.desc = some des)
    (harea : areaRefusal x y w h des.panelW des.panelH = none) :
    exec (.beginLoadArea m tgt x y w h) s =
      runOp (beginLoadAreaCore (modEndian m) p (modRot m) tgt x y w h) s :=
  runOp_congr <| (bind_ok (loadAdmitPsel_admitted had.1.1 hp had.2)).trans <|
    bind_ok ((panelCheck_run x y w h s hd).trans (by rw [harea]; rfl))

theorem exec_endLoad_open (hopen : s.loadOpen = true) : exec (.endLoad 0) s = runOp endLoadCore s :=
  runOp_congr <| (bind_ok (checkMod_zero maskNone s)).trans (bind_ok (requireLoadOpen_open hopen))

/-- An operation whose body sends the frames of a begin-load, sets the target and opens the load. -/
theorem Does.opens {body : Op Unit} {fs : List Frame}
    (hdo : Does body s fs 0 () { s.regs with tgt := some tgt, loadOpen := true }) (hpending : s.renderPending = false) (hw : WaitsEnd s (waitsOf fs)) :
    ∃ t, runOp body s = .next t ∧ Emitted s t fs ∧ Succeeded s t ∧ SameReads s t ∧ SameSession s t ∧ t.tgt = some tgt ∧
      t.loadOpen = true ∧ t.renderPending = false := by
  obtain ⟨t, hrun, hemit, hok, hreads, hrstl, hsession, hdesc, htgt, hopen, hp⟩ := hdo.completes hw
  exact ⟨t, hrun, hemit, hok, hreads, ⟨hsession, hdesc, hrstl⟩, htgt, hopen, hp.trans hpending⟩

end

/-- Settles O43: an admitted begin-load is `beginLoadCore` or `beginLoadAreaCore`, with the format PSEL selects. -/
theorem beginLoads : Obligations.BeginLoads := by
  unfold Obligations.BeginLoads
  intro s m tgt p hpsel
  have hp : pselFormat (modPsel m) = some p := by
    simp only [List.mem_cons, List.not_mem_nil, or_false, Prod.mk.injEq] at hpsel
    unfold modPsel
    rcases hpsel with ⟨h, rfl⟩ | ⟨h, rfl⟩ | ⟨h, rfl⟩ <;> rw [h] <;> rfl
  refine ⟨fun had hw => ?_, fun des x y w h had hd harea hw => ?_⟩
  · rw [exec_beginLoad_admitted had hp]
    exact (beginLoadCore_does _ p _ tgt s).opens (Admitted.mirrors (.inl rfl) had).2 hw
  · rw [exec_beginLoadArea_admitted had hp hd harea]
    exact (beginLoadAreaCore_does _ p _ tgt x y w h s).opens (Admitted.mirrors (.inl rfl) had).2 hw

/-- Settles O44: END_LOAD inside a load is `endLoadCore`. -/
theorem endLoad : Obligations.EndLoad := by
  unfold Obligations.EndLoad
  intro s hopen hw
  rw [exec_endLoad_open hopen]
  obtain ⟨t, hrun, hemit, hok, hreads, hrstl, hsession, hdesc, htgt, hclosed, hpending⟩ := (endLoadCore_does s).completes hw
  exact ⟨t, hrun, hemit, hok, hreads, ⟨hsession, hdesc, hrstl⟩, htgt, hclosed, hpending⟩

end Sys2Proof.Machine

/-! PROOFS. Scope: the pairing of begin-load and end-load commands in the trace (42_image_load.md R209; O13). A reader of the trace
sees the same commands and reset pulses in an operation's events as stand in its whole frames, and nothing in what is left of
one given up; what the reader then takes LOAD_OPEN to be is followed through the frames of each procedure (`SendsPaired`). -/

namespace Sys2Proof.Machine

open Sys2Proof.Safety

/-! ### What a reader sees of frames -/

/-- Events that neither move the reader nor show it anything. -/
theorem marksFrom_unmoved {p : Scan} {es : List Event} (h : ∀ e ∈ es, scanEvent p e = (p, [])) (fs : List Event) :
    marksFrom p (es ++ fs) = marksFrom p fs := by
  induction es with
  | nil => rfl
  | cons e es ih =>
    rw [List.cons_append, marksFrom, h e List.mem_cons_self]
    exact ih fun f hf => h f (List.mem_cons_of_mem _ hf)

/-- Where the reader stands after some events. -/
def scanAfter (p : Scan) (es : List Event) : Scan := es.foldl (fun q e => (scanEvent q e).1) p

theorem marksFrom_append (p : Scan) (es fs : List Event) :
    marksFrom p (es ++ fs) = marksFrom p es ++ marksFrom (scanAfter p es) fs := by
  induction es generalizing p with
  | nil => rfl
  | cons e es ih => rw [List.cons_append, marksFrom, ih, marksFrom, List.append_assoc]; rfl

/-- Events in parts, each of which shows the same wherever the reader stands. -/
theorem marksFrom_flatMap {α : Type} {f : α → List Event} {g : α → List Mark} (h : ∀ p x, marksFrom p (f x) = g x)
    (p : Scan) (xs : List α) : marksFrom p (xs.flatMap f) = xs.flatMap g := by
  induction xs generalizing p with
  | nil => rfl
  | cons x xs ih => rw [List.flatMap_cons, marksFrom_append, h, ih, List.flatMap_cons]

/-- Collapsing busy-waits takes away poll samples only, which show the reader nothing (R64). -/
theorem marksFrom_collapsed (idle : BitVec 1) (p : Scan) (es : List Event) :
    marksFrom p (shownEvents (collapsed idle es)) = marksFrom p es := by
  induction es generalizing p with
  | nil => rfl
  | cons e es ih =>
    have hkeep : ∀ f, marksFrom p (shownEvents (.event f :: collapsed idle es)) = marksFrom p (f :: es) :=
      fun f => congrArg ((scanEvent p f).2 ++ ·) (ih (scanEvent p f).1)
    cases e with
    | poll v =>
      have hskip : marksFrom p (.poll v :: es) = marksFrom p es :=
        marksFrom_unmoved (es := [.poll v]) (by cases p <;> simp [scanEvent]) es
      rw [collapsed]
      split
      · exact (ih p).trans hskip.symm
      · split
        · exact (ih p).trans hskip.symm
        · exact hkeep _
    | sel => exact hkeep _
    | rel => exact hkeep _
    | tx b => exact hkeep _
    | rx b => exact hkeep _
    | delay ms => exact hkeep _
    | rst v => exact hkeep _

theorem scanEvent_sel (p : Scan) : scanEvent p .sel = (.selected, []) := by cases p <;> rfl

/-- What a frame shows: its command, or the reset line going low. -/
def frameMarks : Frame → List Mark
  | .cmd code => [.command code]
  | .wr _ => []
  | .rd _ _ => []
  | .rst l => if l = 0 then [.resetPulse] else []
  | .delay _ => []

/-- A collapsed event that shows nothing in a frame that is no command. -/
def Payload (w : Wire) : Prop := ∀ e ∈ wireEvents w, scanEvent .other e = (.other, [])

theorem payload_words {word : Word → List Wire} (hword : ∀ w, ∀ v ∈ word w, Payload v) (ws : List Word) :
    ∀ v ∈ ws.flatMap word, Payload v := fun v hv => by
  obtain ⟨w, -, hv⟩ := List.mem_flatMap.1 hv
  exact hword w v hv

theorem payload_sentWord (w : Word) : ∀ v ∈ sentWord w, Payload v := by simp [sentWord, Payload, wireEvents, scanEvent]

theorem payload_receivedWord (w : Word) : ∀ v ∈ receivedWord w, Payload v := by
  simp [receivedWord, Payload, wireEvents, scanEvent]

/-- A data transaction shows nothing (R99, R100). -/
theorem marksFrom_data {a : Byte} (ha : a ≠ 0x60) (b : Byte) {payload : List Wire} (h : ∀ w ∈ payload, Payload w)
    (p : Scan) : marksFrom p (shownEvents (transaction a b payload)) = [] := by
  have hother : marksFrom .other (shownEvents payload ++ [.rel]) = [] :=
    (marksFrom_unmoved (fun e he => by
      obtain ⟨w, hw, he⟩ := List.mem_flatMap.1 he
      exact h w hw e he) [.rel]).trans rfl
  have hpre : scanEvent .selected (.tx a) = (.other, []) := congrArg (·, []) (if_neg ha)
  rw [transaction, shownEvents_append, shownEvents_append, List.append_assoc]
  show marksFrom p (.sel :: .tx a :: .tx b :: (shownEvents payload ++ [.rel])) = []
  rw [marksFrom, scanEvent_sel, marksFrom, hpre]
  exact hother

theorem marksFrom_frame (p : Scan) (f : Frame) : marksFrom p (shownEvents (frameWires f)) = frameMarks f := by
  cases f with
  | cmd c =>
    show marksFrom p [.sel, .tx 0x60, .tx 0x00, .tx (hiByte c), .tx (loByte c), .rel] = [.command c]
    rw [marksFrom, scanEvent_sel]
    simp [marksFrom, scanEvent]
  | wr ws => exact marksFrom_data (by decide) _ (payload_words payload_sentWord ws) p
  | rd dummy vs =>
    refine marksFrom_data (by decide) _ (fun w hw => ?_) p
    rcases List.mem_append.1 hw with hw | hw
    · exact payload_receivedWord dummy w hw
    · exact payload_words payload_receivedWord vs w hw
  | rst l => cases p <;> simp [frameWires, shownEvents, wireEvents, marksFrom, scanEvent, frameMarks]
  | delay ms => cases p <;> rfl

/-- Busy samples show nothing, and leave the reader where it stands. -/
theorem marksFrom_samples (p : Scan) (v : BitVec 1) (n : Nat) (fs : List Event) :
    marksFrom p (shownEvents (List.replicate n (.event (.poll v))) ++ fs) = marksFrom p fs := by
  refine marksFrom_unmoved (fun e he => ?_) fs
  obtain ⟨w, hw, he⟩ := List.mem_flatMap.1 he
  rw [List.eq_of_mem_replicate hw] at he
  rw [List.mem_singleton.1 he]
  cases p <;> rfl

/-- What is left of a frame given up shows nothing: not even a command's, whose code did not go out (R310). -/
theorem marksFrom_givenUp {c : Config} {t : State} {last : List Wire} (h : GivenUp c t last) (p : Scan) :
    marksFrom p (shownEvents last) = [] := by
  unfold GivenUp at h
  split at h
  · rw [h]
    simpa [marksFrom] using marksFrom_samples p (~~~c.busyIdleLevel) (c.pollLimit.getD 0) []
  · split at h
    · obtain ⟨pre, hpre, rfl⟩ := h
      rw [shownEvents_append, shownEvents_append, List.append_assoc, marksFrom_append, marksFrom_samples]
      simp only [List.mem_cons, List.not_mem_nil, or_false] at hpre
      rcases hpre with rfl | rfl | rfl <;> cases p <;> rfl
    · rw [h]
      rfl

/-- The events of an operation show what its whole frames do. -/
theorem marksFrom_emittedThen {s t : State} {fs : List Frame} {last : List Wire} (he : EmittedThen s t fs last)
    (hg : GivenUp s.cfg t last) (p : Scan) :
    marksFrom p t.trace = marksFrom p s.trace ++ fs.flatMap frameMarks := by
  obtain ⟨es, htrace, hes⟩ := he
  rw [htrace, marksFrom_append, ← marksFrom_collapsed s.cfg.busyIdleLevel _ es, hes, shownEvents_append,
    marksFrom_append, marksFrom_givenUp hg, List.append_nil, shownEvents, List.flatMap_assoc]
  exact congrArg _ (marksFrom_flatMap marksFrom_frame _ fs)

/-! ### What a reader makes of frames -/

/-- Whether a load is open on the chip after the frames `fs` (R209). -/
def readLoads (c : Config) (b : Bool) (fs : List Frame) : Option Bool := loadOpenAfter c b (fs.flatMap frameMarks)

theorem loadOpenAfter_append (c : Config) (b : Bool) (ms ns : List Mark) :
    loadOpenAfter c b (ms ++ ns) = (loadOpenAfter c b ms).bind (loadOpenAfter c · ns) := by
  induction ms generalizing b with
  | nil => rfl
  | cons m ms ih =>
    cases m with
    | resetPulse => exact ih false
    | command code =>
      simp only [List.cons_append, loadOpenAfter]
      split
      · split
        · rfl
        · exact ih true
      · split
        · split
          · exact ih false
          · rfl
        · exact ih b

theorem readLoads_append {c : Config} {b b' : Bool} {fs : List Frame} (h : readLoads c b fs = some b') (gs : List Frame) :
    readLoads c b (fs ++ gs) = readLoads c b' gs := by
  rw [readLoads, List.flatMap_append, loadOpenAfter_append]
  exact congrArg (Option.bind · (loadOpenAfter c · (gs.flatMap frameMarks))) h

/-- The commands of the load protocol (R201 to R203). -/
def LoadCode (c : Config) (code : Word) : Prop := code ∈ [c.cmdLdImg, c.cmdLdImgArea, c.cmdLdImgEnd]

/-- A frame that the reader of the load protocol passes over. -/
def PassedOver (c : Config) : Frame → Prop
  | .cmd code => ¬ LoadCode c code
  | .wr _ => True
  | .rd _ _ => True
  | .rst l => l ≠ 0
  | .delay _ => True

theorem readLoads_passedOver {c : Config} {fs : List Frame} (h : ∀ f ∈ fs, PassedOver c f) (b : Bool) :
    readLoads c b fs = some b := by
  induction fs with
  | nil => rfl
  | cons f fs ih =>
    have hf := h f List.mem_cons_self
    have hone : readLoads c b [f] = some b := by
      cases f with
      | cmd code =>
        simp only [PassedOver, LoadCode, List.mem_cons, List.not_mem_nil, or_false, not_or] at hf
        simp [readLoads, frameMarks, loadOpenAfter, hf]
      | rst l =>
        simp only [PassedOver] at hf
        simp only [readLoads, frameMarks, List.flatMap_cons, List.flatMap_nil, if_neg hf]
        rfl
      | wr ws => rfl
      | rd dummy vs => rfl
      | delay ms => rfl
    exact (readLoads_append hone fs).trans (ih fun g hg => h g (List.mem_cons_of_mem _ hg))

theorem Writes.passedOver {c : Config} {ws : List Frame} (hw : Writes ws) : ∀ f ∈ ws, PassedOver c f := fun f hf => by
  obtain ⟨v, rfl⟩ := hw f hf
  trivial

theorem PlainCode.not_loadCode {c : Config} {code : Word} (h : PlainCode c code) : ¬ LoadCode c code := fun hl => by
  simp only [LoadCode, PlainCode, List.mem_cons, List.not_mem_nil, or_false, not_or] at h hl
  tauto

theorem displayCodes_not_loadCode {c : Config} (hc : configLegal c = true) :
    ¬ LoadCode c c.cmdDpyArea ∧ ¬ LoadCode c c.cmdDpyBufArea := by
  have hne : ∀ code, LoadCode c code → ¬ (code = c.cmdDpyArea ∨ code = c.cmdDpyBufArea) := fun code hl => by
    refine (waiting_codes hc code ?_).2
    simp only [LoadCode, List.mem_cons, List.not_mem_nil, or_false] at hl ⊢
    tauto
  exact ⟨fun hl => hne _ hl (.inl rfl), fun hl => hne _ hl (.inr rfl)⟩

/-- A begin-load command with some of its arguments. -/
theorem readLoads_begin {c : Config} {code : Word} (hcode : code = c.cmdLdImg ∨ code = c.cmdLdImgArea) {ws : List Frame}
    (hw : Writes ws) : readLoads c false (.cmd code :: ws) = some true := by
  have hone : readLoads c false [.cmd code] = some true := by simp [readLoads, frameMarks, loadOpenAfter, hcode]
  exact (readLoads_append hone ws).trans (readLoads_passedOver hw.passedOver true)

theorem readLoads_end {c : Config} (hc : configLegal c = true) : readLoads c true [.cmd c.cmdLdImgEnd] = some false := by
  obtain ⟨-, -, -, ⟨-, himg⟩, ⟨-, harea⟩, -⟩ := watched_codes hc
  simp [readLoads, frameMarks, loadOpenAfter, himg.symm, harea.symm]

/-! ### The reader beside LOAD_OPEN -/

/-- The reader, who takes a load to be open if `b`, agrees with LOAD_OPEN; or it has seen a begin command whose arguments timed
out, which ended the session (R310). -/
def ReaderAgrees (b : Bool) (s : State) : Prop :=
  b = s.loadOpen ∨ (b = true ∧ s.loadOpen = false ∧ s.session = .unready)

section

variable {b : Bool} {s t : State}

theorem ReaderAgrees.keep (h : ReaderAgrees b s) (hl : t.loadOpen = s.loadOpen)
    (hs : s.session = .unready → t.session = .unready) : ReaderAgrees b t :=
  h.imp (·.trans hl.symm) fun ⟨hb, hc, hu⟩ => ⟨hb, hl.trans hc, hs hu⟩

theorem ReaderAgrees.wired (h : ReaderAgrees b s) (hw : Wired s t) : ReaderAgrees b t := by
  obtain ⟨es, c, k, -, rfl⟩ := hw
  exact h

theorem ReaderAgrees.errorEpilogue (h : ReaderAgrees b s) (k : ErrKind) (i : Byte) :
    ReaderAgrees b (errorEpilogue k i s) :=
  h.keep (errorEpilogue_loadOpen k i s) fun hu => by rw [errorEpilogue_session, hu, ite_self]

theorem ReaderAgrees.closed (h : ReaderAgrees false s) : s.loadOpen = false :=
  h.elim Eq.symm fun ⟨hb, _⟩ => nomatch hb

/-- After a begin command whose arguments timed out. -/
theorem readerAgrees_timeout (h : s.loadOpen = false) (i : Byte) : ReaderAgrees true (errorEpilogue .hwTimeout i s) :=
  .inr ⟨rfl, (errorEpilogue_loadOpen _ i s).trans h, (errorEpilogue_session _ i s).trans (if_pos rfl)⟩

end

/-- Before the procedure the reader takes a load to be open if `b`, and agrees. The frames sent keep the pairing, and after
them the reader agrees still: it takes a load to be open if `b'`, or, if the procedure is abandoned, after the error epilogue. -/
def SendsPaired {α : Type} (b : Bool) (m : Op α) (s : State) (b' : Bool) : Prop :=
  ReaderAgrees b s → Sends m s (fun _ fs t => readLoads s.cfg b fs = some b' ∧ ReaderAgrees b' t)
    (fun k i fs t => ∃ b'', readLoads s.cfg b fs = some b'' ∧ ReaderAgrees b'' (errorEpilogue k i t))

section

variable {α β : Type} {m : Op α} {f : α → Op β} {s : State} {b b' b'' : Bool}

theorem SendsPaired.bind (hm : SendsPaired b m s b')
    (hf : ∀ a t, t.cs = 1 → t.cfg = s.cfg → SendsPaired b' (f a) t b'') : SendsPaired b (m >>= f) s b'' := fun hb =>
  Sends.bind (hm hb) (fun _ _ _ _ h => h) fun a _ t hcs hcfg h => (hf a t hcs hcfg h.2).weaken
    (fun _ gs _ h' => ⟨(readLoads_append h.1 gs).trans (hcfg ▸ h'.1), h'.2⟩)
    (fun _ _ gs _ ⟨b₃, h₃, h'⟩ => ⟨b₃, (readLoads_append h.1 gs).trans (hcfg ▸ h₃), h'⟩)

theorem SendsPaired.look {a : α} (hm : m s = .ok a s) (hf : SendsPaired b (f a) s b') : SendsPaired b (m >>= f) s b' :=
  fun hb => Sends.look hm (hf hb)

theorem SendsPaired.check (hm : Checks m) (hcs : s.cs = 1) (hf : ∀ a, m s = .ok a s → SendsPaired b (f a) s b') :
    SendsPaired b (m >>= f) s b' := fun hb =>
  Sends.check hm hcs (fun a ha => hf a ha hb) fun k i _ => ⟨b, rfl, hb.errorEpilogue k i⟩

/-- A part that puts nothing on the wire. -/
theorem SendsPaired.silent {a : α} {t : State} (hm : m s = .ok a t) (htr : t.trace = s.trace) (hcs : t.cs = 1)
    (hc : t.cfg = s.cfg) (hb : ReaderAgrees b s → ReaderAgrees b t) : SendsPaired b m s b := fun h =>
  Sends.silent hm htr hcs hc ⟨rfl, hb h⟩

theorem SendsPaired.pure (a : α) (hcs : s.cs = 1) : SendsPaired b (pure a : Op α) s b :=
  SendsPaired.silent (t := s) rfl rfl hcs rfl id

/-- A part, and then registers that are neither LOAD_OPEN nor make the session ready. -/
theorem SendsPaired.thenSets {g : α → State → State} (h : SendsPaired b m s b')
    (hg : ∀ a u, (g a u).trace = u.trace ∧ (g a u).cs = u.cs ∧ (g a u).cfg = u.cfg ∧ (g a u).loadOpen = u.loadOpen ∧
      (u.session = .unready → (g a u).session = .unready)) : SendsPaired b (m >>= fun a => update (g a)) s b' :=
  h.bind fun a u hcs _ => by
    obtain ⟨htr, hcs', hcfg, hl, hs⟩ := hg a u
    exact SendsPaired.silent rfl htr (hcs'.trans hcs) hcfg fun hb => hb.keep hl hs

/-- A procedure on the wire, all of whose frames the reader passes over. -/
theorem Sends.paired {Q : α → List Frame → State → Prop} {E : ErrKind → Byte → List Frame → State → Prop}
    (h : Sends m s Q E) (ha : Acts Wired wireStop m) (hQ : ∀ a fs t, Q a fs t → ∀ f ∈ fs, PassedOver s.cfg f)
    (hE : ∀ k i fs t, E k i fs t → ∀ f ∈ fs, PassedOver s.cfg f) : SendsPaired b m s b := fun hb =>
  h.conclude ha (fun _ _ _ hw hq => ⟨readLoads_passedOver (hQ _ _ _ hq) b, hb.wired hw⟩)
    (fun k i _ _ hw _ he => ⟨b, readLoads_passedOver (hE _ _ _ _ he) b, (hb.wired hw).errorEpilogue k i⟩)

end

/-! ### Procedures whose frames the reader passes over -/

/-- The fuel of a render poll is drawn from the oracle alone. -/
theorem drawRenderFuel_draws (s : State) : ∃ n k, drawRenderFuel s = .ok n { s with chip := k } := by
  unfold drawRenderFuel
  cases s.cfg.renderPollLimit with
  | some l => exact ⟨l + 1, s.chip, rfl⟩
  | none => exact ⟨_, _, rfl⟩

section

variable {s : State} {b : Bool} (hcs : s.cs = 1) (hc : configLegal s.cfg = true)

include hcs hc

theorem txnCommand_paired {code : Word} (h : ¬ LoadCode s.cfg code) : SendsPaired b (txnCommand code) s b :=
  (txnCommand_sends code hcs hc).paired (txnCommand_acts code)
    (fun _ _ _ h' f hf => by rw [h'] at hf; rw [List.mem_singleton.1 hf]; exact h)
    (fun _ _ _ _ h' => h'.2 ▸ Writes.nil.passedOver)

theorem txnWrite_paired {ws : List Word} (hfit : Fit s.cfg [.wr ws]) : SendsPaired b (txnWrite ws) s b :=
  (txnWrite_sends ws hcs hc hfit).paired (txnWrite_acts ws) (fun _ _ _ h => h ▸ (Writes.one ws).passedOver)
    (fun _ _ _ _ h => h.2 ▸ Writes.nil.passedOver)

theorem writeWord_paired (w : Word) : SendsPaired b (txnWrite [w]) s b := txnWrite_paired hcs hc (fit_one hc w)

theorem txnRead_paired {n : Nat} (hfit : 1 ≤ n ∧ n ≤ s.cfg.bWords) : SendsPaired b (txnRead n) s b :=
  (txnRead_sends n hcs hc hfit).paired (txnRead_acts n)
    (fun _ _ _ h f hf => by
      obtain ⟨-, dummy, rfl⟩ := h
      rw [List.mem_singleton.1 hf]
      trivial)
    (fun _ _ _ _ h => h.2 ▸ Writes.nil.passedOver)

theorem readWord_paired : SendsPaired b (txnRead 1) s b := txnRead_paired hcs hc ⟨Nat.le_refl 1, burst_legal hc⟩

theorem multiArg_paired {code : Word} (h : ¬ LoadCode s.cfg code) (args : List Word) :
    SendsPaired b (multiArg code args) s b := by
  have hall : ∀ ws, Writes ws → ∀ f ∈ (.cmd code :: ws : List Frame), PassedOver s.cfg f := fun ws hw f hf => by
    rcases List.mem_cons.1 hf with rfl | hf
    · exact h
    · exact hw.passedOver f hf
  refine (multiArg_sends_writes code args hcs hc).paired (multiArg_acts code args) (fun _ fs _ h' => ?_)
    (fun _ _ fs _ h' => ?_)
  · obtain ⟨ws, hw, rfl⟩ := h'
    exact hall ws hw
  · rcases h'.2 with rfl | ⟨ws, hw, rfl⟩
    · exact Writes.nil.passedOver
    · exact hall ws hw

theorem regWrite_paired (a v : Word) : SendsPaired b (regWrite a v) s b :=
  SendsPaired.look (readCfg_run s) <| multiArg_paired hcs hc ((watched_codes hc).1 s.cfg.cmdRegWr (by simp)).1.not_loadCode _

theorem regRead_paired (a : Word) : SendsPaired b (regRead a) s b :=
  SendsPaired.look (readCfg_run s) <| (txnCommand_paired hcs hc (watched_codes hc).2.1.not_loadCode).bind fun _ _ h1 c1 =>
    (writeWord_paired h1 (c1 ▸ hc) a).bind fun _ _ h2 c2 => (readWord_paired h2 (c2 ▸ c1 ▸ hc)).bind
      fun _ _ h3 _ => SendsPaired.pure _ h3

theorem mode1On_paired : SendsPaired b mode1On s b :=
  SendsPaired.look (readCfg_run s) <| (regRead_paired hcs hc _).bind fun _ _ h1 c1 => regWrite_paired h1 (c1 ▸ hc) _ _

theorem mode1Off_paired : SendsPaired b mode1Off s b :=
  SendsPaired.look (readCfg_run s) <| (regRead_paired hcs hc _).bind fun _ _ h1 c1 => regWrite_paired h1 (c1 ▸ hc) _ _

theorem setBlend_paired (fg bg : Byte) : SendsPaired b (setBlend fg bg) s b :=
  SendsPaired.look (readCfg_run s) (regWrite_paired hcs hc _ _)

theorem setTargetAddr_paired (a : Addr) : SendsPaired b (setTargetAddr a) s b :=
  SendsPaired.look (readCfg_run s) <| (regWrite_paired hcs hc _ _).bind fun _ _ h1 c1 =>
    (regWrite_paired h1 (c1 ▸ hc) _ _).thenSets fun _ _ => ⟨rfl, rfl, rfl, rfl, id⟩

theorem displayCore_paired (x y w h mode : Word) (adr : Option Addr) : SendsPaired b (displayCore x y w h mode adr) s b := by
  have hcodes := displayCodes_not_loadCode hc
  refine SendsPaired.thenSets (SendsPaired.look (readCfg_run s) ?_) fun _ _ => ⟨rfl, rfl, rfl, rfl, id⟩
  cases adr with
  | none => exact multiArg_paired hcs hc hcodes.1 _
  | some a => exact multiArg_paired hcs hc hcodes.2 _

omit hc in
/-- A busy reading is counted, or ends the poll as a timeout that puts nothing on the wire (R266). -/
theorem countRenderPoll_paired (npoll : Nat) : SendsPaired b (countRenderPoll npoll) s b := fun hb => by
  rcases countRenderPoll_cases npoll s with hcount | hcount
  · exact Sends.silent (t := s) hcount rfl hcs rfl ⟨rfl, hb⟩
  · unfold Sends
    rw [hcount]
    refine ⟨[], [], emittedThen_nothing rfl, Fit.nil _, ?_, rfl, b, rfl, hb.errorEpilogue _ _⟩
    rw [CutOff, if_neg (by decide), if_neg (by decide)]
    exact ⟨rfl, hcs⟩

omit hcs hc in
theorem renderPolls_paired : ∀ (fuel npoll : Nat) {s : State}, s.cs = 1 → configLegal s.cfg = true →
    SendsPaired b (renderPolls fuel npoll) s b := by
  intro fuel
  induction fuel with
  | zero => intro npoll s _ _ _; exact trivial
  | succ n ih =>
    intro npoll s hcs hc
    refine SendsPaired.look (readCfg_run s) ((regRead_paired hcs hc _).bind fun v t h1 c1 => ?_)
    split
    · exact SendsPaired.pure () h1
    · exact (countRenderPoll_paired h1 _).bind fun _ _ h2 c2 => ih _ h2 (c2 ▸ c1 ▸ hc)

theorem waitRender_paired : SendsPaired b waitRender s b := by
  obtain ⟨n, k, hdraw⟩ := drawRenderFuel_draws s
  have hquiet : SendsPaired b drawRenderFuel s b := SendsPaired.silent hdraw rfl hcs rfl id
  exact hquiet.bind fun fuel _ h1 c1 => (renderPolls_paired fuel 0 h1 (c1 ▸ hc)).thenSets
    fun _ _ => ⟨rfl, rfl, rfl, rfl, id⟩

theorem display1bppSequence_paired (x y w h mode fgbg : Word) (adr : Option Addr) :
    SendsPaired b (display1bppSequence x y w h mode fgbg adr) s b :=
  (mode1On_paired hcs hc).bind fun _ _ h1 c1 => (setBlend_paired h1 (c1 ▸ hc) _ _).bind fun _ _ h2 c2 =>
    (displayCore_paired h2 (c2 ▸ c1 ▸ hc) x y w h mode adr).bind fun _ _ h3 c3 =>
      (waitRender_paired h3 (c3 ▸ c2 ▸ c1 ▸ hc)).bind fun _ _ h4 c4 => mode1Off_paired h4 (c4 ▸ c3 ▸ c2 ▸ c1 ▸ hc)

theorem getDeviceInfo_paired : SendsPaired b getDeviceInfo s b := by
  have hcode := (watched_codes hc).1 s.cfg.cmdGetDevInfo (by simp)
  refine SendsPaired.look (readCfg_run s) <| (txnCommand_paired hcs hc hcode.1.not_loadCode).bind fun _ t h1 c1 =>
    txnRead_paired h1 (c1 ▸ hc) ⟨by unfold descWords; omega, ?_⟩
  rw [c1]
  simp only [configLegal, Bool.and_eq_true, decide_eq_true_eq] at hc
  exact hc.2

theorem vcomRead_paired (hv : VcomApart s.cfg) : SendsPaired b vcomRead s b := by
  refine SendsPaired.look (readCfg_run s) ?_
  cases h : s.cfg.vcomAccess with
  | register a => exact regRead_paired hcs hc a
  | command code =>
    exact (txnCommand_paired hcs hc (plain_untracked (hv code h)).not_loadCode).bind fun _ _ h1 c1 =>
      (writeWord_paired h1 (c1 ▸ hc) _).bind fun _ _ h2 c2 => (readWord_paired h2 (c2 ▸ c1 ▸ hc)).bind
        fun _ _ h3 _ => SendsPaired.pure _ h3

theorem vcomWrite_paired (hv : VcomApart s.cfg) (v : Word) : SendsPaired b (vcomWrite v) s b := by
  refine SendsPaired.look (readCfg_run s) ?_
  cases h : s.cfg.vcomAccess with
  | register a => exact regWrite_paired hcs hc a v
  | command code =>
    exact (txnCommand_paired hcs hc (plain_untracked (hv code h)).not_loadCode).bind fun _ _ h1 c1 =>
      (writeWord_paired h1 (c1 ▸ hc) _).bind fun _ _ h2 c2 => writeWord_paired h2 (c2 ▸ c1 ▸ hc) _

theorem vcomReconcile_paired (hv : VcomApart s.cfg) (vcom : Word) : SendsPaired b (vcomReconcile vcom) s b := by
  refine (vcomRead_paired hcs hc hv).bind fun cur t h1 c1 => ?_
  split
  · exact vcomWrite_paired h1 (c1 ▸ hc) (c1.symm ▸ hv) vcom
  · exact SendsPaired.pure () h1

theorem bringUp_paired (hv : VcomApart s.cfg) (vcom : Word) : SendsPaired b (bringUp vcom) s b := by
  have hrun := (watched_codes hc).1 s.cfg.cmdSysRun (by simp)
  refine SendsPaired.look (readCfg_run s) <| (txnCommand_paired hcs hc hrun.1.not_loadCode).bind fun _ _ h1 c1 =>
    (getDeviceInfo_paired h1 (c1 ▸ hc)).bind fun ws _ h2 c2 => SendsPaired.check (requirePresent_checks ws) h2 fun _ _ =>
      (regWrite_paired h2 (c2 ▸ c1 ▸ hc) _ _).bind fun _ _ h3 c3 =>
        (vcomReconcile_paired h3 (c3 ▸ c2 ▸ c1 ▸ hc) ?_ vcom).bind fun _ _ h4 _ => SendsPaired.pure ws h4
  rw [c3, c2, c1]
  exact hv

end

/-! ### Loads -/

section

variable {s : State} {b : Bool} (hcs : s.cs = 1) (hc : configLegal s.cfg = true)

include hcs hc

/-- A begin-load command with its arguments, and LOAD_OPEN; or its arguments time out (R201, R202, R310). -/
theorem beginCommand_paired {code : Word} (hcode : code = s.cfg.cmdLdImg ∨ code = s.cfg.cmdLdImgArea) (args : List Word) :
    SendsPaired false (multiArg code args >>= fun _ => setLoadOpen true) s true := fun hb => by
  have hcommand : Sends (multiArg code args) s (fun _ fs _ => readLoads s.cfg false fs = some true)
      (fun k i fs t => ∃ b', readLoads s.cfg false fs = some b' ∧ ReaderAgrees b' (errorEpilogue k i t)) := by
    refine (multiArg_sends_writes code args hcs hc).conclude (multiArg_acts code args) (fun _ fs t _ h => ?_)
      (fun k i fs t hw _ h => ?_)
    · obtain ⟨ws, hws, rfl⟩ := h
      exact readLoads_begin hcode hws
    · obtain ⟨rfl, rfl | ⟨ws, hws, rfl⟩⟩ := h
      · exact ⟨false, rfl, (hb.wired hw).errorEpilogue _ i⟩
      · exact ⟨true, readLoads_begin hcode hws, readerAgrees_timeout (hb.wired hw).closed i⟩
  refine hcommand.bind (fun _ _ _ _ h => h) fun _ fs t h1 _ h => Sends.silent rfl rfl h1 rfl ⟨?_, .inl rfl⟩
  rw [List.append_nil]
  exact h

theorem beginLoadCore_paired (e : Endian) (p : ChipFormat) (r : Rotation) (a : Addr) :
    SendsPaired false (beginLoadCore e p r a) s true :=
  (setTargetAddr_paired hcs hc a).bind fun _ t h1 c1 => SendsPaired.look (readCfg_run t)
    (beginCommand_paired h1 (c1 ▸ hc) (.inl rfl) _)

theorem beginLoadAreaCore_paired (e : Endian) (p : ChipFormat) (r : Rotation) (a : Addr) (x y w h : Word) :
    SendsPaired false (beginLoadAreaCore e p r a x y w h) s true :=
  (setTargetAddr_paired hcs hc a).bind fun _ t h1 c1 => SendsPaired.look (readCfg_run t)
    (beginCommand_paired h1 (c1 ▸ hc) (.inr rfl) _)

/-- The end-load command, and LOAD_OPEN (R203). -/
theorem endLoadCore_paired : SendsPaired true endLoadCore s false := fun hb => by
  have hcommand : Sends (txnCommand s.cfg.cmdLdImgEnd) s (fun _ fs _ => readLoads s.cfg true fs = some false)
      (fun k i fs t => ∃ b', readLoads s.cfg true fs = some b' ∧ ReaderAgrees b' (errorEpilogue k i t)) :=
    (txnCommand_sends _ hcs hc).conclude (txnCommand_acts _) (fun _ _ _ _ h => h ▸ readLoads_end hc)
      (fun k i _ _ hw _ h => ⟨true, by rw [h.2]; rfl, (hb.wired hw).errorEpilogue k i⟩)
  refine Sends.look (readCfg_run s) (hcommand.bind (fun _ _ _ _ h => h) fun _ fs t h1 _ h =>
    Sends.silent rfl rfl h1 rfl ⟨?_, .inl rfl⟩)
  rw [List.append_nil]
  exact h

omit hc in
theorem interBurstDelay_paired (n : Nat) : SendsPaired b (interBurstDelay n) s b := by
  refine SendsPaired.look (readCfg_run s) ?_
  split
  · exact fun hb => Sends.ok (fs := [.delay s.cfg.interBurstDelayMs]) rfl ⟨_, rfl, rfl⟩
      (fun f hf => by rw [List.mem_singleton.1 hf]; trivial) hcs rfl ⟨rfl, hb⟩
  · exact SendsPaired.pure () hcs

theorem loadBurst_paired (j : LoadJob) (r0 n i : Nat) (hi : i < ceilDiv n s.cfg.bWords) :
    SendsPaired b (loadBurst j r0 n i) s b :=
  (interBurstDelay_paired hcs i).bind fun _ t h1 c1 => SendsPaired.look (readCfg_run t) <|
    SendsPaired.check (loadWords_checks j r0 _ _) h1 fun ws hws => txnWrite_paired h1 (c1 ▸ hc) <| by
      rw [c1] at hws ⊢
      exact burst_fit hc hi (loadWords_length j r0 _ _ hws)

omit hcs hc in
theorem loadBursts_paired (j : LoadJob) (r0 n : Nat) : ∀ (count i : Nat) {s : State}, s.cs = 1 →
    configLegal s.cfg = true → i + count ≤ ceilDiv n s.cfg.bWords → SendsPaired b (loadBursts j r0 n count i) s b := by
  intro count
  induction count with
  | zero => intro i s hcs _ _; exact SendsPaired.pure () hcs
  | succ k ih =>
    intro i s hcs hc hi
    exact (loadBurst_paired hcs hc j r0 n i (by omega)).bind fun _ t h1 c1 =>
      ih (i + 1) h1 (c1 ▸ hc) (by rw [c1]; omega)

/-- A telegram opens a load and closes it (R230). -/
theorem loadTelegram_paired (j : LoadJob) (k : Nat) : SendsPaired false (loadTelegram j k) s false :=
  SendsPaired.look (readCfg_run s) <| (beginLoadAreaCore_paired hcs hc _ _ _ _ _ _ _ _).bind fun _ t h1 c1 =>
    (loadBursts_paired j _ _ _ 0 h1 (c1 ▸ hc) (by rw [c1]; omega)).bind fun _ _ h2 c2 =>
      endLoadCore_paired h2 (c2 ▸ c1 ▸ hc)

omit hcs hc in
theorem loadTelegrams_paired (j : LoadJob) : ∀ (count k : Nat) {s : State}, s.cs = 1 → configLegal s.cfg = true →
    SendsPaired false (loadTelegrams j count k) s false := by
  intro count
  induction count with
  | zero => intro k s hcs _; exact SendsPaired.pure () hcs
  | succ n ih =>
    intro k s hcs hc
    exact (loadTelegram_paired hcs hc j k).bind fun _ _ h1 c1 => ih (k + 1) h1 (c1 ▸ hc)

omit hc in
/-- The allocation draw, which may refuse the load (R227). -/
theorem requireAlloc_paired : SendsPaired b requireAlloc s b := fun hb => by
  have hdraw : ReaderAgrees b (afterAllocDraw s) := hb
  by_cases h : nextAlloc s.chip = false
  · unfold Sends
    rw [requireAlloc_run, if_pos h]
    exact ⟨[], [], emittedThen_nothing rfl, Fit.nil _, by simp [CutOff, hcs, afterAllocDraw], rfl, b, rfl,
      hdraw.errorEpilogue _ _⟩
  · exact Sends.silent (t := afterAllocDraw s) ((requireAlloc_run s).trans (if_neg h)) rfl hcs rfl ⟨rfl, hdraw⟩

theorem loadImage_paired (j : LoadJob) : SendsPaired false (loadImage j) s false :=
  SendsPaired.check (loadGeom_checks j) hcs fun _ _ => SendsPaired.check (footprint_checks j) hcs fun _ _ =>
    (requireAlloc_paired hcs).bind fun _ t h1 c1 => SendsPaired.look (readCfg_run t)
      (loadTelegrams_paired j _ _ h1 (c1 ▸ hc))

end

/-! ### Operations admitted by the state -/

section

variable {s t : State} {mask m : Mod}

theorem requireReady_passed {u : Unit} (h : requireReady s = .ok u t) : s.session = .ready := by
  unfold requireReady at h
  rw [bind_ok (readState_run s)] at h
  exact not_not.1 (raiseIf_passed h)

theorem refuseTracked_passed {code : Word} {u : Unit} (h : refuseTracked code s = .ok u t) : code ∉ trackedCodes s.cfg := by
  unfold refuseTracked at h
  rw [bind_ok (readCfg_run s)] at h
  exact raiseIf_passed h

/-- A load finds a ready session with no load open (R204). -/
theorem loadAdmitState_idle {u : Unit} (h : loadAdmitState s = .ok u t) : s.loadOpen = false ∧ s.session = .ready := by
  obtain ⟨_, hopen, hrest⟩ := (refuseLoadOpen_checks 1).passed h
  obtain ⟨_, hready, -⟩ := requireReady_checks.passed hrest
  exact ⟨refuseLoadOpen_passed hopen, requireReady_passed hready⟩

theorem loadAdmit_idle {u : Unit} (h : loadAdmit mask m s = .ok u t) : s.loadOpen = false ∧ s.session = .ready := by
  obtain ⟨_, -, h⟩ := (checkMod_checks mask m).passed h
  exact loadAdmitState_idle h

theorem loadAdmitPsel_idle {p : ChipFormat} (h : loadAdmitPsel m s = .ok p t) : s.loadOpen = false ∧ s.session = .ready := by
  obtain ⟨_, -, h⟩ := (checkMod_checks maskBegin m).passed h
  obtain ⟨_, -, h⟩ := (readPsel_checks m).passed h
  obtain ⟨_, h, -⟩ := loadAdmitState_checks.passed h
  exact loadAdmitState_idle h

section

variable {α : Type} {body : Op α} {b b' : Bool}

/-- In a ready session with no load open the reader takes none to be open. -/
theorem SendsPaired.of_idle (hs : s.loadOpen = false ∧ s.session = .ready) (h : SendsPaired false body s b') :
    SendsPaired b body s b' := by
  rintro (rfl | ⟨-, -, hu⟩)
  · exact hs.1.symm ▸ h (.inl hs.1.symm)
  · exact absurd (hu.symm.trans hs.2) (by decide)

/-- While a load is open the reader takes it to be open. -/
theorem SendsPaired.of_open (hs : s.loadOpen = true) (h : SendsPaired true body s b') : SendsPaired b body s b' := by
  rintro (rfl | ⟨-, hl, -⟩)
  · exact hs.symm ▸ h (.inl hs.symm)
  · exact absurd (hl.symm.trans hs) (by decide)

end

end

/-! ### The operations -/

section

variable {s : State} {b : Bool} (hcs : s.cs = 1) (hc : configLegal s.cfg = true)

include hcs hc

theorem wrCmd_paired (m : Mod) (code : Word) : SendsPaired b (do
    rawAdmit m
    refuseTracked code
    txnCommand code) s b :=
  SendsPaired.check (rawAdmit_checks m) hcs fun _ _ => SendsPaired.check (refuseTracked_checks code) hcs fun _ h =>
    txnCommand_paired hcs hc (plain_untracked (refuseTracked_passed h)).not_loadCode

theorem wrData_paired (m : Mod) (w : Word) : SendsPaired b (do
    rawAdmitStream m
    txnWrite [w]) s b :=
  SendsPaired.check (checkMod_checks _ m) hcs fun _ _ => writeWord_paired hcs hc w

theorem wrMulti_paired (m : Mod) (ws : List Word) : SendsPaired b (do
    rawAdmitStream m
    raiseIf (ws.length = 0) .unsupported 2
    refuseOverBurst ws.length
    txnWrite ws) s b := by
  refine SendsPaired.check (checkMod_checks _ m) hcs fun _ _ => SendsPaired.check (raiseIf_checks _ (by decide) _) hcs
    fun _ hne => SendsPaired.check (refuseOverBurst_checks _) hcs fun _ hle => txnWrite_paired hcs hc fun f hf => ?_
  rw [List.mem_singleton.1 hf]
  exact ⟨Nat.one_le_iff_ne_zero.2 (raiseIf_passed hne), refuseOverBurst_passed hle⟩

theorem rdData_paired (m : Mod) : SendsPaired b (do
    rawAdmit m
    let ws ← txnRead 1
    update (fun t => { t with rdata := some (ws.headD 0) })) s b :=
  SendsPaired.check (rawAdmit_checks m) hcs fun _ _ =>
    (readWord_paired hcs hc).thenSets fun _ _ => ⟨rfl, rfl, rfl, rfl, id⟩

theorem rdMulti_paired (m : Mod) (n : Word) : SendsPaired b (do
    rawAdmit m
    raiseIf (n = 0) .unsupported 2
    refuseOverBurst n.toNat
    let ws ← txnRead n.toNat
    update (fun t => { t with rbuf := ws })) s b := by
  refine SendsPaired.check (rawAdmit_checks m) hcs fun _ _ => SendsPaired.check (raiseIf_checks _ (by decide) _) hcs
    fun _ hne => SendsPaired.check (refuseOverBurst_checks _) hcs fun _ hle =>
      (txnRead_paired hcs hc ⟨?_, refuseOverBurst_passed hle⟩).thenSets fun _ _ => ⟨rfl, rfl, rfl, rfl, id⟩
  exact Nat.one_le_iff_ne_zero.2 fun h0 => raiseIf_passed hne (BitVec.eq_of_toNat_eq h0)

theorem wrMultiArg_paired (m : Mod) (code : Word) (args : List Word) : SendsPaired b (do
    rawAdmit m
    refuseTracked code
    refuseOverBurstMulti args.length
    multiArg code args) s b :=
  SendsPaired.check (rawAdmit_checks m) hcs fun _ _ => SendsPaired.check (refuseTracked_checks code) hcs fun _ h =>
    SendsPaired.check (refuseOverBurstMulti_checks _) hcs fun _ _ =>
      multiArg_paired hcs hc (plain_untracked (refuseTracked_passed h)).not_loadCode args

theorem rdReg_paired (m : Mod) (addr : Word) : SendsPaired b (do
    rawAdmit m
    let v ← regRead addr
    update (fun t => { t with rdata := some v })) s b :=
  SendsPaired.check (rawAdmit_checks m) hcs fun _ _ =>
    (regRead_paired hcs hc addr).thenSets fun _ _ => ⟨rfl, rfl, rfl, rfl, id⟩

theorem wrReg_paired (m : Mod) (addr val : Word) : SendsPaired b (do
    rawAdmit m
    regWrite addr val) s b :=
  SendsPaired.check (rawAdmit_checks m) hcs fun _ _ => regWrite_paired hcs hc addr val

omit hc in
/-- The reset pulse ends any load, on the chip and in LOAD_OPEN (R171, R209). -/
theorem resetPulse_paired : SendsPaired b (do resetPulse; clearSession : Op Unit) s false := fun _ =>
  Sends.ok (fs := resetFrames) (pulse_run s) ⟨_, rfl, rfl⟩ (fun f hf => by
    simp only [resetFrames, List.mem_cons, List.not_mem_nil, or_false] at hf
    rcases hf with rfl | rfl | rfl | rfl | rfl | rfl <;> trivial) hcs rfl ⟨rfl, .inl rfl⟩

omit hc in
/-- The commit makes the session ready, when the reader takes no load to be open (R177). -/
theorem commitSession_paired (ws : List Word) : SendsPaired false (commitSession ws) s false :=
  SendsPaired.silent (t := s.committed ws) rfl rfl hcs rfl fun hb => .inl hb.closed.symm

theorem initBody_paired (m : Mod) (vcom : Word) (hv : VcomApart s.cfg) : SendsPaired b (do
    checkMod maskNone m
    (do resetPulse; clearSession)
    let ws ← bringUp vcom
    commitSession ws : Op Unit) s false :=
  SendsPaired.check (checkMod_checks _ m) hcs fun _ _ => (resetPulse_paired hcs).bind fun _ _ h1 c1 =>
    (bringUp_paired h1 (c1 ▸ hc) (c1.symm ▸ hv) vcom).bind fun ws _ h2 _ => commitSession_paired h2 ws

theorem beginLoad_paired (m : Mod) (tgt : Addr) : SendsPaired b (do
    let p ← loadAdmitPsel m
    beginLoadCore (modEndian m) p (modRot m) tgt) s true :=
  SendsPaired.check (loadAdmitPsel_checks m) hcs fun p ha => (beginLoadCore_paired hcs hc _ p _ tgt).of_idle
    (loadAdmitPsel_idle ha)

theorem beginLoadArea_paired (m : Mod) (tgt : Addr) (x y w h : Word) : SendsPaired b (do
    let p ← loadAdmitPsel m
    panelCheck x y w h
    beginLoadAreaCore (modEndian m) p (modRot m) tgt x y w h) s true :=
  SendsPaired.check (loadAdmitPsel_checks m) hcs fun p ha => SendsPaired.check (panelCheck_checks x y w h) hcs fun _ _ =>
    (beginLoadAreaCore_paired hcs hc _ p _ tgt x y w h).of_idle (loadAdmitPsel_idle ha)

theorem endLoad_paired (m : Mod) : SendsPaired b (do
    checkMod maskNone m
    requireLoadOpen
    endLoadCore) s false :=
  SendsPaired.check (checkMod_checks _ m) hcs fun _ _ => SendsPaired.check requireLoadOpen_checks hcs fun _ ho =>
    (endLoadCore_paired hcs hc).of_open (requireLoadOpen_passed ho)

theorem loadBody_paired (d : Depth) (m : Mod) (tgt src : Addr) (stride x y w h : Word) :
    SendsPaired b (loadBody d m tgt src stride x y w h) s false :=
  SendsPaired.check (loadAdmit_checks _ m) hcs fun _ ha => (loadImage_paired hcs hc _).of_idle (loadAdmit_idle ha)

omit hc in
/-- An operation that admits a display, checks its rectangle and displays. -/
theorem display_paired {mask m : Mod} {x y w h : Word} {display : Op Unit} (hd : SendsPaired b display s b) :
    SendsPaired b (do displayAdmit mask m; panelCheck x y w h; display) s b :=
  SendsPaired.check (displayAdmit_checks mask m) hcs fun _ _ => SendsPaired.check (panelCheck_checks x y w h) hcs
    fun _ _ => hd

theorem waitRenderIdle_paired (m : Mod) : SendsPaired b (do
    checkMod maskNone m
    refuseLoadOpen 3
    waitRender) s b :=
  SendsPaired.check (checkMod_checks _ m) hcs fun _ _ => SendsPaired.check (refuseLoadOpen_checks 3) hcs fun _ _ =>
    waitRender_paired hcs hc

theorem clearAndRefresh_paired (m : Mod) (adr : Addr) (mode : Word) : SendsPaired b (do
    loadAdmit maskNone m
    let d ← readDesc
    let c ← readCfg
    loadImage { d := .d4, e := .little, r := 0, tgt := adr, src := 0, stride := d.panelW.toNat * 4 / 8,
                x := 0, y := 0, w := d.panelW, h := d.panelH, fill := some c.clearFill }
    displayCore 0 0 d.panelW d.panelH mode (some adr)) s false :=
  SendsPaired.check (loadAdmit_checks _ m) hcs fun _ ha => SendsPaired.check readDesc_checks hcs fun _ _ =>
    SendsPaired.look (readCfg_run s) <| SendsPaired.of_idle (loadAdmit_idle ha) <| (loadImage_paired hcs hc _).bind
      fun _ _ h1 c1 => displayCore_paired h1 (c1 ▸ hc) _ _ _ _ _ _

theorem refreshBody_paired (d : Depth) (m : Mod) (src : Addr) (x y w h : Word) (adr : Addr) :
    SendsPaired b (refreshBody d m src x y w h adr) s false := by
  refine SendsPaired.check (loadAdmit_checks _ m) hcs fun _ ha => SendsPaired.check (readRefreshMap_checks d m) hcs
    fun f _ => SendsPaired.of_idle (loadAdmit_idle ha) <| (loadImage_paired hcs hc _).bind fun _ t h1 c1 => ?_
  have hdisplay : SendsPaired false (do
      displayCore x y w h f.mode (some adr)
      if f.wait then waitRender else pure ()) t false := by
    refine (displayCore_paired h1 (c1 ▸ hc) x y w h f.mode (some adr)).bind fun _ u h2 c2 => ?_
    cases f.wait with
    | true => exact waitRender_paired h2 (c2 ▸ c1 ▸ hc)
    | false => exact SendsPaired.pure () h2
  cases d with
  | d1 => exact display1bppSequence_paired h1 (c1 ▸ hc) x y w h f.mode f.fgbg (some adr)
  | d2 => exact hdisplay
  | d4 => exact hdisplay
  | d8 => exact hdisplay

theorem powerBody_paired (m : Mod) {code : Config → Word} (hcode : code s.cfg ∈ [s.cfg.cmdSleep, s.cfg.cmdStandby]) :
    SendsPaired b (powerBody m code) s b := by
  have hplain := ((watched_codes hc).1 (code s.cfg) (by
    simp only [List.mem_cons, List.not_mem_nil, or_false] at hcode ⊢
    tauto)).1
  exact SendsPaired.check (checkMod_checks _ m) hcs fun _ _ => SendsPaired.check (refuseLoadOpen_checks 3) hcs fun _ _ =>
    SendsPaired.check refuseRenderPending_checks hcs fun _ _ => SendsPaired.look (readCfg_run s) <|
      (txnCommand_paired hcs hc hplain.not_loadCode).thenSets fun _ _ => ⟨rfl, rfl, rfl, rfl, fun _ => rfl⟩

/-- The body of every operation, and what the reader takes LOAD_OPEN to be after it. -/
theorem exec_sendsPaired (hv : VcomApart s.cfg) (i : Instr) (b : Bool) :
    ∃ body b', exec i s = runOp body s ∧ SendsPaired b body s b' := by
  cases i with
  | wrCmd m code => exact ⟨_, _, rfl, wrCmd_paired hcs hc m code⟩
  | wrData m w => exact ⟨_, _, rfl, wrData_paired hcs hc m w⟩
  | wrMulti m ws => exact ⟨_, _, rfl, wrMulti_paired hcs hc m ws⟩
  | rdData m => exact ⟨_, _, rfl, rdData_paired hcs hc m⟩
  | rdMulti m n => exact ⟨_, _, rfl, rdMulti_paired hcs hc m n⟩
  | wrMultiArg m code args => exact ⟨_, _, rfl, wrMultiArg_paired hcs hc m code args⟩
  | rdReg m addr => exact ⟨_, _, rfl, rdReg_paired hcs hc m addr⟩
  | wrReg m addr val => exact ⟨_, _, rfl, wrReg_paired hcs hc m addr val⟩
  | init m vcom => exact ⟨_, _, congrFun (execInit_eq m vcom) s, initBody_paired hcs hc m vcom hv⟩
  | beginLoad m tgt => exact ⟨_, _, rfl, beginLoad_paired hcs hc m tgt⟩
  | beginLoadArea m tgt x y w h => exact ⟨_, _, rfl, beginLoadArea_paired hcs hc m tgt x y w h⟩
  | endLoad m => exact ⟨_, _, rfl, endLoad_paired hcs hc m⟩
  | load1bpp m tgt src stride x y w h => exact ⟨_, _, rfl, loadBody_paired hcs hc .d1 m tgt src stride x y w h⟩
  | load2bpp m tgt src stride x y w h => exact ⟨_, _, rfl, loadBody_paired hcs hc .d2 m tgt src stride x y w h⟩
  | load4bpp m tgt src stride x y w h => exact ⟨_, _, rfl, loadBody_paired hcs hc .d4 m tgt src stride x y w h⟩
  | load8bpp m tgt src stride x y w h => exact ⟨_, _, rfl, loadBody_paired hcs hc .d8 m tgt src stride x y w h⟩
  | displayArea m x y w h mode =>
    exact ⟨_, _, rfl, display_paired hcs (displayCore_paired hcs hc x y w h mode none)⟩
  | displayAreaBuf m x y w h mode adr =>
    exact ⟨_, _, rfl, display_paired hcs (displayCore_paired hcs hc x y w h mode (some adr))⟩
  | display1bpp m x y w h mode fgbg adr =>
    exact ⟨_, _, rfl, display_paired hcs (display1bppSequence_paired hcs hc x y w h mode fgbg adr)⟩
  | waitRenderIdle m => exact ⟨_, _, rfl, waitRenderIdle_paired hcs hc m⟩
  | clearAndRefresh m adr mode => exact ⟨_, _, rfl, clearAndRefresh_paired hcs hc m adr mode⟩
  | refresh1bpp m src x y w h adr => exact ⟨_, _, rfl, refreshBody_paired hcs hc .d1 m src x y w h adr⟩
  | refresh2bpp m src x y w h adr => exact ⟨_, _, rfl, refreshBody_paired hcs hc .d2 m src x y w h adr⟩
  | refresh4bpp m src x y w h adr => exact ⟨_, _, rfl, refreshBody_paired hcs hc .d4 m src x y w h adr⟩
  | refresh8bpp m src x y w h adr => exact ⟨_, _, rfl, refreshBody_paired hcs hc .d8 m src x y w h adr⟩
  | sleep m => exact ⟨_, _, rfl, powerBody_paired hcs hc m (by simp)⟩
  | standby m => exact ⟨_, _, rfl, powerBody_paired hcs hc m (by simp)⟩

/-- Every operation that answers extends the trace by marks that keep the pairing, and the reader agrees after it (R209). -/
theorem exec_keepsLoadsPaired (hv : VcomApart s.cfg) {i : Instr} {t : State} (hs : LoadsPaired s)
    (h : exec i s = .next t) : LoadsPaired t := by
  obtain ⟨b, hread, hb⟩ := hs
  obtain ⟨body, b', hbody, hpaired⟩ := exec_sendsPaired hcs hc hv i b
  obtain ⟨fs, last, he, hg, -, hend⟩ := (hpaired hb).runs (hbody.symm.trans h)
  obtain ⟨b'', hframes, hagrees⟩ : ∃ b'', readLoads s.cfg b fs = some b'' ∧ ReaderAgrees b'' t := by
    rcases hend with ⟨u, ⟨hr, hu⟩, rfl⟩ | ⟨k, e, u, hu, rfl⟩
    · exact ⟨b', hr, hu⟩
    · exact hu
  have hcfg : t.cfg = s.cfg := (sameInputs_of_ends (exec_ends i) h).1
  refine ⟨b'', ?_, hagrees⟩
  rw [hcfg, marksFrom_emittedThen he hg, loadOpenAfter_append, hread]
  exact hframes

end

/-- Settles O13: an operation by the reader's account of its frames (`exec_keepsLoadsPaired`); a reserved request sends nothing
and writes neither LOAD_OPEN nor SESSION. -/
theorem stepKeepsLoadsPaired : Obligations.StepKeepsLoadsPaired := by
  unfold Obligations.StepKeepsLoadsPaired
  rintro s t hv ⟨hcs, -⟩ hs h
  rcases step_next h with ⟨i, hi⟩ | ⟨w, hw⟩
  · exact exec_keepsLoadsPaired hcs (step_next_legal h) hv hs hi
  · rw [execReserved_next hw]
    obtain ⟨b, hread, hb⟩ := hs
    refine ⟨b, ?_, ReaderAgrees.errorEpilogue hb _ _⟩
    rw [errorEpilogue_cfg, errorEpilogue_trace, hcs]
    exact hread

end Sys2Proof.Machine

/-! PROOFS. Scope: loads (43_pixel_packing.md R220 to R244; O34, O45 to O49): the refusals of a load's checks, also of the
clear's and the refreshes'; the frames of a LOAD_dBPP that completes; and what those frames hold: the rows and bursts of its
telegrams, how many frames there are of a kind, and the bytes of SRC in the words. -/

namespace Sys2Proof.Machine

open Sys2Proof.Safety

/-! ### LOAD_dBPP, whatever its depth -/

section

variable (d : Depth) (m : Mod) (tgt src : Addr) (stride x y w h : Word)

theorem exec_loadInstr (s : State) :
    exec (loadInstr d m tgt src stride x y w h) s = runOp (loadBody d m tgt src stride x y w h) s := by cases d <;> rfl

theorem loadInstr_modByte : (loadInstr d m tgt src stride x y w h).modByte = m := by cases d <;> rfl

theorem loadInstr_reservedMask : reservedMask (loadInstr d m tgt src stride x y w h) = maskLoad := by cases d <;> rfl

theorem loadInstr_admission : admission (loadInstr d m tgt src stride x y w h) = .load := by cases d <;> rfl

variable {d m tgt src stride x y w h}

theorem loadAdmit_load {s : State} (had : Admitted (loadInstr d m tgt src stride x y w h) s) :
    loadAdmit maskLoad m s = .ok () s := by
  obtain ⟨⟨hmod, -⟩, hstate⟩ := had
  rw [loadInstr_modByte, loadInstr_reservedMask] at hmod
  rw [loadInstr_admission] at hstate
  exact loadAdmit_admitted hmod hstate

/-- An admitted LOAD_dBPP is `LoadImage` of its job (R240 to R243). -/
theorem exec_load_admitted {s : State} (had : Admitted (loadInstr d m tgt src stride x y w h) s) :
    exec (loadInstr d m tgt src stride x y w h) s = runOp (loadImage (loadJob d m tgt src stride x y w h)) s :=
  (exec_loadInstr d m tgt src stride x y w h s).trans (runOp_congr (bind_ok (loadAdmit_load had)))

end

/-! ### Loads refused -/

/-- An operation whose body stops where `LoadImage` does, when a check of the load refuses it (R305). -/
theorem runOp_loadRefused {body : Op Unit} {j : LoadJob} {s : State} {des : Descriptor} {code info : Byte}
    (hbody : ∀ e t, loadImage j s = .error e t → body s = .error e t) (hcs : s.cs = 1) (hd : s.desc = some des)
    (hrefused : loadRefusal s des j = some (code, info)) :
    runOp body s = .next (refusedBy (if code = 3 then afterAllocDraw s else s) code info) := by
  obtain ⟨hload, hcode⟩ := loadImage_refused j s hd hrefused
  have hline : (if code = 3 then afterAllocDraw s else s).cs = 1 := by split <;> exact hcs
  have hkind : kindOf code ≠ .hwTimeout := by
    unfold kindOf
    split
    · decide
    · split <;> decide
  rw [runOp_raise (hbody _ _ hload), errorEpilogue_refusedBy _ _ _ hline hkind, hcode]

theorem readDesc_some {s : State} {des : Descriptor} (hd : s.desc = some des) : readDesc s = .ok des s := by
  unfold readDesc
  rw [hd]

theorem readRefreshMap_some {s : State} {map : RefreshTable} (hmap : s.cfg.refreshMap = some map) (d : Depth) (m : Mod) :
    readRefreshMap d m s = .ok (refreshChoice map d (modHold m) (modPacked m)) s := by
  unfold readRefreshMap
  rw [bind_ok (readCfg_run s), hmap]
  rfl

/-- Settles O34: each of the three operations passes its admission and comes to `LoadImage` of its job. -/
theorem loadChecks : Obligations.LoadChecks := by
  unfold Obligations.LoadChecks
  intro s des code info hcs hd
  refine ⟨fun d m tgt src stride x y w h had hrefused => ?_, fun m adr mode had hrefused => ?_,
    fun d m src adr x y w h had hmap hrefused => ?_⟩
  · rw [exec_load_admitted had]
    exact runOp_loadRefused (fun _ _ hstop => hstop) hcs hd hrefused
  · obtain ⟨⟨hmod, -⟩, hstate⟩ := had
    have hadmit : loadAdmit maskNone m s = .ok () s := loadAdmit_admitted hmod hstate
    exact runOp_loadRefused (fun _ _ hstop => (bind_ok hadmit).trans <| (bind_ok (readDesc_some hd)).trans <|
      (bind_ok (readCfg_run s)).trans (bind_error hstop)) hcs hd hrefused
  · rw [exec_refreshInstr]
    obtain ⟨map, hmap⟩ := Option.ne_none_iff_exists'.1 hmap
    exact runOp_loadRefused (fun _ _ hstop => (bind_ok (loadAdmit_refresh had)).trans <|
      (bind_ok (readRefreshMap_some hmap d m)).trans (bind_error hstop)) hcs hd hrefused

/-! ### Loads that complete -/

/-- Settles O45: an admitted LOAD_dBPP is `LoadImage`, and `loadImage_does` says what that sends and leaves. -/
theorem loadsComplete : Obligations.LoadsComplete := by
  unfold Obligations.LoadsComplete
  intro d s des m tgt src stride x y w h hc hcs hd had j hnone hw
  rw [exec_load_admitted had]
  obtain ⟨t, hrun, hemit, hok, hreads, hrstl, hsession, hdesc, htgt, hopen, hpending⟩ :=
    (loadImage_does j s hd hc hcs hnone).completes hw
  obtain ⟨-, hidle⟩ := Admitted.mirrors (.inl (loadInstr_admission d m tgt src stride x y w h)) had
  exact ⟨t, hrun, hemit, hok, hreads, ⟨hsession, hdesc, hrstl⟩, htgt, hopen, hpending.trans hidle⟩

/-- Settles O46: formats and sizes are the table's by definition; the 1-bpp x and width arguments are a quotient of words. -/
theorem depthTable : Obligations.DepthTable := by
  unfold Obligations.DepthTable
  have hbytes : ∀ v : Word, (chipUnits .d1 v).toNat = v.toNat / 8 := fun v => BitVec.toNat_udiv
  exact fun v => ⟨by rw [hbytes]; rfl, rfl, rfl, rfl⟩

/-! ### Rounded-up quotients (R10) -/

theorem le_ceilDiv_mul {n b : Nat} (hb : 0 < b) : n ≤ ceilDiv n b * b := by
  have := Nat.lt_div_mul_add (a := n + b - 1) hb
  unfold ceilDiv
  omega

theorem mul_lt_of_lt_ceilDiv {n b i : Nat} (hb : 0 < b) (hi : i < ceilDiv n b) : i * b < n := by
  unfold ceilDiv at hi
  have := (Nat.le_div_iff_mul_le hb).1 (Nat.succ_le_of_lt hi)
  rw [Nat.succ_mul] at this
  omega

theorem ceilDiv_pos {n b : Nat} (hb : 0 < b) (hn : 0 < n) : 0 < ceilDiv n b :=
  Nat.pos_of_ne_zero fun h0 => by
    have := le_ceilDiv_mul (n := n) hb
    rw [h0] at this
    omega

theorem tRows_legal {c : Config} (hc : configLegal c = true) : 0 < c.tRows := by
  simp only [configLegal, Bool.and_eq_true, decide_eq_true_eq] at hc
  omega

/-! ### The rows of the telegrams (R228) -/

/-- The first `n` telegrams have the first `n * T` rows, as far as there are that many. -/
theorem telegramRows_sum (T h n : Nat) : ((List.range n).map (telegramRows T h)).sum = min h (n * T) := by
  induction n with
  | zero => simp
  | succ n ih =>
    rw [List.range_succ, List.map_append, List.sum_append, ih, Nat.succ_mul]
    simp only [List.map_cons, List.map_nil, List.sum_cons, List.sum_nil, telegramRows]
    omega

/-- The last telegram has the rows left over, or is full. -/
theorem telegramRows_last {T h : Nat} (hT : 0 < T) (hh : 0 < h) :
    telegramRows T h (ceilDiv h T - 1) = if h % T ≠ 0 then h % T else T := by
  obtain ⟨n, hn⟩ : ∃ n, ceilDiv h T = n + 1 := ⟨ceilDiv h T - 1, by have := ceilDiv_pos hT hh; omega⟩
  have hlt : n * T < h := mul_lt_of_lt_ceilDiv hT (by omega)
  have hle := le_ceilDiv_mul (n := h) hT
  rw [hn, Nat.succ_mul] at hle
  obtain ⟨r, rfl⟩ := Nat.exists_eq_add_of_lt hlt
  have hmod : (n * T + r + 1) % T = (r + 1) % T := by rw [Nat.add_assoc, Nat.mul_add_mod']
  rw [hn, hmod]
  unfold telegramRows
  rcases Nat.lt_or_ge (r + 1) T with hr | hr
  · rw [Nat.mod_eq_of_lt hr, if_pos (by omega), Nat.add_sub_cancel]
    omega
  · obtain rfl : T = r + 1 := by omega
    rw [Nat.mod_self, if_neg (by simp), Nat.add_sub_cancel]
    omega

/-! ### The words of a load, row by row (R225, R228) -/

theorem length_flatMap_const {α β : Type} {f : α → List β} {k : Nat} (hf : ∀ a, (f a).length = k) (xs : List α) :
    (xs.flatMap f).length = k * xs.length := by
  simp [List.length_flatMap, hf, Nat.mul_comm]

section

variable (s : State) (j : LoadJob)

theorem length_rowWords (r : Nat) : (rowWords s j r).length = wordsPerRow j.d j.w.toNat := by simp [rowWords]

theorem length_telegramWords (t : Nat) :
    (telegramWords s j t).length = wordsPerRow j.d j.w.toNat * telegramRows s.cfg.tRows j.h.toNat t := by
  unfold telegramWords
  rw [length_flatMap_const fun i => length_rowWords s j _, List.length_range]
  rfl

/-- The words of the first `n` telegrams are those of the rows they have. -/
theorem telegramWords_flatMap (n : Nat) :
    (List.range n).flatMap (telegramWords s j) = (List.range (min j.h.toNat (n * s.cfg.tRows))).flatMap (rowWords s j) := by
  induction n with
  | zero => simp
  | succ n ih =>
    have hrows : min j.h.toNat ((n + 1) * s.cfg.tRows) =
        min j.h.toNat (n * s.cfg.tRows) + min s.cfg.tRows (j.h.toNat - n * s.cfg.tRows) := by
      rw [Nat.succ_mul]
      omega
    have hfirst : ∀ i, i < min s.cfg.tRows (j.h.toNat - n * s.cfg.tRows) →
        min j.h.toNat (n * s.cfg.tRows) = n * s.cfg.tRows := fun i hi => by omega
    rw [List.range_succ, List.flatMap_append, ih, hrows, List.range_add, List.flatMap_append, List.flatMap_map,
      List.flatMap_singleton]
    congr 1
    refine List.flatMap_congr fun i hi => ?_
    rw [hfirst i (List.mem_range.1 hi)]

/-- The bursts of each telegram of a load (R229). -/
def burstsOfLoad : List (List (List Word)) :=
  (List.range (ceilDiv j.h.toNat s.cfg.tRows)).map fun t => burstsOf s.cfg.bWords (telegramWords s j t)

theorem length_burstsOfLoad : (burstsOfLoad s j).length = ceilDiv j.h.toNat s.cfg.tRows := by simp [burstsOfLoad]

theorem burstsOfLoad_frames : ((burstsOfLoad s j).mapIdx (telegramFrames s j)).flatten = loadFrames s j := by
  unfold loadFrames
  rw [List.flatMap_def]
  congr 1
  apply List.ext_getElem <;> simp [burstsOfLoad]

variable {s j}

theorem getElem?_burstsOfLoad {k : Nat} {bs : List (List Word)} (h : (burstsOfLoad s j)[k]? = some bs) :
    bs = burstsOf s.cfg.bWords (telegramWords s j k) := by
  obtain ⟨hk, rfl⟩ := List.getElem?_eq_some_iff.1 h
  simp [burstsOfLoad]

/-- The words of all bursts are those of the rows, one after another. -/
theorem burstsOfLoad_words (hc : configLegal s.cfg = true) :
    (burstsOfLoad s j).flatten.flatten = (List.range j.h.toNat).flatMap (rowWords s j) := by
  have hrows := telegramWords_flatMap s j (ceilDiv j.h.toNat s.cfg.tRows)
  rw [min_eq_left (le_ceilDiv_mul (tRows_legal hc))] at hrows
  rw [← hrows, List.flatten_flatten, List.flatMap_def]
  simp [burstsOfLoad, Function.comp_def, burstsOf_flatten (burst_legal hc)]

end

/-! ### The bursts of a telegram (R229) -/

theorem length_burstsOf (b : Nat) (ws : List Word) : (burstsOf b ws).length = ceilDiv ws.length b := by simp [burstsOf]

/-- Every burst but the last is full. -/
theorem length_of_burst {b i : Nat} (hb : 0 < b) {ws burst : List Word} (h : (burstsOf b ws)[i]? = some burst)
    (hi : i + 1 < (burstsOf b ws).length) : burst.length = b := by
  rw [length_burstsOf] at hi
  have hlt := mul_lt_of_lt_ceilDiv hb hi
  rw [Nat.succ_mul] at hlt
  obtain ⟨hk, rfl⟩ := List.getElem?_eq_some_iff.1 h
  simp only [burstsOf, List.getElem_map, List.getElem_range, List.length_take, List.length_drop]
  omega

/-! ### How many frames of a kind (R234, R236) -/

theorem countP_intersperse {α : Type} (p : α → Bool) (sep : α) : ∀ xs : List α,
    (xs.intersperse sep).countP p = xs.countP p + (if p sep then xs.length - 1 else 0)
  | [] => by simp
  | [x] => by simp
  | x :: y :: xs => by
    rw [List.intersperse_cons_cons, List.countP_cons, List.countP_cons, countP_intersperse p sep (y :: xs),
      List.countP_cons (a := x)]
    simp only [List.length_cons]
    split <;> omega

section

variable {p : Frame → Bool} {b : Bool} (hp : ∀ ws, p (.wr ws) = b)

include hp

theorem countP_writes (wss : List (List Word)) : (wss.map Frame.wr).countP p = if b then wss.length else 0 := by
  rw [List.countP_map, show p ∘ Frame.wr = fun _ => b from funext hp]
  cases b <;> simp

theorem countP_multiArgFrames {c : Config} (hframing : b = true → c.argFraming = .perWord) (code : Word)
    (args : List Word) :
    (multiArgFrames c code args).countP p = (if p (.cmd code) then 1 else 0) + (if b then args.length else 0) := by
  rw [multiArgFrames, List.countP_cons, Nat.add_comm, countP_writes hp]
  cases b with
  | false => rfl
  | true => simp [Safety.argumentFrames, hframing rfl]

/-- The two address writes, the begin command with its arguments, the bursts, the delays between them, and the end. -/
theorem countP_telegramFrames {s : State} (hframing : b = true → s.cfg.argFraming = .perWord) (j : LoadJob) (t : Nat)
    (bursts : List (List Word)) :
    (telegramFrames s j t bursts).countP p =
      2 * (if p (.cmd s.cfg.cmdRegWr) then 1 else 0) + (if p (.cmd s.cfg.cmdLdImgArea) then 1 else 0) +
      (if p (.cmd s.cfg.cmdLdImgEnd) then 1 else 0) + (if b then 9 + bursts.length else 0) +
      (if p (.delay s.cfg.interBurstDelayMs) then bursts.length - 1 else 0) := by
  simp only [telegramFrames, beginAreaFrames, targetFrames, regWriteFrames, List.countP_append,
    countP_multiArgFrames hp hframing, countP_intersperse, countP_writes hp, List.length_map, List.countP_singleton,
    List.length_cons, List.length_nil]
  cases b
  · simp only [Bool.false_eq_true, if_false]
    omega
  · simp only [if_true]
    omega

end

section

variable {s : State} (j : LoadJob) (t : Nat) (bursts : List (List Word))

/-- A legal configuration's codes are distinct, so that no other command of a telegram begins an area load. -/
theorem count_begins (hc : configLegal s.cfg = true) :
    (telegramFrames s j t bursts).count (.cmd s.cfg.cmdLdImgArea) = 1 := by
  obtain ⟨hplain, -, -, -, ⟨-, hend⟩, -⟩ := watched_codes hc
  have hreg : s.cfg.cmdRegWr ≠ s.cfg.cmdLdImgArea := fun heq => by
    have := (hplain s.cfg.cmdRegWr (by simp)).1
    simp [PlainCode, heq] at this
  rw [List.count, countP_telegramFrames (b := false) (fun _ => rfl) (by simp)]
  simp [hreg, hend.symm]

theorem count_delays : (telegramFrames s j t bursts).count (.delay s.cfg.interBurstDelayMs) = bursts.length - 1 := by
  rw [List.count, countP_telegramFrames (b := false) (fun _ => rfl) (by simp)]
  simp

theorem countP_transactions (hframing : s.cfg.argFraming = .perWord) :
    (telegramFrames s j t bursts).countP (fun f => frameWaits f = 2) = 13 + bursts.length := by
  rw [countP_telegramFrames (b := true) (fun _ => rfl) (fun _ => hframing)]
  simp only [frameWaits, decide_true, if_true, decide_false, OfNat.zero_ne_ofNat, Bool.false_eq_true, if_false]
  omega

end

/-- One begin command for each telegram (R228). -/
theorem count_begins_loadFrames {s : State} (hc : configLegal s.cfg = true) (j : LoadJob) :
    (loadFrames s j).count (.cmd s.cfg.cmdLdImgArea) = ceilDiv j.h.toNat s.cfg.tRows := by
  rw [loadFrames, List.count_flatMap]
  simp [Function.comp_def, count_begins _ _ _ hc]

/-- Settles O47: the load of `loadsComplete`, its frames written telegram by telegram. -/
theorem loadCounting : Obligations.LoadCounting := by
  unfold Obligations.LoadCounting
  intro d s des m tgt src stride x y w h hc hcs hd had j hnone hw T B wpr
  obtain ⟨t, hrun, hemit, -⟩ := loadsComplete d s des m tgt src stride x y w h hc hcs hd had hnone hw
  obtain ⟨-, hpos : 0 < h.toNat, -⟩ := loadRefusal_none hnone
  have hT : 0 < T := tRows_legal hc
  have hwords (k : Nat) : (telegramWords s j k).length = wpr * telegramRows T h.toNat k := length_telegramWords s j k
  have hlength : (burstsOfLoad s j).length = ceilDiv h.toNat T := length_burstsOfLoad s j
  refine ⟨t, (List.range (burstsOfLoad s j).length).map (telegramRows T h.toNat), burstsOfLoad s j, hrun, ?_, rfl, ?_, ?_,
    fun k bs n hbs hn => ?_, ?_⟩
  · show Emitted s t ((burstsOfLoad s j).mapIdx (telegramFrames s j)).flatten ∧ _
    rw [burstsOfLoad_frames]
    exact ⟨hemit, count_begins_loadFrames hc j⟩
  · rw [telegramRows_sum, hlength, min_eq_left (le_ceilDiv_mul hT)]
  · rw [hlength, List.getLast?_map, List.getLast?_range, if_neg (ceilDiv_pos hT hpos).ne', ← telegramRows_last hT hpos]
    rfl
  · obtain ⟨hk, rfl⟩ := List.getElem?_eq_some_iff.1 hn
    rw [List.getElem_map, List.getElem_range, getElem?_burstsOfLoad hbs, ← hwords]
    have hB : 0 < B := burst_legal hc
    exact ⟨length_burstsOf B _, by rw [burstsOf_flatten hB], fun i burst => length_of_burst hB⟩
  · rw [burstsOfLoad_words hc, length_flatMap_const fun r => length_rowWords s j r, List.length_range]
    rfl

/-- Settles O49: the load of `loadsComplete`, its telegrams counted one by one. -/
theorem telegramFrameCount : Obligations.TelegramFrameCount := by
  unfold Obligations.TelegramFrameCount
  intro d s des m tgt src stride x y w h hc hcs hd had j hnone hframing hw
  obtain ⟨t, hrun, hemit, -⟩ := loadsComplete d s des m tgt src stride x y w h hc hcs hd had hnone hw
  refine ⟨t, (burstsOfLoad s j).mapIdx (telegramFrames s j), hrun, ?_, ?_, fun k fs hfs => ?_⟩
  · rwa [burstsOfLoad_frames]
  · rw [List.length_mapIdx, length_burstsOfLoad]
    rfl
  · rw [List.getElem?_mapIdx] at hfs
    obtain ⟨bs, hbs, rfl⟩ := Option.map_eq_some_iff.1 hfs
    have hnB : bs.length = ceilDiv (w.toNat * depthBits d / 8 / 2 * telegramRows s.cfg.tRows h.toNat k) s.cfg.bWords := by
      rw [getElem?_burstsOfLoad hbs, length_burstsOf, length_telegramWords]
      rfl
    rw [countP_transactions j k bs hframing, count_delays, hnB]
    exact ⟨rfl, rfl⟩

/-! ### The bytes of a load (R235) -/

theorem unpackWord_pairWord (o : PairOrder) (b0 b1 : Byte) : unpackWord o (pairWord o b0 b1) = [b0, b1] := by
  cases o <;> simp [pairWord, unpackWord]

theorem flatMap_pairs {α : Type} (f : Nat → α) (n : Nat) :
    (List.range n).flatMap (fun k => [f (2 * k), f (2 * k + 1)]) = (List.range (2 * n)).map f := by
  induction n with
  | zero => rfl
  | succ n ih => simp [List.range_succ, Nat.mul_succ, ih]

/-- The words of a row that is read from SRC hold its bytes in order (R225). -/
theorem rowWords_bytes (s : State) {j : LoadJob} (hfill : j.fill = none) (r : Nat) :
    (rowWords s j r).flatMap (unpackWord s.cfg.pairOrder) =
      sourceBytes s (j.src.toNat + r * j.stride) (2 * wordsPerRow j.d j.w.toNat) := by
  have hword (k : Nat) : unpackWord s.cfg.pairOrder (pixelWord s j r k) =
      [s.src.read (j.src.toNat + r * j.stride + 2 * k), s.src.read (j.src.toNat + r * j.stride + (2 * k + 1))] := by
    unfold pixelWord
    rw [hfill]
    exact unpackWord_pairWord _ _ _
  rw [rowWords, List.flatMap_map, sourceBytes, ← flatMap_pairs]
  simp only [hword]

/-- Under REJECT a row that is not refused is whole words (R224). -/
theorem bytesPerRow_even {c : Config} {des : Descriptor} {j : LoadJob} (hreject : c.rowAlign = .reject)
    (hgeom : geometryRefusal c des j = none) : 2 * wordsPerRow j.d j.w.toNat = bytesPerRow j.d j.w.toNat := by
  have haligned : j.w.toNat * depthBits j.d % 16 = 0 := by
    by_contra hodd
    unfold geometryRefusal at hgeom
    rw [if_pos ⟨hreject, hodd⟩] at hgeom
    split at hgeom <;> cases hgeom
  unfold wordsPerRow bytesPerRow
  omega

/-- Settles O48: the load of `loadsComplete`, its words unpacked row by row. -/
theorem loadRoundTrip : Obligations.LoadRoundTrip := by
  unfold Obligations.LoadRoundTrip
  intro d s des m tgt src stride x y w h hc hcs hd had j hnone hreject hw
  obtain ⟨t, hrun, hemit, -⟩ := loadsComplete d s des m tgt src stride x y w h hc hcs hd had hnone hw
  obtain ⟨hgeom, -⟩ := loadRefusal_none hnone
  refine ⟨t, burstsOfLoad s j, hrun, ?_, ?_⟩
  · show Emitted s t ((burstsOfLoad s j).mapIdx (telegramFrames s j)).flatten
    rwa [burstsOfLoad_frames]
  · rw [burstsOfLoad_words hc, List.flatMap_assoc]
    refine List.flatMap_congr fun r _ => ?_
    rw [rowWords_bytes s rfl, bytesPerRow_even hreject hgeom]
    rfl

end Sys2Proof.Machine

/-! PROOFS. Scope: displays, the render wait, clear, refresh and power (44_display.md R260 to R278; O50 to O56, O59): each
admitted operation as the procedures it runs, what those put on the wire when every busy-wait ends, and when the render poll
reaches its limit. -/

namespace Sys2Proof.Machine

open Sys2Proof.Safety

/-! ### Admitted operations are their procedures -/

section

variable {s : State}

theorem refuseLoadOpen_closed (hload : s.loadOpen = false) (i : Byte) : refuseLoadOpen i s = .ok () s := by
  rw [refuseLoadOpen_run, hload]
  rfl

theorem refuseRenderPending_idle (hidle : s.renderPending = false) : refuseRenderPending s = .ok () s := by
  unfold refuseRenderPending
  rw [bind_ok (readState_run s), raiseIf_run, if_neg (by simp [hidle])]

section

variable {m : Mod} {x y w h mode : Word} {des : Descriptor} (hd : s.desc = some des)
  (harea : areaRefusal x y w h des.panelW des.panelH = none)

include hd harea

/-- An operation that admits a display and finds its rectangle on the panel goes on to display it (R261, R262). -/
theorem runOp_display_admitted {mask : Mod} {display : Op Unit} (hm : m &&& mask = 0)
    (hs : misuseIn s .display = none) :
    runOp (do displayAdmit mask m; panelCheck x y w h; display) s = runOp display s :=
  runOp_congr <| (bind_ok (displayAdmit_admitted hm hs)).trans <|
    bind_ok ((panelCheck_run x y w h s hd).trans (by rw [harea]; rfl))

theorem exec_displayArea_admitted (had : Admitted (.displayArea m x y w h mode) s) :
    exec (.displayArea m x y w h mode) s = runOp (displayCore x y w h mode none) s :=
  runOp_display_admitted hd harea had.1.1 had.2

theorem exec_displayAreaBuf_admitted {adr : Addr} (had : Admitted (.displayAreaBuf m x y w h mode adr) s) :
    exec (.displayAreaBuf m x y w h mode adr) s = runOp (displayCore x y w h mode (some adr)) s :=
  runOp_display_admitted hd harea had.1.1 had.2

theorem exec_display1bpp_admitted {fgbg : Word} {adr : Option Addr}
    (had : Admitted (.display1bpp m x y w h mode fgbg adr) s) :
    exec (.display1bpp m x y w h mode fgbg adr) s = runOp (display1bppSequence x y w h mode fgbg adr) s :=
  runOp_display_admitted hd harea had.1.1 had.2

end

theorem exec_waitRenderIdle_closed (hload : s.loadOpen = false) : exec (.waitRenderIdle 0) s = runOp waitRender s :=
  runOp_congr <| (bind_ok (checkMod_zero maskNone s)).trans (bind_ok (refuseLoadOpen_closed hload 3))

/-- CLEAR_AND_REFRESH is the fill of the whole panel and the display of it (R271). -/
theorem exec_clear_admitted {m : Mod} {adr : Addr} {mode : Word} {des : Descriptor} (hd : s.desc = some des)
    (had : Admitted (.clearAndRefresh m adr mode) s) :
    exec (.clearAndRefresh m adr mode) s = runOp (do
      loadImage (clearJob s.cfg des adr)
      displayCore 0 0 des.panelW des.panelH mode (some adr)) s :=
  runOp_congr <| (bind_ok (loadAdmit_admitted had.1.1 had.2)).trans <| (bind_ok (readDesc_some hd)).trans <|
    bind_ok (readCfg_run s)

section

variable {d : Depth} {table : RefreshTable} {f : RefreshChoice} {m : Mod} {src adr : Addr} {x y w h : Word}

/-- REFRESH_1BPP is its load and the 1-bpp display sequence (R272, R273). -/
theorem exec_refresh1bpp_admitted (had : Admitted (refreshInstr .d1 m src x y w h adr) s)
    (hmap : s.cfg.refreshMap = some table) (hf : refreshChoice table .d1 (modHold m) (modPacked m) = f) :
    exec (refreshInstr .d1 m src x y w h adr) s = runOp (do
      loadImage (refreshJob .d1 src x y w h adr)
      display1bppSequence x y w h f.mode f.fgbg (some adr)) s := by
  subst hf
  exact runOp_congr <| (bind_ok (loadAdmit_refresh had)).trans (bind_ok (readRefreshMap_some hmap .d1 m))

/-- A refresh of another depth is its load, its display and the render wait its map asks for (R272, R274 to R276). -/
theorem exec_refresh_admitted (hdepth : d ≠ .d1) (had : Admitted (refreshInstr d m src x y w h adr) s)
    (hmap : s.cfg.refreshMap = some table) (hf : refreshChoice table d (modHold m) (modPacked m) = f) :
    exec (refreshInstr d m src x y w h adr) s = runOp (do
      loadImage (refreshJob d src x y w h adr)
      displayCore x y w h f.mode (some adr)
      if f.wait then waitRender else pure ()) s := by
  subst hf
  refine (exec_refreshInstr d m src x y w h adr s).trans <| runOp_congr <| (bind_ok (loadAdmit_refresh had)).trans <|
    (bind_ok (readRefreshMap_some hmap d m)).trans ?_
  cases d with
  | d1 => exact absurd rfl hdepth
  | d2 | d4 | d8 => rfl

end

/-- SLEEP and STANDBY outside a load and a render are their command, and the end of the session (R277, R278). -/
theorem runOp_power_admitted (hload : s.loadOpen = false) (hidle : s.renderPending = false) (code : Config → Word) :
    runOp (powerBody 0 code) s = runOp (do
      txnCommand (code s.cfg)
      update (fun s => { s with session := .unready })) s :=
  runOp_congr <| (bind_ok (checkMod_zero maskNone s)).trans <| (bind_ok (refuseLoadOpen_closed hload 3)).trans <|
    (bind_ok (refuseRenderPending_idle hidle)).trans (bind_ok (readCfg_run s))

end

/-! ### The chip's answers after part of an operation -/

section

variable {s : State} (es : List Event) (n r : Nat) (ρ : Regs)

theorem statusFrames_after (k l : Nat) :
    statusFrames s.cfg (s.after es n r ρ).chip k l = statusFrames s.cfg s.chip (r + k) l := by
  simp only [statusFrames, after_word, Nat.add_assoc]

theorem statusBusy_after (k i : Nat) :
    statusBusy s.cfg (s.after es n r ρ).chip k i ↔ statusBusy s.cfg s.chip (r + k) i := by
  simp only [statusBusy, after_word, Nat.add_assoc]

/-- A part that reads nothing leaves the answers to the 1-bpp display sequence as they were. -/
theorem display1bppOpening_after (x y w h mode : Word) (fg bg : Byte) (adr : Option Addr) :
    display1bppOpening s.cfg (s.after es n 0 ρ).chip x y w h mode fg bg adr =
      display1bppOpening s.cfg s.chip x y w h mode fg bg adr := by
  simp only [display1bppOpening, after_word, Nat.zero_add]

theorem display1bppFrames_after (x y w h mode : Word) (fg bg : Byte) (adr : Option Addr) (polls : Nat) :
    display1bppFrames s.cfg (s.after es n 0 ρ).chip x y w h mode fg bg adr polls =
      display1bppFrames s.cfg s.chip x y w h mode fg bg adr polls := by
  simp only [display1bppFrames, display1bppOpening_after, statusFrames_after, after_word, Nat.zero_add]

/-- A render poll to come ends as it would have, behind the words read meanwhile. -/
theorem RenderEnds.after {k polls : Nat} (hends : RenderEnds s (r + k) polls) :
    RenderEnds (s.after es n r ρ) k polls := by
  obtain ⟨hbusy, hidle, hlimit, hqueue⟩ := hends
  refine ⟨fun i hi => (statusBusy_after es n r ρ k i).2 (hbusy i hi),
    fun hb => hidle ((statusBusy_after es n r ρ k polls).1 hb), hlimit, ?_⟩
  show _ ≤ (s.chip.rx.drop (2 * r)).length
  rw [List.length_drop]
  omega

end

section

variable {s : State} {n : Nat}

/-- The render wait that starts at the chip's word `k`, behind the words read before it. -/
theorem waitRender_does_after {k : Nat} (hends : RenderEnds s k n) (es : List Event) (waits : Nat) (ρ : Regs) :
    Does waitRender (s.after es waits k ρ) (statusFrames s.cfg s.chip k (n + 1)) (2 * (n + 1)) () (ρ.rendered s.cfg) := by
  have hwait := waitRender_does n _ (RenderEnds.after (k := 0) es waits k ρ hends)
  rw [after_cfg, statusFrames_after] at hwait
  exact hwait

/-- The 1-bpp display sequence behind a part that reads nothing. -/
theorem display1bppSequence_does_after (hends : RenderEnds s 2 n) (x y w h mode fgbg : Word) (adr : Option Addr)
    (es : List Event) (waits : Nat) (ρ : Regs) :
    Does (display1bppSequence x y w h mode fgbg adr) (s.after es waits 0 ρ)
      (display1bppFrames s.cfg s.chip x y w h mode (hiByte fgbg) (loByte fgbg) adr n) (2 * n + 6) ()
      (ρ.rendered s.cfg) := by
  have hshow := display1bppSequence_does x y w h mode fgbg adr n _ (RenderEnds.after es waits 0 ρ hends)
  rw [after_cfg, display1bppFrames_after] at hshow
  exact hshow

/-- The same where its render wait reaches the limit. -/
theorem display1bppSequence_late_after {l : Nat} (hl : s.cfg.renderPollLimit = some l) (h1 : 1 ≤ l)
    (hbusy : ∀ i, i < l → statusBusy s.cfg s.chip 2 i) (x y w h mode fgbg : Word) (adr : Option Addr)
    (es : List Event) (waits : Nat) (ρ : Regs) :
    RendersLate (display1bppSequence x y w h mode fgbg adr) (s.after es waits 0 ρ)
      (display1bppOpening s.cfg s.chip x y w h mode (hiByte fgbg) (loByte fgbg) adr ++ statusFrames s.cfg s.chip 2 l)
      (2 + (0 + (0 + 2 * l))) { ρ with renderPending := true } := by
  have hlate := display1bppSequence_late (s := s.after es waits 0 ρ) x y w h mode fgbg adr hl h1
    fun i hi => (statusBusy_after es waits 0 ρ 2 i).2 (hbusy i hi)
  rw [after_cfg, display1bppOpening_after, statusFrames_after] at hlate
  exact hlate

/-- The render wait of an operation that has sent nothing yet reaches its limit. -/
theorem waitRender_late_first {l : Nat} (hl : s.cfg.renderPollLimit = some l) (h1 : 1 ≤ l)
    (hbusy : ∀ i, i < l → statusBusy s.cfg s.chip 0 i) :
    RendersLate waitRender s (statusFrames s.cfg s.chip 0 l) (2 * l) s.regs := by
  have hfuel : drawRenderFuel s = .ok (l + 1) s := by unfold drawRenderFuel; rw [hl]
  have hpolls : RendersLate (renderPolls (l + 1) 0) s (statusFrames s.cfg s.chip 0 l) (2 * l) s.regs :=
    renderPolls_late l 0 (l + 1) s h1 (Nat.lt_succ_self l) hbusy (by rw [hl, Nat.zero_add])
  exact RendersLate.look hfuel hpolls.bind

end

/-! ### One part behind another -/

section

variable {α : Type} {first : Op Unit} {next : Op α} {s : State} {fs gs : List Frame} {q r : Nat} {a : α} {ρ σ : Regs}

theorem Does.seq (hfirst : Does first s fs q () ρ) (hnext : ∀ es, Does next (s.after es (waitsOf fs) q ρ) gs r a σ) :
    Does (do first; next) s (fs ++ gs) (q + r) a σ :=
  hfirst.bind hnext

theorem Does.seqLate (hfirst : Does first s fs q () ρ)
    (hnext : ∀ es, RendersLate next (s.after es (waitsOf fs) q ρ) gs r σ) :
    RendersLate (do first; next) s (fs ++ gs) (q + r) σ :=
  hfirst.thenLate hnext

end

section

variable {j : LoadJob} {s : State} {des : Descriptor} (hc : configLegal s.cfg = true) (hcs : s.cs = 1)
  (hd : s.desc = some des) (hnone : loadRefusal s des j = none)

/-- The registers after `LoadImage` has loaded an image to `a`: the target, no load open, and one allocation drawn. -/
def State.imageLoaded (s : State) (a : Addr) : Regs :=
  { s.regs with tgt := some a, loadOpen := false, alloc := (drawAlloc s.chip).2.alloc,
                freeAllocs := (drawAlloc s.chip).2.freeAllocs }

include hc hcs hd hnone

theorem loadImage_leaves : Does (loadImage j) s (loadFrames s j) 0 () (s.imageLoaded j.tgt) :=
  loadImage_does j s hd hc hcs hnone

/-- A load, and the display of what it loaded. -/
theorem loadImage_displayCore_does (x y w h mode : Word) :
    Does (do loadImage j; displayCore x y w h mode (some j.tgt)) s
      (loadFrames s j ++ displayFrames s.cfg x y w h mode (some j.tgt)) 0 ()
      { s.imageLoaded j.tgt with renderPending := true } :=
  (loadImage_leaves hc hcs hd hnone).seq (q := 0) (r := 0) fun _ => displayCore_does x y w h mode (some j.tgt) _

end

/-! ### Displays that complete -/

section

variable {s : State} {body : Op Unit} {fs : List Frame} {r : Nat} {ρ : Regs}

/-- An operation whose body keeps the session and leaves the target, no load open and the render as stated. -/
theorem Does.displays {tgt : Option Addr} {pending : Bool} (hdo : Does body s fs r () ρ) (hw : WaitsEnd s (waitsOf fs))
    (hsession : ρ.session = s.session ∧ ρ.desc = s.desc ∧ ρ.rstl = s.rstl)
    (hmirrors : ρ.tgt = tgt ∧ ρ.loadOpen = false ∧ ρ.renderPending = pending) :
    ∃ t, runOp body s = .next t ∧ Emitted s t fs ∧ Succeeded s t ∧ SameReads s t ∧ SameSession s t ∧ t.tgt = tgt ∧
      t.loadOpen = false ∧ t.renderPending = pending := by
  obtain ⟨t, hrun, hemit, hok, hreads, hrstl, hses, hdesc, htgt, hopen, hpending⟩ := hdo.completes hw
  obtain ⟨hses', hdesc', hrstl'⟩ := hsession
  obtain ⟨htgt', hopen', hpending'⟩ := hmirrors
  exact ⟨t, hrun, hemit, hok, hreads, ⟨hses.trans hses', hdesc.trans hdesc', hrstl.trans hrstl'⟩, htgt.trans htgt',
    hopen.trans hopen', hpending.trans hpending'⟩

end

/-- Settles O50: an admitted display is `displayCore`, in the form without or with an address. -/
theorem displaysComplete : Obligations.DisplaysComplete := by
  unfold Obligations.DisplaysComplete
  intro s des x y w h mode hd harea pending
  have hshown (adr : Option Addr) (hopen : s.loadOpen = false) :=
    fun hw => (displayCore_does x y w h mode adr s).displays hw ⟨rfl, rfl, rfl⟩ ⟨rfl, hopen, rfl⟩
  refine ⟨fun had hw => ?_, fun adr had => fun hw => ?_⟩
  · rw [exec_displayArea_admitted hd harea had]
    exact hshown none (Admitted.mirrors (.inr rfl) had).1 hw
  · rw [exec_displayAreaBuf_admitted hd harea had]
    exact hshown (some adr) (Admitted.mirrors (.inr rfl) had).1 hw

/-- Settles O51: an admitted DISPLAY_1BPP is the 1-bpp display sequence, `display1bppSequence_does`. -/
theorem display1bppCompletes : Obligations.Display1bppCompletes := by
  unfold Obligations.Display1bppCompletes
  intro s des m x y w h mode fgbg adr n hd had harea hends fs hw
  rw [exec_display1bpp_admitted hd harea had]
  exact (display1bppSequence_does x y w h mode fgbg adr n s hends).displays hw ⟨rfl, rfl, rfl⟩
    ⟨rfl, (Admitted.mirrors (.inr rfl) had).1, rfl⟩

/-- Settles O52: outside a load the operation is the render wait, `waitRender_does`. -/
theorem renderWaitCompletes : Obligations.RenderWaitCompletes := by
  unfold Obligations.RenderWaitCompletes
  intro s n hload hends hw
  rw [exec_waitRenderIdle_closed hload]
  rw [← waitsOf_statusFrames s.cfg s.chip 0] at hw
  exact (waitRender_does n s hends).displays hw ⟨rfl, rfl, rfl⟩ ⟨rfl, hload, rfl⟩

/-- Settles O54: the fill by `loadImage_leaves`, and `displayCore_does` behind it. -/
theorem clearCompletes : Obligations.ClearCompletes := by
  unfold Obligations.ClearCompletes
  intro s des adr mode hc hcs hd had j hnone fs hw
  rw [exec_clear_admitted hd had]
  exact (loadImage_displayCore_does hc hcs hd hnone 0 0 des.panelW des.panelH mode).displays hw ⟨rfl, rfl, rfl⟩
    ⟨rfl, rfl, rfl⟩

/-- Settles O55: the load reads nothing from the chip, and behind it comes the 1-bpp display sequence, or the display and the
render wait its map asks for. -/
theorem refreshesComplete : Obligations.RefreshesComplete := by
  unfold Obligations.RefreshesComplete
  intro d s des table m src adr x y w h n hc hcs hd had hmap f j hnone shown ends
  have hshown := loadImage_displayCore_does hc hcs hd hnone x y w h f.mode
  refine ⟨fun hdepth hends hw => ?_, fun hdepth hwait hends hw => ?_, fun hdepth hwait hw => ?_⟩
  · subst hdepth
    rw [exec_refresh1bpp_admitted had hmap rfl]
    have hall := (loadImage_leaves hc hcs hd hnone).seq fun es =>
      display1bppSequence_does_after hends x y w h f.mode f.fgbg (some adr) es _ _
    exact hall.displays hw ⟨rfl, rfl, rfl⟩ ⟨rfl, rfl, rfl⟩
  · rw [exec_refresh_admitted hdepth had hmap (f := f) rfl, if_pos hwait, ← bind_assoc]
    exact (hshown.seq fun es => waitRender_does_after hends es _ _).displays hw ⟨rfl, rfl, rfl⟩ ⟨rfl, rfl, rfl⟩
  · rw [exec_refresh_admitted hdepth had hmap (f := f) rfl, if_neg (by simp [hwait]), bind_pure_unit]
    exact hshown.displays hw ⟨rfl, rfl, rfl⟩ ⟨rfl, rfl, rfl⟩

/-- A power command, and the end of the session (R277). -/
theorem powerCommand_does (code : Word) (s : State) :
    Does (do txnCommand code; update (fun s => { s with session := .unready })) s [.cmd code] 0 ()
      { s.regs with session := .unready } :=
  (txnCommand_does code s).finish fun _ => rfl

/-- Settles O56: an admitted power operation is its command and the end of the session, `powerCommand_does`. -/
theorem powerCommands : Obligations.PowerCommands := by
  unfold Obligations.PowerCommands
  intro s hload hidle hw asleep
  have hpower (code : Config → Word) : ∃ t, runOp (powerBody 0 code) s = .next t ∧
      Emitted s t [.cmd (code s.cfg)] ∧ asleep t := by
    rw [runOp_power_admitted hload hidle]
    obtain ⟨t, hrun, hemit, hok, hreads, hrstl, hsession, hdesc, htgt, hopen, hpending⟩ :=
      (powerCommand_does (code s.cfg) s).completes hw
    exact ⟨t, hrun, hemit, hok, hreads, hsession, hdesc, hrstl, htgt, hopen, hpending⟩
  exact ⟨hpower (·.cmdSleep), hpower (·.cmdStandby)⟩

/-! ### Render waits that reach their limit -/

/-- Settles O53: outside a load the operation is the render wait, `waitRender_late_first`. -/
theorem renderWaitTimesOut : Obligations.RenderWaitTimesOut := by
  unfold Obligations.RenderWaitTimesOut
  intro s l hload hl h1 hbusy hw
  rw [exec_waitRenderIdle_closed hload]
  rw [← waitsOf_statusFrames s.cfg s.chip 0] at hw
  exact (waitRender_late_first hl h1 hbusy).completes hw rfl rfl

/-- Settles O59: `display1bppSequence_late` and `waitRender_late`, for a refresh behind its load, which reads nothing. -/
theorem displayWaitsTimeOut : Obligations.DisplayWaitsTimeOut := by
  unfold Obligations.DisplayWaitsTimeOut
  intro s des l hd hl h1 timesOut opening
  refine ⟨fun m x y w h mode fgbg adr had harea hbusy hw => ?_, fun d table m src adr x y w h hc hcs had hmap => ?_⟩
  · rw [exec_display1bpp_admitted hd harea had]
    obtain ⟨t, hrun, hemit, hlate, htgt, hopen, hpending⟩ :=
      (display1bppSequence_late x y w h mode fgbg adr hl h1 hbusy).completes hw rfl rfl
    exact ⟨t, hrun, hemit, hlate, htgt, hopen.trans (Admitted.mirrors (.inr rfl) had).1, hpending⟩
  · intro f j hnone
    refine ⟨fun hdepth hbusy hw => ?_, fun hdepth hwait hbusy hw => ?_⟩
    · subst hdepth
      rw [exec_refresh1bpp_admitted had hmap rfl]
      rw [List.append_assoc] at hw ⊢
      exact ((loadImage_leaves hc hcs hd hnone).seqLate fun es =>
        display1bppSequence_late_after hl h1 hbusy x y w h f.mode f.fgbg (some adr) es _ _).completes hw rfl rfl
    · rw [exec_refresh_admitted hdepth had hmap (f := f) rfl, if_pos hwait, ← bind_assoc]
      exact ((loadImage_displayCore_does hc hcs hd hnone x y w h f.mode).seqLate fun es =>
        waitRender_late hl h1 hbusy).completes hw rfl rfl

end Sys2Proof.Machine

/-! PROOFS. Scope: R280 of the frames of every operation (44_display.md R280; O58): no load, display or power command goes out
while a display may still render, within an operation and from one to the next (`SendsTracked`). -/

namespace Sys2Proof.Machine

open Sys2Proof.Safety

/-! ### What a reader of the frames knows before and after an operation -/

/-- With less of a render under way before the frames, no more is under way after them. -/
theorem Renders.of_less {c : Config} {b b' busy : Bool} {fs : List Frame} (h : Renders c b fs b')
    (hless : busy = true → b = true) : Renders c busy fs b' := by
  cases hb : busy with
  | true => exact hless hb ▸ h
  | false =>
    cases b with
    | false => exact h
    | true =>
      intro q
      obtain ⟨a, q', ha, hab⟩ := h q
      obtain ⟨a', ha', hle⟩ := renderAfter_mono ha
      exact ⟨a', q', ha', fun h1 => hab (hle h1)⟩

/-- An operation whose body keeps R280: a reader of its frames finds no command that had to wait, and a render that may be under
way after it is pending, unless it timed out. -/
theorem SendsTracked.waitedFor {body : Op Unit} {s t : State} {busy : Bool} (h : SendsTracked body s)
    (hbusy : busy = true → s.renderPending = true) (ht : runOp body s = .next t) :
    ∃ fs last after asked, EmittedThen s t fs last ∧ GivenUp s.cfg t last ∧
      renderAfter s.cfg (busy, .nothing) fs = some (after, asked) ∧
      (t.res ≠ 1 → after = true → t.renderPending = true) := by
  obtain ⟨fs, last, he, hg, -, hend⟩ := Sends.runs h ht
  obtain ⟨b, hrenders, hpending⟩ : ∃ b, Renders s.cfg s.renderPending fs b ∧
      (t.res ≠ 1 → b = true → t.renderPending = true) := by
    rcases hend with ⟨u, hu, rfl⟩ | ⟨k, e, u, ⟨b, hb, hk⟩, rfl⟩
    · exact ⟨u.renderPending, hu, fun _ => id⟩
    · refine ⟨b, hb, fun hres hafter => ?_⟩
      rw [errorEpilogue_renderPending]
      exact hk (fun heq => hres (by rw [errorEpilogue_res, heq]; rfl)) hafter
  obtain ⟨after, asked, hread, hle⟩ := hrenders.of_less hbusy .nothing
  exact ⟨fs, last, after, asked, he, hg, hread, fun hres h1 => hpending hres (hle h1)⟩

/-! ### The operations -/

theorem loadAdmitPsel_idle_render {m : Mod} {p : ChipFormat} {s t : State} (h : loadAdmitPsel m s = .ok p t) :
    s.renderPending = false := by
  obtain ⟨_, -, h⟩ := (checkMod_checks maskBegin m).passed h
  obtain ⟨_, -, h⟩ := (readPsel_checks m).passed h
  obtain ⟨_, h, -⟩ := loadAdmitState_checks.passed h
  exact loadAdmitState_passed h

section

variable {s : State} (hcs : s.cs = 1) (hc : configLegal s.cfg = true)

include hcs hc

/-! #### The raw operations, which send no command that must wait (R139) -/

theorem wrCmd_tracked (m : Mod) (code : Word) : SendsTracked (do
    rawAdmit m
    refuseTracked code
    txnCommand code) s :=
  SendsTracked.check (rawAdmit_checks m) hcs fun _ _ => SendsTracked.check (refuseTracked_checks code) hcs fun _ h =>
    (txnCommand_calm hcs hc (not_mustWait (refuseTracked_passed h))).tracked

theorem wrData_tracked (m : Mod) (w : Word) : SendsTracked (do
    rawAdmitStream m
    txnWrite [w]) s :=
  SendsTracked.check (checkMod_checks _ m) hcs fun _ _ => (txnWrite_calm hcs hc (fit_one hc w)).tracked

theorem wrMulti_tracked (m : Mod) (ws : List Word) : SendsTracked (do
    rawAdmitStream m
    raiseIf (ws.length = 0) .unsupported 2
    refuseOverBurst ws.length
    txnWrite ws) s := by
  refine SendsTracked.check (checkMod_checks _ m) hcs fun _ _ => SendsTracked.check (raiseIf_checks _ (by decide) _) hcs
    fun _ hne => SendsTracked.check (refuseOverBurst_checks _) hcs fun _ hle => (txnWrite_calm hcs hc fun f hf => ?_).tracked
  rw [List.mem_singleton.1 hf]
  exact ⟨Nat.one_le_iff_ne_zero.2 (raiseIf_passed hne), refuseOverBurst_passed hle⟩

theorem rdData_tracked (m : Mod) : SendsTracked (do
    rawAdmit m
    let ws ← txnRead 1
    update (fun t => { t with rdata := some (ws.headD 0) })) s :=
  SendsTracked.check (rawAdmit_checks m) hcs fun _ _ =>
    (txnRead_calm hcs hc ⟨Nat.le_refl 1, burst_legal hc⟩).tracked.thenSets fun _ _ => ⟨rfl, rfl, rfl, rfl⟩

theorem rdMulti_tracked (m : Mod) (n : Word) : SendsTracked (do
    rawAdmit m
    raiseIf (n = 0) .unsupported 2
    refuseOverBurst n.toNat
    let ws ← txnRead n.toNat
    update (fun t => { t with rbuf := ws })) s := by
  refine SendsTracked.check (rawAdmit_checks m) hcs fun _ _ => SendsTracked.check (raiseIf_checks _ (by decide) _) hcs
    fun _ hne => SendsTracked.check (refuseOverBurst_checks _) hcs fun _ hle =>
      (txnRead_calm hcs hc ⟨?_, refuseOverBurst_passed hle⟩).tracked.thenSets fun _ _ => ⟨rfl, rfl, rfl, rfl⟩
  exact Nat.one_le_iff_ne_zero.2 fun h0 => raiseIf_passed hne (BitVec.eq_of_toNat_eq h0)

theorem wrMultiArg_tracked (m : Mod) (code : Word) (args : List Word) : SendsTracked (do
    rawAdmit m
    refuseTracked code
    refuseOverBurstMulti args.length
    multiArg code args) s :=
  SendsTracked.check (rawAdmit_checks m) hcs fun _ _ => SendsTracked.check (refuseTracked_checks code) hcs fun _ h =>
    SendsTracked.check (refuseOverBurstMulti_checks _) hcs fun _ _ =>
      (multiArg_calm hcs hc (not_mustWait (refuseTracked_passed h))).tracked

theorem rdReg_tracked (m : Mod) (addr : Word) : SendsTracked (do
    rawAdmit m
    let v ← regRead addr
    update (fun t => { t with rdata := some v })) s :=
  SendsTracked.check (rawAdmit_checks m) hcs fun _ _ =>
    (regRead_calm hcs hc addr).tracked.thenSets fun _ _ => ⟨rfl, rfl, rfl, rfl⟩

theorem wrReg_tracked (m : Mod) (addr val : Word) : SendsTracked (do
    rawAdmit m
    regWrite addr val) s :=
  SendsTracked.check (rawAdmit_checks m) hcs fun _ _ => (regWrite_calm hcs hc addr val).tracked

/-! #### INIT -/

omit hc in
/-- The reset pulse ends a render, on the chip and in RENDER_PENDING (R171, R280). -/
theorem resetPulse_tracked : SendsTracked (do resetPulse; clearSession : Op Unit) s :=
  Sends.ok (fs := resetFrames) (pulse_run s) ⟨_, rfl, rfl⟩ (fun f hf => by
    simp only [resetFrames, List.mem_cons, List.not_mem_nil, or_false] at hf
    rcases hf with rfl | rfl | rfl | rfl | rfl | rfl <;> trivial) hcs rfl
    fun _ => ⟨false, .nothing, by simp [renderAfter, resetFrames, renderFrame], id⟩

theorem bringUp_tracked (vcom : Word) (hv : VcomApart s.cfg) : SendsTracked (bringUp vcom) s :=
  SendsTracked.look (readCfg_run s) <| (txnCommand_calm hcs hc (free_codes hc).2.2.1).tracked.bind fun _ _ h1 c1 =>
    (getDeviceInfo_calm h1 (c1 ▸ hc)).tracked.bind fun ws _ h2 c2 =>
      SendsTracked.check (requirePresent_checks ws) h2 fun _ _ =>
        (regWrite_calm h2 (c2 ▸ c1 ▸ hc) _ _).tracked.bind fun _ _ h3 c3 =>
          (vcomReconcile_calm h3 (c3 ▸ c2 ▸ c1 ▸ hc) vcom ((c3.trans (c2.trans c1)).symm ▸ hv)).tracked.bind
            fun _ _ h4 _ => SendsTracked.pure ws h4

theorem initBody_tracked (m : Mod) (vcom : Word) (hv : VcomApart s.cfg) : SendsTracked (do
    checkMod maskNone m
    (do resetPulse; clearSession)
    let ws ← bringUp vcom
    commitSession ws : Op Unit) s :=
  SendsTracked.check (checkMod_checks _ m) hcs fun _ _ => (resetPulse_tracked hcs).bind fun _ _ h1 c1 =>
    (bringUp_tracked h1 (c1 ▸ hc) vcom (c1.symm ▸ hv)).thenSets fun _ _ => ⟨rfl, rfl, rfl, rfl⟩

/-! #### Loads, displays and power commands -/

theorem beginLoad_tracked (m : Mod) (tgt : Addr) : SendsTracked (do
    let p ← loadAdmitPsel m
    beginLoadCore (modEndian m) p (modRot m) tgt) s :=
  SendsTracked.check (loadAdmitPsel_checks m) hcs fun p ha => (beginLoadCore_still hcs hc _ p _ tgt).tracked
    (loadAdmitPsel_idle_render ha)

theorem beginLoadArea_tracked (m : Mod) (tgt : Addr) (x y w h : Word) : SendsTracked (do
    let p ← loadAdmitPsel m
    panelCheck x y w h
    beginLoadAreaCore (modEndian m) p (modRot m) tgt x y w h) s :=
  SendsTracked.check (loadAdmitPsel_checks m) hcs fun p ha => SendsTracked.check (panelCheck_checks x y w h) hcs fun _ _ =>
    (beginLoadAreaCore_still hcs hc _ p _ tgt x y w h).tracked (loadAdmitPsel_idle_render ha)

/-- No render is pending while a load is open, so that its end command need not wait (R302). -/
theorem endLoad_tracked (hapart : ¬ (s.loadOpen = true ∧ s.renderPending = true)) (m : Mod) : SendsTracked (do
    checkMod maskNone m
    requireLoadOpen
    endLoadCore) s :=
  SendsTracked.check (checkMod_checks _ m) hcs fun _ _ => SendsTracked.check requireLoadOpen_checks hcs fun _ ho =>
    (endLoadCore_still hcs hc).tracked (Bool.eq_false_of_not_eq_true fun hp => hapart ⟨requireLoadOpen_passed ho, hp⟩)

theorem loadBody_tracked (d : Depth) (m : Mod) (tgt src : Addr) (stride x y w h : Word) :
    SendsTracked (loadBody d m tgt src stride x y w h) s :=
  SendsTracked.check (loadAdmit_checks _ m) hcs fun _ ha => (loadImage_still _ hcs hc).tracked (loadAdmit_passed ha)

omit hc in
/-- An operation that admits a display, checks its rectangle and displays. -/
theorem display_tracked {mask m : Mod} {x y w h : Word} {display : Op Unit}
    (hd : s.renderPending = false → SendsTracked display s) :
    SendsTracked (do displayAdmit mask m; panelCheck x y w h; display) s :=
  SendsTracked.check (displayAdmit_checks mask m) hcs fun _ ha =>
    SendsTracked.check (panelCheck_checks x y w h) hcs fun _ _ => hd (displayAdmit_passed ha)

theorem waitRenderIdle_tracked (m : Mod) : SendsTracked (do
    checkMod maskNone m
    refuseLoadOpen 3
    waitRender) s :=
  SendsTracked.check (checkMod_checks _ m) hcs fun _ _ => SendsTracked.check (refuseLoadOpen_checks 3) hcs fun _ _ =>
    waitRender_tracked hcs hc

theorem clearAndRefresh_tracked (m : Mod) (adr : Addr) (mode : Word) : SendsTracked (do
    loadAdmit maskNone m
    let d ← readDesc
    let c ← readCfg
    loadImage { d := .d4, e := .little, r := 0, tgt := adr, src := 0, stride := d.panelW.toNat * 4 / 8,
                x := 0, y := 0, w := d.panelW, h := d.panelH, fill := some c.clearFill }
    displayCore 0 0 d.panelW d.panelH mode (some adr)) s :=
  SendsTracked.check (loadAdmit_checks _ m) hcs fun _ ha => SendsTracked.check readDesc_checks hcs fun _ _ =>
    SendsTracked.look (readCfg_run s) <| (loadImage_still _ hcs hc).thenTracked (loadAdmit_passed ha)
      fun _ _ h1 c1 hp => displayCore_tracked h1 (c1 ▸ hc) _ _ _ _ _ _ hp

theorem refreshBody_tracked (d : Depth) (m : Mod) (src : Addr) (x y w h : Word) (adr : Addr) :
    SendsTracked (refreshBody d m src x y w h adr) s := by
  refine SendsTracked.check (loadAdmit_checks _ m) hcs fun _ ha => SendsTracked.check (readRefreshMap_checks d m) hcs
    fun f _ => (loadImage_still _ hcs hc).thenTracked (loadAdmit_passed ha) fun _ t h1 c1 hp => ?_
  have hdisplay : SendsTracked (do
      displayCore x y w h f.mode (some adr)
      if f.wait then waitRender else pure ()) t := by
    refine (displayCore_tracked h1 (c1 ▸ hc) x y w h f.mode (some adr) hp).bind fun _ u h2 c2 => ?_
    cases f.wait with
    | true => exact waitRender_tracked h2 (c2 ▸ c1 ▸ hc)
    | false => exact SendsTracked.pure () h2
  cases d with
  | d1 => exact display1bppSequence_tracked h1 (c1 ▸ hc) x y w h f.mode f.fgbg (some adr) hp
  | d2 | d4 | d8 => exact hdisplay

theorem powerBody_tracked (m : Mod) {code : Config → Word} (hcode : code s.cfg ∈ [s.cfg.cmdSleep, s.cfg.cmdStandby]) :
    SendsTracked (powerBody m code) s :=
  SendsTracked.check (checkMod_checks _ m) hcs fun _ _ => SendsTracked.check (refuseLoadOpen_checks 3) hcs fun _ _ =>
    SendsTracked.check refuseRenderPending_checks hcs fun _ hp => SendsTracked.look (readCfg_run s) <|
      (waitingCode_still (g := fun t => { t with session := .unready }) hcs hc (List.mem_cons_of_mem _ <|
        List.mem_cons_of_mem _ <| List.mem_cons_of_mem _ hcode) fun _ => ⟨rfl, rfl, rfl, rfl⟩).tracked
          (refuseRenderPending_passed hp)

/-- The body of every operation keeps R280. -/
theorem exec_sendsTracked (hv : VcomApart s.cfg) (hapart : ¬ (s.loadOpen = true ∧ s.renderPending = true)) (i : Instr) :
    ∃ body, exec i s = runOp body s ∧ SendsTracked body s := by
  cases i with
  | wrCmd m code => exact ⟨_, rfl, wrCmd_tracked hcs hc m code⟩
  | wrData m w => exact ⟨_, rfl, wrData_tracked hcs hc m w⟩
  | wrMulti m ws => exact ⟨_, rfl, wrMulti_tracked hcs hc m ws⟩
  | rdData m => exact ⟨_, rfl, rdData_tracked hcs hc m⟩
  | rdMulti m n => exact ⟨_, rfl, rdMulti_tracked hcs hc m n⟩
  | wrMultiArg m code args => exact ⟨_, rfl, wrMultiArg_tracked hcs hc m code args⟩
  | rdReg m addr => exact ⟨_, rfl, rdReg_tracked hcs hc m addr⟩
  | wrReg m addr val => exact ⟨_, rfl, wrReg_tracked hcs hc m addr val⟩
  | init m vcom => exact ⟨_, congrFun (execInit_eq m vcom) s, initBody_tracked hcs hc m vcom hv⟩
  | beginLoad m tgt => exact ⟨_, rfl, beginLoad_tracked hcs hc m tgt⟩
  | beginLoadArea m tgt x y w h => exact ⟨_, rfl, beginLoadArea_tracked hcs hc m tgt x y w h⟩
  | endLoad m => exact ⟨_, rfl, endLoad_tracked hcs hc hapart m⟩
  | load1bpp m tgt src stride x y w h => exact ⟨_, rfl, loadBody_tracked hcs hc .d1 m tgt src stride x y w h⟩
  | load2bpp m tgt src stride x y w h => exact ⟨_, rfl, loadBody_tracked hcs hc .d2 m tgt src stride x y w h⟩
  | load4bpp m tgt src stride x y w h => exact ⟨_, rfl, loadBody_tracked hcs hc .d4 m tgt src stride x y w h⟩
  | load8bpp m tgt src stride x y w h => exact ⟨_, rfl, loadBody_tracked hcs hc .d8 m tgt src stride x y w h⟩
  | displayArea m x y w h mode => exact ⟨_, rfl, display_tracked hcs (displayCore_tracked hcs hc x y w h mode none)⟩
  | displayAreaBuf m x y w h mode adr =>
    exact ⟨_, rfl, display_tracked hcs (displayCore_tracked hcs hc x y w h mode (some adr))⟩
  | display1bpp m x y w h mode fgbg adr =>
    exact ⟨_, rfl, display_tracked hcs (display1bppSequence_tracked hcs hc x y w h mode fgbg adr)⟩
  | waitRenderIdle m => exact ⟨_, rfl, waitRenderIdle_tracked hcs hc m⟩
  | clearAndRefresh m adr mode => exact ⟨_, rfl, clearAndRefresh_tracked hcs hc m adr mode⟩
  | refresh1bpp m src x y w h adr => exact ⟨_, rfl, refreshBody_tracked hcs hc .d1 m src x y w h adr⟩
  | refresh2bpp m src x y w h adr => exact ⟨_, rfl, refreshBody_tracked hcs hc .d2 m src x y w h adr⟩
  | refresh4bpp m src x y w h adr => exact ⟨_, rfl, refreshBody_tracked hcs hc .d4 m src x y w h adr⟩
  | refresh8bpp m src x y w h adr => exact ⟨_, rfl, refreshBody_tracked hcs hc .d8 m src x y w h adr⟩
  | sleep m => exact ⟨_, rfl, powerBody_tracked hcs hc m (by simp)⟩
  | standby m => exact ⟨_, rfl, powerBody_tracked hcs hc m (by simp)⟩

end

/-- Settles O58: the frames of every operation keep R280 (`exec_sendsTracked`), read from RENDER_PENDING or from less. -/
theorem rendersAreWaitedFor : Obligations.RendersAreWaitedFor := by
  unfold Obligations.RendersAreWaitedFor
  rintro i s t busy ⟨hcs, -, -, -, hapart, -⟩ hc hv hbusy h
  obtain ⟨body, hbody, htracked⟩ := exec_sendsTracked hcs hc hv hapart i
  exact htracked.waitedFor hbusy (hbody.symm.trans h)

end Sys2Proof.Machine

/-! PROOFS. Scope: how every operation can be abandoned (60_exceptions.md R300 to R305, R310, R313), said once
(`exec_abandons`). A reserved MOD is found first (`exec_reservedMod`), then a misuse by the admission table (`exec_misused`);
an admitted operation makes its checks, takes its allocation draw, and then sends, which only a wait can cut short (`Waits`).
INIT alone sends before its check of the device. -/

namespace Sys2Proof.Machine

open Sys2Proof.Safety

/-! ### Misuse by the admission table -/

section

variable {s : State} {m mask : Mod} {info : Byte}

theorem checkMod_admitted (hm : m &&& mask = 0) : checkMod mask m s = .ok () s := (checkMod_run mask m s).trans (if_pos hm)

theorem eq_zero_of_and_maskNone (h : m &&& maskNone = 0) : m = 0 := (and_maskNone m).symm.trans h

theorem rawAdmit_misused (hm : m &&& maskNone = 0) (h : misuseIn s .outsideLoad = some info) :
    rawAdmit m s = .error (.raise .protocolMisuse info) s := by
  rw [rawAdmit_run, if_pos (eq_zero_of_and_maskNone hm), h, verdict_some]

theorem loadAdmit_misused (hm : m &&& mask = 0) (h : misuseIn s .load = some info) :
    loadAdmit mask m s = .error (.raise .protocolMisuse info) s := by
  rw [loadAdmit_run, if_pos hm, h, verdict_some]

theorem displayAdmit_misused (hm : m &&& mask = 0) (h : misuseIn s .display = some info) :
    displayAdmit mask m s = .error (.raise .protocolMisuse info) s := by
  rw [displayAdmit_run, if_pos hm, h, verdict_some]

/-- PSEL selects a format, and then the state refuses. -/
theorem loadAdmitPsel_misused (hm : m &&& maskBegin = 0) (hp : modPsel m ≠ 0) (h : misuseIn s .load = some info) :
    loadAdmitPsel m s = .error (.raise .protocolMisuse info) s := by
  obtain ⟨p, hp⟩ := Option.isSome_iff_exists.1 (pselFormat_isSome (modPsel m) hp)
  exact (bind_ok (checkMod_admitted hm)).trans <| (bind_ok (readPsel_selects hp)).trans <|
    bind_error ((loadAdmitState_run s).trans (by rw [h, verdict_some]))

theorem requireLoadOpen_misused (h : misuseIn s .endLoad = some info) :
    requireLoadOpen s = .error (.raise .protocolMisuse info) s := by
  unfold requireLoadOpen
  rw [bind_ok (readState_run s), raiseIf_run]
  cases hl : s.loadOpen with
  | true => simp [misuseIn, hl] at h
  | false =>
    rw [if_pos rfl]
    simp only [misuseIn, hl] at h
    cases h
    rfl

/-- SLEEP and STANDBY look for an open load, and then for a pending render. -/
theorem powerBody_misused (hm : m &&& maskNone = 0) (code : Config → Word) (h : misuseIn s .power = some info) :
    powerBody m code s = .error (.raise .protocolMisuse info) s := by
  refine (bind_ok (checkMod_admitted hm)).trans ?_
  unfold misuseIn at h
  cases hl : s.loadOpen with
  | true =>
    rw [hl] at h
    cases h
    exact bind_error (by rw [refuseLoadOpen_run, hl]; rfl)
  | false =>
    refine (bind_ok (refuseLoadOpen_closed hl 3)).trans (bind_error ?_)
    unfold refuseRenderPending
    cases hp : s.renderPending with
    | true =>
      rw [hl, hp] at h
      cases h
      rw [bind_ok (readState_run s), raiseIf_run, if_pos hp]
    | false =>
      rw [hl, hp] at h
      cases h

end

/-- The body of every operation whose MOD is not reserved refuses a misuse before anything else (R302, R305). -/
theorem exec_misused {i : Instr} {s : State} {info : Byte} (hmod : ModOk i) (h : misuseIn s (admission i) = some info) :
    ∃ body, exec i s = runOp body s ∧ body s = .error (.raise .protocolMisuse info) s := by
  obtain ⟨hm, hp⟩ := hmod
  cases i with
  | wrCmd m code => exact ⟨_, rfl, bind_error (rawAdmit_misused hm h)⟩
  | wrData m w => cases h
  | wrMulti m ws => cases h
  | rdData m => exact ⟨_, rfl, bind_error (rawAdmit_misused hm h)⟩
  | rdMulti m n => exact ⟨_, rfl, bind_error (rawAdmit_misused hm h)⟩
  | wrMultiArg m code args => exact ⟨_, rfl, bind_error (rawAdmit_misused hm h)⟩
  | rdReg m addr => exact ⟨_, rfl, bind_error (rawAdmit_misused hm h)⟩
  | wrReg m addr val => exact ⟨_, rfl, bind_error (rawAdmit_misused hm h)⟩
  | init m vcom => cases h
  | beginLoad m tgt => exact ⟨_, rfl, bind_error (loadAdmitPsel_misused hm (hp rfl) h)⟩
  | beginLoadArea m tgt x y w h' => exact ⟨_, rfl, bind_error (loadAdmitPsel_misused hm (hp rfl) h)⟩
  | endLoad m => exact ⟨_, rfl, (bind_ok (checkMod_admitted hm)).trans (bind_error (requireLoadOpen_misused h))⟩
  | load1bpp m tgt src stride x y w h' => exact ⟨_, rfl, bind_error (loadAdmit_misused hm h)⟩
  | load2bpp m tgt src stride x y w h' => exact ⟨_, rfl, bind_error (loadAdmit_misused hm h)⟩
  | load4bpp m tgt src stride x y w h' => exact ⟨_, rfl, bind_error (loadAdmit_misused hm h)⟩
  | load8bpp m tgt src stride x y w h' => exact ⟨_, rfl, bind_error (loadAdmit_misused hm h)⟩
  | displayArea m x y w h' mode => exact ⟨_, rfl, bind_error (displayAdmit_misused hm h)⟩
  | displayAreaBuf m x y w h' mode adr => exact ⟨_, rfl, bind_error (displayAdmit_misused hm h)⟩
  | display1bpp m x y w h' mode fgbg adr => exact ⟨_, rfl, bind_error (displayAdmit_misused hm h)⟩
  | waitRenderIdle m =>
    refine ⟨rawAdmit m >>= fun _ => waitRender, ?_, bind_error (rawAdmit_misused hm h)⟩
    exact runOp_congr (by simp only [rawAdmit, bind_assoc])
  | clearAndRefresh m adr mode => exact ⟨_, rfl, bind_error (loadAdmit_misused hm h)⟩
  | refresh1bpp m src x y w h' adr => exact ⟨_, rfl, bind_error (loadAdmit_misused hm h)⟩
  | refresh2bpp m src x y w h' adr => exact ⟨_, rfl, bind_error (loadAdmit_misused hm h)⟩
  | refresh4bpp m src x y w h' adr => exact ⟨_, rfl, bind_error (loadAdmit_misused hm h)⟩
  | refresh8bpp m src x y w h' adr => exact ⟨_, rfl, bind_error (loadAdmit_misused hm h)⟩
  | sleep m => exact ⟨_, rfl, powerBody_misused hm _ h⟩
  | standby m => exact ⟨_, rfl, powerBody_misused hm _ h⟩

/-! ### Procedures that only a wait can cut short -/

/-- The procedure keeps the configuration, and only a busy-wait or a render poll can cut it short: by a timeout under its
limit or a hang under none (R301, R313). -/
def Waits {α : Type} (m : Op α) (s : State) : Prop :=
  match m s with
  | .ok _ t => t.cfg = s.cfg
  | .error e _ => renderStop s.cfg e

section

variable {α β : Type} {m : Op α} {f : α → Op β} {s : State}

theorem Waits.bind (hm : Waits m s) (hf : ∀ a t, t.cfg = s.cfg → Waits (f a) t) : Waits (m >>= f) s := by
  unfold Waits at hm ⊢
  cases hr : m s with
  | error e t =>
    rw [hr] at hm
    rw [bind_error hr]
    exact hm
  | ok a t =>
    rw [hr] at hm
    have h := hf a t hm
    unfold Waits at h
    rw [bind_ok hr]
    cases hq : f a t with
    | ok b u =>
      rw [hq] at h
      exact h.trans hm
    | error e u =>
      rw [hq] at h
      exact hm ▸ h

/-- What follows a part that only looks at the state. -/
theorem Waits.look {a : α} (hm : m s = .ok a s) (hf : Waits (f a) s) : Waits (m >>= f) s := by
  unfold Waits at hf ⊢
  rw [bind_ok hm]
  exact hf

theorem Waits.pure (a : α) : Waits (pure a : Op α) s := rfl

/-- A change of the state that keeps the configuration. -/
theorem Waits.update {g : State → State} (hg : (g s).cfg = s.cfg) : Waits (update g) s := hg

theorem Acts.waits (h : Acts Wired renderStop m) : Waits m s := by
  unfold Waits
  cases hr : m s with
  | ok a t => exact wired_chain.cfg _ _ (h.ok hr)
  | error e t => exact (h.error hr).2

theorem OnWire.waits (h : OnWire m) : Waits m s := h.acts.waits

end

section

variable {s : State}

theorem setTargetAddr_waits (a : Addr) : Waits (setTargetAddr a) s :=
  Waits.look (readCfg_run s) <| (regWrite_onWire _ _).waits.bind fun _ _ _ => (regWrite_onWire _ _).waits.bind fun _ _ _ =>
    Waits.update rfl

theorem beginLoadCore_waits (e : Endian) (p : ChipFormat) (r : Rotation) (a : Addr) : Waits (beginLoadCore e p r a) s :=
  (setTargetAddr_waits a).bind fun _ t _ => Waits.look (readCfg_run t) <| (multiArg_onWire _ _).waits.bind fun _ _ _ =>
    Waits.update rfl

theorem beginLoadAreaCore_waits (e : Endian) (p : ChipFormat) (r : Rotation) (a : Addr) (x y w h : Word) :
    Waits (beginLoadAreaCore e p r a x y w h) s :=
  (setTargetAddr_waits a).bind fun _ t _ => Waits.look (readCfg_run t) <| (multiArg_onWire _ _).waits.bind fun _ _ _ =>
    Waits.update rfl

theorem endLoadCore_waits : Waits endLoadCore s :=
  Waits.look (readCfg_run s) <| (txnCommand_onWire _).waits.bind fun _ _ _ => Waits.update rfl

theorem displayCore_waits (x y w h mode : Word) (adr : Option Addr) : Waits (displayCore x y w h mode adr) s :=
  (displayCommand_acts x y w h mode adr).onWire.waits.bind fun _ _ _ => Waits.update rfl

theorem waitRender_waits : Waits waitRender s := by
  have h : waitRender = (drawRenderFuel >>= fun fuel => renderPolls fuel 0) >>= fun _ =>
      update (fun s => { s with renderPending := false }) := by
    unfold waitRender
    rw [bind_assoc]
  rw [h]
  exact renderReadings_onWire.waits.bind fun _ _ _ => Waits.update rfl

theorem display1bppSequence_waits (x y w h mode fgbg : Word) (adr : Option Addr) :
    Waits (display1bppSequence x y w h mode fgbg adr) s :=
  mode1On_acts.onWire.waits.bind fun _ _ _ => (setBlend_acts _ _).onWire.waits.bind fun _ _ _ =>
    (displayCore_waits x y w h mode adr).bind fun _ _ _ => waitRender_waits.bind fun _ _ _ => mode1Off_acts.onWire.waits

/-- A burst of words that are in SRC. -/
theorem loadBurst_waits {j : LoadJob} {r0 n : Nat} (b : Nat) (hfit : TelegramFits s j r0 n) :
    Waits (loadBurst j r0 n b) s := by
  have hdelay : Waits (interBurstDelay b) s := by
    refine Waits.look (readCfg_run s) ?_
    by_cases hb : b > 0
    · rw [if_pos hb]
      exact (delay_acts _).onWire.waits
    · rw [if_neg hb]
      exact Waits.pure ()
  refine hdelay.bind fun _ t hcfg => Waits.look (readCfg_run t) ?_
  refine Waits.look (loadWords_run j r0 _ _ t fun q hq hfill => ?_) (txnWrite_onWire _).waits
  rw [hcfg] at hq ⊢
  exact hfit _ (by omega) hfill

theorem loadBursts_waits {j : LoadJob} {r0 n : Nat} : ∀ (count b : Nat) {s : State}, TelegramFits s j r0 n →
    Waits (loadBursts j r0 n count b) s := by
  intro count
  induction count with
  | zero => exact fun _ _ _ => Waits.pure ()
  | succ k ih =>
    exact fun b s hfit => (loadBurst_waits b hfit).bind fun _ t hcfg =>
      ih (b + 1) (by unfold TelegramFits; rwa [hcfg])

theorem loadTelegram_waits {j : LoadJob} (k : Nat) (hfit : SourceFits s j) : Waits (loadTelegram j k) s := by
  refine Waits.look (readCfg_run s) ((beginLoadAreaCore_waits _ _ _ _ _ _ _ _).bind fun _ t hcfg =>
    (loadBursts_waits _ 0 ?_).bind fun _ _ _ => endLoadCore_waits)
  unfold TelegramFits
  rw [hcfg]
  exact hfit.telegram _ _

theorem loadTelegrams_waits {j : LoadJob} : ∀ (count k : Nat) {s : State}, SourceFits s j →
    Waits (loadTelegrams j count k) s := by
  intro count
  induction count with
  | zero => exact fun _ _ _ => Waits.pure ()
  | succ n ih =>
    exact fun k s hfit => (loadTelegram_waits k hfit).bind fun _ t hcfg =>
      ih (k + 1) (by unfold SourceFits; rwa [hcfg])

end

/-! ### What abandons an operation -/

/-- The misuses of R302: by a state column, or else by the count of the last column. -/
def Misused (i : Instr) (s : State) (info : Byte) : Prop :=
  misuseIn s (admission i) = some info ∨ (misuseIn s (admission i) = none ∧ info = 6 ∧ CountTooLong s.cfg i)

/-- How the operation `i`, begun in `s`, may be abandoned, and the state it then leaves to the epilogue: refused in the state
it began in, but for the allocation draw; or cut short by an absent device, by a wait, or for want of a descriptor. -/
inductive Abandoned (i : Instr) (s : State) : Stop → State → Prop where
  | refused {k : ErrKind} {info : Byte} (hk : k ∈ [ErrKind.unsupported, .invalidGeometry, .srcBounds]) :
    Abandoned i s (.raise k info) s
  | misused {info : Byte} (h : Misused i s info) : Abandoned i s (.raise .protocolMisuse info) s
  | noMemory : Abandoned i s (.raise .allocFail 0) (afterAllocDraw s)
  | absent {info : Byte} {t : State} (hi : ∃ m v, i = .init m v) : Abandoned i s (.raise .deviceAbsent info) t
  | waited {e : Stop} {t : State} (h : renderStop s.cfg e) : Abandoned i s e t
  | noDescriptor {t : State} (hready : s.session = .ready) (hdesc : s.desc = none) :
    Abandoned i s (.stuck .noDescriptor) t

/-- A part of the operation `i`, run from the state `s` the operation began in, keeps the configuration or abandons the
operation. -/
def Abandons {α : Type} (i : Instr) (s : State) (m : Op α) : Prop :=
  match m s with
  | .ok _ t => t.cfg = s.cfg
  | .error e t => Abandoned i s e t

section

variable {α β : Type} {i : Instr} {s : State} {m : Op α} {f : α → Op β}

theorem Abandons.of_error {e : Stop} {t : State} (hm : m s = .error e t) (h : Abandoned i s e t) : Abandons i s m := by
  unfold Abandons
  rw [hm]
  exact h

theorem Waits.abandons (h : Waits m s) : Abandons i s m := by
  unfold Waits at h
  unfold Abandons
  cases hr : m s with
  | ok a t =>
    rw [hr] at h
    exact h
  | error e t =>
    rw [hr] at h
    exact .waited h

theorem Abandons.look {a : α} (hm : m s = .ok a s) (hf : Abandons i s (f a)) : Abandons i s (m >>= f) := by
  unfold Abandons at hf ⊢
  rw [bind_ok hm]
  exact hf

/-- What follows a check runs from the same state. -/
theorem Abandons.check (hc : Checks m) (hm : Abandons i s m) (hf : ∀ a, m s = .ok a s → Abandons i s (f a)) :
    Abandons i s (m >>= f) := by
  unfold Abandons at hm
  rcases hc s with ⟨a, h⟩ | ⟨k, info, -, h⟩ | ⟨g, t, h⟩
  · exact Abandons.look h (hf a h)
  · rw [h] at hm
    exact Abandons.of_error (bind_error h) hm
  · rw [h] at hm
    exact Abandons.of_error (bind_error h) hm

/-- What follows a part that may have sent is cut short by a wait only. -/
theorem Abandons.thenWaits (hm : Abandons i s m) (hf : ∀ a t, m s = .ok a t → Waits (f a) t) :
    Abandons i s (m >>= f) := by
  unfold Abandons at hm
  cases hr : m s with
  | error e t =>
    rw [hr] at hm
    exact Abandons.of_error (bind_error hr) hm
  | ok a t =>
    rw [hr] at hm
    have h := hf a t hr
    unfold Waits at h
    unfold Abandons
    rw [bind_ok hr]
    cases hq : f a t with
    | ok b u =>
      rw [hq] at h
      exact h.trans hm
    | error e u =>
      rw [hq] at h
      exact .waited (hm ▸ h)

/-- A part that passes, or abandons the operation by one error. -/
theorem Abandons.of_if {c : Prop} [Decidable c] {e : Stop} {t u : State} {a : α}
    (hm : m s = if c then .error e t else .ok a u) (hcfg : u.cfg = s.cfg) (he : c → Abandoned i s e t) :
    Abandons i s m := by
  unfold Abandons
  rw [hm]
  by_cases hc : c
  · rw [if_pos hc]
    exact he hc
  · rw [if_neg hc]
    exact hcfg

end

/-! ### The checks of an admitted operation -/

section

variable {i : Instr} {s : State}

theorem raiseIf_abandons {c : Prop} [Decidable c] {k : ErrKind} {info : Byte}
    (hk : k ∈ [ErrKind.unsupported, .invalidGeometry, .srcBounds]) : Abandons i s (raiseIf c k info) :=
  Abandons.of_if (raiseIf_run c k info s) rfl fun _ => .refused hk

theorem refuseTracked_abandons (code : Word) : Abandons i s (refuseTracked code) :=
  Abandons.of_if (refuseTracked_run code s) rfl fun _ => .refused (by decide)

/-- A count above the burst limit is a misuse of an operation that no state column refuses (R302). -/
theorem refuseOverBurst_abandons {n : Nat} (hs : misuseIn s (admission i) = none)
    (hn : n > s.cfg.bWords → CountTooLong s.cfg i) : Abandons i s (refuseOverBurst n) :=
  Abandons.of_if (refuseOverBurst_run n s) rfl fun h => .misused (.inr ⟨hs, rfl, hn h⟩)

theorem refuseOverBurstMulti_abandons {n : Nat} (hs : misuseIn s (admission i) = none)
    (hn : s.cfg.argFraming = .multi ∧ n > s.cfg.bWords → CountTooLong s.cfg i) : Abandons i s (refuseOverBurstMulti n) :=
  Abandons.of_if (refuseOverBurstMulti_run n s) rfl fun h => .misused (.inr ⟨hs, rfl, hn h⟩)

theorem readRefreshMap_abandons (d : Depth) (m : Mod) : Abandons i s (readRefreshMap d m) := by
  cases hmap : s.cfg.refreshMap with
  | none => exact Abandons.of_error (readRefreshMap_none hmap d m) (.refused (by decide))
  | some table =>
    unfold Abandons
    rw [readRefreshMap_some hmap d m]

theorem verdict_abandons {m : Op Unit} {o : Option Byte} (h : m s = verdict .invalidGeometry o s) : Abandons i s m := by
  cases o with
  | some info => exact Abandons.of_error h (.refused (by decide))
  | none =>
    unfold Abandons
    rw [h, verdict_none]

theorem readDesc_none (hd : s.desc = none) : readDesc s = .error (.stuck .noDescriptor) s := by
  unfold readDesc
  rw [hd]

theorem readDesc_abandons (hready : s.session = .ready) : Abandons i s readDesc := by
  cases hd : s.desc with
  | none => exact Abandons.of_error (readDesc_none hd) (.noDescriptor hready hd)
  | some d =>
    unfold Abandons
    rw [readDesc_some hd]

theorem panelCheck_abandons (hready : s.session = .ready) (x y w h : Word) : Abandons i s (panelCheck x y w h) := by
  cases hd : s.desc with
  | none => exact Abandons.of_error (bind_error (readDesc_none hd)) (.noDescriptor hready hd)
  | some d => exact verdict_abandons (panelCheck_run x y w h s hd)

theorem loadGeom_abandons (hready : s.session = .ready) (j : LoadJob) : Abandons i s (loadGeom j) := by
  cases hd : s.desc with
  | none => exact Abandons.of_error (bind_error (bind_error (readDesc_none hd))) (.noDescriptor hready hd)
  | some d => exact verdict_abandons (loadGeom_run j s hd)

theorem footprint_abandons (j : LoadJob) : Abandons i s (footprint j) :=
  Abandons.of_if (footprint_run j s) rfl fun _ => .refused (by decide)

theorem requireAlloc_abandons : Abandons i s requireAlloc :=
  Abandons.of_if (requireAlloc_run s) rfl fun _ => .noMemory

/-- A load that passed its checks reads no byte outside SRC, so that only a wait can cut its telegrams short (R226, R305). -/
theorem loadImage_abandons (hready : s.session = .ready) (j : LoadJob) : Abandons i s (loadImage j) := by
  refine Abandons.check (loadGeom_checks j) (loadGeom_abandons hready j) fun _ _ =>
    Abandons.check (footprint_checks j) (footprint_abandons j) fun _ hfoot =>
      requireAlloc_abandons.thenWaits fun _ t halloc => Waits.look (readCfg_run t) (loadTelegrams_waits _ 0 ?_)
  have hcfg : t.cfg = s.cfg := loaded_chain.cfg _ _ (requireAlloc_acts.ok halloc)
  unfold SourceFits
  rw [hcfg]
  exact footprint_passed hfoot

end

/-! ### What the state of an admitted operation is -/

section

variable {s : State}

theorem loadOpen_of_outsideLoad (h : misuseIn s .outsideLoad = none) : s.loadOpen = false := by
  simpa [misuseIn] using h

theorem loadOpen_of_endLoad (h : misuseIn s .endLoad = none) : s.loadOpen = true := by
  simpa [misuseIn] using h

theorem idle_of_power (h : misuseIn s .power = none) : s.loadOpen = false ∧ s.renderPending = false := by
  cases hl : s.loadOpen <;> cases hp : s.renderPending <;> simp [misuseIn, hl, hp] at h ⊢

theorem ready_of_load (h : misuseIn s .load = none) : s.session = .ready := by
  by_contra hready
  simp only [misuseIn, if_pos hready] at h
  split at h <;> cases h

theorem ready_of_display (h : misuseIn s .display = none) : s.session = .ready := by
  by_contra hready
  simp only [misuseIn, if_pos hready] at h
  split at h <;> cases h

end

/-! ### The operations -/

/-- How INIT is abandoned once its MOD is admitted: by a wait, or by an absent device. -/
def initStop (c : Config) (e : Stop) : Prop := renderStop c e ∨ ∃ info, e = .raise .deviceAbsent info

theorem bringUp_stops (vcom : Word) : Acts Wired initStop (bringUp vcom) := by
  have wire : ∀ {α : Type} {m : Op α}, Acts Wired wireStop m → Acts Wired initStop m :=
    fun h => h.onWire.weaken (fun _ _ h => h) (fun _ _ h => .inl h)
  have present : ∀ ws, Acts Wired initStop (requirePresent ws) := fun ws =>
    (Acts.raiseIf wired_chain fun _ => .inr ⟨1, rfl⟩).bind wired_chain fun _ =>
      Acts.raiseIf wired_chain fun _ => .inr ⟨2, rfl⟩
  exact (Acts.readCfg wired_chain).bind wired_chain fun _ => (wire (txnCommand_acts _)).bind wired_chain fun _ =>
    (wire getDeviceInfo_acts).bind wired_chain fun ws => (present ws).bind wired_chain fun _ =>
      (wire (regWrite_acts _ _)).bind wired_chain fun _ => (wire (vcomReconcile_acts vcom)).bind wired_chain fun _ =>
        Acts.pure wired_chain ws

section

variable {s : State}

theorem initBody_abandons (vcom : Word) : Abandons (.init 0 vcom) s (do
    checkMod maskNone 0
    (do resetPulse; clearSession)
    let ws ← bringUp vcom
    commitSession ws) := by
  refine Abandons.look (checkMod_zero maskNone s) ?_
  unfold Abandons
  rw [bind_ok (pulse_run s)]
  cases hr : bringUp vcom s.pulsed with
  | ok ws t =>
    rw [bind_ok hr]
    exact wired_chain.cfg s.pulsed t ((bringUp_stops vcom).ok hr)
  | error e t =>
    rw [bind_error hr]
    rcases ((bringUp_stops vcom).error hr).2 with h | ⟨info, rfl⟩
    · exact .waited h
    · exact .absent ⟨0, vcom, rfl⟩

/-- A display that is admitted checks its rectangle and sends (R261, R262). -/
theorem display_abandons {i : Instr} {mask m : Mod} {x y w h : Word} {display : Op Unit} (hm : m &&& mask = 0)
    (hs : misuseIn s .display = none) (hd : Waits display s) :
    Abandons i s (do displayAdmit mask m; panelCheck x y w h; display) :=
  Abandons.look (displayAdmit_admitted hm hs) <|
    Abandons.check (panelCheck_checks x y w h) (panelCheck_abandons (ready_of_display hs) x y w h) fun _ _ => hd.abandons

theorem loadBody_abandons {i : Instr} (d : Depth) {m : Mod} (tgt src : Addr) (stride x y w h : Word)
    (hm : m &&& maskLoad = 0) (hs : misuseIn s .load = none) : Abandons i s (loadBody d m tgt src stride x y w h) :=
  Abandons.look (loadAdmit_admitted hm hs) (loadImage_abandons (ready_of_load hs) _)

theorem clearAndRefresh_abandons {i : Instr} {m : Mod} (adr : Addr) (mode : Word) (hm : m &&& maskNone = 0)
    (hs : misuseIn s .load = none) : Abandons i s (do
      loadAdmit maskNone m
      let d ← readDesc
      let c ← readCfg
      loadImage (clearJob c d adr)
      displayCore 0 0 d.panelW d.panelH mode (some adr)) :=
  Abandons.look (loadAdmit_admitted hm hs) <|
    Abandons.check readDesc_checks (readDesc_abandons (ready_of_load hs)) fun _ _ => Abandons.look (readCfg_run s) <|
      (loadImage_abandons (ready_of_load hs) _).thenWaits fun _ _ _ => displayCore_waits _ _ _ _ _ _

theorem refreshBody_abandons {i : Instr} (d : Depth) {m : Mod} (src : Addr) (x y w h : Word) (adr : Addr)
    (hm : m &&& maskRefresh = 0) (hs : misuseIn s .load = none) : Abandons i s (refreshBody d m src x y w h adr) := by
  refine Abandons.look (loadAdmit_admitted hm hs) <|
    Abandons.check (readRefreshMap_checks d m) (readRefreshMap_abandons d m) fun f _ =>
      (loadImage_abandons (ready_of_load hs) _).thenWaits fun _ t _ => ?_
  have hdisplay : Waits (do
      displayCore x y w h f.mode (some adr)
      if f.wait then waitRender else pure ()) t := by
    refine (displayCore_waits _ _ _ _ _ _).bind fun _ _ _ => ?_
    cases f.wait with
    | true => exact waitRender_waits
    | false => exact Waits.pure ()
  cases d with
  | d1 => exact display1bppSequence_waits _ _ _ _ _ _ _
  | d2 | d4 | d8 => exact hdisplay

theorem powerBody_abandons {i : Instr} (code : Config → Word) (hs : misuseIn s .power = none) :
    Abandons i s (powerBody 0 code) :=
  Abandons.look (checkMod_zero maskNone s) <| Abandons.look (refuseLoadOpen_closed (idle_of_power hs).1 3) <|
    Abandons.look (refuseRenderPending_idle (idle_of_power hs).2) <| Abandons.look (readCfg_run s) <|
      Waits.abandons <| (txnCommand_onWire _).waits.bind fun _ _ _ => Waits.update rfl

/-- A raw operation outside a load: what follows its admission (R140). -/
theorem rawBody_abandons {i : Instr} {m : Mod} {body : Op Unit} (hm : m &&& maskNone = 0)
    (hs : misuseIn s .outsideLoad = none) (hb : Abandons i s body) : Abandons i s (do rawAdmit m; body) :=
  Abandons.look (eq_zero_of_and_maskNone hm ▸ rawAdmit_outsideLoad (loadOpen_of_outsideLoad hs)) hb

/-- A read: one transaction or more, and then a register. -/
theorem OnWire.abandonsWith {α : Type} {i : Instr} {m : Op α} (h : OnWire m) {g : α → State → State}
    (hg : ∀ a t, (g a t).cfg = t.cfg) : Abandons i s (m >>= fun a => update (g a)) :=
  Waits.abandons (h.waits.bind fun a t _ => Waits.update (hg a t))

end

/-- An operation that MOD and state admit is abandoned by none of its parts but as `Abandoned` says. -/
theorem exec_admitted_abandons {i : Instr} {s : State} (had : Admitted i s) :
    ∃ body, exec i s = runOp body s ∧ Abandons i s body := by
  obtain ⟨⟨hm, hp⟩, hs⟩ := had
  cases i with
  | wrCmd m code =>
    exact ⟨_, rfl, rawBody_abandons hm hs <| Abandons.check (refuseTracked_checks code) (refuseTracked_abandons code)
      fun _ _ => (txnCommand_onWire code).waits.abandons⟩
  | wrData m w =>
    exact ⟨_, rfl, Abandons.look (checkMod_admitted hm) (txnWrite_onWire [w]).waits.abandons⟩
  | wrMulti m ws =>
    exact ⟨_, rfl, Abandons.look (checkMod_admitted hm) <|
      Abandons.check (raiseIf_checks _ (by decide) _) (raiseIf_abandons (by decide)) fun _ _ =>
        Abandons.check (refuseOverBurst_checks _) (refuseOverBurst_abandons hs fun hn => .inl ⟨m, ws, rfl, hn⟩) fun _ _ =>
          (txnWrite_onWire ws).waits.abandons⟩
  | rdData m => exact ⟨_, rfl, rawBody_abandons hm hs <| (txnRead_onWire 1).abandonsWith fun _ _ => rfl⟩
  | rdMulti m n =>
    exact ⟨_, rfl, rawBody_abandons hm hs <|
      Abandons.check (raiseIf_checks _ (by decide) _) (raiseIf_abandons (by decide)) fun _ _ =>
        Abandons.check (refuseOverBurst_checks _) (refuseOverBurst_abandons hs fun hn => .inr (.inl ⟨m, n, rfl, hn⟩))
          fun _ _ => (txnRead_onWire _).abandonsWith fun _ _ => rfl⟩
  | wrMultiArg m code args =>
    exact ⟨_, rfl, rawBody_abandons hm hs <|
      Abandons.check (refuseTracked_checks code) (refuseTracked_abandons code) fun _ _ =>
        Abandons.check (refuseOverBurstMulti_checks _)
          (refuseOverBurstMulti_abandons hs fun hn => .inr (.inr ⟨m, code, args, rfl, hn⟩)) fun _ _ =>
            (multiArg_onWire code args).waits.abandons⟩
  | rdReg m addr => exact ⟨_, rfl, rawBody_abandons hm hs <| (regRead_onWire addr).abandonsWith fun _ _ => rfl⟩
  | wrReg m addr val => exact ⟨_, rfl, rawBody_abandons hm hs (regWrite_onWire addr val).waits.abandons⟩
  | init m vcom =>
    cases eq_zero_of_and_maskNone hm
    exact ⟨_, congrFun (execInit_eq 0 vcom) s, initBody_abandons vcom⟩
  | beginLoad m tgt =>
    obtain ⟨p, hp⟩ := Option.isSome_iff_exists.1 (pselFormat_isSome (modPsel m) (hp rfl))
    exact ⟨_, rfl, Abandons.look (loadAdmitPsel_admitted hm hp hs) (beginLoadCore_waits _ p _ tgt).abandons⟩
  | beginLoadArea m tgt x y w h =>
    obtain ⟨p, hp⟩ := Option.isSome_iff_exists.1 (pselFormat_isSome (modPsel m) (hp rfl))
    exact ⟨_, rfl, Abandons.look (loadAdmitPsel_admitted hm hp hs) <|
      Abandons.check (panelCheck_checks x y w h) (panelCheck_abandons (ready_of_load hs) x y w h) fun _ _ =>
        (beginLoadAreaCore_waits _ p _ tgt x y w h).abandons⟩
  | endLoad m =>
    exact ⟨_, rfl, Abandons.look (checkMod_admitted hm) <|
      Abandons.look (requireLoadOpen_open (loadOpen_of_endLoad hs)) endLoadCore_waits.abandons⟩
  | load1bpp m tgt src stride x y w h => exact ⟨_, rfl, loadBody_abandons .d1 tgt src stride x y w h hm hs⟩
  | load2bpp m tgt src stride x y w h => exact ⟨_, rfl, loadBody_abandons .d2 tgt src stride x y w h hm hs⟩
  | load4bpp m tgt src stride x y w h => exact ⟨_, rfl, loadBody_abandons .d4 tgt src stride x y w h hm hs⟩
  | load8bpp m tgt src stride x y w h => exact ⟨_, rfl, loadBody_abandons .d8 tgt src stride x y w h hm hs⟩
  | displayArea m x y w h mode => exact ⟨_, rfl, display_abandons hm hs (displayCore_waits x y w h mode none)⟩
  | displayAreaBuf m x y w h mode adr =>
    exact ⟨_, rfl, display_abandons hm hs (displayCore_waits x y w h mode (some adr))⟩
  | display1bpp m x y w h mode fgbg adr =>
    exact ⟨_, rfl, display_abandons hm hs (display1bppSequence_waits x y w h mode fgbg adr)⟩
  | waitRenderIdle m =>
    exact ⟨_, rfl, Abandons.look (checkMod_admitted hm) <|
      Abandons.look (refuseLoadOpen_closed (loadOpen_of_outsideLoad hs) 3) waitRender_waits.abandons⟩
  | clearAndRefresh m adr mode => exact ⟨_, rfl, clearAndRefresh_abandons adr mode hm hs⟩
  | refresh1bpp m src x y w h adr => exact ⟨_, rfl, refreshBody_abandons .d1 src x y w h adr hm hs⟩
  | refresh2bpp m src x y w h adr => exact ⟨_, rfl, refreshBody_abandons .d2 src x y w h adr hm hs⟩
  | refresh4bpp m src x y w h adr => exact ⟨_, rfl, refreshBody_abandons .d4 src x y w h adr hm hs⟩
  | refresh8bpp m src x y w h adr => exact ⟨_, rfl, refreshBody_abandons .d8 src x y w h adr hm hs⟩
  | sleep m =>
    cases eq_zero_of_and_maskNone hm
    exact ⟨_, rfl, powerBody_abandons _ hs⟩
  | standby m =>
    cases eq_zero_of_and_maskNone hm
    exact ⟨_, rfl, powerBody_abandons _ hs⟩

/-- Every operation ends, or is abandoned in one of the ways of `Abandoned`: by its MOD, else by the state, else once
admitted. -/
theorem exec_abandons (i : Instr) (s : State) : ∃ body, exec i s = runOp body s ∧ Abandons i s body := by
  by_cases hmod : ModOk i
  · cases hs : misuseIn s (admission i) with
    | none => exact exec_admitted_abandons ⟨hmod, hs⟩
    | some info =>
      obtain ⟨body, hbody, herror⟩ := exec_misused hmod hs
      exact ⟨body, hbody, Abandons.of_error herror (.misused (.inl hs))⟩
  · obtain ⟨body, hbody, herror⟩ := exec_reservedMod hmod s
    exact ⟨body, hbody, Abandons.of_error herror (.refused (by decide))⟩

end Sys2Proof.Machine

/-! PROOFS. Scope: the errors of 60_exceptions.md: the two epilogues (R310, R311; O23, O24), the result codes (R300; O15), the
admission table (R302; O31), and what `Abandoned` leaves of refusals, timeouts and hangs (R305, R301, R313; O25 to O28). -/

namespace Sys2Proof.Machine

open Sys2Proof.Safety

/-! ### The epilogues and the result codes -/

/-- Settles O23: `errorEpilogue_eq`, with the release's event appended where the line was held. -/
theorem errorEpilogueEffect : Obligations.ErrorEpilogueEffect := by
  unfold Obligations.ErrorEpilogueEffect
  intro e info s
  have htrace : s.trace ++ (if s.cs = 0 then [.rel] else []) = if s.cs = 0 then s.trace ++ [.rel] else s.trace := by
    split
    · rfl
    · exact List.append_nil _
  rw [errorEpilogue_eq, htrace]
  rfl

/-- Settles O15: a step ends with the success epilogue, or with an error of R300 (`step_ends`). -/
theorem resultCodes : Obligations.ResultCodes := by
  unfold Obligations.ResultCodes
  intro s t h
  obtain ⟨u, -, rfl | ⟨e, i, hpair, rfl⟩⟩ := step_ends s t h
  · rw [successEpilogue_res, successEpilogue_einfo]
    decide
  · rwa [errorEpilogue_res, errorEpilogue_einfo]

/-- Every operation begun with the select line released ends so (R130, R310). -/
theorem exec_releases {i : Instr} {s t : State} (hcs : s.cs = 1) (h : exec i s = .next t) : t.cs = 1 := by
  by_cases hi : ∃ m v, i = .init m v
  · obtain ⟨m, v, rfl⟩ := hi
    rcases execInit_cases h with ⟨-, rfl⟩ | ⟨u, -, ⟨k, e, rfl⟩ | ⟨ws, -, hrel, rfl⟩⟩
    · exact errorEpilogue_cs _ _ s
    · exact errorEpilogue_cs k e u
    · exact hrel hcs
  · obtain ⟨u, -, ⟨v, -, -, hrel, rfl⟩ | ⟨k, e, -, rfl⟩⟩ := exec_cases (fun m v he => hi ⟨m, v, he⟩) h
    · exact hrel hcs
    · exact errorEpilogue_cs k e u

/-- Settles O24: `runOp` of a body that ends is the success epilogue, and no error has the code 0 (`exec_ends`). -/
theorem successEpilogueEffect : Obligations.SuccessEpilogueEffect := by
  unfold Obligations.SuccessEpilogueEffect
  refine ⟨fun body s u h => runOp_ok h, fun i s t hcs h hres => ?_⟩
  have hrel := exec_releases hcs h
  obtain ⟨u, hu, rfl | ⟨e, info, -, rfl⟩⟩ := exec_ends i s t h
  · exact ⟨rfl, congrArg (· + 1) hu.pc, hu.faults, hrel⟩
  · exact absurd ((errorEpilogue_res e info u).symm.trans hres) (errCode_ne_zero e)

/-! ### Operations that answer, and operations that stop -/

/-- An operation that answers has succeeded, or was abandoned by an error. -/
theorem exec_next {i : Instr} {s t : State} (h : exec i s = .next t) :
    t.res = 0 ∨ ∃ k info u, Abandoned i s (.raise k info) u ∧ t = errorEpilogue k info u := by
  obtain ⟨body, hbody, ha⟩ := exec_abandons i s
  unfold Abandons at ha
  rcases runOp_next (hbody.symm.trans h) with ⟨u, -, rfl⟩ | ⟨k, info, u, hu, rfl⟩
  · exact .inl rfl
  · rw [hu] at ha
    exact .inr ⟨k, info, u, ha, rfl⟩

/-- An operation that answers with the code of an error was abandoned by it. -/
theorem exec_raised {i : Instr} {s t : State} {k : ErrKind} (h : exec i s = .next t) (hres : t.res = errCode k) :
    ∃ u, Abandoned i s (.raise k t.einfo) u ∧ t = errorEpilogue k t.einfo u := by
  rcases exec_next h with hok | ⟨k', info, u, hu, rfl⟩
  · exact absurd (hres.symm.trans hok) (errCode_ne_zero k)
  · rw [errorEpilogue_res] at hres
    cases errCode_injective hres
    rw [errorEpilogue_einfo]
    exact ⟨u, hu, rfl⟩

theorem exec_fault {i : Instr} {s : State} {f : Fault} (h : exec i s = .fault f) : ∃ u, Abandoned i s (.stuck f) u := by
  obtain ⟨body, hbody, ha⟩ := exec_abandons i s
  obtain ⟨u, hu⟩ := runOp_fault (hbody.symm.trans h)
  unfold Abandons at ha
  rw [hu] at ha
  exact ⟨u, ha⟩

theorem runOp_ne_refused (body : Op Unit) (s : State) (r : Refusal) : runOp body s ≠ .refused r := by
  unfold runOp
  split <;> exact nofun

/-! ### Refusals -/

/-- Only a timeout or an absent device is found after the operation has sent; AllocFail has taken its draw (R305). -/
theorem Abandoned.state_of_refusal {i : Instr} {s u : State} {k : ErrKind} {info : Byte}
    (h : Abandoned i s (.raise k info) u) (htimeout : k ≠ .hwTimeout) (habsent : k ≠ .deviceAbsent) :
    u = if errCode k = 3 then afterAllocDraw s else s := by
  cases h with
  | refused hk =>
    have hcode : ∀ k ∈ [ErrKind.unsupported, .invalidGeometry, .srcBounds], errCode k ≠ 3 := by decide
    exact (if_neg (hcode k hk)).symm
  | misused => rfl
  | noMemory => rfl
  | absent => exact absurd rfl habsent
  | waited h => exact absurd (renderStop_raise h) htimeout

/-- Settles O25: a refusal leaves the epilogue the state the operation began in, or that of its allocation draw. -/
theorem refusalsEmitNothing : Obligations.RefusalsEmitNothing := by
  unfold Obligations.RefusalsEmitNothing
  intro i s t hcs h hok htimeout habsent
  rcases exec_next h with hres | ⟨k, info, u, hu, rfl⟩
  · exact absurd hres hok
  · rw [errorEpilogue_res] at htimeout habsent
    have hk : k ≠ .hwTimeout := fun he => htimeout (he ▸ rfl)
    have hstate := hu.state_of_refusal hk fun he => habsent (he ▸ rfl)
    have hline : u.cs = 1 := by
      rw [hstate]
      split <;> exact hcs
    rw [errorEpilogue_res, errorEpilogue_einfo, ← hstate, errorEpilogue_refusedBy k info u hline hk]

/-- A misuse is one of the table's. -/
theorem Abandoned.misuse {i : Instr} {s u : State} {info : Byte} (h : Abandoned i s (.raise .protocolMisuse info) u) :
    Misused i s info := by
  cases h with
  | refused hk => exact absurd hk (by decide)
  | misused h => exact h
  | waited h => cases renderStop_raise h

/-- A body that finds a misuse before it changes anything. -/
theorem exec_protocolMisuse {i : Instr} {body : Op Unit} {s : State} {info : Byte} (hbody : exec i s = runOp body s)
    (h : body s = .error (.raise .protocolMisuse info) s) (hcs : s.cs = 1) : exec i s = .next (refusedBy s 2 info) :=
  hbody.trans (runOp_refusedBy h hcs (by decide))

/-- Settles O31: the state columns by `exec_misused`, each count by its own check, and no other misuse by
`Abandoned.misuse`. -/
theorem admissionTable : Obligations.AdmissionTable := by
  unfold Obligations.AdmissionTable
  refine ⟨fun i s info hcs hmod h => ?_, fun s ws hcs hn => ?_, fun s n hcs hload hn => ?_,
    fun s code args hcs hload hcode hmulti hn => ?_, fun i s t h hres => ?_⟩
  · obtain ⟨body, hbody, herror⟩ := exec_misused hmod h
    exact exec_protocolMisuse hbody herror hcs
  · have hpos : ws.length ≠ 0 := by omega
    exact exec_protocolMisuse (exec_wrMulti_stream ws)
      ((bind_ok (if_neg hpos)).trans (bind_error ((refuseOverBurst_run _ s).trans (if_pos hn)))) hcs
  · have hpos : n ≠ 0 := by
      rintro rfl
      exact Nat.not_lt_zero _ hn
    exact exec_protocolMisuse rfl ((bind_ok (rawAdmit_outsideLoad hload)).trans <|
      (bind_ok (if_neg hpos)).trans (bind_error ((refuseOverBurst_run _ s).trans (if_pos hn)))) hcs
  · exact exec_protocolMisuse rfl ((bind_ok (rawAdmit_outsideLoad hload)).trans <|
      (bind_ok ((refuseTracked_run code s).trans (if_neg hcode))).trans <|
        bind_error ((refuseOverBurstMulti_run _ s).trans (if_pos ⟨hmulti, hn⟩))) hcs
  · obtain ⟨u, hu, -⟩ := exec_raised (k := .protocolMisuse) h hres
    exact hu.misuse

/-! ### Timeouts, absent devices and hangs -/

/-- A timeout is of the limit of the wait that its detail names (R301). -/
theorem Abandoned.timeout_limits {i : Instr} {s u : State} {info : Byte} (h : Abandoned i s (.raise .hwTimeout info) u) :
    (info = 3 → s.cfg.renderPollLimit ≠ none) ∧ (info ≠ 3 → s.cfg.pollLimit ≠ none) := by
  cases h with
  | refused hk => exact absurd hk (by decide)
  | waited h =>
    rcases h with ⟨-, hphase, hlimit⟩ | ⟨-, rfl, hlimit⟩
    · refine ⟨fun h3 => ?_, fun _ => hlimit⟩
      subst h3
      exact absurd hphase (by decide)
    · exact ⟨fun _ => hlimit, fun hne => absurd rfl hne⟩

/-- Only INIT looks for a device (R175). -/
theorem Abandoned.init_of_absent {i : Instr} {s u : State} {info : Byte} (h : Abandoned i s (.raise .deviceAbsent info) u) :
    ∃ m v, i = .init m v := by
  cases h with
  | refused hk => exact absurd hk (by decide)
  | absent hi => exact hi
  | waited h => cases renderStop_raise h

/-- Settles O26: the limits by `Abandoned.timeout_limits`, the session by the error epilogue. -/
theorem timeoutsNeedALimit : Obligations.TimeoutsNeedALimit := by
  unfold Obligations.TimeoutsNeedALimit
  refine fun i s t h => ⟨fun hres => ?_, fun hres => ?_⟩
  · obtain ⟨u, hu, ht⟩ := exec_raised (k := .hwTimeout) h hres
    refine ⟨?_, hu.timeout_limits⟩
    rw [ht, errorEpilogue_session, if_pos rfl]
  · obtain ⟨u, hu, -⟩ := exec_raised (k := .deviceAbsent) h hres
    exact hu.init_of_absent

/-- Settles O27: of the ways of `Abandoned`, only a wait and the want of a descriptor end in a fault. -/
theorem onlyHangsStop : Obligations.OnlyHangsStop := by
  unfold Obligations.OnlyHangsStop
  refine fun i s => ⟨fun r h => ?_, fun f h => ?_⟩
  · obtain ⟨body, hbody, -⟩ := exec_abandons i s
    exact runOp_ne_refused body s r (hbody.symm.trans h)
  · obtain ⟨u, hu⟩ := exec_fault h
    cases hu with
    | waited h =>
      rcases h with hbusy | hrender
      · exact .inl hbusy
      · exact .inr (.inl hrender)
    | noDescriptor hready hdesc => exact .inr (.inr ⟨rfl, hready, hdesc⟩)

/-- Settles O28: by O27 an operation that does not answer is stuck under a limit of none or without a descriptor. -/
theorem boundedPollsComplete : Obligations.BoundedPollsComplete := by
  unfold Obligations.BoundedPollsComplete
  intro i s hpoll hrender hdesc
  obtain ⟨hrefused, hfault⟩ := onlyHangsStop i s
  cases h : exec i s with
  | next t => exact ⟨t, rfl⟩
  | refused r => exact absurd h (hrefused r)
  | fault f =>
    rcases hfault f h with ⟨-, hnone⟩ | ⟨-, hnone⟩ | ⟨-, hready, hnone⟩
    · exact absurd hnone hpoll
    · exact absurd hnone hrender
    · exact absurd hnone (hdesc hready)

end Sys2Proof.Machine

/-! PROOFS. Scope: the block reset and the runs launched from it (70_reset_and_hazards.md R340, R343, R346, R347; O9, O10,
O29). A launched run stays a `BoundedRun` of its requests, and while one of them is left, a `BoundedRun` has a next state. -/

namespace Sys2Proof.Machine

open Sys2Proof.Safety

/-! ### The reset state and launches from it -/

/-- The model's reset state is itself a launch, of REFCFG and no program. -/
theorem reset_eq_launch : State.reset = State.launch refConfig [] [] State.reset.chip := rfl

/-- Settles O9: a launch writes only the configuration and the inputs (R343), and the reset state is one
(`reset_eq_launch`). -/
theorem blockReset : Obligations.BlockReset := by
  unfold Obligations.BlockReset
  refine ⟨fun cfg prog src chip => ?_, refConfig, [], [], State.reset.chip, reset_eq_launch⟩
  exact ⟨rfl, rfl, rfl, rfl, rfl, rfl, rfl, rfl, rfl, rfl, rfl, rfl, rfl, rfl, rfl⟩

/-- Every launch whose SRC is in its canonical form meets the invariant: the session has neither begun nor left a
descriptor, the mirrors are clear and no result is recorded. -/
theorem launch_inv (cfg : Config) (prog : List Word) {src : Memory} (chip : Oracle) (hsrc : src.wf = true) :
    Inv (State.launch cfg prog src chip) := by
  have hresults : ResultsOk (State.launch cfg prog src chip) :=
    ⟨fun _ => rfl, Nat.zero_le 7, fun hne => absurd rfl hne, BitVec.getLsbD_zero⟩
  exact ⟨rfl, rfl, nofun, nofun, nofun, hresults, hsrc⟩

/-- Settles O10: the reset state is a launch with an empty SRC. -/
theorem resetMeetsInvariant : Obligations.ResetMeetsInvariant := by
  unfold Obligations.ResetMeetsInvariant
  rw [reset_eq_launch]
  exact launch_inv refConfig [] State.reset.chip rfl

/-! ### The inputs, from step to step -/

theorem sameInputs_refl (s : State) : SameInputs s s := ⟨rfl, rfl, fun _ => rfl⟩

theorem sameInputs_trans {s t u : State} (hst : SameInputs s t) (htu : SameInputs t u) : SameInputs s u := by
  obtain ⟨hcfg, hprog, hsrc⟩ := hst
  obtain ⟨hcfg', hprog', hsrc'⟩ := htu
  exact ⟨hcfg'.trans hcfg, hprog'.trans hprog, fun a => (hsrc' a).trans (hsrc a)⟩

/-! ### Runs with both polls bounded -/

/-- A state of a launched run of the requests `rs`: the premises of the launch (R343), both polls bounded (R313), and the
invariant. -/
structure BoundedRun (rs : List Request) (s : State) : Prop where
  legal : configLegal s.cfg = true
  decodes : decodeProgram s.prog = .ok rs
  busyBounded : s.cfg.pollLimit ≠ none
  renderBounded : s.cfg.renderPollLimit ≠ none
  inv : Inv s

section

variable {rs : List Request} {s t : State}

/-- The premises are of registers that no operation writes, and every step keeps the invariant. -/
theorem BoundedRun.keeps (hs : BoundedRun rs s) (h : step s = .next t) : BoundedRun rs t := by
  obtain ⟨hcfg, hprog, -⟩ := inputsAreNeverWritten s t h
  obtain ⟨hlegal, hdecodes, hbusy, hrender, hinv⟩ := hs
  refine ⟨?_, hprog ▸ hdecodes, ?_, ?_, stepKeepsInvariant s t hinv h⟩ <;> rw [hcfg] <;> assumption

/-- A request that is left is run and answers: an operation by O28, its session having a descriptor when it is ready; a
reserved request with its refusal (R96). -/
theorem BoundedRun.answers (hs : BoundedRun rs s) (hpc : s.pc < rs.length) : ∃ t, step s = .next t := by
  obtain ⟨-, -, hdesc, -⟩ := hs.inv
  have hfetch : fetch s = .ok rs[s.pc] := fetch_of_decode hs.legal hs.decodes (List.getElem?_eq_getElem hpc)
  cases hr : rs[s.pc] with
  | op i =>
    rw [step_of_fetch_op (hr ▸ hfetch)]
    exact boundedPollsComplete i s hs.busyBounded hs.renderBounded hdesc
  | reserved w =>
    rw [step_of_fetch_reserved (hr ▸ hfetch)]
    exact ⟨_, runOp_raise (raise_run .unsupported 1 s)⟩

/-- Past the last request the step is refused (log 15). -/
theorem BoundedRun.ended (hs : BoundedRun rs s) (hpc : rs.length ≤ s.pc) : step s = .refused .endOfRun :=
  step_of_fetch_error (fetch_past_end hs.legal hs.decodes hpc)

theorem observe_succ (k : Nat) (h : step s = .next t) :
    observe (k + 1) s = ((t.res, t.einfo) :: (observe k t).1, (observe k t).2) := by
  simp only [observe, h]

end

/-- Any number of the requests that are left are run, one result and one step of `pc` for each (R346, R347). -/
theorem BoundedRun.observes {rs : List Request} (k : Nat) {s : State} (hs : BoundedRun rs s) (hk : s.pc + k ≤ rs.length) :
    (observe k s).1.length = k ∧ (observe k s).2.pc = s.pc + k ∧ BoundedRun rs (observe k s).2 ∧
      SameInputs s (observe k s).2 := by
  induction k generalizing s with
  | zero => exact ⟨rfl, rfl, hs, sameInputs_refl s⟩
  | succ k ih =>
    obtain ⟨t, ht⟩ := hs.answers (by omega)
    have hpc : t.pc = s.pc + 1 := pcAdvancesByOne s t ht
    obtain ⟨hlength, hend, hrun, hinputs⟩ := ih (hs.keeps ht) (by omega)
    rw [observe_succ k ht]
    exact ⟨congrArg (· + 1) hlength, by dsimp only; omega, hrun, sameInputs_trans (inputsAreNeverWritten s t ht) hinputs⟩

/-- Settles O29: a launch is a `BoundedRun` with all its requests left; `BoundedRun.observes` runs them, and
`BoundedRun.ended` refuses the next step. -/
theorem boundedRunsEnd : Obligations.BoundedRunsEnd := by
  unfold Obligations.BoundedRunsEnd
  intro cfg prog src chip rs hlegal hdecodes hsrc hbusy hrender
  have hlaunch : BoundedRun rs (State.launch cfg prog src chip) :=
    ⟨hlegal, hdecodes, hbusy, hrender, launch_inv cfg prog chip hsrc⟩
  have hleft : (State.launch cfg prog src chip).pc + rs.length = rs.length := Nat.zero_add _
  obtain ⟨hlength, hpc, hrun, hinputs⟩ := hlaunch.observes rs.length hleft.le
  have hend := hpc.trans hleft
  exact ⟨hlength, hend, hrun.ended hend.ge, hinputs⟩

end Sys2Proof.Machine
